-- ==== Sys2Proof/Word.lean ====
section
/-! DEFINITION. The word types of the machine (R2, R3): bit 0 is the least significant bit, and bytes are little-endian. -/

namespace Sys2Proof

/-- One byte of memory. -/
abbrev Byte := BitVec 8
/-- A 32-bit register or the data of a token (R55, R80). -/
abbrev Word := BitVec 32
/-- A 64-bit value: a register pair, an address, an instruction word. -/
abbrev DWord := BitVec 64
/-- One bit for each of the 64 lanes of a group (R63). -/
abbrev LaneMask := BitVec 64

end Sys2Proof
end

