-- ==== Sys2Proof/Syntax.lean ====
section
/-! DEFINITION. The instructions and the other steps of the machine: one constructor for each row of spec/opcode_table.json.
The operand structures are the formats of "Instruction formats and the opcode map" (R318 to R330), field by field. -/

namespace Sys2Proof

/-- The guard fields pg and pn that every native format shares (R17, R318). -/
structure Guard where
  pg : BitVec 7
  pn : Bool
deriving DecidableEq, Repr

/-- The low 24 bits of formats A and I: b, c and ctl when I = 0, imm24 when I = 1 (R318, R320). -/
inductive ATail where
  | reg (b c ctl : BitVec 8)
  | imm (v : BitVec 24)
deriving DecidableEq, Repr

/-- Formats A and I. -/
structure AWord where
  ty : BitVec 3
  sat : Bool
  var : BitVec 3
  g : Guard
  d : BitVec 8
  a : BitVec 8
  tail : ATail
deriving DecidableEq, Repr

/-- Formats M and MA (R323); in MA the low 16 bits are aop, zero and data (R325). -/
structure MWord where
  width : BitVec 3
  order : BitVec 2
  scope : BitVec 3
  g : Guard
  d : BitVec 8
  base : BitVec 8
  index : BitVec 8
  imm : BitVec 16
deriving DecidableEq, Repr

/-- Format B (R326). -/
structure BWord where
  fn : BitVec 8
  g : Guard
  aux : BitVec 8
  disp : BitVec 32
deriving DecidableEq, Repr

/-- Format P (R327). -/
structure PWord where
  g : Guard
  pd : BitVec 7
  pa : BitVec 7
  na : Bool
  pb : BitVec 7
  nb : Bool
deriving DecidableEq, Repr

/-- Format X (R328). -/
structure XWord where
  fsel : Bool
  acq : Bool
  rel : Bool
  scope : BitVec 3
  g : Guard
  r1 : BitVec 8
  r2 : BitVec 8
  r3 : BitVec 8
  d : BitVec 8
  variant : BitVec 8
deriving DecidableEq, Repr

/-- Format H, the clause header (R329). -/
structure HWord where
  wait : BitVec 12
  flagA : BitVec 4
  flagB : BitVec 4
  count : BitVec 4
deriving DecidableEq, Repr

/-- Format S: the control word after its op, and the operand word (R318, R330). -/
structure SWord where
  care : BitVec 8
  value : BitVec 8
  ready : BitVec 4
  space : BitVec 4
  tagen : Bool
  tagInput : BitVec 2
  tagVal : BitVec 2
  deq : BitVec 4
  srcA : BitVec 4
  srcB : BitVec 4
  out : BitVec 4
  ldest : BitVec 3
  lwe : Bool
  pbit : BitVec 3
  pkind : BitVec 2
  otag : BitVec 2
  fn : BitVec 7
  imm : BitVec 24
deriving DecidableEq, Repr

/-- The word of an op that the map lists in T, V and S form (R332): a native word of format A or I, or a spatial slot. -/
inductive Alu where
  | native (w : AWord)
  | slot (w : SWord)
deriving DecidableEq, Repr

/-- A group of a team, by the team's key in the state and the group's number in the team. -/
structure GroupRef where
  team : Nat
  grp : Nat
deriving DecidableEq, Repr

/-- What a host write of a register reaches (R304): a register that has no step of its own, by the block that holds it, or a 64-bit word at an offset
of BAR0 or of a kick page (R262, R303), whose step is then taken. record: the host installs a signed configuration record into the flash (R317). -/
inductive CtlReg where
  | nrb | nrr
  | qbase (q : Nat) | qerra (q : Nat) | qcfg (q : Nat)
  | ttb (x : Nat) | csc (x : Nat) | txc (x : Nat) | compat (x : Nat)
  | csa (x : Nat) | trb (x : Nat) | dbgc (x : Nat)
  | dtgt (x : Nat) | dsel (x : Nat) | dadr (x : Nat) | ddat (x : Nat)
  | swc (c : Nat) (r : Nat)
  | nonce (k : Nat) | attestAddr
  | upload (off : Nat)
  | record (bs : List (BitVec 8))
  | unlisted
  | bar (off : Nat)
  | kickPage (page off : Nat)
deriving DecidableEq, Repr

/-- What an uncorrectable error is found in (R215). -/
inductive EccPlace where
  | groupRead (g : GroupRef) (lane : Nat) (addr : BitVec 64)
  | engineRead (launch : Nat)
  | portRead (team port place : Nat)
  | shadowLine (launch : Nat)
  | writeBack (line : Nat)
deriving DecidableEq, Repr

/-- What the host accesses: an offset of the first tier's CXL.mem range, a word of its own memory by its physical address, a word of BAR0, or one
of a kick page (R303, R304). -/
inductive HostAddr where
  | mem (off : Nat)
  | own (pa : Nat)
  | bar (off : Nat)
  | kickPage (page off : Nat)
deriving DecidableEq, Repr

/-- What happens to the word of a converter node (R96): it takes the word that was sent to it, or a partial reconfiguration sends it an edge
node part. -/
inductive ConvChange where
  | take (node : Nat)
  | part (node : Nat) (word : BitVec 96)
deriving DecidableEq, Repr

/-- The number of the converter node. -/
def ConvChange.node : ConvChange → Nat
  | .take k | .part k _ => k

/-- What happens at attestation (R315): the host writes a request, or the report that it asked for is written. -/
inductive Attestation where
  | request (v : BitVec 64)
  | report
deriving DecidableEq, Repr

/-- An access that a peer makes to this module's first tier over the Dravja link (R308), or a write of its own memory, which other modules reach
(R307). -/
inductive PeerOp where
  | read (pa : Nat)
  | write (pa : Nat) (data : BitVec 64)
  | atomAdd (pa : Nat) (data : BitVec 64)
  | own (pa : Nat) (data : BitVec 64)
deriving DecidableEq, Repr

/-- A port that fails (R213, R307). -/
inductive PortRef where
  | secondTier (port : Nat)
  | link (port : Nat)
deriving DecidableEq, Repr

/-- What waits for credits of the power bucket (R281). -/
inductive Charged where
  | group (g : GroupRef)
  | port (team : Nat) (port : Nat)
  | tile (core : Nat) (tile : Nat)
deriving DecidableEq, Repr

/-- One constructor for each row of the table: native instructions, spatial nodes, and the steps of the hardware and the host. -/
inductive Instr where
  -- integer and logic operations
  | abs (w : Alu)
  | accalloc (w : XWord)
  | accgrow (w : XWord)
  | accfree (w : XWord)
  | accld (w : XWord)
  | accst (w : XWord)
  | add (w : Alu)
  | addc (w : Alu)
  | and (w : Alu)
  | andn (w : Alu)
  | arrive (w : MWord)
  | atn (w : SWord)
  | atom (w : MWord)
  | atoms (w : MWord)
  | barinit (w : MWord)
  | bcast (w : AWord)
  | bfi (w : Alu)
  | bfx (w : Alu)
  | bkpt
  | br (w : BWord)
  | brev (w : Alu)
  | brx (w : BWord)
  | bsync
  | btok (w : SWord)
  | btop (w : XWord)
  | call (w : BWord)
  | calln (w : SWord)
  | cas (w : MWord)
  | cass (w : MWord)
  | clause (w : HWord)
  | clz (w : Alu)
  | cmp (w : Alu)
  | cnt (w : SWord)
  | coll (w : XWord)
  | conv (w : SWord)
  | copy (w : XWord)
  | cvt (w : Alu)
  | cwait (w : MWord)
  | cwaitPoll (g : GroupRef) (lane : Nat)
  | divi (w : AWord)
  | dot2 (w : Alu)
  | dot4 (w : Alu)
  | dot8 (w : Alu)
  | emit (w : SWord)
  | eqp (id : BitVec 12)
  | eqpn (w : SWord)
  | eret
  | exit (w : BWord)
  | fadd (w : Alu)
  | fbar
  | fclass (w : Alu)
  | fcmp (w : Alu)
  | fcos (w : Alu)
  | fdiv (w : AWord)
  | fence (w : MWord)
  | fexp2 (w : Alu)
  | ffma (w : Alu)
  | flog2 (w : Alu)
  | fmax (w : Alu)
  | fmin (w : Alu)
  | fmul (w : Alu)
  | frcp (w : Alu)
  | frnd (w : Alu)
  | frsq (w : Alu)
  | fscale (w : Alu)
  | fsin (w : Alu)
  | fsqrt (w : Alu)
  | fsub (w : Alu)
  | ftanh (w : Alu)
  | gather (w : XWord)
  | halt
  | hop (g : Guard) (target : BitVec 2)
  | icinv
  | isect (w : SWord)
  | launch (w : XWord)
  | ld (w : MWord)
  | lds (w : MWord)
  | ldv (w : MWord)
  | ldbt (w : MWord)
  | ldc (w : MWord)
  | ldn (w : SWord)
  | lea (w : Alu)
  | loop (w : BWord)
  | mad (w : Alu)
  | max (w : Alu)
  | min (w : Alu)
  | merge (w : SWord)
  | mfsr (w : AWord)
  | mma (w : XWord)
  | mov (w : Alu)
  | movh (w : AWord)
  | movi (w : AWord)
  | mport (w : SWord)
  | mtsr (w : AWord)
  | mul (w : Alu)
  | mulh (w : Alu)
  | next (w : SWord)
  | nop
  | not (w : Alu)
  | or (w : Alu)
  | popc (w : Alu)
  | pack (w : Alu)
  | pand (w : PWord)
  | por (w : PWord)
  | pxor (w : PWord)
  | pnot (w : PWord)
  | pmov (w : PWord)
  | pent (w : SWord)
  | pexit (w : SWord)
  | prf (w : MWord)
  | query (w : XWord)
  | red (w : AWord)
  | remi (w : AWord)
  | ret (w : BWord)
  | retn (w : SWord)
  | rot (w : Alu)
  | sar (w : Alu)
  | shl (w : Alu)
  | shr (w : Alu)
  | scan (w : AWord)
  | sel (w : Alu)
  | serl
  | sere
  | shfl (w : AWord)
  | sink (w : SWord)
  | st (w : MWord)
  | sts (w : MWord)
  | stv (w : MWord)
  | stbt (w : MWord)
  | steer (w : SWord)
  | stn (w : SWord)
  | sub (w : Alu)
  | subb (w : Alu)
  | swait (w : SWord)
  | tlbinv (w : XWord)
  | trap (g : Guard) (imm : BitVec 24)
  | unpack (w : Alu)
  | vote (w : AWord)
  | wait (w : MWord)
  | waitPoll (g : GroupRef) (lane : Nat)
  | waitf (w : XWord)
  | xlat (w : SWord)
  | xor (w : Alu)
  | yield (w : BWord)
  -- steps of the hardware
  | loadCompletion (g : GroupRef) (idx : Nat)
  | instructionFetchComplete (g : GroupRef) (path : Nat)
  | starvationBoost (g : GroupRef)
  | teamPlacement (grid : Nat)
  | gangAdmission (grid : Nat)
  | teamRetire (team : Nat)
  | callistoSample (core : Nat)
  | sEntry (team : Nat)
  | hopTimeout (team : Nat)
  | sRollback (team : Nat)
  | regionConfigure (team : Nat)
  | tokenTransfer (team : Nat) (col row entry : Nat)
  | streamPortRead (team : Nat) (port : Nat)
  | streamPortWrite (team : Nat) (port : Nat)
  | memoryChainRequest (team : Nat) (chain : Nat)
  | memoryTileAccess (core : Nat) (tile : Nat)
  | starvationWatchEvent (team : Nat) (col row slot : Nat)
  | converterReconfigure (team : Nat) (change : ConvChange)
  | planeReload (team : Nat)
  | nextLoad (team : Nat)
  | freezeWave (team : Nat)
  | mmaExecute (core : Nat)
  | mmaCompletion (core : Nat)
  | accCopyCompletion (core : Nat)
  | copyCompletion (core : Nat) (idx : Nat)
  | gatherCompletion (core : Nat) (idx : Nat)
  | queryAnswer (idx : Nat)
  | collCompletion (idx : Nat) (others : List (List (BitVec 8)))
  | accfreeUnbind (g : GroupRef)
  | shootdownComplete (idx : Nat)
  | blockTableSweep (ctx : Nat) (desc : BitVec 64)
  | demotionBegin (ctx : Nat) (desc : BitVec 64) (entry : Nat) (dblk : BitVec 36) (dtier : BitVec 2)
  | demotionSwap (idx : Nat)
  | eccCorrectable (core : Nat)
  | eccUncorrectable (p : EccPlace)
  | linkCrcRetry (link : Nat)
  | portFailure (p : PortRef)
  | conflictAbort (launch : Nat)
  | launchReplay (launch : Nat)
  | launchCommit (launch : Nat)
  | shadowWriteback (line : Nat)
  | shadowEvict (launch : Nat) (line : Nat)
  | shadowStoreResume (g : GroupRef)
  | kick (q : Nat) (k : BitVec 64)
  | qrdWrite (q : Nat) (v : BitVec 64)
  | queueEnable (q : Nat) (v : BitVec 64)
  | queueErrorClear (q : Nat) (v : BitVec 64)
  | pendingListJoin (q : Nat)
  | packetDraw (core : Nat)
  | launchPacket (core : Nat)
  | barrierPacket (core : Nat)
  | signalPacket (core : Nat)
  | copyPacket (core : Nat)
  | btopPacket (core : Nat)
  | nopPacket (core : Nat)
  | powerChargeResume (c : Charged)
  | powerControllerAdjust (rate : BitVec 11)
  | pwrWrite (core : Nat) (v : BitVec 64)
  | coreClockGate (core : Nat)
  | coreWake (core : Nat)
  | trapDelivery (g : GroupRef)
  | groupResume (g : GroupRef)
  | trrWrite (ctx : Nat) (v : BitVec 64)
  | preqDrain (ctx : Nat) (v : Option (BitVec 64))
  | drainLimitExpiry (ctx : Nat)
  | preqSave (ctx : Nat) (v : Option (BitVec 64))
  | preqKill (ctx : Nat) (v : BitVec 64)
  | preqRestore (ctx : Nat) (v : Option (BitVec 64))
  | bpWrite (ctx : Nat) (n : Nat) (v : BitVec 64)
  | debugRead (ctx : Nat)
  | debugWrite (ctx : Nat)
  | debugResume (ctx : Nat)
  | debugSingleStep (ctx : Nat)
  | rucWrite (ctx : Nat) (v : BitVec 64)
  | hostMemoryWrite (a : HostAddr) (data : BitVec 64)
  | hostMemoryRead (a : HostAddr)
  | peerAccess (op : PeerOp)
  | attestationRequest (a : Attestation)
  | warmReset (v : BitVec 64)
  | powerUp
  | coreStartStep
  | agentEventEntry (core : Nat)
  | registerWrite (r : CtlReg) (v : BitVec 64)
  | storeAcknowledge (g : GroupRef) (idx : Nat)
  | creditRefill (core : Nat)
  | copyOnWriteComplete (g : GroupRef)
  | unresolvedFaultAbort (g : GroupRef)
deriving DecidableEq, Repr

end Sys2Proof
end

