-- ==== Sys2Proof/Machine/Check.lean ====
section
/-! DEFINITION. The checks that decide whether a word is an instruction (R319 to R333): for every constructor, each rule that its
fields must keep. A native word that fails one raises ILLEGAL, a configuration word CONFIG. -/

namespace Sys2Proof

/-- Why a word is not an instruction, by the rule it breaks. -/
inductive DecodeError where
  /-- The op value is unassigned (R332). -/
  | unassignedOp
  /-- An S-only op in a native stream, or a converter's word in a slot (R333, R371). -/
  | slotOnly
  /-- A configuration slot whose op's Forms column lacks S (R78). -/
  | nativeOnly
  /-- A field that the op does not use is not zero, or a reserved bit is set (R318). -/
  | unusedField
  /-- A reserved or refused type code (R321). -/
  | typeCode
  /-- A reserved variant code (R322). -/
  | variantCode
  /-- sat on an op without sat (R322). -/
  | satBit
  /-- I = 1 on an op without an I form, or I = 0 on an I-only op (R320). -/
  | immediateForm
  /-- An immediate that its type cannot hold (R320). -/
  | immediateValue
  /-- A negation or absolute-value bit where it is not honoured (R319). -/
  | modifierBit
  /-- A scalar bit where the op reads no register or allows none (R319). -/
  | scalarBit
  /-- A register number outside its field's rule (R333). -/
  | registerNumber
  /-- A reserved or refused width code (R324). -/
  | widthCode
  /-- A reserved or refused order code (R219, R324). -/
  | orderCode
  /-- A reserved scope, or a scope without an order (R217, R219, R328). -/
  | scopeCode
  /-- A reserved aop (R325). -/
  | aopCode
  /-- A reserved ldv or stv mode (R408). -/
  | modeCode
  /-- A reserved or refused format code (R160). -/
  | formatCode
  /-- A position or element index outside its word (R425, R456). -/
  | position
  /-- A flag outside f0 to f11 (R329, R459). -/
  | flagNumber
  /-- A clause count of 0 (R329). -/
  | clauseCount
  /-- A frame size that is not a multiple of 8 from 8 to 248 (R57). -/
  | frameSize
  /-- A special register number above 16 (R331). -/
  | specialNumber
  /-- A class or control byte of red or scan outside its rule (R432, R438). -/
  | classByte
  /-- A slot's source, trigger or output outside R78. -/
  | slotMask
  /-- A node's words outside its fixed arrangement. -/
  | arrangement
deriving DecidableEq, Repr

/-- The error, unless the condition holds. -/
def need (b : Bool) (e : DecodeError) : Option DecodeError := if b then none else some e

/-- The first error of a list of checks. -/
def firstError : List (Option DecodeError) → Option DecodeError
  | [] => none
  | none :: r => firstError r
  | some e :: _ => some e

/-- An even register number. -/
def evenReg (r : BitVec 8) : Bool := r.toNat % 2 == 0

/-- An s-register number. -/
def isSReg (r : BitVec 8) : Bool := decide (r.toNat < 64)

-- ## Register formats A and I (R319 to R322)

/-- How an op reads its type field (R321). -/
inductive TypeClass where
  | int | wide | float | floatScalar | codes | dot (n : Nat)
deriving DecidableEq, Repr

/-- The classes of the variant field (R322). -/
inductive VariantClass where
  | rounding | condition | none
deriving DecidableEq, Repr

/-- What the c field of an op holds. -/
inductive ThirdRole where
  | none | value | carry | predicate | codes
deriving DecidableEq, Repr

/-- The row of the opcode map for an op of formats A and I (R332). -/
structure AluRow where
  type : TypeClass
  variant : VariantClass
  imm : Bool
  sat : Bool
  modA : Bool
  modB : Bool
  readsB : Bool
  third : ThirdRole
  toPred : Bool
deriving DecidableEq, Repr

/-- Integer rows: reads a alone, a and b. -/
def AluRow.int1 : AluRow :=
  { type := .int, variant := .none, imm := false, sat := false, modA := false, modB := false, readsB := false, third := .none,
    toPred := false }
def AluRow.int2 : AluRow := { AluRow.int1 with readsB := true, imm := true }
/-- Floating rows: reads a alone, a and b. -/
def AluRow.float1 : AluRow :=
  { type := .float, variant := .rounding, imm := false, sat := true, modA := true, modB := false, readsB := false,
    third := .none, toPred := false }
def AluRow.float2 : AluRow := { AluRow.float1 with readsB := true, imm := true, modB := true }
/-- The dot products (R381). -/
def AluRow.dot (n : Nat) : AluRow :=
  { type := .dot n, variant := .rounding, imm := false, sat := true, modA := false, modB := false, readsB := true,
    third := .value, toPred := false }
/-- The conversions (R375). -/
def AluRow.conv : AluRow :=
  { type := .codes, variant := .rounding, imm := false, sat := true, modA := false, modB := false, readsB := false,
    third := .codes, toPred := false }

/-- The opcode map's row for each op of formats A and I that R340, R377, R375 and R381 describe, with its word. -/
def Instr.aluRow : Instr → Option (AluRow × Alu)
  | .add w | .sub w | .mul w => some ({ AluRow.int2 with sat := true }, w)
  | .addc w | .subb w => some ({ AluRow.int2 with imm := false, third := .carry }, w)
  | .mulh w | .min w | .max w | .and w | .or w | .xor w | .andn w | .shl w | .shr w | .sar w | .rot w | .bfx w =>
    some (AluRow.int2, w)
  | .mad w => some ({ AluRow.int2 with imm := false, sat := true, third := .value }, w)
  | .bfi w => some ({ AluRow.int2 with imm := false, third := .value }, w)
  | .sel w => some ({ AluRow.int2 with imm := false, third := .predicate }, w)
  | .divi w => some ({ AluRow.int2 with sat := true }, .native w)
  | .remi w => some (AluRow.int2, .native w)
  | .abs w => some ({ AluRow.int1 with sat := true }, w)
  | .not w | .clz w | .popc w | .brev w => some (AluRow.int1, w)
  | .cmp w => some ({ AluRow.int2 with variant := .condition, toPred := true }, w)
  | .lea w => some ({ AluRow.int2 with type := .wide }, w)
  | .mov w => some ({ AluRow.int1 with type := .wide }, w)
  | .fadd w | .fsub w | .fmul w => some (AluRow.float2, w)
  | .ffma w => some ({ AluRow.float2 with imm := false, third := .value }, w)
  | .fmin w | .fmax w => some ({ AluRow.float2 with sat := false, variant := .none }, w)
  | .fcmp w =>
    some ({ AluRow.float2 with sat := false, variant := .condition, type := .floatScalar, toPred := true }, w)
  | .fdiv w => some ({ AluRow.float2 with imm := false }, .native w)
  | .frcp w | .frsq w | .fsqrt w | .fexp2 w | .flog2 w | .fsin w | .fcos w | .ftanh w => some (AluRow.float1, w)
  | .fclass w => some ({ AluRow.float1 with sat := false, variant := .none, type := .floatScalar }, w)
  | .frnd w => some ({ AluRow.float1 with sat := false }, w)
  | .fscale w => some ({ AluRow.float2 with modB := false }, w)
  | .cvt w | .unpack w => some (AluRow.conv, w)
  | .pack w => some ({ AluRow.conv with readsB := true }, w)
  | .dot2 w => some (AluRow.dot 2, w)
  | .dot4 w => some (AluRow.dot 4, w)
  | .dot8 w => some (AluRow.dot 8, w)
  | _ => none

/-- The width in bits of the element format with a code of R160; 0 for a reserved code. -/
def formatWidth (code : Nat) : Nat :=
  match code with
  | 0 => 32 | 1 => 16 | 2 => 16 | 3 => 8 | 4 => 8 | 5 => 4 | 6 => 4 | 7 => 4 | 8 => 8 | 9 => 8 | 10 => 16 | 11 => 16 | 12 => 32
  | 13 => 32 | _ => 0

/-- A format code of R160 names an integer format. -/
def formatIsInt (code : Nat) : Bool := decide (6 ≤ code)

/-- The type field is valid for its class (R321). -/
def typeOk (c : TypeClass) (ty : Nat) : Bool :=
  match c with
  | .int => true
  | .wide => decide (ty ≤ 3)
  | .float => decide (ty ≤ 4)
  | .floatScalar => decide (ty ≤ 2)
  | .codes => ty == 0
  | .dot 8 => decide (ty ≤ 2)
  | .dot _ => decide (ty ≤ 3)

/-- A dot product's input type is a floating one (R321). -/
def dotIsFloat (n ty : Nat) : Bool := if n = 8 then ty == 0 else decide (ty ≤ 1)

/-- The variant field is valid for its class (R322), for integer inputs of a dot product and for integer-to-integer conversions
only as 000 (R375, R381). -/
def variantOk (r : AluRow) (ty var codes : Nat) : Bool :=
  match r.variant with
  | .none => var == 0
  | .condition => decide (var ≤ 5)
  | .rounding =>
    match r.type with
    | .dot n => if dotIsFloat n ty then decide (var ≤ 3) else var == 0
    | .codes => if formatIsInt (codes / 16) && formatIsInt (codes % 16) then var == 0 else decide (var ≤ 3)
    | _ => decide (var ≤ 3)

/-- A type code of R321's integer column names a 64-bit type. -/
def typeIs64 (ty : Nat) : Bool := ty == 2 || ty == 3

/-- The format codes and the position of cvt, pack and unpack (R375, R425, R456). -/
def codesOk (i : Instr) (codes pos : Nat) : Option DecodeError :=
  let dst := codes / 16
  let src := codes % 16
  firstError [
    need (decide (dst < 14) && decide (src < 14)) .formatCode,
    match i with
    | .pack _ => need (decide (formatWidth dst < 32) && decide (2 * pos + 1 < 32 / formatWidth dst)) .position
    | .unpack _ => need (decide (formatWidth src < 32) && decide (pos < 32 / formatWidth src)) .position
    | _ => need (pos == 0) .unusedField]

/-- The c and ctl fields of an op in format A with I = 0, and b where the op does not read it (R319, R340, R375, R377, R425, R456). -/
def regTailOk (i : Instr) (r : AluRow) (w : AWord) (b c ctl : BitVec 8) : Option DecodeError :=
  match r.type with
  | .codes =>
    let pos := match i with
      | .pack _ => (ctl.extractLsb' 0 2).toNat
      | .unpack _ => b.toNat
      | _ => 0
    firstError [
      codesOk i c.toNat pos,
      need (ctl.extractLsb' 4 4 == 0) .modifierBit,
      match i with
      | .pack _ => firstError [
          need (!ctl[3] || isSReg w.a) .registerNumber, need (!ctl[2] || isSReg b) .registerNumber]
      | .unpack _ => firstError [
          need (ctl.extractLsb' 0 3 == 0) .scalarBit, need (!ctl[3] || isSReg w.a) .registerNumber]
      | _ => firstError [need (b == 0) .unusedField, need (ctl == 0) .scalarBit]]
  | _ => firstError [
      need (!ctl[0]) .unusedField,
      need (r.readsB || b == 0) .unusedField,
      need (r.third != .none || c == 0) .unusedField,
      need (!ctl[2] || r.readsB) .scalarBit,
      need (!ctl[1] || r.third == .value) .scalarBit,
      need (!ctl[7] && !ctl[5] || r.modA) .modifierBit,
      need (!ctl[6] && !ctl[4] || r.modB) .modifierBit,
      need (!ctl[3] || isSReg w.a) .registerNumber,
      need (!ctl[2] || isSReg b) .registerNumber,
      need (!ctl[1] || isSReg c) .registerNumber,
      need (r.third != .predicate || decide (c.toNat < 128)) .registerNumber]

/-- A 64-bit operand names the even register of its pair (R162, R319, R340, R409). -/
def pairsOk (i : Instr) (r : AluRow) (w : AWord) : Option DecodeError :=
  let is64 := (r.type == .int || r.type == .wide) && typeIs64 w.ty.toNat
  match i with
  | .lea _ => firstError [
      need (evenReg w.d && evenReg w.a) .registerNumber,
      match w.tail with
      | .imm _ => none
      | .reg b _ _ => need (!is64 || evenReg b) .registerNumber]
  | _ => if !is64 then none else firstError [
      need (r.toPred || evenReg w.d) .registerNumber,
      need (evenReg w.a) .registerNumber,
      match w.tail with
      | .imm _ => none
      | .reg b c _ => firstError [
          need (!r.readsB || evenReg b) .registerNumber,
          need (r.third != .value || evenReg c) .registerNumber]]

/-- The immediate fits a half-width floating type (R320); fscale takes all of it (R394). -/
def immOk (i : Instr) (r : AluRow) (w : AWord) (v : BitVec 24) : Bool :=
  match i, r.type with
  | .fscale _, _ => true
  | _, .float | _, .floatScalar => w.ty == 0 || v.extractLsb' 16 8 == 0
  | _, _ => true

/-- A native word of an op that aluRow describes. -/
def checkAlu (i : Instr) (r : AluRow) (w : AWord) : Option DecodeError :=
  let codes := match w.tail with
    | .reg _ c _ => c.toNat
    | .imm _ => 0
  firstError [
    need (typeOk r.type w.ty.toNat) .typeCode,
    need (!w.sat || r.sat) .satBit,
    need (variantOk r w.ty.toNat w.var.toNat codes) .variantCode,
    match w.tail with
    | .imm v => firstError [need r.imm .immediateForm, need (immOk i r w v) .immediateValue]
    | .reg b c ctl => regTailOk i r w b c ctl,
    pairsOk i r w,
    need (!r.toPred || decide (w.d.toNat < 128)) .registerNumber]

/-- A word of format I that an "I only" op needs: type, sat and variant as given, a zero. -/
def immWord (w : AWord) (types : List Nat) : Option DecodeError :=
  firstError [
    match w.tail with
    | .imm _ => none
    | .reg _ _ _ => some .immediateForm,
    need (types.contains w.ty.toNat) .typeCode,
    need (!w.sat) .satBit,
    need (w.var == 0) .variantCode]

/-- red and scan (R432, R438): the class decides the type's column; scan's control byte has one more bit. -/
def checkReduce (w : AWord) (isScan : Bool) : Option DecodeError :=
  match w.tail with
  | .imm _ => some .immediateForm
  | .reg b c ctl =>
    let isFloat : Bool := c.getLsbD 0
    firstError [
      need (!w.sat) .satBit,
      need (b == 0 && ctl == 0) .unusedField,
      need (if isScan then decide (c.toNat < 4) else decide (c.toNat < 2)) .classByte,
      need (!isFloat || decide (w.ty.toNat ≤ 2)) .typeCode,
      need (if isFloat then decide (w.var.toNat ≤ 2) else decide (w.var.toNat ≤ 5)) .variantCode,
      if isScan then need (isFloat || !typeIs64 w.ty.toNat || evenReg w.d && evenReg w.a) .registerNumber
      else firstError [
        need (isSReg w.d) .registerNumber,
        need (isFloat || !typeIs64 w.ty.toNat || evenReg w.d && evenReg w.a) .registerNumber]]

/-- shfl (R442, R443). -/
def checkShfl (w : AWord) : Option DecodeError :=
  firstError [
    need (!w.sat) .satBit,
    need (decide (w.ty.toNat ≤ 3)) .typeCode,
    need (decide (w.var.toNat ≤ 3)) .variantCode,
    need (!typeIs64 w.ty.toNat || evenReg w.d && evenReg w.a) .registerNumber,
    match w.tail with
    | .imm _ => none
    | .reg b c ctl => firstError [
        need (c == 0) .unusedField,
        need (ctl &&& 0xF3 == 0) .unusedField,
        need (!ctl[3] || isSReg w.a) .registerNumber,
        need (!ctl[2] || isSReg b) .registerNumber]]

/-- bcast (R353). -/
def checkBcast (w : AWord) : Option DecodeError :=
  firstError [
    need (!w.sat) .satBit,
    need (decide (w.ty.toNat ≤ 3)) .typeCode,
    need (w.var == 0) .variantCode,
    need (isSReg w.d) .registerNumber,
    need (!typeIs64 w.ty.toNat || evenReg w.d && evenReg w.a) .registerNumber,
    match w.tail with
    | .imm _ => none
    | .reg b c ctl => firstError [
        need (c == 0) .unusedField,
        need (ctl &&& 0xF3 == 0) .unusedField,
        need ctl[2] .scalarBit,
        need (!ctl[3] || isSReg w.a) .registerNumber,
        need (isSReg b) .registerNumber]]

/-- vote (R457). -/
def checkVote (w : AWord) : Option DecodeError :=
  match w.tail with
  | .imm _ => some .immediateForm
  | .reg b c ctl => firstError [
      need (w.ty == 0) .typeCode,
      need (!w.sat) .satBit,
      need (b == 0 && c == 0 && ctl == 0) .unusedField,
      need (decide (w.var.toNat ≤ 2)) .variantCode,
      need (decide (w.a.toNat < 128) && isSReg w.d) .registerNumber,
      need (w.var != 2 || evenReg w.d) .registerNumber]

/-- The imm24 of an I word; 0 for a register tail. -/
def AWord.imm (w : AWord) : BitVec 24 :=
  match w.tail with
  | .imm v => v
  | .reg _ _ _ => 0

/-- movi and movh (R418). -/
def checkMovi (w : AWord) (types : List Nat) : Option DecodeError :=
  firstError [immWord w types, need (w.a == 0) .unusedField, need (!typeIs64 w.ty.toNat || evenReg w.d) .registerNumber]

/-- mfsr (R331, R414): n32, or n64 for cycle into an even pair. -/
def checkMfsr (w : AWord) : Option DecodeError :=
  firstError [
    immWord w [1, 3],
    need (w.a == 0) .unusedField,
    need (decide (w.imm.toNat ≤ 16)) .specialNumber,
    need (w.ty == 1 || w.imm == 14) .typeCode,
    need (w.ty == 1 || evenReg w.d) .registerNumber]

/-- mtsr (R331, R420). -/
def checkMtsr (w : AWord) : Option DecodeError :=
  firstError [
    immWord w [1],
    need (w.d == 0) .unusedField,
    need (isSReg w.a) .registerNumber,
    need (decide (w.imm.toNat ≤ 16)) .specialNumber]

-- ## Memory formats M and MA (R323 to R325)

/-- The widths and orders that an M op takes (R324). -/
structure MemRow where
  widths : List Nat
  orders : List Nat
  plainScope : Bool
deriving DecidableEq, Repr

/-- What R323 checks of every M and MA word but fence: width, order, scope and base. -/
def checkMem (r : MemRow) (w : MWord) : Option DecodeError :=
  firstError [
    need (r.widths.contains w.width.toNat) .widthCode,
    need (r.orders.contains w.order.toNat) .orderCode,
    need (decide (w.scope.toNat ≤ 5)) .scopeCode,
    need (!r.plainScope || w.order != 0 || w.scope == 0) .scopeCode,
    need (evenReg w.base && decide (w.base.toNat ≤ 62)) .registerNumber]

/-- The data register of a load or a store (R323). -/
def dataReg (w : MWord) (r : BitVec 8) : Option DecodeError :=
  firstError [
    need (w.width != 3 || evenReg r) .registerNumber,
    need (w.width != 4 || r.toNat % 4 == 0) .registerNumber]

/-- ld, st, lds and sts. -/
def checkPlainMem (w : MWord) (orders : List Nat) : Option DecodeError :=
  firstError [checkMem ⟨[0, 1, 2, 3, 4], orders, true⟩ w, dataReg w w.d]

/-- ldv and stv (R324, R408): mode 01 names its stride s-register in index. -/
def checkVectorMem (w : MWord) (orders : List Nat) : Option DecodeError :=
  let mode := (w.imm.extractLsb' 14 2).toNat
  firstError [
    checkMem ⟨[0, 1, 2, 3], orders, true⟩ w,
    dataReg w w.d,
    need (mode != 3) .modeCode,
    need (mode != 0 || w.index == 0xFF) .registerNumber,
    need (mode != 1 || isSReg w.index) .registerNumber]

/-- ldbt and stbt: the sequence stands in base + 2 (R324). -/
def checkTableMem (w : MWord) (orders : List Nat) : Option DecodeError :=
  firstError [
    checkMem ⟨[0, 1, 2, 3], orders, true⟩ w,
    dataReg w w.d,
    need (decide (w.base.toNat ≤ 60)) .registerNumber]

/-- atom and atoms (R325): the aop stands in imm [15:12], the data register in [7:0]. -/
def MWord.aop (w : MWord) : BitVec 4 := w.imm.extractLsb' 12 4
def MWord.data (w : MWord) : BitVec 8 := w.imm.extractLsb' 0 8

def checkAtom (w : MWord) : Option DecodeError :=
  firstError [
    checkMem ⟨[0, 1, 2, 3], [0, 1, 2, 3], false⟩ w,
    need (w.imm.extractLsb' 8 4 == 0) .unusedField,
    need (decide (w.aop.toNat ≤ 9)) .aopCode,
    need (w.aop != 9 || w.width == 2) .widthCode,
    need (w.width != 3 || evenReg w.data && (w.d == 0xFF || evenReg w.d)) .registerNumber]

/-- cas and cass (R325, R364). A 32-bit compare value in v255 has no register after it for the new value. -/
def checkCas (w : MWord) : Option DecodeError :=
  firstError [
    checkMem ⟨[2, 3], [0, 1, 2, 3], false⟩ w,
    need (w.imm.extractLsb' 8 4 == 0) .unusedField,
    need (w.aop == 0) .aopCode,
    need (w.width != 2 || w.data != 0xFF) .registerNumber,
    need (w.width != 3 || w.data.toNat % 4 == 0 && (w.d == 0xFF || evenReg w.d)) .registerNumber]

/-- fence (R391). -/
def checkFence (w : MWord) : Option DecodeError :=
  firstError [
    need (w.width == 0) .widthCode,
    need (w.order != 0) .orderCode,
    need (decide (w.scope.toNat ≤ 5)) .scopeCode,
    need (w.d == 0 && w.base == 0 && w.index == 0 && w.imm == 0) .unusedField]

-- ## Engine format X (R328)

/-- The rule of a record field: unused, an s-register, or an even register no higher than a limit. -/
inductive RecRule where
  | zero | single | pairTo (limit : Nat)
deriving DecidableEq, Repr

/-- A record field keeps its rule. -/
def recOk (r : RecRule) (v : BitVec 8) : Option DecodeError :=
  match r with
  | .zero => need (v == 0) .unusedField
  | .single => need (isSReg v) .registerNumber
  | .pairTo m => need (evenReg v && decide (v.toNat ≤ m)) .registerNumber

/-- A row of R328's table: whether flag select, acq, rel and scope are used, the record rules, whether d names an s-register
(else 0xFF), and the variant bits that may be set. -/
structure XRow where
  ordered : Bool
  r1 : RecRule
  r2 : RecRule
  r3 : RecRule
  dReg : Bool
  variant : BitVec 8
deriving DecidableEq, Repr

/-- The row of R328's table for each X op, with its word. -/
def Instr.xRow : Instr → Option (XRow × XWord)
  | .copy w => some (⟨true, .pairTo 60, .pairTo 60, .zero, false, 0x03⟩, w)
  | .gather w => some (⟨true, .pairTo 60, .pairTo 62, .pairTo 60, false, 0x03⟩, w)
  | .mma w => some (⟨true, .pairTo 60, .pairTo 60, .single, false, 0xF1⟩, w)
  | .accalloc w => some (⟨false, .zero, .zero, .zero, false, 0xF0⟩, w)
  | .accgrow w => some (⟨false, .zero, .zero, .zero, true, 0xF0⟩, w)
  | .accfree w => some (⟨false, .zero, .zero, .zero, false, 0xF0⟩, w)
  | .accld w | .accst w => some (⟨true, .pairTo 60, .zero, .zero, false, 0xF0⟩, w)
  | .query w => some (⟨true, .single, .zero, .zero, false, 0x00⟩, w)
  | .launch w => some (⟨false, .pairTo 62, .zero, .zero, false, 0x00⟩, w)
  | .coll w => some (⟨true, .pairTo 62, .zero, .zero, false, 0x03⟩, w)
  | .waitf w => some (⟨false, .zero, .zero, .zero, false, 0x0F⟩, w)
  | .tlbinv w => some (⟨false, .pairTo 60, .pairTo 56, .zero, false, 0x00⟩, w)
  | .btop w => some (⟨false, .pairTo 62, .single, .pairTo 62, false, 0x00⟩, w)
  | _ => none

/-- A word of format X (R328). -/
def checkX (i : Instr) (r : XRow) (w : XWord) : Option DecodeError :=
  firstError [
    need (decide (w.scope.toNat ≤ 5) && (w.scope == 0 || w.acq || w.rel)) .scopeCode,
    need (r.ordered || !w.fsel && !w.acq && !w.rel && w.scope == 0) .unusedField,
    recOk r.r1 w.r1, recOk r.r2 w.r2, recOk r.r3 w.r3,
    if r.dReg then need (isSReg w.d) .registerNumber else need (w.d == 0xFF) .unusedField,
    need (w.variant &&& ~~~ r.variant == 0) .unusedField,
    match i with
    | .coll _ => need (w.variant != 3) .variantCode
    | .waitf _ => need (decide (w.variant.toNat < 12)) .flagNumber
    | _ => none]

-- ## Spatial format S (R78, R330)

/-- The type, sat and variant that the fn field holds (R330). -/
def SWord.ty (w : SWord) : BitVec 3 := w.fn.extractLsb' 4 3
def SWord.sat (w : SWord) : Bool := w.fn[3]
def SWord.var (w : SWord) : BitVec 3 := w.fn.extractLsb' 0 3
/-- Chain, sequence and successor of a memory node or btok (R92, R330). -/
def SWord.chain (w : SWord) : BitVec 4 := w.imm.extractLsb' 20 4
def SWord.seqNo (w : SWord) : BitVec 10 := w.imm.extractLsb' 10 10
def SWord.succ (w : SWord) : BitVec 10 := w.imm.extractLsb' 0 10

/-- Bit k of a 4-bit mask. -/
def maskBit (m : BitVec 4) (k : Nat) : Bool := m.getLsbD k

/-- The checks of R78 that every slot meets. -/
def checkSlot (w : SWord) : Option DecodeError :=
  firstError [
    need (decide (w.srcA.toNat ≤ 13) && decide (w.srcB.toNat ≤ 13)) .slotMask,
    need (decide (4 ≤ w.srcA.toNat) || maskBit w.ready w.srcA.toNat) .slotMask,
    need (decide (4 ≤ w.srcB.toNat) || maskBit w.ready w.srcB.toNat) .slotMask,
    need (!w.tagen || maskBit w.ready w.tagInput.toNat) .slotMask,
    need (w.deq &&& ~~~ w.ready == 0) .slotMask,
    need (w.out &&& ~~~ w.space == 0) .slotMask,
    need (w.otag != 1 || decide (w.srcA.toNat < 4)) .slotMask]

/-- The 96-bit word's fields of an instruction that stands in a slot. -/
def Machine.slotWord (i : Instr) : Option SWord :=
  match i.aluRow with
  | some (_, .slot w) => some w
  | some (_, .native _) => none
  | none => match i with
    | .steer w | .merge w | .cnt w | .isect w | .ldn w | .stn w | .atn w | .xlat w | .conv w | .calln w | .retn w | .next w
    | .pent w | .pexit w | .btok w | .emit w | .sink w | .swait w | .mport w | .eqpn w => some w
    | _ => none

/-- The op of a slot reads its third source c from l[ldest] (R330, R425, R368, R439, R345). -/
def Machine.readsThird (i : Instr) : Bool :=
  match i with
  | .pack _ | .cnt _ => true
  | _ => match i.aluRow with
    | some (r, _) => r.third != .none && r.third != .codes
    | none => false

/-- What an op reads of the fields that not every op of format S uses: source B, an operand word's imm24 of its own, the local register that
ldest names without a write, and the output tag. -/
structure SlotUse where
  b : Bool := true
  imm : Bool := false
  local_ : Bool := false
  tag : Bool := true
deriving DecidableEq, Repr

/-- The fields of a slot that its op does not use are zero (R318, R333): tag input and value without a tag test, pbit without an update, ldest without
a write, imm24 that no source reads; a source B that the op does not read is the code of zero, 13, as R407 writes it (log 43). -/
def slotSpare (u : SlotUse) (w : SWord) : Option DecodeError :=
  firstError [
    need (w.tagen || w.tagInput == 0 && w.tagVal == 0) .unusedField,
    need (w.pkind != 0 || w.pbit == 0) .unusedField,
    need (u.local_ || w.lwe || w.ldest == 0) .unusedField,
    need (u.imm || w.srcA == 12 || w.srcB == 12 || w.imm == 0) .unusedField,
    need (u.b || w.srcB == 13) .unusedField,
    need (u.tag || w.otag == 0) .unusedField]

/-- The fields that each op of format S uses. -/
def Instr.slotUse (i : Instr) : SlotUse :=
  match i.aluRow with
  | some (r, _) => { b := r.readsB, imm := r.type == .codes, local_ := Machine.readsThird i }
  | none => match i with
    | .ldn _ | .btok _ => { b := false, imm := true }
    | .calln _ | .next _ => { b := false, imm := true, tag := false }
    | .retn _ => { b := false, tag := false }
    | .sink _ => { b := false }
    | .stn _ | .atn _ | .steer _ | .pexit _ | .swait _ | .mport _ | .conv _ => { imm := true }
    | .eqpn _ => { b := false, imm := true }
    | _ => {}

/-- A slot that holds a native ALU op (R77, R330, R340, R377, R409, R456). -/
def checkAluSlot (i : Instr) (r : AluRow) (w : SWord) : Option DecodeError :=
  let codes := (w.imm.extractLsb' 8 8).toNat
  firstError [
    checkSlot w, slotSpare i.slotUse w,
    need (typeOk r.type w.ty.toNat) .typeCode,
    need (!(r.type == .int || r.type == .wide) || !typeIs64 w.ty.toNat) .typeCode,
    need (!w.sat || r.sat) .satBit,
    need (variantOk r w.ty.toNat w.var.toNat codes) .variantCode,
    need (r.third != .carry || w.lwe) .arrangement,
    match r.type with
    | .codes => firstError [
        need (w.srcA != 12 && w.srcB != 12) .slotMask,
        need (w.imm.extractLsb' 16 8 == 0) .unusedField,
        match i with
        | .pack _ => firstError [
            codesOk i codes (w.imm.extractLsb' 0 2).toNat, need (w.imm.extractLsb' 2 6 == 0) .unusedField]
        | .unpack _ => firstError [
            codesOk i codes (w.imm.extractLsb' 0 3).toNat, need (w.imm.extractLsb' 3 5 == 0) .unusedField,
            need (w.srcB == 13) .arrangement]
        | _ => firstError [codesOk i codes 0, need (w.imm.extractLsb' 0 8 == 0) .unusedField]]
    | _ => none]

/-- The types that ldn and stn take: integers of 32 bits or less (R92). -/
def checkMemNode (w : SWord) : Option DecodeError :=
  firstError [
    checkSlot w,
    need (!typeIs64 w.ty.toNat) .typeCode,
    need (!w.sat) .satBit,
    need (w.var == 0) .variantCode]

/-- The slot of each S-only op: its fixed arrangement and fields. -/
def checkNode : Instr → Option DecodeError
  | .steer w => firstError [
      checkSlot w,
      need (w.ready == 3 && w.deq == 3 && w.space == 3 && w.out == 3 && w.srcA == 0 && w.srcB == 1 && !w.tagen && !w.lwe
        && w.pkind == 0 && w.otag == 1 && w.fn == 0 && decide (w.imm.toNat ≤ 1)) .arrangement]
  | .merge w => firstError [
      checkSlot w,
      need (w.ready == 1 && w.deq == 1 && w.srcA == 0 && w.srcB == 13 && !w.tagen && w.fn == 0 && w.imm == 0) .arrangement]
  | .cnt w => firstError [
      checkSlot w, need (decide (w.ty.toNat ≤ 1)) .typeCode, need (!w.sat) .satBit, need (w.var == 0) .variantCode,
      need w.lwe .arrangement]
  | .isect w => need (w == ⟨0, 0, 3, 3, false, 0, 0, 0, 0, 1, 3, 0, false, 0, 0, 0, 0, 0⟩) .arrangement
  | .ldn w | .stn w => checkMemNode w
  | .atn w => firstError [
      checkSlot w, need (decide (w.ty.toNat ≤ 1)) .typeCode, need (decide ((w.fn.extractLsb' 0 4).toNat ≤ 9)) .aopCode]
  | .xlat w => firstError [
      checkSlot w, need (w.ty == 0) .typeCode, need (!w.sat) .satBit,
      need (w.var != 0 && decide (w.var.toNat ≤ 3)) .variantCode, need (w.otag == 3 && !w.lwe) .arrangement]
  | .calln w => firstError [checkSlot w, need (w.fn == 0 && decide (w.imm.toNat ≤ 3)) .unusedField]
  | .retn w => firstError [checkSlot w, need (w.fn == 0 && w.imm == 0) .unusedField, need (w.out == 0) .arrangement]
  | .next w => firstError [
      checkSlot w, need (w.fn == 0 && decide (w.imm.toNat ≤ 3)) .unusedField, need (w.out == 0) .arrangement]
  | .btok w => firstError [checkSlot w, need (w.fn == 0) .unusedField]
  | .pent w => firstError [
      checkSlot w,
      need (w.ready == 3 && w.deq == 3 && w.space == 1 && w.tagen && w.tagInput == 1 && w.tagVal == 3 && w.srcA == 0
        && w.srcB == 13 && w.out == 1 && w.otag == 1 && w.fn == 0 && w.imm == 0) .arrangement]
  | .pexit w => firstError [
      checkSlot w,
      need (w.ready == 1 && w.deq == 1 && w.space == 3 && w.srcA == 0 && w.srcB == 13 && w.out == 1 && w.otag == 1
        && w.fn == 0 && decide (w.imm.toNat ≤ 1)) .arrangement]
  | .emit w => firstError [checkSlot w, need (w.otag == 0 && w.fn == 0) .arrangement]
  | .sink w => firstError [
      checkSlot w, need (w.out == 0 && w.fn == 0 && w.imm == 0 && w.otag == 0) .arrangement]
  | .swait w => firstError [
      checkSlot w, need (w.srcA == 13 && w.srcB == 13 && w.fn == 0 && decide (w.imm.toNat ≤ 7)) .arrangement]
  | .mport w => firstError [
      checkSlot w, need (w.ty == 1 || w.ty == 2) .typeCode, need (!w.sat) .satBit, need (w.var == 0) .variantCode,
      need (decide (w.imm.toNat ≤ 15)) .unusedField,
      need (w.srcA == 0 && maskBit w.ready 1 && maskBit w.deq 1) .arrangement]
  | .eqpn w => firstError [
      checkSlot w, need (w.fn == 0 && decide (w.imm.toNat < 4096)) .unusedField, need (!w.lwe && w.pkind == 0) .arrangement]
  | .conv w => firstError [
      need (w.care == 0 && w.value == 0 && w.ready == 1 && w.space == 1 && !w.tagen && w.tagInput == 0 && w.tagVal == 0
        && w.deq == 1 && w.srcA == 0 && w.srcB == 13 && w.out == 1 && w.ldest == 0 && !w.lwe && w.pbit == 0 && w.pkind == 0
        && w.otag == 1) .arrangement,
      need (w.ty == 0 && w.imm.extractLsb' 0 14 == 0) .unusedField,
      need (decide ((w.imm.extractLsb' 20 4).toNat < 14) && decide ((w.imm.extractLsb' 16 4).toNat < 14)) .formatCode,
      need (variantOk AluRow.conv 0 w.var.toNat (w.imm.extractLsb' 16 8).toNat) .variantCode,
      match (w.imm.extractLsb' 14 2).toNat with
      | 0 => none
      | 1 => need (formatWidth (w.imm.extractLsb' 20 4).toNat == 8 || formatWidth (w.imm.extractLsb' 20 4).toNat == 16) .formatCode
      | 2 => need (formatWidth (w.imm.extractLsb' 16 4).toNat == 8 || formatWidth (w.imm.extractLsb' 16 4).toNat == 16) .formatCode
      | _ => some .modeCode]
  | _ => none

-- ## Every constructor

/-- The first rule of R319 to R333 that an instruction breaks; none for a well-formed one. The steps of the hardware and the host
have no word and meet no check. -/
def Instr.check (i : Instr) : Option DecodeError :=
  match i.aluRow with
  | some (r, .native w) => checkAlu i r w
  | some (r, .slot w) => checkAluSlot i r w
  | none =>
    match i.xRow with
    | some (r, w) => checkX i r w
    | none =>
      match i with
      | .bcast w => checkBcast w
      | .shfl w => checkShfl w
      | .vote w => checkVote w
      | .red w => checkReduce w false
      | .scan w => checkReduce w true
      | .movi w => checkMovi w [0, 1, 2, 3]
      | .movh w => checkMovi w [0]
      | .mfsr w => checkMfsr w
      | .mtsr w => checkMtsr w
      | .pnot w | .pmov w => need (w.pb == 0 && !w.nb) .unusedField
      | .br w => need (w.fn == 0 && w.aux == 0) .unusedField
      | .brx w => firstError [
          need (w.fn == 0 && w.disp == 0) .unusedField, need (evenReg w.aux && decide (w.aux.toNat ≤ 62)) .registerNumber]
      | .call w => firstError [
          need (w.fn == 0) .unusedField,
          need (w.aux.toNat % 8 == 0 && decide (8 ≤ w.aux.toNat) && decide (w.aux.toNat ≤ 248)) .frameSize]
      | .loop w => firstError [need (w.fn == 0) .unusedField, need (isSReg w.aux) .registerNumber]
      | .yield w => need (decide (w.fn.toNat < 16)) .unusedField
      | .ret w | .exit w => need (w.fn == 0 && w.aux == 0 && w.disp == 0) .unusedField
      | .ld w | .lds w => checkPlainMem w [0, 1]
      | .st w | .sts w => checkPlainMem w [0, 2]
      | .ldv w => checkVectorMem w [0, 1]
      | .stv w => checkVectorMem w [0, 2]
      | .ldbt w => checkTableMem w [0, 1]
      | .stbt w => checkTableMem w [0, 2]
      | .ldc w => firstError [
          checkMem ⟨[2, 3], [0], true⟩ w, need (isSReg w.d && (w.width == 2 || evenReg w.d)) .registerNumber,
          need (w.index == 0xFF) .registerNumber]
      | .prf w => firstError [checkMem ⟨[0], [0], true⟩ w, need (w.d == 0) .unusedField]
      | .cwait w => firstError [
          checkMem ⟨[2, 3], [0, 1], true⟩ w, need (w.width == 2 || evenReg w.d) .registerNumber]
      | .fence w => checkFence w
      | .barinit w => checkMem ⟨[2], [0], true⟩ w
      | .arrive w => firstError [
          checkMem ⟨[2, 3], [0, 1], false⟩ w, need (w.width == 2 || w.scope == 2) .scopeCode]
      | .wait w => checkMem ⟨[2], [0], false⟩ w
      | .atom w | .atoms w => checkAtom w
      | .cas w | .cass w => checkCas w
      | .clause h => firstError [
          need (!(decide (12 ≤ h.flagA.toNat) && decide (h.flagA.toNat ≤ 14))
            && !(decide (12 ≤ h.flagB.toNat) && decide (h.flagB.toNat ≤ 14))) .flagNumber,
          need (h.count != 0) .clauseCount]
      | i => firstError [checkNode i, (Machine.slotWord i).bind (slotSpare i.slotUse)]

/-- The forms column of R332 for native words: ldv and stv only in V form, serl and sere only in T form. -/
def Instr.formOk (i : Instr) (vform : Bool) : Bool :=
  match i with
  | .ldv _ | .stv _ => vform
  | .serl | .sere => !vform
  | _ => true

end Sys2Proof
end

