-- ==== Sys2Proof/Config.lean ====
section
/-! DEFINITION. What an implementation fixes and the free values. No free value has a body: nothing can prove what it is. -/

namespace Sys2Proof.Config

/-- A free choice of the hardware: the n-th draw answers some number (the order of agents, the old or the new byte before a
flag reads 0, which line leaves a cache ...). Applied to State.choices, which every draw advances. Log 2. -/
opaque choice : Nat → Nat

/-- The cycles that a step of the hardware that is there to take, and that must come, can stand over (R48): the spec says that it comes in finite
time, and gives no bound. Log 96. -/
opaque patience : Nat

/-- The silicon stepping in DEVID [7:0] (R304), fixed by the implementation. Log 9. -/
opaque stepping : BitVec 8

/-- The address of the handler that the signed agent image names for an event class (R386), fixed by the image. Log 8. -/
opaque agentHandler : Nat → BitVec 64

/-- Bit positions of the four hash bits of a line address in a read signature (R250): the n-th of them, for a line. Log 10. -/
opaque signatureHash : Nat → Nat → Nat

/-- The compute die whose LLC holds a line of the second tier or of the host (R204): a fixed hash of the address, which the spec does not give.
Log 10. -/
opaque lineHome : Nat → Nat

/-- A signature of 132 bytes over a message is valid under the vendor's root key (R313): the key is not given. Log 11. -/
opaque signatureValid : List (BitVec 8) → List (BitVec 8) → Bool

/-- A firmware or agent image carries a valid signature under the root key (R314): its layout and the key are not given. Log 11. -/
opaque imageSigned : List (BitVec 8) → Bool

/-- The bytes of the signature that closes an attestation report (R315): the key is not given. Log 11. -/
opaque attestationSignature : List (BitVec 8) → List (BitVec 8)

/-- A value that the spec does not state (the data of a skip's token, the result of a next ...): applied to the number of the case and to
what it can depend on. Log 12. -/
opaque unstatedWord : Nat → BitVec 64 → BitVec 64

/-- A byte of a range whose layout the spec leaves to the hardware (the span buffer, a spilled plane, a save area): applied to the number of the
use and the byte's address. Log 82. -/
opaque freeByte : Nat → Nat → BitVec 8

end Sys2Proof.Config
end

