-- ==== Sys2Proof/Machine/Sparse.lean ====
section
/-! DEFINITION. Keyed data in one canonical form: Sparse is numbers by key with zero for an unlisted key (memory, registers by
lane), Table is records by key. -/

namespace Sys2Proof.Machine

/-- Values of w bits by key; an unlisted key reads 0. Canonical: keys strictly rising, no value 0. -/
abbrev Sparse (w : Nat) := List (Nat × BitVec w)

/-- The value at a key; 0 where none is listed. -/
def Sparse.get {w : Nat} : Sparse w → Nat → BitVec w
  | [], _ => 0#w
  | (a, v) :: r, k => if a = k then v else Sparse.get r k

/-- Lists a nonzero value at its place. -/
def Sparse.insert {w : Nat} : Sparse w → Nat → BitVec w → Sparse w
  | [], k, v => [(k, v)]
  | (a, x) :: r, k, v =>
    if k < a then (k, v) :: (a, x) :: r
    else if k = a then (k, v) :: r
    else (a, x) :: Sparse.insert r k v

/-- Writes a value at a key; writing 0 removes the entry, so that equal contents are equal lists. -/
def Sparse.set {w : Nat} (m : Sparse w) (k : Nat) (v : BitVec w) : Sparse w :=
  if v = 0#w then m.filter (fun e => e.1 != k) else Sparse.insert m k v

/-- The canonical form: keys strictly rising, no entry equal to what an unlisted key reads as. -/
def Sparse.wf {w : Nat} : Sparse w → Bool
  | [] => true
  | [(_, v)] => v != 0#w
  | (a, v) :: (b, x) :: r => v != 0#w && decide (a < b) && Sparse.wf ((b, x) :: r)

/-- Memory as data: bytes by address in the canonical form of Sparse. An unlisted address reads 0 (log 4). -/
abbrev Memory := Sparse 8

/-- The canonical form of a memory: addresses strictly rising, no entry equal to what an unlisted address reads as. -/
abbrev Memory.wf (m : Memory) : Bool := Sparse.wf m

/-- Every entry of the keys lo to lo + n - 1 removed: that range reads 0. -/
def Sparse.clear {w : Nat} (m : Sparse w) (lo n : Nat) : Sparse w :=
  m.filter (fun e => decide (e.1 < lo) || decide (lo + n ≤ e.1))

/-- The entries of the keys lo to lo + n - 1. -/
def Sparse.slice {w : Nat} (m : Sparse w) (lo n : Nat) : Sparse w :=
  m.filter (fun e => decide (lo ≤ e.1) && decide (e.1 < lo + n))

/-- Records by key, keys rising. -/
abbrev Table (α : Type) := List (Nat × α)

/-- The record at a key. -/
def Table.find {α : Type} : Table α → Nat → Option α
  | [], _ => none
  | (a, x) :: r, k => if a = k then some x else Table.find r k

/-- The record at a key, or the given one where none stands. -/
def Table.getD {α : Type} (t : Table α) (k : Nat) (d : α) : α := (Table.find t k).getD d

/-- Puts a record at a key. -/
def Table.put {α : Type} : Table α → Nat → α → Table α
  | [], k, x => [(k, x)]
  | (a, y) :: r, k, x =>
    if k < a then (k, x) :: (a, y) :: r
    else if k = a then (k, x) :: r
    else (a, y) :: Table.put r k x

/-- Removes the record at a key. -/
def Table.del {α : Type} (t : Table α) (k : Nat) : Table α := t.filter (fun e => e.1 != k)

/-- Changes every record. -/
def Table.mapVals {α : Type} (t : Table α) (f : α → α) : Table α := t.map (fun e => (e.1, f e.2))

/-- Changes the record at a key, where one stands. -/
def Table.modify {α : Type} (t : Table α) (k : Nat) (f : α → α) : Table α :=
  t.map (fun e => if e.1 = k then (e.1, f e.2) else e)

/-- Changes entry i of a list. -/
def listModify {α : Type} : List α → Nat → (α → α) → List α
  | [], _, _ => []
  | x :: r, 0, f => f x :: r
  | x :: r, i + 1, f => x :: listModify r i f

/-- Entry i of a list, or the given one. -/
def listGetD {α : Type} (l : List α) (i : Nat) (d : α) : α := (l[i]?).getD d

/-- The list without entry i. -/
def listDrop {α : Type} : List α → Nat → List α
  | [], _ => []
  | _ :: r, 0 => r
  | x :: r, i + 1 => x :: listDrop r i

end Sys2Proof.Machine
end

