-- ==== Sys2Proof/Machine/State.lean ====
section
/-! DEFINITION. The state of the machine: everything the spec gives it, as plain data, and the state after reset. -/

namespace Sys2Proof.Machine

-- ## Images (R119 to R122)

/-- A map record (R121). -/
structure MapRec where
  id : Nat
  kind : Nat
  tloc : Nat
  vloc : Nat
  per : Nat
  place : Nat
  col : Nat
  row : Nat
  lreg : Nat
  sw : Nat
  stride : Nat
deriving DecidableEq, Repr

/-- An entry of the E-point table (R120). -/
structure EPoint where
  id : Nat
  vok : Bool
  sentry : Bool
  snode : Bool
  exit : Bool
  cfg : Nat
  tpos : Nat
  vpos : Nat
  first : Nat
  count : Nat
deriving DecidableEq, Repr

/-- A spatial configuration of an image: its section header and its row streams' packets (R84, R119, R466). -/
structure ConfigImg where
  id : Nat
  w : Nat
  h : Nat
  depth : Nat
  col : Nat
  row : Nat
  packets : List (BitVec 128)
deriving DecidableEq, Repr

/-- A loaded kernel image (R119), latched when its launch is accepted. -/
structure Image where
  addr : BitVec 64
  profile : Nat
  legacy : Bool
  lanes : Nat
  regs : Nat
  window : Nat
  scratch : Nat
  acc : Nat
  mapOff : Nat
  mapSize : Nat
  tBase : BitVec 64
  tLen : Nat
  vBase : BitVec 64
  vLen : Nat
  configs : List ConfigImg
  epoints : List EPoint
  maps : List MapRec
  corr : List (Nat × Nat)
  spans : List (Nat × Nat × Nat)
deriving DecidableEq, Repr

-- ## Traps (R284, R286)

/-- The trap kinds of R284. -/
inductive TrapKind where
  | illegal | priv | align | bounds | page | prot | converge | acclimit | stack | config | shadow | retired | bkpt | swtrap | ecc
deriving DecidableEq, Repr

/-- Where a trap under way stands (R284, R286): raised, recorded and held by the agent, passed to the host, or to the debug handler. -/
inductive TrapPhase where
  | raised | host | debug | sync
deriving DecidableEq, Repr

/-- A trap that a group has taken: what its trap record holds (R286), and whether resuming goes on after the word. -/
structure TrapInfo where
  kind : TrapKind
  detail : BitVec 32
  pc : BitVec 64
  addr : BitVec 64
  lane : BitVec 32
  after : Bool
  phase : TrapPhase
deriving DecidableEq, Repr

-- ## Memory accesses under way (R62, R219 to R222)

/-- Where an access goes: a physical byte address (and whether the access is transactional, R248), or a byte of the window. -/
inductive Loc where
  | phys (pa : Nat) (txn : Bool)
  | scratch (off : Nat)
deriving DecidableEq, Repr

/-- The register that a pending write fills: a ring slot of one lane, or an s-register. -/
inductive RegDst where
  | v (slot : Nat) (lane : Nat)
  | s (reg : Nat)
deriving DecidableEq, Repr

/-- A load, or an atomic's return, whose register write is pending (R62). op: the number of the first access of its instruction, whose lanes
perform in ascending order (R151); va: the virtual address that it was translated from (R206); scope: that of an acquire (R217). -/
structure PendLoad where
  seq : Nat
  op : Nat
  dst : RegDst
  pair : Option RegDst
  loc : Loc
  bytes : Nat
  known : Option (BitVec 64)
  acq : Bool
  scope : Nat
  va : Option (BitVec 64)
deriving DecidableEq, Repr

/-- What the reads of a group must show (R218, R221, R222). floor: the events at home up to this number; seen: locations that it has read at their
home, with the number of the newest event that the value shows; met: stores of others that it has read or been told of; upTo: groups, of each of which it
has been told the stores with numbers below one. -/
structure Know where
  floor : Nat
  seen : List (Loc × Nat × Nat)
  met : List (GroupRef × Nat)
  upTo : List (GroupRef × Nat)
deriving DecidableEq, Repr

/-- What a release tells those who acquire it (R221): the group that made it, its core, its scope, and what that group knew. -/
structure Pub where
  src : GroupRef
  core : Nat
  scope : Nat
  know : Know
deriving DecidableEq, Repr

/-- A store that has issued and not yet performed at its home (R222). flag: the flag on which the engine command that wrote these bytes with rel was
counted, until the group has seen it at 0 (R301). level: the widest scope at which it has performed, from 0 (its group,
the quadrant) over 1 (team, the core) and 2 (cluster) to 3 (die) (R217); after: the accesses that its group's fences put before it, each as a
number that they are older than and the scope at which they are to have performed (R221); rel: a release at its scope, for its lane; loose: bytes
that an engine wrote, which later releases cover only with rel and once the flag has been seen (R228, R301); inTurn: those of the matrix engine, which
writes in turn (R187); pubs: what it tells as a release, or behind a fence; arr: the number of its arrival at its level. -/
structure PendStore where
  seq : Nat
  op : Nat
  after : List (Nat × Nat)
  lane : Nat
  rel : Bool
  scope : Nat
  level : Nat
  loose : Bool
  flag : Option Nat := none
  loc : Loc
  bytes : Nat
  data : BitVec 64
  va : Option (BitVec 64)
  inTurn : Bool := false
  pubs : List Pub := []
  arr : Nat := 0
deriving DecidableEq, Repr

/-- A value that a byte held before a store performed at its home, and which a plain read of another team may still return (R218, R222, R242).
stamp: the number of the store, or of the event that wrote it with others; cycle: when it did; src and seq: who wrote it, and a group's store; pubs:
what it tells as a release; ver: the version whose shadow was written, none for committed data and scratchpad; old: none where the version held no
byte. -/
structure OldByte where
  stamp : Nat
  cycle : BitVec 64
  src : GroupRef
  seq : Nat
  pubs : List Pub
  ver : Option (Nat × Nat)
  loc : Loc
  old : Option Byte
deriving DecidableEq, Repr

/-- A range of bytes whose values the spec does not give after the hardware has used it (the span buffer, a spilled plane, a save area): each
byte is free until it is written, which cuts the range. scratch: a range of the window, else of physical memory. -/
structure Blur where
  scratch : Bool
  start : Nat
  len : Nat
  stamp : Nat
deriving DecidableEq, Repr

-- ## Groups (R41, R55 to R67)

/-- An entry of the path table: PC, mask, the flags a yield named (R66), the fetched words of its clause from PC on (R72), and
the header's flags A and B. No words: the path stands at a header. fresh: the word at hand is the first of its clause; miss: the
next word is not present (R65); bpDone: the breakpoints have been looked at for this arrival (R153, R292); decided: Callisto has decided for
this arrival (R129). -/
structure PathEntry where
  pc : BitVec 64
  mask : LaneMask
  waits : BitVec 12
  words : List DWord
  fa : BitVec 4
  fb : BitVec 4
  fresh : Bool
  miss : Bool
  bpDone : Bool
  decided : Bool
deriving DecidableEq, Repr

/-- The serialisation state of R67 and R441: the mask at serl, the lane whose pass runs, the path of that pass, and where the body starts. -/
structure Serl where
  m : LaneMask
  lane : Nat
  body : BitVec 64
  path : PathEntry
deriving DecidableEq, Repr

/-- An outer frame below the window base (R57): its size, and its registers once it is spilled. -/
structure Frame where
  size : Nat
  spilled : Option (Sparse 32)
deriving DecidableEq, Repr

/-- A return record (R57). -/
structure RetRec where
  clause : BitVec 64
  size : Nat
deriving DecidableEq, Repr

/-- A lane that a wait or a cwait still holds: its location, the value it waits on, and the virtual address that every read of it translates
anew (R206, R376, R458). -/
structure WaitLane where
  lane : Nat
  loc : Loc
  bytes : Nat
  value : BitVec 64
  va : Option (BitVec 64)
deriving DecidableEq, Repr

/-- A lane that fails its checks: the lane, the address and the check (R151). -/
structure LaneFault where
  lane : Nat
  addr : BitVec 64
  kind : TrapKind
deriving DecidableEq, Repr

/-- A lane of an stbt that has yet to act: its logical offset and its data (R211). -/
structure TableLane where
  lane : Nat
  off : Nat
  data : BitVec 64
deriving DecidableEq, Repr

/-- An stbt whose first remaining lane waits for a copy on write (R211): the table, the sequence, the lanes to act, and the free entries
that it has reserved; op: the number of its first store; bad: in V form, the element above its lanes that has failed (R70). -/
structure CowWait where
  desc : BitVec 64
  q : Nat
  bytes : Nat
  rel : Bool
  scope : Nat
  op : Nat
  lanes : List TableLane
  free : List Nat
  bad : Option LaneFault
deriving DecidableEq, Repr

/-- What a Waiting group waits for (R42). lanes: a wait or a cwait holds some; acq: the scope at which their completing reads are acquires; bad: in
V form, the element above them that has failed its checks (R70). -/
inductive WaitOn where
  | scoreboard
  | ordering
  | flags
  | flagFull
  | port
  | power (core need : Nat)
  | lanes (acq : Option Nat) (isWait : Bool) (bad : Option LaneFault) (l : List WaitLane)
  | cow (w : CowWait)
  | tile
  | unbind (name : Nat)
  | copySlot
  | deviceQueue
  | shadow
  | hub
deriving DecidableEq, Repr

/-- The states of R42. Issuing lasts within one step and is no resting state; Frozen is the state of every group that has not retired of
a team that is not placed (TeamPhase). -/
inductive GroupState where
  | ready
  | waiting (w : WaitOn)
  | parkedYield
  | parkedHop
  | trapped
  | retired
deriving DecidableEq, Repr

/-- A captured loop body (R72): its quadrant, context and view, its virtual range from target header to branch word, and its words
by address. -/
structure LoopBuf where
  quad : Nat
  ctx : Nat
  view : List (Nat × Nat)
  lo : Nat
  hi : Nat
  words : List (Nat × DWord)
deriving DecidableEq, Repr

/-- What Callisto keeps of a group or a team (R129): the counts of the sample at hand (E-points passed, cycles stalled, instructions issued, slots
fired), and the measures of past samples; leadT, leadV, leadS: for how many samples in a row the form's kept rate has exceeded the current one. -/
structure Perf where
  passes : Nat
  stall : Nat
  issued : Nat
  fired : Nat
  samples : Nat
  keptT : Option (Nat × Nat)
  keptV : Option (Nat × Nat)
  keptS : Option (Nat × Nat)
  leadT : Nat
  leadV : Nat
  leadS : Nat
  probeFrom : Option Nat
  probeEnded : Bool
  coolS : Nat
  rate : Nat
  stallFrac : Nat
  issueUse : Nat
  fireRate : Nat
deriving DecidableEq, Repr

/-- What the cycle at hand has brought a group (R46, R47): it has issued or been boosted, or a group of higher priority has issued while it was Ready. -/
inductive CycleUse where
  | none | lost | issued
deriving DecidableEq, Repr

/-- A lock-step group (R41, R42, R55 to R67). fence: its fences of kind rel, each as the number of the next access and the scope (R221);
acquired: the number of its newest acquire that has performed; held: the path (by its place, none for the serialising one) whose word is at hand
while the group waits or is trapped at it (R65); stepped: the instruction of a single step has parked the group, and BKPT is to come at the
next boundary (R293); owed: a trap that one of its accesses or commands has raised, which it takes when it next issues (R42); child: the packet, argument block and
core mask of the launch that it waits to enqueue, and the image (R401); know: what its reads must show; heard: what the releases told whose values it
has read, until an acquire takes it (R221). -/
structure Group where
  num : Nat
  quad : Nat
  slot : Nat
  present : LaneMask
  state : GroupState
  trap : Option TrapInfo
  owed : Option TrapInfo
  child : Option (List Byte × Image)
  v : Sparse 32
  s : Sparse 32
  p : Sparse 64
  flags : Sparse 6
  base : Nat
  frames : List Frame
  rets : List RetRec
  paths : List PathEntry
  spilledPaths : List PathEntry
  serl : Option Serl
  vform : Bool
  eqlast : BitVec 32
  loads : List PendLoad
  stores : List PendStore
  seq : Nat
  fence : List (Nat × Nat)
  acquired : Nat
  held : Option (Option Nat)
  fbar : Bool
  hopTarget : Option Nat
  know : Know
  heard : List Pub
  starve : Nat
  inCycle : CycleUse
  loop : Option LoopBuf
  boosted : Bool
  singleStep : Bool
  stepped : Bool
  syncs : Nat
  perf : Perf
deriving DecidableEq, Repr

-- ## Spatial regions (R76 to R113)

/-- A token: 32 data bits and a tag (R80). stamp tells the making of a translation token from those before and after it, and stays with
its data (R90); 0 elsewhere. -/
structure Token where
  data : Word
  tag : BitVec 2
  stamp : Nat := 0
deriving DecidableEq, Repr

/-- A route entry of a PE's crossbar (R85). -/
structure Route where
  dlv : Bool
  loc : Bool
  src : BitVec 2
  sslot : BitVec 2
  dst : BitVec 2
  dslot : BitVec 2
deriving DecidableEq, Repr

/-- A token on the link slot that leads into a cell: the side it comes from, the slot, the token (R81, R102). -/
structure LinkTok where
  dir : BitVec 2
  slot : BitVec 2
  tok : Token
deriving DecidableEq, Repr

/-- An exact value: a NaN with its bits as f32, an infinity with its sign, or num x 2^exp (zero keeps a sign). -/
inductive Exact where
  | nan (bits : Word)
  | inf (neg : Bool)
  | fin (neg : Bool) (num : Nat) (exp : Int)
deriving DecidableEq, Repr

/-- An entry of an output buffer: a token, or the place of a token that a firing of a slot has yet to give (R77, R93, R107). -/
inductive OutEntry where
  | tok (t : Token)
  | pend (slot : Nat)
deriving DecidableEq, Repr

/-- A processing element (R76). A slot that is none is empty; made: the makings of the translation tokens that its local registers hold (R90). -/
structure Cell where
  col : Nat
  row : Nat
  slots : List (Option Instr)
  b : BitVec 8
  l : Sparse 32
  made : Table Nat
  lBusy : BitVec 8
  bBusy : BitVec 8
  ins : List (List Token)
  outs : List (List OutEntry)
  routes : List Route
  links : List LinkTok
  sum : Exact
  initPermit : Bool
deriving DecidableEq, Repr

/-- A request of a memory node or a btok in the region's memory interface (R93): the firing cell and slot, and what it asks for; epoch: the
region's when it fired (R110). -/
structure MemReq where
  col : Nat
  row : Nat
  slot : Nat
  node : Instr
  seq : Nat
  addr : Word
  data : Word
  tag : BitVec 2
  skip : Bool
  epoch : Nat
deriving DecidableEq, Repr

/-- A chain of a region: its nodes' sequence and successor numbers, E, and its waiting requests (R93). -/
structure Chain where
  id : Nat
  nodes : List (Nat × Nat)
  e : Nat
  queue : List MemReq
deriving DecidableEq, Repr

/-- A read that an in port has issued (R102): its address, the tag of its token, and the element once it has come. -/
structure Landing where
  va : BitVec 64
  tag : BitVec 2
  value : Option Word
deriving DecidableEq, Repr

/-- A stream port (R86, R87, R90). queue is its decoupling queue, landing the reads issued, in pattern order (R102); an in port in indexed mode
takes its tokens from inq. -/
structure Port where
  k : Nat
  indexed : Bool
  inq : List Token
  baseLoc : Nat
  base : BitVec 64
  width : Nat
  out : Bool
  mark : Bool
  dims : List (Nat × Int)
  pos : Nat
  landing : List Landing
  queue : List Token
  endSent : Bool
  faulted : Bool
  xlat : Option (Nat × Nat)
deriving DecidableEq, Repr

/-- A converter node (R96, R371, R372). -/
structure Conv where
  k : Nat
  word : SWord
  newWord : Option SWord
  inq : List Token
  outq : List Token
  part : List Word
deriving DecidableEq, Repr

/-- A plane of a region: every cell and edge node, and the memory interface's chains (R102). -/
structure Plane where
  cfg : Nat
  load : Nat
  cells : List Cell
  ports : List Port
  convs : List Conv
  chains : List Chain
  gate : BitVec 32
  caller : Option (Nat × Nat × Nat)
  pendingNext : Option Nat
deriving DecidableEq, Repr

/-- What a configuration that next has replaced leaves in the memory interface (R108, R109): its load, its gate and its chains. -/
structure OldPlane where
  load : Nat
  gate : BitVec 32
  chains : List Chain
deriving DecidableEq, Repr

/-- Who put an entry into the span buffer (R124, R193): a chain of the configuration of a load, a port, or an mport. -/
inductive SpanSrc where
  | chain (load c : Nat)
  | port (k : Nat)
  | mport (tile : Nat)
deriving DecidableEq, Repr

/-- An entry of the span buffer (R124): a store of 8 to 64 bits, or a tile update; va: the virtual address of a port's (R206); seenBy: the other
chains, each with its load, whose loads have read it (R94). -/
structure SpanEntry where
  src : SpanSrc
  va : Option (BitVec 64)
  loc : Loc
  bytes : Nat
  data : BitVec 64
  epoch : Nat
  seenBy : List (Nat × Nat)
deriving DecidableEq, Repr

/-- An entry of a region's translation table (R89). -/
structure XlatEntry where
  va : BitVec 64
  pa : Nat
  size : Nat
  txn : Bool
  rd : Bool
  w : Bool
  stamp : Nat
  cleared : Bool
deriving DecidableEq, Repr

/-- The fault record of R91, or an S-form trap or a guard failure that decides a rollback (R133, R134). -/
structure SFault where
  guard : Bool
  kind : Option TrapKind
  port : Option Nat
  addr : BitVec 64
  pattern : List (Nat × Int)
  pos : Nat
deriving DecidableEq, Repr

/-- A team's spatial region (R83, R102 to R112). latched: the mapped PE locals at the span's start, by the key (column x 8 + row) x 8 + register
(R127, R128); fired: a cell has fired in the cycle at hand (R129). -/
structure Region where
  rid : Nat
  col : Nat
  row : Nat
  w : Nat
  h : Nat
  depth : Nat
  ep : Nat
  live : Bool
  active : Plane
  shadows : List Plane
  spilled : List Plane
  oldPlanes : List OldPlane
  span : List SpanEntry
  epoch : Nat
  loads : Nat
  released : BitVec 32
  releasedBy : List (Nat × Nat)
  xlat : List (Option XlatEntry)
  xlatNext : Nat
  stamps : Nat
  fault : Option SFault
  atnDone : Bool
  closing : Option (Nat × Nat × Nat)
  frozen : Option Nat
  starve : List (Nat × Nat)
  mustLeave : Bool
  latched : List (Nat × Word)
  fired : Bool
deriving DecidableEq, Repr

-- ## Engines (R177 to R194, R205, R309, R373)

/-- An extent record resolved at issue: where each row starts, and its row bytes (R180, R205). -/
structure Extent where
  virt : Bool
  start : BitVec 64
  rows : Nat
  rowBytes : Nat
  pitch : Nat
deriving DecidableEq, Repr

/-- One operand of an mma from its format block (R182). -/
structure FmtBlock where
  saddr : BitVec 32
  sfmt : Nat
  blen : Nat
  efmt : Nat
deriving DecidableEq, Repr

/-- What a matrix-engine command does. -/
inductive MatrixOp where
  | mma (tile : Nat) (z : Bool) (a b : Extent) (fa fb : FmtBlock) (k : Nat)
  | accld (tile : Nat) (e : Extent)
  | accst (tile : Nat) (e : Extent)
deriving DecidableEq, Repr

/-- An accepted command of a core's matrix engine, with the group whose flag counts it (R177, R186). seq: the group's accesses before the
command have smaller numbers; after: its writes wait for the accesses that fences put before it (R221); since: the number
of the stores that had performed when it issued; floor: the same of its group's last wide acquire, or of its own, none before that; know: what its
group knew (R187, R188); pubs: what its writes tell behind a fence (R221). -/
structure MatrixCmd where
  g : GroupRef
  flag : Nat
  seq : Nat
  after : List (Nat × Nat)
  phys : Nat
  acq : Bool
  rel : Bool
  scope : Nat
  op : MatrixOp
  since : Nat
  floor : Option Nat
  know : Know
  pubs : List Pub
deriving DecidableEq, Repr

/-- A command of a core's copy engine (R373, R395). since, floor, know, pubs: as those of a matrix command; vas, dvas: the virtual ranges of its source
and its destination (R206). -/
structure CopyCmd where
  g : GroupRef
  flag : Nat
  seq : Nat
  after : List (Nat × Nat)
  acq : Bool
  rel : Bool
  scope : Nat
  isGather : Bool
  pairs : List (Loc × Loc × Nat)
  since : Nat
  floor : Option Nat
  know : Know
  pubs : List Pub
  vas : List (BitVec 64 × Nat)
  dvas : List (BitVec 64 × Nat)
deriving DecidableEq, Repr

/-- A query that has reached the hub (R278). answer: the bytes that the hub has given and that reach scratchpad before its flag counts down (R61). -/
structure Query where
  g : GroupRef
  flag : Nat
  seq : Nat
  after : List (Nat × Nat)
  acq : Bool
  rel : Bool
  scope : Nat
  off : Nat
  pubs : List Pub
  answer : Option (List Byte)
deriving DecidableEq, Repr

/-- A collective command of this module, with its descriptor as it was read and the location of each byte of its source and destination
(R309, R369). answer: the bytes of its destination, once every member has issued it (R61). -/
structure CollCmd where
  g : GroupRef
  flag : Nat
  seq : Nat
  after : List (Nat × Nat)
  acq : Bool
  rel : Bool
  scope : Nat
  op : Nat
  src : List Loc
  dst : List Loc
  n : Nat
  fmt : Nat
  red : Nat
  members : Nat
  rank : Nat
  id : BitVec 32
  number : BitVec 64
  level : Nat
  since : Nat
  floor : Option Nat
  know : Know
  pubs : List Pub
  vas : List (BitVec 64 × Nat)
  dvas : List (BitVec 64 × Nat)
  answer : Option (List Byte)
deriving DecidableEq, Repr

/-- A block table of a context that the table unit knows, by its descriptor's address and physical address, with the address and count of its entries as
the descriptor gave them, and the physical ranges where they lie (R208, R209). -/
structure KnownTable where
  ctx : Nat
  desc : BitVec 64
  pa : Nat
  entries : BitVec 64
  count : Nat
  pages : List (Nat × Nat)
deriving DecidableEq, Repr

/-- A shootdown under way (R206, R454): the range, the cores, and the agent that waits for it. -/
structure Shootdown where
  core : Nat
  start : BitVec 64
  len : Nat
  cores : BitVec 256
deriving DecidableEq, Repr

/-- A block move under way (R212): the table and the entry; after: the launches that were uncommitted when the hub was asked to swap, once it
has been. -/
structure Move where
  ctx : Nat
  desc : BitVec 64
  entry : Nat
  after : Option (List Nat)
deriving DecidableEq, Repr

/-- A block that a swap has freed: it is not reused before the launches that were uncommitted at the swap have ended (R212). -/
structure OldBlock where
  block : Nat
  after : List Nat
deriving DecidableEq, Repr

/-- What the sweeps of a block table have found (R216): the cycle of the last, the entries it found with ACC clear, and those to demote
and to promote. -/
structure Sweep where
  ctx : Nat
  desc : BitVec 64
  at_ : BitVec 64
  clear : List Nat
  demote : List Nat
  promote : List Nat
deriving DecidableEq, Repr

-- ## Cores (R8, R280, R282)

/-- A cached translation (R200): it maps one page of a context. -/
structure TlbEntry where
  ctx : Nat
  va : Nat
  size : Nat
  pte : BitVec 64
deriving DecidableEq, Repr

/-- A word in an instruction cache or a loop buffer: the version it was fetched through, its address and the word. -/
structure CodeWord where
  view : List (Nat × Nat)
  pa : Nat
  word : DWord
deriving DecidableEq, Repr

/-- An event that reaches an Encke agent (R386, R397). -/
inductive AgentEvent where
  | trap (g : GroupRef)
  | faultRecord (team : Nat)
  | packet
  | hostWrite
  | diag (rid col row slot : Nat) (cycle : BitVec 64)
deriving DecidableEq, Repr

/-- A packet that an agent has drawn and checked (R273): its bytes, with those of its argument block and core mask behind them, and its image. -/
structure Drawn where
  q : Nat
  index : BitVec 64
  bytes : List Byte
  image : Option Image
deriving DecidableEq, Repr

/-- The Encke agent of a core: its slot runs as a group of its own on the scalar path (R37, R272). saved: the place that an event's handling
leaves, its saved PC with the fetched words of its clause, and savedSerl the serialisation around it (R386). -/
structure Agent where
  grp : Group
  saved : PathEntry
  savedSerl : Option Serl
  handling : Option AgentEvent
  events : List AgentEvent
  halted : Bool
  drawn : Option Drawn
deriving DecidableEq, Repr

/-- A request at a memory tile (R95): the team and chain whose node asked, the request, and the bytes its chain's buffered stores give. answer: the
response of a request that needs no tile, which waits behind earlier ones of its chain. -/
structure TileReq where
  team : Nat
  load : Nat
  chain : Nat
  req : MemReq
  fwd : List (Nat × Byte)
  answer : Option Token
deriving DecidableEq, Repr

/-- A core. codeKnow: the stores that the groups knew which ran icinv on it, their own before their fences included (R73); issued: the quadrants whose scheduler has issued in the cycle at hand (R46); owed: the credits of the cycle at hand are still to come (R280). -/
structure Core where
  enabled : Bool
  started : Bool
  gated : Bool
  idle : Nat
  pwrEn : Bool
  pwrGate : Bool
  rate : BitVec 11
  rateSet : BitVec 11
  cap : BitVec 17
  level : BitVec 17
  owed : Bool
  swcEn : List Bool
  swcExp : List (BitVec 4)
  swcHit : List Bool
  icache : List CodeWord
  loops : List LoopBuf
  codeKnow : Know
  tlb : List TlbEntry
  accepted : List MatrixCmd
  executing : Option MatrixCmd
  tiles : Sparse 32
  copies : List CopyCmd
  tileQ : List (Nat × TileReq)
  errors : Nat
  issued : List Nat
  robin : Table Nat
  sampledAt : BitVec 64
  agent : Agent
deriving DecidableEq, Repr

-- ## Launches, grids and teams (R31 to R45, R246 to R260)

/-- What a top-level launch runs. -/
inductive LaunchKind where
  | grid (g : Nat)
  | copy (src dst : BitVec 64) (n : Nat)
  | btop (desc : BitVec 64) (op q q2 : Nat)
deriving DecidableEq, Repr

/-- Where a top-level launch stands: not yet started, running, its work done, or waiting to start again after a conflict. -/
inductive LaunchPhase where
  | waiting
  | running
  | done
  | replay
deriving DecidableEq, Repr

/-- A top-level launch (R246 to R260). attempts: those aborted by conflict; saw and missed: the commits and writes from
outside whose data its reads have shown, and those before which its reads still stood (R237, R251, R306); counted: those of them that count toward RETRY (R255); sig: the
read signature (R250); aborted: a conflict met it while its teams were saved (R259); order: its place among the launches that have started, which
is commit order (R247); ranSerial: its last attempt ran serialised (R253). -/
structure Launch where
  ctx : Nat
  queue : Nat
  index : BitVec 64
  kind : LaunchKind
  phase : LaunchPhase
  tag : Option (BitVec 16)
  attempts : Nat
  serial : Bool
  readWords : List Nat
  saw : List Nat
  missed : List Nat
  sig : BitVec 2048
  counted : Nat
  retry : Nat
  level : Nat
  status : BitVec 64
  signal : BitVec 64
  subs : List Nat
  aborted : Bool
  order : Nat
  ranSerial : Bool
deriving DecidableEq, Repr

/-- The shadow bytes of one version or sub-version of a launch (R249): sub 0 is the launch's own version. -/
structure Shadow where
  launch : Nat
  sub : Nat
  bytes : Table (BitVec 8)
deriving DecidableEq, Repr

/-- A committed version of a context whose lines are not all written back (R252). -/
structure Committed where
  ctx : Nat
  tag : BitVec 16
  bytes : Table (BitVec 8)
deriving DecidableEq, Repr

/-- A grid (R31 to R35). number: what gridid reads (R52). -/
structure Grid where
  number : Nat
  launch : Nat
  ctx : Nat
  parent : Option Nat
  depth : Nat
  sub : Nat
  image : Image
  args : List (BitVec 64)
  teams : Nat
  nextTeam : Nat
  retired : Nat
  prio : Nat
  gang : Bool
  admitted : Bool
  mask : BitVec 256
  wx : Nat
  wy : Nat
  wz : Nat
  ordered : Bool
  counter : Nat
  sps : Nat
  status : BitVec 64
  signal : BitVec 64
  die : Option Nat
  arrival : Nat
deriving DecidableEq, Repr

/-- Where a team stands: placed, or saved by a pre-emption, or saved and pending again (R288, R291). -/
inductive TeamPhase where
  | placed
  | saved
  | restoring
deriving DecidableEq, Repr

/-- A binding of a tile name (R189, R190): the physical tile, and whether accgrow took it. knows: the groups of the team that find the name bound for
certain; sent: the release arrivals made since the binding, each by its object, its phase, its group and its scope (R302). -/
structure Tile where
  phys : Nat
  grown : Bool
  knows : List Nat
  sent : List (Loc × Nat × GroupRef × Nat)
deriving DecidableEq, Repr

/-- A team (R36 to R45). hopLate: an armed hop has not parked every group within its 4,096 cycles (R127). know: what its region's reads must show
(R218, R221, R222). -/
structure Team where
  grid : Nat
  num : Nat
  phase : TeamPhase
  core : Nat
  scratch : Nat
  reserved : Nat
  tiles : Table Tile
  groups : List Group
  region : Option Region
  armed : Option (Nat × Nat)
  hopLate : Bool
  hopS : Bool
  know : Know
  queries : Nat
  ended : Bool
  chc : BitVec 32
  cgc : BitVec 32
  perf : Perf
  savedScratch : Sparse 8
  savedTiles : Sparse 32
  savedCmds : List MatrixCmd
  savedCopies : List CopyCmd
deriving DecidableEq, Repr

-- ## Queues and contexts (R261, R304)

/-- A packet taken from a queue and not yet completed (R269). -/
structure Running where
  index : BitVec 64
  launch : Option Nat
deriving DecidableEq, Repr

/-- A user queue (R261, R262). -/
structure Queue where
  qbase : BitVec 64
  qerra : BitVec 64
  en : Bool
  err : Bool
  prio : BitVec 5
  size : BitVec 5
  ctx : BitVec 8
  qrd : BitVec 64
  wr : BitVec 64
  listed : Bool
  running : List Running
deriving DecidableEq, Repr

/-- A context's registers (R304). -/
structure Context where
  ttbBase : BitVec 40
  ttbEn : Bool
  csc : BitVec 32
  txcOvf : BitVec 4
  txcRetry : BitVec 4
  ovfInForce : BitVec 4
  fix : Bool
  level : BitVec 2
  retuse : BitVec 32
  go : Bool
  mode : BitVec 3
  dlim : BitVec 4
  res : BitVec 4
  drain : Nat
  /-- The drain limit has passed: the request goes on as a save (R288). -/
  drainOver : Bool
  csaBase : BitVec 31
  trbBase : BitVec 40
  trbEn : Bool
  trw : BitVec 64
  trr : BitVec 64
  dbgEn : Bool
  dbgStop : Bool
  bpAddr : List (BitVec 54)
  bpEn : List Bool
  dtgt : BitVec 64
  dsel : BitVec 64
  dadr : BitVec 64
  ddat : BitVec 64
  dref : Bool
  dbusy : Bool
  overflow : List (Nat × Nat)
deriving DecidableEq, Repr

/-- What the flash gives bring-up: the bytes of its configuration records, the floors of its replay-protected area, the boot firmware and the agent
image (R313, R314); trainGood: the memories train (R316). -/
structure Flash where
  records : List (List Byte)
  floors : Table Nat
  bootImage : List Byte
  agentImage : List Byte
  trainGood : Bool
deriving DecidableEq, Repr

/-- Who executes the instruction at hand. -/
inductive Actor where
  | device
  | group (g : GroupRef)
  | agent (core : Nat)
  | pe (team : Nat) (col row slot : Nat)
deriving DecidableEq, Repr

/-- Which agent moves next: a group or an agent's slot issues its next word, a processing element takes its cycle, another step
of the table comes about, or a main-clock cycle passes. -/
inductive Turn where
  | issue (g : GroupRef)
  | agentIssue (core : Nat)
  | pe (team : Nat) (col row : Nat)
  | event (i : Instr)
  | tick
deriving DecidableEq, Repr

/-- The state of the machine. round, taken: the turns that the machine owes, in which a free choice may not go on for ever, and how many turns
have been taken since they were noted (R48). arrivals: the stores' arrivals at their levels so far (R222); left: what ended teams have left to perform, by the
team's number: its core, and its groups with their stores (R248, R254). wakeFrom, wakes: when the last step of waking cores began, and how many it has woken (R282). -/
structure State where
  turns : List Turn
  round : List Turn
  taken : Nat
  choices : Nat
  cur : Actor
  cycle : BitVec 64
  mem : Memory
  scratch : Memory
  blurs : List Blur
  history : List OldByte
  stamp : Nat
  arrivals : Nat
  left : Table (Nat × List Group)
  dieTlb : Table (List TlbEntry)
  poison : List Nat
  tables : List KnownTable
  shadows : List Shadow
  committed : List Committed
  launches : Table Launch
  grids : Table Grid
  teams : Table Team
  cores : Table Core
  contexts : Table Context
  queues : Table Queue
  lastUsed : Table Nat
  devQueues : Table (List Nat)
  lastTag : BitVec 16
  commits : BitVec 64
  tickets : BitVec 64
  pending : Table (List Nat)
  lastSource : Table (Nat × Nat)
  nextId : Nat
  queries : List Query
  colls : List CollCmd
  shootdowns : List Shootdown
  moves : List Move
  oldBlocks : List OldBlock
  sweeps : List Sweep
  ready : Bool
  recov : Bool
  stage : BitVec 8
  err : BitVec 8
  nrbBase : BitVec 40
  nrbOvf : Bool
  nrbEn : Bool
  nrw : BitVec 64
  nrr : BitVec 64
  nonce : Sparse 64
  attestAddr : BitVec 64
  attesting : Option (Sparse 64 × BitVec 64)
  upload : Sparse 64
  interrupts : List (Nat × Nat)
  hostData : BitVec 64
  flash : Flash
  peer : Nat
  routes : Table Nat
  failedLinks : List Nat
  tier2Sizes : List Nat
  tier2Failed : List Nat
  nextStart : Nat
  wakeFrom : BitVec 64
  wakes : Nat
deriving DecidableEq, Repr

/-- How a step of the machine can stop. -/
inductive Fault where
  /-- Raised by a step of the hardware or the host that is not due in this state: the spec's condition for it does not hold, so
  the machine cannot take it. Safe: the machine has no such transition. -/
  | notDue
  /-- Raised by an instruction that no group, agent slot or processing element issues (State.cur names none that exists). Safe:
  the machine never executes an instruction without an issuer. -/
  | noIssuer
deriving DecidableEq, Repr

/-- An instruction or a step for which the model has no meaning. -/
inductive Refusal where
  /-- Raised by an arm of exec for an instruction not modelled yet, by its mnemonic. Safe. -/
  | notModelled (mnemonic : String)
deriving DecidableEq, Repr

-- ## Reset (R5, R41, R304, R316)

/-- A group that has read and been told nothing. -/
def Know.none : Know := { floor := 0, seen := [], met := [], upTo := [] }

/-- Callisto's record of a group or team before its first sample. -/
def Perf.start : Perf :=
  { passes := 0, stall := 0, issued := 0, fired := 0, samples := 0, keptT := none, keptV := none, keptS := none, leadT := 0, leadV := 0, leadS := 0,
    probeFrom := none, probeEnded := false, coolS := 0, rate := 0, stallFrac := 0, issueUse := 0, fireRate := 0 }

/-- A path at a header, with nothing fetched. -/
def PathEntry.at (pc : BitVec 64) (mask : LaneMask) : PathEntry :=
  { pc := pc, mask := mask, waits := 0, words := [], fa := 15, fb := 15, fresh := false, miss := false, bpDone := false,
    decided := false }

/-- The start state of a group (R41), before its arguments and its PC are given. -/
def Group.start (num quad slot : Nat) (present : LaneMask) : Group :=
  { num := num, quad := quad, slot := slot, present := present, state := .ready, trap := none, owed := none, child := none, v := [], s := [], p := [],
    flags := [], base := 0, frames := [], rets := [], paths := [], spilledPaths := [], serl := none, vform := false,
    eqlast := 0xFFFFFFFF#32, loads := [], stores := [], seq := 0, fence := [], acquired := 0, held := none, fbar := false, hopTarget := none, know := Know.none, heard := [], starve := 0, inCycle := .none,
    loop := none, boosted := false, singleStep := false, stepped := false, syncs := 0, perf := Perf.start }

/-- An Encke agent's slot after reset: halted, no event, its registers at the values the log names. Log 8. -/
def Agent.start : Agent :=
  { grp := { Group.start 0 3 7 1#64 with paths := [PathEntry.at 0 1#64] }, saved := PathEntry.at 0 1#64, savedSerl := none, handling := none, events := [],
    halted := true, drawn := none }

/-- A core's registers at their reset values (R79, R280). -/
def Core.start : Core :=
  { enabled := false, started := false, gated := false, idle := 0, pwrEn := true, pwrGate := false, rate := 0x400,
    rateSet := 0x400, cap := 0x10000, level := 0x10000, owed := false, swcEn := [false, false, false, false], swcExp := [0, 0, 0, 0],
    swcHit := [false, false, false, false], icache := [], loops := [], codeKnow := Know.none, tlb := [], accepted := [], executing := none, tiles := [], copies := [], tileQ := [], errors := 0, issued := [], robin := [], sampledAt := 0,
    agent := Agent.start }

/-- A context's registers at their reset values (R130, R170, R197, R260, R287 to R294). -/
def Context.start : Context :=
  { ttbBase := 0, ttbEn := false, csc := 0x82680000, txcOvf := 1, txcRetry := 3, ovfInForce := 1, fix := false, level := 0,
    retuse := 0, go := false, mode := 0, dlim := 8, res := 0, drain := 0, drainOver := false, csaBase := 0, trbBase := 0, trbEn := false, trw := 0,
    trr := 0, dbgEn := false, dbgStop := false, bpAddr := [0, 0, 0, 0], bpEn := [false, false, false, false], dtgt := 0,
    dsel := 0, dadr := 0, ddat := 0, dref := false, dbusy := false, overflow := [] }

/-- A queue's registers at their reset values (R261). -/
def Queue.start : Queue :=
  { qbase := 0, qerra := 0, en := false, err := false, prio := 0x10, size := 0x08, ctx := 0, qrd := 0, wr := 0, listed := false,
    running := [] }

/-- The bytes of a configuration record of version 0 before its signature (R313). -/
def recordBody (kind : Byte) (payload : List Byte) : List Byte :=
  [0x44, 0x56, 0x52, 0x43, kind, 0, 0, 0] ++ List.replicate 8 0 ++ [BitVec.ofNat 8 payload.length, 0, 0, 0] ++ List.replicate 12 0 ++ payload

/-- The record set with which the modelled module is shipped: every core enabled, peer number 0, no peer routed, no second tier. Log 6. -/
def Flash.shipped : Flash :=
  { records := [recordBody 1 (List.replicate 32 0xFF#8), recordBody 3 [0#8]].map fun b => b ++ List.replicate 132 0,
    floors := [], bootImage := [], agentImage := [], trainGood := true }

/-- The machine right after reset (R316): every register at its Reset value, bring-up not begun, no launch and no queue state.
Cores, contexts and queues that the tables do not list stand at their start records. -/
def State.reset : State :=
  { turns := [], round := [], taken := 0, choices := 0, cur := .device, cycle := 0, mem := [], scratch := [], blurs := [], history := [], stamp := 0, arrivals := 0, left := [], dieTlb := [], poison := [], tables := [], shadows := [],
    committed := [], launches := [], grids := [], teams := [], cores := [], contexts := [], queues := [],
    lastUsed := [], devQueues := [], lastTag := 0, commits := 0, tickets := 0, pending := [], lastSource := [], nextId := 1,
    queries := [], colls := [], shootdowns := [], moves := [], oldBlocks := [], sweeps := [], ready := false, recov := false, stage := 0, err := 0,
    nrbBase := 0, nrbOvf := false, nrbEn := false, nrw := 0, nrr := 0, nonce := [], attestAddr := 0, attesting := none,
    upload := [], interrupts := [], hostData := 0, flash := Flash.shipped, peer := 0, routes := [], failedLinks := [],
    tier2Sizes := [], tier2Failed := [], nextStart := 0, wakeFrom := 0, wakes := 0 }

end Sys2Proof.Machine
end

