-- ==== Sys2Proof/Machine/Bits.lean ====
section
/-! DEFINITION. Bits, integers of N bits, bytes and lanes: the helpers of R2, R3 and R30 that every later file uses. -/

namespace Sys2Proof.Machine

/-- The low n bits of a value, as a natural number. -/
def lowNat (n : Nat) (x : BitVec 64) : Nat := x.toNat % 2 ^ n

/-- A natural number below 2^n read as a two's-complement integer of n bits (R2). -/
def signedOf (n v : Nat) : Int := if v < 2 ^ (n - 1) then (v : Int) else (v : Int) - (2 ^ n : Nat)

/-- The 64-bit pattern of an integer, wrapped. -/
def ofInt64 (x : Int) : BitVec 64 := BitVec.ofInt 64 x

/-- SignExtend of the low n bits to 64 bits (R30). -/
def signExt (n : Nat) (x : BitVec 64) : BitVec 64 := ofInt64 (signedOf n (lowNat n x))

/-- The low n bits of a value, zero above (R30). -/
def zeroExt (n : Nat) (x : BitVec 64) : BitVec 64 := BitVec.ofNat 64 (lowNat n x)

/-- An integer clamped between two bounds. -/
def clampInt (lo hi x : Int) : Int := if x < lo then lo else if hi < x then hi else x

/-- A value clamped to the range of an integer type of n bits (R162). -/
def clampTo (n : Nat) (signed : Bool) (x : Int) : Int :=
  if signed then clampInt (-(2 ^ (n - 1) : Nat)) ((2 ^ (n - 1) : Nat) - 1) x else clampInt 0 ((2 ^ n : Nat) - 1) x

/-- The number of bits set among the low n. -/
def popcount (n x : Nat) : Nat := ((List.range n).filter fun k => x.testBit k).length

/-- The zero bits above the highest set bit among the low n (R366). -/
def leadingZeros : Nat → Nat → Nat
  | 0, _ => 0
  | n + 1, x => if x.testBit n then 0 else 1 + leadingZeros n x

/-- The low n bits in reverse order (R357). -/
def bitReverse (n x : Nat) : Nat := (List.range n).foldl (fun acc k => if x.testBit k then acc + 2 ^ (n - 1 - k) else acc) 0

/-- The 32-bit word of a Bool: 1 or 0. -/
def boolWord (b : Bool) : BitVec 64 := if b then 1 else 0

/-- The 64-bit value of a register pair, low half in the even register (R55). -/
def pairOf (lo hi : Word) : BitVec 64 := hi ++ lo

/-- The halves of a pair. -/
def loWord (x : BitVec 64) : Word := x.extractLsb' 0 32
def hiWord (x : BitVec 64) : Word := x.extractLsb' 32 32

-- ## Bytes (R3)

/-- n bytes of a value, lowest address first. -/
def leBytes (n : Nat) (x : Nat) : List Byte := (List.range n).map fun k => BitVec.ofNat 8 (x / 2 ^ (8 * k))

/-- The value of a list of bytes, lowest address first. -/
def ofLeBytes : List Byte → Nat
  | [] => 0
  | b :: r => b.toNat + 256 * ofLeBytes r

/-- A field of len bytes at an offset of a list of bytes, as a number. -/
def bytesField (l : List Byte) (off len : Nat) : Nat := ofLeBytes ((l.drop off).take len)

/-- Bits [hi:lo] of a number. -/
def natBits (x hi lo : Nat) : Nat := x / 2 ^ lo % 2 ^ (hi + 1 - lo)

/-- Divides rounding up. -/
def ceilDiv (a b : Nat) : Nat := (a + b - 1) / b

-- ## Lanes

/-- The lanes of a mask, ascending. -/
def lanesOf (m : LaneMask) : List Nat := (List.range 64).filter fun l => m.getLsbD l

/-- The mask of one lane. -/
def laneBit (l : Nat) : LaneMask := 1#64 <<< l

/-- The mask of the lanes below e. -/
def lanesBelow (e : Nat) : LaneMask := laneBit e - 1

/-- The mask of a list of lanes. -/
def maskOf (l : List Nat) : LaneMask := l.foldl (fun m k => m ||| laneBit k) 0

/-- The mask of the lanes for which a test holds. -/
def maskWhere (f : Nat → Bool) : LaneMask := maskOf ((List.range 64).filter f)

end Sys2Proof.Machine
end

