-- ==== Sys2Proof/Machine/Float.lean ====
section
/-! DEFINITION. The number formats, exact values, rounding, overflow, NaN and zero rules (R155 to R172). -/

namespace Sys2Proof.Machine

/-- The floating formats of R155. -/
inductive FloatFmt where
  | f32 | f16 | bf16 | f8e4 | f8e5 | f4
deriving DecidableEq, Repr

/-- Mantissa bits. -/
def FloatFmt.mant : FloatFmt → Nat
  | .f32 => 23 | .f16 => 10 | .bf16 => 7 | .f8e4 => 3 | .f8e5 => 2 | .f4 => 1
/-- Exponent bits. -/
def FloatFmt.expBits : FloatFmt → Nat
  | .f32 => 8 | .f16 => 5 | .bf16 => 8 | .f8e4 => 4 | .f8e5 => 5 | .f4 => 2
/-- The exponent bias. -/
def FloatFmt.bias : FloatFmt → Int
  | .f32 => 127 | .f16 => 15 | .bf16 => 127 | .f8e4 => 7 | .f8e5 => 15 | .f4 => 1
/-- Bits in all. -/
def FloatFmt.width (f : FloatFmt) : Nat := 1 + f.expBits + f.mant
/-- The format has infinities (R155). -/
def FloatFmt.hasInf : FloatFmt → Bool
  | .f8e4 | .f4 => false
  | _ => true
/-- The exponent of the last mantissa bit of a subnormal. -/
def FloatFmt.minExp (f : FloatFmt) : Int := 1 - f.bias - (f.mant : Int)
/-- The largest finite value is maxMant x 2^maxExp. -/
def FloatFmt.maxMant : FloatFmt → Nat
  | .f8e4 => 14
  | .f4 => 3
  | f => 2 ^ (f.mant + 1) - 1
def FloatFmt.maxExp : FloatFmt → Int
  | .f32 => 104 | .f16 => 5 | .bf16 => 120 | .f8e4 => 5 | .f8e5 => 13 | .f4 => 1
/-- The bits of the largest finite value. -/
def FloatFmt.maxBits : FloatFmt → Nat
  | .f32 => 0x7F7FFFFF | .f16 => 0x7BFF | .bf16 => 0x7F7F | .f8e4 => 0x7E | .f8e5 => 0x7B | .f4 => 0x7
/-- The bits of +infinity, for the formats that have one. -/
def FloatFmt.infBits : FloatFmt → Nat
  | .f32 => 0x7F800000 | .f16 => 0x7C00 | .bf16 => 0x7F80 | .f8e5 => 0x7C | f => f.maxBits
/-- The canonical NaN (R168); a NaN converted to f4 gives +0 (R165). -/
def FloatFmt.nanBits : FloatFmt → Nat
  | .f32 => 0x7FC00000 | .f16 => 0x7E00 | .bf16 => 0x7FC0 | .f8e4 => 0x7F | .f8e5 => 0x7E | .f4 => 0
/-- The sign bit. -/
def FloatFmt.signBit (f : FloatFmt) : Nat := 2 ^ (f.width - 1)

/-- The rounding modes (R163). -/
inductive Rounding where
  | rn | rz | rd | ru
deriving DecidableEq, Repr

/-- The mode that a variant field names; a reserved code reaches no instruction. -/
def Rounding.ofCode (c : Nat) : Rounding :=
  match c with
  | 0 => .rn
  | 1 => .rz
  | 2 => .rd
  | _ => .ru

/-- A value before its rounding: a NaN (with the operand's bits as f32 that decide it, or none for an invalid operation), an infinity,
or a magnitude num x 2^exp; sticky says that the exact magnitude lies above num x 2^exp by less than 2^exp. -/
inductive Value where
  | nan (bits : Option Word)
  | inf (neg : Bool)
  | fin (neg : Bool) (num : Nat) (exp : Int) (sticky : Bool)
deriving DecidableEq, Repr

/-- An exact value as one to be rounded. -/
def Exact.toValue : Exact → Value
  | .nan b => .nan (some b)
  | .inf n => .inf n
  | .fin n a e => .fin n a e false

-- ## Decode (R155 to R158)

/-- The value of a bit pattern. A NaN keeps its sign and payload as f32 bits. -/
def decodeFloat (f : FloatFmt) (x : Nat) : Exact :=
  let x := x % 2 ^ f.width
  let neg := decide (f.signBit ≤ x)
  let e := x / 2 ^ f.mant % 2 ^ f.expBits
  let m := x % 2 ^ f.mant
  let nan : Exact :=
    .nan (BitVec.ofNat 32 ((if neg then 0x80000000 else 0) + 0x7F800000 + m * 2 ^ (23 - f.mant)))
  if f.hasInf && e == 2 ^ f.expBits - 1 then (if m = 0 then .inf neg else nan)
  else if f == .f8e4 && x % 128 == 127 then nan
  else if e = 0 then .fin neg m f.minExp
  else .fin neg (2 ^ f.mant + m) (f.minExp + (e : Int) - 1)

/-- A pattern is a subnormal of its format. -/
def isSubnormal (f : FloatFmt) (x : Nat) : Bool := x / 2 ^ f.mant % 2 ^ f.expBits == 0 && x % 2 ^ f.mant != 0

/-- An operand's value at a compatibility level: at level 2 a subnormal f32, f16 or bf16 operand reads as 0 with its sign (R172). -/
def readFloat (f : FloatFmt) (level : Nat) (x : Nat) : Exact :=
  match f with
  | .f32 | .f16 | .bf16 =>
    if level == 2 && isSubnormal f x then .fin (decide (f.signBit ≤ x % 2 ^ f.width)) 0 0 else decodeFloat f x
  | _ => decodeFloat f x

-- ## Round and Encode (R163 to R168, R172)

/-- The number of bits of a natural number. -/
def bitLen (n : Nat) : Nat := if n = 0 then 0 else Nat.log2 n + 1

/-- Whether a magnitude kept x 2^q with a rest is rounded up: half compares the rest with one half. -/
def roundUp (mode : Rounding) (neg : Bool) (kept : Nat) (half : Ordering) (inexact : Bool) : Bool :=
  match mode with
  | .rn => match half with
    | .gt => true
    | .eq => kept % 2 == 1
    | .lt => false
  | .rz => false
  | .rd => neg && inexact
  | .ru => !neg && inexact

/-- A magnitude num x 2^exp (plus a sticky rest) as a multiple of 2^q, rounded. -/
def roundAt (mode : Rounding) (neg : Bool) (num : Nat) (exp : Int) (sticky : Bool) (q : Int) : Nat :=
  if q ≤ exp then num <<< (exp - q).toNat
  else
    let sh := (q - exp).toNat
    if bitLen num + 1 < sh then (if roundUp mode neg 0 .lt (num != 0 || sticky) then 1 else 0)
    else
      let kept := num >>> sh
      let rest := num - kept <<< sh
      let h := 1 <<< (sh - 1)
      let half := if rest < h then Ordering.lt else if h < rest then .gt else if sticky then .gt else .eq
      kept + (if roundUp mode neg kept half (rest != 0 || sticky) then 1 else 0)

/-- Round (R30, R163): the mantissa and exponent of the format's value nearest in the mode's direction, with the exponent unbounded
above and the format's subnormals below. -/
def roundTo (f : FloatFmt) (mode : Rounding) (neg : Bool) (num : Nat) (exp : Int) (sticky : Bool) : Nat × Int :=
  let top := (bitLen num : Int) + exp - (f.mant + 1 : Nat)
  let q := if top < f.minExp then f.minExp else top
  let k := roundAt mode neg num exp sticky q
  if k = 2 ^ (f.mant + 1) then (2 ^ f.mant, q + 1) else (k, q)

/-- The rounded magnitude exceeds the largest finite value (R165). -/
def overflows (f : FloatFmt) (m : Nat) (q : Int) : Bool :=
  m != 0 && (decide (f.maxExp < q) || q == f.maxExp && decide (f.maxMant < m))

/-- The bits of a finite rounded magnitude. -/
def finiteBits (f : FloatFmt) (m : Nat) (q : Int) : Nat :=
  if m < 2 ^ f.mant then m else (q - f.minExp + 1).toNat * 2 ^ f.mant + (m - 2 ^ f.mant)

/-- How a result is written: its mode, sat, the compatibility level, whether it is a conversion (R165), and whether the conversion is
from f32 to f16 (R172). -/
structure WriteMode where
  mode : Rounding
  sat : Bool
  level : Nat
  conv : Bool
  f32ToF16 : Bool
deriving DecidableEq, Repr

/-- The bits of an overflowed result (R165). -/
def overflowBits (f : FloatFmt) (w : WriteMode) (neg : Bool) : Nat :=
  let away := match w.mode with
    | .rn => true
    | .rz => false
    | .rd => neg
    | .ru => !neg
  if w.sat || (w.f32ToF16 && w.level == 2) then f.maxBits
  else match f with
    | .f8e4 => if away then 0x7F else f.maxBits
    | .f4 => f.maxBits
    | f => if away then f.infBits else f.maxBits

/-- The bits of an infinite result: a conversion's table in R165, and the clamp of R166 for the other instructions. -/
def infiniteBits (f : FloatFmt) (w : WriteMode) : Nat :=
  match f with
  | .f8e4 => if w.sat then f.maxBits else 0x7F
  | .f4 => f.maxBits
  | f => if w.sat then f.maxBits else f.infBits

/-- A NaN's bits narrowed to a format, its highest mantissa bit set (R172). -/
def narrowNan (f : FloatFmt) (b : Word) : Nat :=
  let neg := b.getLsbD 31
  let sign := if neg then f.signBit else 0
  match f with
  | .f4 => 0
  | .f8e4 => sign + 0x7F
  | f =>
    let payload := b.toNat % 2 ^ 23 / 2 ^ (23 - f.mant)
    let quiet := if payload / 2 ^ (f.mant - 1) % 2 = 1 then payload else payload + 2 ^ (f.mant - 1)
    sign + f.infBits + quiet

/-- A magnitude's bits with a sign; the NaN 0x7F that an f8e4 overflow writes has none (R165). -/
def signed (f : FloatFmt) (neg : Bool) (b : Nat) : Nat := if neg && !(f == .f8e4 && b == 0x7F) then f.signBit + b else b

/-- Encode (R30): the bits of a value rounded once to a format. -/
def writeFloat (f : FloatFmt) (w : WriteMode) (v : Value) : Nat :=
  match v with
  | .nan b =>
    if w.level = 0 then f.nanBits
    else match b with
      | some b => narrowNan f b
      | none => f.nanBits
  | .inf neg => signed f neg (infiniteBits f w)
  | .fin neg num exp sticky =>
    let (m, q) := roundTo f w.mode neg num exp sticky
    let b :=
      if overflows f m q then overflowBits f w neg
      else if f == .f32 && decide (1 ≤ w.level) && decide (m < 2 ^ 23) then 0
      else finiteBits f m q
    signed f neg b

-- ## Exact arithmetic

/-- The value is a NaN. -/
def Exact.isNan : Exact → Bool
  | .nan _ => true
  | _ => false

/-- The value is a zero. -/
def Exact.isZero : Exact → Bool
  | .fin _ n _ => n == 0
  | _ => false

/-- The sign of a value that is no NaN. -/
def Exact.neg : Exact → Bool
  | .nan b => b.getLsbD 31
  | .inf n => n
  | .fin n _ _ => n

/-- The opposite value. -/
def Exact.negate : Exact → Exact
  | .nan b => .nan b
  | .inf n => .inf !n
  | .fin n a e => .fin (!n) a e

/-- The first NaN of a list of operands (R172). -/
def firstNan : List Exact → Option Word
  | [] => none
  | .nan b :: _ => some b
  | _ :: r => firstNan r

/-- A finite value as an integer multiple of 2^q, for q no higher than its exponent. -/
def Exact.scaled (q : Int) : Exact → Int
  | .fin n a e => let m : Int := ((a <<< (e - q).toNat : Nat) : Int); if n then -m else m
  | _ => 0

/-- The least exponent of a list of terms. -/
def leastExp : List Exact → Int
  | [] => 0
  | [.fin _ _ e] => e
  | .fin _ _ e :: r => let m := leastExp r; if e < m then e else m
  | _ :: r => leastExp r

/-- The sign of an exact zero sum (R164). -/
def zeroSign (mode : Rounding) (terms : List Exact) : Bool :=
  if terms.all (fun t => t.neg) then true
  else if terms.all (fun t => !t.neg) then false
  else mode == .rd

/-- The exact sum of terms that hold no NaN: an infinity, an invalid sum of opposite infinities, or a finite value (R164, R174). -/
def sumTerms (mode : Rounding) (terms : List Exact) : Value :=
  let pos := terms.contains (.inf false)
  let neg := terms.contains (.inf true)
  if pos && neg then .nan none
  else if pos then .inf false
  else if neg then .inf true
  else
    let q := leastExp terms
    let s : Int := terms.foldl (fun acc t => acc + t.scaled q) 0
    if s = 0 then .fin (zeroSign mode terms) 0 0 false else .fin (decide (s < 0)) s.natAbs q false

/-- The exact product of two values that are no NaN; none where it is invalid (R168). -/
def mulExact (x y : Exact) : Option Exact :=
  let neg := x.neg != y.neg
  match x, y with
  | .inf _, .inf _ => some (.inf neg)
  | .inf _, _ => if y.isZero then none else some (.inf neg)
  | _, .inf _ => if x.isZero then none else some (.inf neg)
  | .fin _ a e, .fin _ b g => some (.fin neg (a * b) (e + g))
  | _, _ => none

/-- x + y (R378). -/
def addValue (mode : Rounding) (x y : Exact) : Value :=
  match firstNan [x, y] with
  | some b => .nan (some b)
  | none => sumTerms mode [x, y]

/-- x x y (R378). -/
def mulValue (x y : Exact) : Value :=
  match firstNan [x, y] with
  | some b => .nan (some b)
  | none => match mulExact x y with
    | some p => p.toValue
    | none => .nan none

/-- x x y + z with one rounding (R378). -/
def fmaValue (mode : Rounding) (x y z : Exact) : Value :=
  match firstNan [x, y, z] with
  | some b => .nan (some b)
  | none => match mulExact x y with
    | some p => sumTerms mode [p, z]
    | none => .nan none

/-- A sum of products and terms, with any NaN or invalid product settled first (R174): the NaN operands in the order given. -/
def dotValue (mode : Rounding) (nanOrder : List Exact) (pairs : List (Exact × Exact)) (c : Exact) : Value :=
  match firstNan nanOrder with
  | some b => .nan (some b)
  | none =>
    let ps := pairs.map fun p => mulExact p.1 p.2
    if ps.any (fun p => p.isNone) then .nan none
    else sumTerms mode (c :: ps.filterMap id)

/-- num1 x 2^e1 / (num2 x 2^e2), num2 not zero, to at least 64 bits. -/
def divFinite (neg : Bool) (a : Nat) (e : Int) (b : Nat) (g : Int) : Value :=
  let k := 64 + bitLen b
  let n := a <<< k
  .fin neg (n / b) (e - g - (k : Int)) (n % b != 0)

/-- x / y (R378). -/
def divValue (x y : Exact) : Value :=
  match firstNan [x, y] with
  | some b => .nan (some b)
  | none =>
    let neg := x.neg != y.neg
    match x, y with
    | .inf _, .inf _ => .nan none
    | .inf _, _ => .inf neg
    | _, .inf _ => .fin neg 0 0 false
    | .fin _ a e, .fin _ b g =>
      if b = 0 then (if a = 0 then .nan none else .inf neg)
      else if a = 0 then .fin neg 0 0 false
      else divFinite neg a e b g
    | _, _ => .nan none

/-- x x 2^k (R394). -/
def scaleValue (x : Exact) (k : Int) : Value :=
  match x with
  | .nan b => .nan (some b)
  | .inf n => .inf n
  | .fin n a e => if a = 0 then .fin n 0 0 false else .fin n a (e + k) false

/-- The integer square root, by its bits from the highest: the largest r with r^2 no more than n. -/
def isqrtAux (n : Nat) : Nat → Nat → Nat
  | 0, r => r
  | k + 1, r => let t := r + 2 ^ k; if t * t ≤ n then isqrtAux n k t else isqrtAux n k r
def isqrt (n : Nat) : Nat := isqrtAux n (bitLen n / 2 + 1) 0

/-- The square root of a positive finite value, to at least 64 bits. -/
def sqrtFinite (a : Nat) (e : Int) : Value :=
  let odd := e % 2 != 0
  let a := if odd then a * 2 else a
  let e := if odd then e - 1 else e
  let n := a <<< 160
  let r := isqrt n
  .fin false r (e / 2 - 80) (r * r != n)

/-- The reciprocal square root of a positive finite value. -/
def rsqrtFinite (a : Nat) (e : Int) : Value :=
  let odd := e % 2 != 0
  let a := if odd then a * 2 else a
  let e := if odd then e - 1 else e
  let k := 2 * (bitLen a + 80)
  let r := isqrt (2 ^ k / a)
  .fin false r (-(e / 2) - (k / 2 : Nat)) (r * r * a != 2 ^ k)

-- ## Comparison, class, integral values

/-- The order of two values that are no NaN; zeros of both signs are equal (R390). -/
def compareExact (x y : Exact) : Ordering :=
  match x, y with
  | .inf a, .inf b => if a = b then .eq else if a then .lt else .gt
  | .inf a, _ => if a then .lt else .gt
  | _, .inf b => if b then .gt else .lt
  | _, _ =>
    let q := leastExp [x, y]
    compare (x.scaled q) (y.scaled q)

/-- x is before y in the order of fmin and fmax: -0 is less than +0 (R392). -/
def lessExact (x y : Exact) : Bool :=
  match compareExact x y with
  | .lt => true
  | .gt => false
  | .eq => x.neg && !y.neg

/-- The integer that a mode selects from a finite magnitude (R393). -/
def roundIntegral (mode : Rounding) (neg : Bool) (num : Nat) (exp : Int) : Nat := roundAt mode neg num exp false 0

/-- The condition codes (R20) on an ordering. -/
def condHolds (cond : Nat) (o : Ordering) : Bool :=
  match cond with
  | 0 => o == .eq
  | 1 => o != .eq
  | 2 => o == .lt
  | 3 => o != .gt
  | 4 => o == .gt
  | _ => o != .lt

end Sys2Proof.Machine
end

