-- ==== Sys2Proof/Machine/Ops.lean ====
section
/-! DEFINITION. The named operations over the records of State, the group that issues, its registers and its path table, taking a
trap, and the return from one. -/

namespace Sys2Proof.Machine

/-- The three outcomes of a step of this machine. -/
abbrev Result := Host.Outcome State Fault Refusal

-- ## Records by number

/-- A core; one that the table does not list stands at its start record. -/
def State.core (s : State) (c : Nat) : Core := Table.getD s.cores c Core.start
def State.modCore (s : State) (c : Nat) (f : Core → Core) : State := { s with cores := Table.put s.cores c (f (s.core c)) }

/-- A context; one that the table does not list stands at its start record. -/
def State.context (s : State) (x : Nat) : Context := Table.getD s.contexts x Context.start
def State.modContext (s : State) (x : Nat) (f : Context → Context) : State :=
  { s with contexts := Table.put s.contexts x (f (s.context x)) }

/-- A queue; one that the table does not list stands at its start record. -/
def State.queue (s : State) (q : Nat) : Queue := Table.getD s.queues q Queue.start
def State.modQueue (s : State) (q : Nat) (f : Queue → Queue) : State :=
  { s with queues := Table.put s.queues q (f (s.queue q)) }

def State.modTeam (s : State) (t : Nat) (f : Team → Team) : State := { s with teams := Table.modify s.teams t f }
def State.modGrid (s : State) (g : Nat) (f : Grid → Grid) : State := { s with grids := Table.modify s.grids g f }
def State.modLaunch (s : State) (l : Nat) (f : Launch → Launch) : State := { s with launches := Table.modify s.launches l f }

/-- The group that a reference names: a group of a team, or with team 0, which no team has, the slot of a core's agent. -/
def State.findGroup (s : State) (r : GroupRef) : Option Group :=
  if r.team = 0 then some (s.core r.grp).agent.grp
  else match Table.find s.teams r.team with
    | some t => t.groups[r.grp]?
    | none => (Table.find s.left r.team).bind fun x => x.2[r.grp]?

/-- Changes the group that a reference names, one that an ended team has left among them. -/
def State.modGroup (s : State) (r : GroupRef) (f : Group → Group) : State :=
  if r.team = 0 then s.modCore r.grp fun c => { c with agent := { c.agent with grp := f c.agent.grp } }
  else if (Table.find s.teams r.team).isSome then s.modTeam r.team fun t => { t with groups := listModify t.groups r.grp f }
  else { s with left := Table.modify s.left r.team fun x => (x.1, listModify x.2 r.grp f) }

/-- Draws a free choice of the hardware among n outcomes (log 2). -/
def State.choose (s : State) (n : Nat) : Nat × State :=
  (Config.choice s.choices % n, { s with choices := s.choices + 1 })

-- ## Registers (R55, R56)

/-- The ring slot that register vN names: (b + N) mod A (R56). The agent's slot has no ring (R37). -/
def Group.vSlot (g : Group) (ring n : Nat) : Nat := if ring = 0 then n else (g.base + n) % ring

/-- The key of a ring slot's lane in the register file. -/
def vKey (slot lane : Nat) : Nat := slot * 64 + lane

/-- Register vN of a lane; an absent lane reads 0 (R32, R353). -/
def Group.readV (g : Group) (ring n lane : Nat) : Word :=
  if g.present.getLsbD lane then Sparse.get g.v (vKey (g.vSlot ring n) lane) else 0

/-- Writes register vN of a lane; an absent lane has no register that an instruction writes (R32). -/
def Group.writeV (g : Group) (ring n lane : Nat) (x : Word) : Group :=
  if g.present.getLsbD lane then { g with v := Sparse.set g.v (vKey (g.vSlot ring n) lane) x } else g

/-- The pair vN:vN+1 of a lane. -/
def Group.readVPair (g : Group) (ring n lane : Nat) : BitVec 64 := pairOf (g.readV ring n lane) (g.readV ring (n + 1) lane)
def Group.writeVPair (g : Group) (ring n lane : Nat) (x : BitVec 64) : Group :=
  (g.writeV ring n lane (loWord x)).writeV ring (n + 1) lane (hiWord x)

/-- The s-registers, which every path shares (R55). -/
def Group.readS (g : Group) (n : Nat) : Word := Sparse.get g.s n
def Group.writeS (g : Group) (n : Nat) (x : Word) : Group := { g with s := Sparse.set g.s n x }
def Group.readSPair (g : Group) (n : Nat) : BitVec 64 := pairOf (g.readS n) (g.readS (n + 1))
def Group.writeSPair (g : Group) (n : Nat) (x : BitVec 64) : Group := (g.writeS n (loWord x)).writeS (n + 1) (hiWord x)

/-- Predicate pN of every lane; p0 reads 1 (R55). -/
def Group.readP (g : Group) (n : Nat) : LaneMask := if n = 0 then BitVec.allOnes 64 else Sparse.get g.p n

/-- Writes pN in the lanes of a mask; a write to p0 is discarded (R55). -/
def Group.writeP (g : Group) (n : Nat) (lanes vals : LaneMask) : Group :=
  if n = 0 then g
  else
    let m := lanes &&& g.present
    { g with p := Sparse.set g.p n ((g.readP n &&& ~~~m) ||| (vals &&& m)) }

/-- The completion flags (R60). -/
def Group.flag (g : Group) (f : Nat) : BitVec 6 := Sparse.get g.flags f

/-- Every flag that a wait mask names reads 0 (R60). -/
def Group.flagsClear (g : Group) (mask : BitVec 12) : Bool :=
  (List.range 12).all fun f => !mask.getLsbD f || g.flag f == 0

/-- The group has seen the flags of a mask at 0: its later releases cover what the commands with rel that they counted have written (R301, R391). -/
def Group.sawFlags (g : Group) (mask : BitVec 12) : Group :=
  { g with stores := g.stores.map fun x => if x.flag.any fun f => mask.getLsbD f then { x with flag := none } else x }

/-- Every flag of the group reads 0. -/
def Group.flagsZero (g : Group) : Bool := g.flags.isEmpty

-- ## What a group knows (R218, R221, R222)

/-- What two lists of knowledge give together. -/
def Know.join (a b : Know) : Know := { floor := max a.floor b.floor, seen := a.seen ++ b.seen, met := a.met ++ b.met, upTo := a.upTo ++ b.upTo }

/-- A store of a group is to be shown, by its number. -/
def Know.shows (k : Know) (src : GroupRef) (seq : Nat) : Bool := k.met.contains (src, seq) || k.upTo.any fun u => u.1 == src && decide (seq < u.2)

/-- A group's knowledge as it tells it: with its own stores below a number. -/
def Know.told (k : Know) (r : GroupRef) (seq : Nat) : Know := { k with upTo := (r, seq) :: k.upTo }

-- ## The path table (R63 to R67)

/-- A path that can be active: it waits on no flag, and its next word is present (R65, R66). -/
def PathEntry.runnable (p : PathEntry) : Bool := p.waits == 0 && !p.miss

/-- The position and entry of the lowest PC among the runnable entries, counting from position k. -/
def lowestPath : List PathEntry → Nat → Option (Nat × PathEntry)
  | [], _ => none
  | p :: r, k =>
    match lowestPath r (k + 1) with
    | none => if p.runnable then some (k, p) else none
    | some (j, q) => if p.runnable && decide (p.pc.toNat ≤ q.pc.toNat) then some (k, p) else some (j, q)

/-- The path whose word is at hand while the group waits or is trapped at it (R65). -/
def Group.heldPath (g : Group) : Option (Option Nat × PathEntry) :=
  match g.held with
  | some none => g.serl.map fun z => (none, z.path)
  | some (some k) => (g.paths[k]?).map fun p => (some k, p)
  | none => none

/-- The path that the rules choose at an instruction boundary (R63, R65, R67): the pass of a serialising path while its next word is present,
else the lowest runnable entry. The position is none for the serialising path. -/
def Group.nextPath (g : Group) : Option (Option Nat × PathEntry) :=
  match g.serl with
  | some z => if z.path.miss then (lowestPath g.paths 0).map fun e => (some e.1, e.2) else some (none, z.path)
  | none => (lowestPath g.paths 0).map fun e => (some e.1, e.2)

/-- The active path: it changes only at an instruction boundary (R65). -/
def Group.active (g : Group) : Option (Option Nat × PathEntry) :=
  match g.heldPath with
  | some x => some x
  | none => g.nextPath

/-- Puts an entry in the place of the active path. -/
def Group.setPath (g : Group) (sel : Option Nat) (p : PathEntry) : Group :=
  match sel with
  | some k => { g with paths := listModify g.paths k fun _ => p }
  | none => match g.serl with
    | some z => { g with serl := some { z with path := p } }
    | none => g

/-- The entries of the path table: the paths and the serialisation state, without the spilled ones (R441, R286). -/
def Group.tableSize (g : Group) : Nat := g.paths.length + (if g.serl.isSome then 1 else 0)

/-- More than one path, counting the spilled entries and a serialising path's own state (R57, R178). -/
def Group.severalPaths (g : Group) : Bool := decide (1 < g.tableSize + g.spilledPaths.length)

/-- Two entries that merge: the same PC, and neither waits (R63). One that arrives at a word as at a header does not join one that stands
there inside its clause: that word is no header (R59). -/
def PathEntry.meets (p q : PathEntry) : Bool := p.pc == q.pc && p.waits == 0 && q.waits == 0 && p.words.isEmpty == q.words.isEmpty

/-- The entry that two merged entries become. -/
def PathEntry.union (p q : PathEntry) : PathEntry :=
  { p with mask := p.mask ||| q.mask, words := if p.words.isEmpty then q.words else p.words, bpDone := p.bpDone && q.bpDone,
           decided := p.decided && q.decided,
           fresh := p.fresh || q.fresh, miss := p.miss && q.miss }

/-- Adds an entry to a list of paths, merging it with one at the same PC. -/
def addPath (p : PathEntry) : List PathEntry → List PathEntry
  | [] => [p]
  | q :: r => if q.meets p then q.union p :: r else q :: addPath p r

/-- The position of the entry with the highest PC. -/
def highestPath : List PathEntry → Nat → Option (Nat × PathEntry)
  | [], _ => none
  | p :: r, k =>
    match highestPath r (k + 1) with
    | none => some (k, p)
    | some (j, q) => if decide (q.pc.toNat < p.pc.toNat) then some (k, p) else some (j, q)

/-- One entry at most moves to the spill stack when the table holds more than 8, or back when it has room, the last spilled first (R64, log 90). -/
def Group.balanceOnce (g : Group) : Group :=
  if 8 < g.tableSize then
    match highestPath g.paths 0 with
    | some (k, p) => { g with paths := listDrop g.paths k, spilledPaths := p :: g.spilledPaths }
    | none => g
  else if g.tableSize < 8 then
    match g.spilledPaths with
    | p :: r => { g with paths := addPath p g.paths, spilledPaths := r }
    | [] => g
  else g

/-- The path table after a change: empty masks leave, equal PCs merge, and entries spill or come back (R63, R64). -/
def Group.settle (g : Group) : Group :=
  let g := { g with paths := (g.paths.filter fun (p : PathEntry) => p.mask != 0).foldl (fun l p => addPath p l) [] }
  ((g.balanceOnce).balanceOnce).balanceOnce

/-- The bytes that the group's spill stack holds (R58): spilled frames, return records past the eighth, spilled entries. -/
def Group.spillBytes (g : Group) : Nat :=
  256 * ((g.frames.filter fun f => f.spilled.isSome).foldl (fun n f => n + f.size) 0)
    + 16 * (g.rets.length - 8) + 16 * g.spilledPaths.length

/-- The limit of the spill stack (R58, R264): 256 KiB for SPS 0, else 2^(SPS + 15) bytes. -/
def spillLimit (sps : Nat) : Nat := if sps = 0 then 256 * 1024 else 2 ^ (sps + 15)

/-- The entry after the word at hand: the next address, with the rest of the clause. -/
def PathEntry.past (p : PathEntry) : PathEntry :=
  { p with pc := p.pc + 8, words := p.words.tail, fresh := false, bpDone := false, decided := false }

/-- A cause of waiting that a later issue of the same word finds cleared or not (R42). -/
def WaitOn.retries : WaitOn → Bool
  | .lanes .. | .cow _ | .unbind _ | .shadow | .power .. | .hub => false
  | _ => true

/-- A group that waits for such a cause is Ready again, to issue its word anew: an event has changed what it waits for. -/
def Group.rouse (g : Group) : Group :=
  match g.state with
  | .waiting w => if w.retries then { g with state := .ready } else g
  | _ => g

/-- Every group of a core that waits for such a cause is Ready again. -/
def State.rouseCore (s : State) (c : Nat) : State :=
  { s with teams := s.teams.map fun e => if e.2.core = c then (e.1, { e.2 with groups := e.2.groups.map Group.rouse }) else e }

/-- Every group and every agent that waits for such a cause is Ready again. -/
def State.rouseAll (s : State) : State :=
  { s with teams := s.teams.map fun e => (e.1, { e.2 with groups := e.2.groups.map Group.rouse }),
           cores := s.cores.map fun e => (e.1, { e.2 with agent := { e.2.agent with grp := e.2.agent.grp.rouse } }) }

/-- A group that waits for the order of accesses is Ready again. -/
def Group.reorder (g : Group) : Group := if g.state == .waiting .ordering then { g with state := .ready } else g

/-- Every group that waits for the order of accesses is Ready again: a store has performed further. -/
def State.reorder (s : State) : State :=
  { s with teams := s.teams.map fun e => (e.1, { e.2 with groups := e.2.groups.map Group.reorder }),
           cores := s.cores.map fun e => (e.1, { e.2 with agent := { e.2.agent with grp := e.2.agent.grp.reorder } }) }

/-- The flags of a group as a wait set sees them: a waiting entry whose named flags all read 0 becomes runnable and stays so (R66,
R462); a group parked on them is Ready again (R42). While a path is held at a word, the table settles at that word's end (R65). -/
def Group.wake (g : Group) : Group :=
  let met := fun p : PathEntry => p.waits != 0 && g.flagsClear p.waits
  let w := fun p : PathEntry => if met p then { p with waits := 0 } else p
  let g := (g.paths ++ g.spilledPaths).foldl (fun (h : Group) p => if met p then h.sawFlags p.waits else h) g
  let g := { g with paths := g.paths.map w, spilledPaths := g.spilledPaths.map w }
  let g := if g.held.isSome then g else g.settle
  match g.state with
  | .parkedYield => if g.active.isSome then { g with state := .ready } else g
  | _ => g.rouse

/-- The compatibility level of a team's launch (R171). -/
def State.teamLevel (s : State) (t : Team) : Nat :=
  match Table.find s.grids t.grid with
  | some g => match Table.find s.launches g.launch with
    | some l => l.level
    | none => 0
  | none => 0

-- ## The issuing group

/-- The state of R42 in which a group can issue. -/
def GroupState.canIssue (g : GroupState) : Bool := g == .ready

/-- What an instruction sees of its issuer: a user group with its team and grid, or an agent's slot (no reference). -/
structure Env where
  ref : Option GroupRef
  core : Nat
  ctx : Nat
  team : Option Team
  grid : Option Grid
  grp : Group
  sel : Option Nat
  path : PathEntry
  ring : Nat
  level : Nat
deriving DecidableEq, Repr

/-- The context for which a core's agent acts: that of the trap, fault record or packet it handles, else context 0 (log 8). -/
def State.agentCtx (s : State) (c : Nat) : Nat :=
  let ofTeam := fun tk : Nat => match Table.find s.teams tk with
    | some t => match Table.find s.grids t.grid with
      | some g => g.ctx
      | none => 0
    | none => 0
  match (s.core c).agent.handling with
  | some (.trap r) => ofTeam r.team
  | some (.faultRecord tk) => ofTeam tk
  | some .packet => match (s.core c).agent.drawn with
    | some d => (s.queue d.q).ctx.toNat
    | none => 0
  | _ => 0

/-- The issuer of the instruction at hand; none where the actor is no group that can issue. What the instruction leaves holds no path, unless it
waits or traps. An agent's slot belongs to no launch and computes at level 0, which its mfsr of compat reads (DESIGN CHOICE, log 8). -/
def State.env (s : State) : Option Env :=
  match s.cur with
  | .group r =>
    match Table.find s.teams r.team with
    | some t =>
      match t.groups[r.grp]?, Table.find s.grids t.grid with
      | some g, some gr =>
        if g.state.canIssue && t.phase == .placed then
          match g.active with
          | some (sel, p) =>
            let lvl := match Table.find s.launches gr.launch with
              | some l => l.level
              | none => 0
            some { ref := some r, core := t.core, ctx := gr.ctx, team := some t, grid := some gr, grp := { g with held := none }, sel := sel,
                   path := p, ring := gr.image.regs, level := lvl }
          | none => none
        else none
      | _, _ => none
    | none => none
  | .agent c =>
    let g := (s.core c).agent.grp
    if g.state.canIssue && !(s.core c).agent.halted then
      match g.active with
      | some (sel, p) =>
        some { ref := none, core := c, ctx := s.agentCtx c, team := none, grid := none, grp := { g with held := none }, sel := sel, path := p, ring := 0,
               level := 0 }
      | none => none
    else none
  | _ => none

/-- The reference of the issuing group. -/
def Env.gref (e : Env) : GroupRef := e.ref.getD { team := 0, grp := e.core }

/-- Writes the issuer's group back. -/
def Env.setGroup (e : Env) (g : Group) (s : State) : State := s.modGroup e.gref fun _ => g

/-- The group past the word at hand, its path table settled (R63). -/
def Env.past (e : Env) (g : Group) : Group := { (g.setPath e.sel e.path.past).settle with state := .ready }

/-- The state after a completed instruction whose group is g: the next word. -/
def Env.finish (e : Env) (g : Group) (s : State) : State := e.setGroup (e.past g) s

/-- The group waits at the word at hand (R42): it issues it again, or an event completes it. -/
def Env.waitOn (e : Env) (w : WaitOn) (s : State) : State := e.setGroup { e.grp with state := .waiting w, held := some e.sel } s

/-- The group is in V form. -/
def Env.vform (e : Env) : Bool := e.grp.vform

/-- The group is a legacy-width group of 32 lanes (R40). -/
def Env.legacy (e : Env) : Bool :=
  match e.grid with
  | some g => g.image.legacy
  | none => false

/-- The lanes or elements for which Guard holds (R17, R30). -/
def Env.guard (e : Env) (g : Guard) : LaneMask :=
  let p := e.grp.readP g.pg.toNat
  e.path.mask &&& (if g.pn then ~~~p else p)

/-- Guard holds in at least one active lane, so that an instruction that acts once for its group acts. -/
def Env.acts (e : Env) (g : Guard) : Bool := e.guard g != 0

/-- Reads a v-register of the issuing group. -/
def Env.readV (e : Env) (n lane : Nat) : Word := e.grp.readV e.ring n lane
def Env.readVPair (e : Env) (n lane : Nat) : BitVec 64 := e.grp.readVPair e.ring n lane

-- ## The scoreboard (R62)

/-- The registers that an instruction reads or writes. -/
structure Uses where
  v : List Nat
  s : List Nat
deriving DecidableEq, Repr

/-- A ring slot with a pending write. -/
def Group.busyV (g : Group) (slot : Nat) : Bool :=
  g.loads.any fun l => match l.dst, l.pair with
    | .v k _, some (.v j _) => k == slot || j == slot
    | .v k _, _ => k == slot
    | .s _, _ => false

/-- An s-register with a pending write. -/
def Group.busyS (g : Group) (n : Nat) : Bool :=
  g.loads.any fun l => match l.dst, l.pair with
    | .s k, some (.s j) => k == n || j == n
    | .s k, _ => k == n
    | .v _ _, _ => false

/-- A register of the instruction has a pending write: it waits (R62). -/
def Env.hazard (e : Env) (u : Uses) : Bool :=
  u.v.any (fun n => e.grp.busyV (e.grp.vSlot e.ring n)) || u.s.any e.grp.busyS

-- ## Traps (R284 to R286)

/-- The T address of a V word (R122, R135): its entry in the correspondence table. A header has no entry (R465): one at an E-point stands for
the T header there, another for the T word of the next V word with an entry. -/
def Image.tOfV (im : Image) (pc : BitVec 64) : BitVec 64 :=
  let off := (pc - im.vBase).toNat
  match Table.find im.corr off with
  | some t => im.tBase + BitVec.ofNat 64 t
  | none => match im.epoints.find? fun p => p.vok && p.vpos == off with
    | some p => im.tBase + BitVec.ofNat 64 p.tpos
    | none => match im.corr.find? fun c => decide (off ≤ c.1) with
      | some c => im.tBase + BitVec.ofNat 64 c.2
      | none => im.tBase

/-- The T address of the word at hand (R286). -/
def Env.tPc (e : Env) : BitVec 64 :=
  match e.grid with
  | some g => if e.grp.vform then g.image.tOfV e.path.pc else e.path.pc
  | none => e.path.pc

/-- A probe that does not come about, or ends before its sample (R129). -/
def Perf.unprobed (p : Perf) : Perf := { p with probeFrom := none, probeEnded := false }

/-- Cancels the hop to S form that is armed for a team: its parked groups go on (R127), and a probe of S does not come about. -/
def State.cancelHop (s : State) (team : Nat) : State :=
  s.modTeam team fun t =>
    if t.armed.isNone then t
    else { t with armed := none, hopLate := false, perf := t.perf.unprobed, groups := t.groups.map fun g =>
      if g.state == .parkedHop then { g with state := .ready } else g }

/-- The detail codes of a memory trap: read, write, atomic, fetch (R286). -/
inductive AccessKind where
  | read | write | atomic | fetch
deriving DecidableEq, Repr

def AccessKind.code : AccessKind → BitVec 32
  | .read => 0
  | .write => 1
  | .atomic => 2
  | .fetch => 3

/-- The lane field of a trap that concerns the whole group (R286). -/
def wholeGroup : BitVec 32 := 0xFFFFFFFF

/-- The lane that a trap reports: inside a serl body the lane of the pass (R441). -/
def Env.trapLane (e : Env) (lane : BitVec 32) : BitVec 32 :=
  match e.sel, e.grp.serl with
  | none, some z => BitVec.ofNat 32 z.lane
  | _, _ => lane

/-- TAKING A TRAP (R284, R286): the group stops at the word at hand, Trapped, and the trap is raised for its core's agent, with the T
address of the word, the faulting address and the lane. A group that traps cancels its team's armed hop (R127). After says that a
resume goes on past the word. -/
def Env.trapWith (e : Env) (s : State) (g : Group) (kind : TrapKind) (detail : BitVec 32) (addr : BitVec 64) (lane : BitVec 32)
    (after : Bool) : State :=
  let t : TrapInfo := { kind := kind, detail := detail, pc := e.tPc, addr := addr, lane := e.trapLane lane, after := after, phase := .raised }
  let held := if e.vform == g.vform then some e.sel else g.nextPath.map fun x => x.1
  let s := e.setGroup { g with state := .trapped, trap := some t, held := held, child := none } s
  match e.ref with
  | some r => s.cancelHop r.team
  | none => s

/-- A trap of the whole group without an address. -/
def Env.trap (e : Env) (s : State) (kind : TrapKind) : State := e.trapWith s e.grp kind 0 0 wholeGroup false

/-- A memory trap of a lane, in place. -/
def Env.memTrap (e : Env) (s : State) (kind : TrapKind) (ak : AccessKind) (addr : BitVec 64) (lane : Nat) : State :=
  e.trapWith s e.grp kind ak.code addr (BitVec.ofNat 32 lane) false

/-- The instruction of a single step is done: the group is to take BKPT with detail 5 where it issues next (R293). -/
def Group.stepDone (g : Group) : Group := if g.singleStep then { g with singleStep := false, stepped := true } else g

/-- RETURNING FROM A TRAP (R42, R152): a resumed group is Ready, at the trapping word, which issues next, or past it. A breakpoint is not taken
again for the same arrival (R153, R292). A single step whose instruction was the trap ends with it (R293). -/
def Group.resume (g : Group) : Group :=
  match g.trap with
  | none => g
  | some t =>
    let h := { g with state := .ready, trap := none }
    match g.active with
    | some (sel, p) =>
      if t.after then (({ h with held := none }).setPath sel p.past).settle.stepDone
      else if t.kind == .bkpt && decide (t.detail.toNat < 4) then h.setPath sel { p with bpDone := true }
      else h
    | none => h

/-- A group past the word that held it. -/
def Group.pastWord (g : Group) : Group :=
  let sel := g.active
  let g := { g with state := .ready, held := none }
  match sel with
  | some (sel, p) => (g.setPath sel p.past).settle
  | none => g

/-- The issuer's view of a group that waits at its word. -/
def State.waitEnv (s : State) (r : GroupRef) : Option Env :=
  ({ (s.modGroup r fun g => { g with state := .ready }) with cur := if r.team = 0 then .agent r.grp else .group r }).env

/-- A group that single-steps has completed its instruction in an event: BKPT with detail 5 where it issues next, at the next boundary (R42, R293). -/
def State.stepEnd (s : State) (r : GroupRef) : State := s.modGroup r Group.stepDone

/-- The path at whose word a group stands: the active one, else the first that waits. -/
def Group.standing (g : Group) : Option PathEntry :=
  match g.active with
  | some (_, p) => some p
  | none => g.paths.head?

/-- The T address of the word at which a group stands (R286). -/
def State.groupPc (s : State) (r : GroupRef) (g : Group) : BitVec 64 :=
  match g.standing, (Table.find s.teams r.team).bind fun t => Table.find s.grids t.grid with
  | some p, some gr => if g.vform then gr.image.tOfV p.pc else p.pc
  | some p, none => p.pc
  | none, _ => 0

/-- The group is Trapped, or owes a trap. -/
def Group.hasTrap (g : Group) : Bool := g.trap.isSome || g.owed.isSome

/-- A trap that an access or a command of a group raises after its issue, wherever the group stands: SHADOW where a write of the oldest
uncommitted launch finds no room (R257), ECC where a bad line is read (R215). A group that waits or is parked is Ready for it, and is Trapped once it
issues (R42); a Retired group stays so, with the trap for its agent to record (R286, log 86). -/
def State.asyncTrap (s : State) (r : GroupRef) (g : Group) (kind : TrapKind) (detail : BitVec 32) (addr : BitVec 64) (lane : BitVec 32) : State :=
  let t : TrapInfo := { kind := kind, detail := detail, pc := s.groupPc r g, addr := addr, lane := lane, after := false, phase := .raised }
  s.modGroup r fun g => if g.state == .retired then { g with trap := some t } else { g with state := .ready, owed := some t }

/-- A group takes the trap that it owes, at the word where it stands (R284, R286). -/
def State.takeOwed (s : State) (r : GroupRef) (g : Group) (t : TrapInfo) : State :=
  (s.modGroup r fun _ => { g with
    state := .trapped, owed := none, child := none, trap := some { t with pc := s.groupPc r g }, held := g.active.map fun a => a.1 }).cancelHop r.team

-- ## Pre-emption (R42, R288)

/-- New work of the context is stopped (R288): a request other than a restore is under way, or was the last one. -/
def Context.stopped (c : Context) : Bool :=
  if c.go then c.mode != 3 else c.res == 1 || c.res == 2 || c.res == 3

/-- A save of a context is under way (R288). -/
def State.saving (s : State) (ctx : Nat) : Bool :=
  let c := s.context ctx
  c.go && (c.mode == 1 || (c.mode == 0 && c.drainOver))

/-- The group is an agent's slot or its team is placed: a group that a save holds is Frozen (R42). -/
def State.running (s : State) (r : GroupRef) : Bool :=
  r.team = 0 || match Table.find s.teams r.team with
    | some t => t.phase == .placed
    | none => false

/-- The accesses of a group can go on: it runs, or its team has ended. -/
def State.mayMove (s : State) (r : GroupRef) : Bool := s.running r || (Table.find s.teams r.team).isNone

-- ## Native meanings

/-- The meaning of a native instruction: the issuing group waits while a register it uses has a pending write (R62), else the body
gives the next state. -/
def native (u : Uses) (s : State) (body : Env → State) : Result :=
  match s.env with
  | none => .fault .noIssuer
  | some e => if e.hazard u then .next (e.waitOn .scoreboard s) else .next (body e)

/-- A hardware step: the next state, unless it is not due. -/
def due (o : Option State) : Result :=
  match o with
  | some s => .next s
  | none => .fault .notDue

end Sys2Proof.Machine
end

