-- ==== Sys2Proof/Machine/Operands.lean ====
section
/-! DEFINITION. Every operand form of the register formats: the registers a word names, scalar bits, pairs, immediates and sign
modifiers (R55, R162, R319, R320), and the writing of a result. -/

namespace Sys2Proof.Machine

/-- What a lane's or a token's operation reads: the fields of its word, the compatibility level, the operands, and the old value of
the destination. -/
structure AluIn where
  ty : Nat
  sat : Bool
  var : Nat
  codes : Nat
  pos : Nat
  level : Nat
  x : BitVec 64
  y : BitVec 64
  z : BitVec 64
  old : BitVec 64
deriving DecidableEq, Repr

/-- What it writes: the result (a predicate's bit 0 for a compare), and the carry or borrow of addc and subb. -/
structure AluOut where
  d : BitVec 64
  carry : Word
deriving DecidableEq, Repr

/-- A result without a carry. -/
def AluOut.of (d : BitVec 64) : AluOut := { d := d, carry := 0 }

/-- N of an integer type code (R321). -/
def intWidth (ty : Nat) : Nat :=
  match ty with
  | 0 => 32
  | 1 => 32
  | 2 => 64
  | 3 => 64
  | 4 => 16
  | 5 => 16
  | _ => 8

/-- An integer type code names a signed type (R321). -/
def intSigned (ty : Nat) : Bool := ty % 2 == 0

/-- The element format of a floating type code, and whether the type is packed (R321). -/
def floatType (ty : Nat) : FloatFmt × Bool :=
  match ty with
  | 0 => (.f32, false)
  | 1 => (.f16, false)
  | 2 => (.bf16, false)
  | 3 => (.f16, true)
  | _ => (.bf16, true)

/-- The sign bits of a floating operand: one, or one for each element of a packed type. -/
def signBits (ty : Nat) : BitVec 64 :=
  match ty with
  | 0 => 0x80000000
  | 1 => 0x8000
  | 2 => 0x8000
  | _ => 0x80008000

/-- Absolute value, then negation, on the sign bits alone (R319). -/
def modifySign (ty : Nat) (absBit negBit : Bool) (x : BitVec 64) : BitVec 64 :=
  let x := if absBit then x &&& ~~~(signBits ty) else x
  if negBit then x ^^^ signBits ty else x

/-- A row reads its operands as pairs (R162). -/
def rowWide (r : AluRow) (w : AWord) : Bool := (r.type == .int || r.type == .wide) && typeIs64 w.ty.toNat

/-- A register operand of a lane: a v-register or s-register, or the pair it names. -/
def Env.operand (e : Env) (scalar pair : Bool) (n lane : Nat) : BitVec 64 :=
  if scalar then (if pair then e.grp.readSPair n else (e.grp.readS n).setWidth 64)
  else if pair then e.readVPair n lane else (e.readV n lane).setWidth 64

/-- The immediate of format I in place of b (R18, R320, R394). -/
def immOperand (i : Instr) (r : AluRow) (ty : Nat) (v : BitVec 24) : BitVec 64 :=
  match i with
  | .fscale _ => v.signExtend 64
  | _ => match r.type with
    | .float | .floatScalar =>
      match ty with
      | 0 => (v.setWidth 64) <<< 8
      | 1 => (v.extractLsb' 0 16).setWidth 64
      | 2 => (v.extractLsb' 0 16).setWidth 64
      | _ => (v.extractLsb' 0 16 ++ v.extractLsb' 0 16).setWidth 64
    | _ => v.signExtend 64

/-- lea reads its base as a pair whatever the type (R409). -/
def baseIsPair (i : Instr) : Bool :=
  match i with
  | .lea _ => true
  | _ => false

/-- The operands of a lane. -/
def Env.aluIn (e : Env) (i : Instr) (r : AluRow) (w : AWord) (lane : Nat) : AluIn :=
  let pair := rowWide r w
  let ty := w.ty.toNat
  match w.tail with
  | .imm v =>
    { ty := ty, sat := w.sat, var := w.var.toNat, codes := 0, pos := 0, level := e.level,
      x := e.operand false (pair || baseIsPair i) w.a.toNat lane, y := immOperand i r ty v, z := 0, old := 0 }
  | .reg b c ctl =>
    let isConv := r.type == .codes
    let x := e.operand ctl[3] (pair || baseIsPair i) w.a.toNat lane
    let x := if r.modA && !isConv then modifySign ty ctl[5] ctl[7] x else x
    let y := if r.readsB then e.operand ctl[2] pair b.toNat lane else 0
    let y := if r.modB && !isConv then modifySign ty ctl[4] ctl[6] y else y
    let z := match r.third with
      | .value => e.operand ctl[1] pair c.toNat lane
      | .carry => e.operand false false c.toNat lane
      | .predicate => boolWord ((e.grp.readP c.toNat).getLsbD lane)
      | _ => 0
    { ty := ty, sat := w.sat, var := w.var.toNat, codes := if isConv then c.toNat else 0,
      pos := match i with
        | .pack _ => (ctl.extractLsb' 0 2).toNat
        | .unpack _ => b.toNat
        | _ => 0
      level := e.level, x := x, y := y, z := z, old := e.operand false false w.d.toNat lane }

/-- The result is a pair: 64-bit types, and lea in T and V form (R162, R409). -/
def rowPair (r : AluRow) (i : Instr) (w : AWord) : Bool := baseIsPair i || rowWide r w

/-- Writes a lane's result: a register or pair, and the carry last, so that it stands where c and d are one (R345). -/
def Env.writeAlu (e : Env) (i : Instr) (r : AluRow) (w : AWord) (lane : Nat) (o : AluOut) (g : Group) : Group :=
  let g := if rowPair r i w then g.writeVPair e.ring w.d.toNat lane o.d else g.writeV e.ring w.d.toNat lane (loWord o.d)
  match r.third, w.tail with
  | .carry, .reg _ c _ => g.writeV e.ring c.toNat lane o.carry
  | _, _ => g

/-- The group after an operation in every guarded lane: predicates for a compare, registers otherwise (R340, R377). -/
def Env.aluGroup (e : Env) (i : Instr) (r : AluRow) (w : AWord) (f : AluIn → AluOut) : Group :=
  let m := e.guard w.g
  if r.toPred then
    e.grp.writeP w.d.toNat m (maskOf ((lanesOf m).filter fun l => (f (e.aluIn i r w l)).d != 0))
  else (lanesOf m).foldl (fun g l => e.writeAlu i r w l (f (e.aluIn i r w l)) g) e.grp

/-- A register number, and the next one of a pair. -/
def regs (pair : Bool) (n : Nat) : List Nat := if pair then [n, n + 1] else [n]

/-- The registers that a word of formats A and I reads, a written carry among them. -/
def aluSources (i : Instr) (r : AluRow) (w : AWord) : Uses :=
  let pair := rowWide r w
  let a := regs (pair || baseIsPair i) w.a.toNat
  match w.tail with
  | .imm _ => { v := a, s := [] }
  | .reg b c ctl =>
    let b := if r.readsB then regs pair b.toNat else []
    let c := match r.third with
      | .value => regs pair c.toNat
      | .carry => [c.toNat]
      | _ => []
    { v := (if ctl[3] then [] else a) ++ (if ctl[2] then [] else b) ++ (if ctl[1] && r.type != .codes then [] else c),
      s := (if ctl[3] then a else []) ++ (if ctl[2] then b else []) ++ (if ctl[1] && r.type != .codes then c else []) }

/-- The registers that a word of formats A and I reads and writes (R62). -/
def aluUses (i : Instr) (r : AluRow) (w : AWord) : Uses :=
  let u := aluSources i r w
  { u with v := (if r.toPred then [] else regs (rowPair r i w) w.d.toNat) ++ u.v }

end Sys2Proof.Machine
end

