-- ==== Sys2Proof/Machine/Transcendental.lean ====
section
/-! DEFINITION. The correctly rounded functions of R379, in fixed-point arithmetic of 256 bits: each result is computed with an error
far below its last place, then rounded once. -/

namespace Sys2Proof.Machine

/-- pi x 2^512, truncated. -/
def piFix : Nat :=
  0x3243f6a8885a308d313198a2e03707344a4093822299f31d0082efa98ec4e6c89452821e638d01377be5466cf34e90c6cc0ac29b7c97c50dd3f84d5b5b5470917
/-- ln 2 x 2^256, truncated. -/
def ln2Fix : Nat := 0xb17217f7d1cf79abc9e3b39803f2f6af40f343267298b62d8a0d175b8baafa2b

/-- Fixed point with 256 bits after the point. -/
def fixBits : Nat := 256
def fixOne : Nat := 2 ^ fixBits

/-- Adds the terms of a series: the next term from a term and its number, until the fuel is spent or the term is 0. -/
def seriesSum (next : Nat → Nat → Nat) : Nat → Nat → Nat → Nat → Nat
  | 0, _, _, acc => acc
  | fuel + 1, k, t, acc => if t = 0 then acc else seriesSum next fuel (k + 1) (next k t) (acc + t)

/-- e^t for 0 ≤ t < 1. -/
def expFix (t : Nat) : Nat := seriesSum (fun k x => x * t / fixOne / (k + 1)) 80 0 fixOne 0

/-- The sums of the even and of the odd terms of sine or cosine: x^n / n! from n, in steps of 4. -/
def trigSum (r2 : Nat) (fuel n t : Nat) : Nat × Nat :=
  match fuel with
  | 0 => (0, 0)
  | f + 1 =>
    let t2 := t * r2 / fixOne / ((n + 1) * (n + 2))
    let (p, m) := trigSum r2 f (n + 2) t2
    (t + m, p)

/-- sin r for 0 ≤ r < 2. -/
def sinFix (r : Nat) : Nat := let (p, m) := trigSum (r * r / fixOne) 40 1 r; p - m

/-- cos r for 0 ≤ r ≤ pi/2. -/
def cosFix (r : Nat) : Nat := let (p, m) := trigSum (r * r / fixOne) 40 0 fixOne; p - m

/-- 2 artanh z for 0 ≤ z ≤ 1/3: the sum of 2 z^k / k over odd k. -/
def atanhFix (z : Nat) : Nat :=
  let z2 := z * z / fixOne
  let rec go (fuel k t acc : Nat) : Nat :=
    match fuel with
    | 0 => acc
    | f + 1 => go f (k + 2) (t * z2 / fixOne) (acc + t / k)
  2 * go 100 1 z 0

/-- A magnitude num x 2^exp in fixed point; exact for exp of -256 and above. -/
def toFix (num : Nat) (exp : Int) : Nat :=
  if -(fixBits : Int) ≤ exp then num <<< (exp + fixBits).toNat else num >>> (-(exp + fixBits)).toNat

/-- A fixed-point value, not exact, as a value to be rounded. -/
def ofFix (neg : Bool) (x : Nat) : Value := .fin neg x (-(fixBits : Int)) true

/-- A value that differs from num x 2^exp by less than 2^-100 of its last place: just below it, or just above it. -/
def justBelow (neg : Bool) (num : Nat) (exp : Int) : Value := .fin neg (num * 2 ^ 100 - 1) (exp - 100) true
def justAbove (neg : Bool) (num : Nat) (exp : Int) : Value := .fin neg (num * 2 ^ 100) (exp - 100) true

/-- The exponent of the highest bit of a finite value. -/
def magnitude (num : Nat) (exp : Int) : Int := (bitLen num : Int) + exp - 1

/-- 2^x (R379). -/
def exp2Value (x : Exact) : Value :=
  match x with
  | .nan b => .nan (some b)
  | .inf true => .fin false 0 0 false
  | .inf false => .inf false
  | .fin neg num exp =>
    if num = 0 then .fin false 1 0 false
    else if 15 < magnitude num exp then (if neg then .fin false 1 (-40000) true else .fin false 1 40000 true)
    else if magnitude num exp < -110 then (if neg then justBelow false 1 0 else justAbove false 1 0)
    else
      let m := toFix num exp
      let whole := m / fixOne
      let frac := m % fixOne
      if frac = 0 then .fin false 1 (if neg then -(whole : Int) else whole) false
      else
        let n : Int := if neg then -(whole : Int) - 1 else whole
        let f := if neg then fixOne - frac else frac
        .fin false (expFix (f * ln2Fix / fixOne)) (n - fixBits) true

/-- log2 x (R379). -/
def log2Value (x : Exact) : Value :=
  match x with
  | .nan b => .nan (some b)
  | .inf true => .nan none
  | .inf false => .inf false
  | .fin neg num exp =>
    if num = 0 then .inf true
    else if neg then .nan none
    else
      let n := magnitude num exp
      if num = 2 ^ (bitLen num - 1) then .fin (decide (n < 0)) n.natAbs 0 false
      else
        let m := num <<< (fixBits + 1 - bitLen num)
        let z := (m - fixOne) * fixOne / (m + fixOne)
        let frac : Int := (atanhFix z * fixOne / ln2Fix : Nat)
        let v : Int := n * (fixOne : Int) + frac
        ofFix (decide (v < 0)) v.natAbs

/-- The quadrant of a magnitude and what it lies above a multiple of pi/2, in fixed point. -/
def reduceTrig (num : Nat) (exp : Int) : Nat × Nat :=
  let half := piFix / 2
  let x := if -512 ≤ exp then num <<< (exp + 512).toNat else num >>> (-(exp + 512)).toNat
  (x / half % 4, x % half / fixOne)

/-- sin x (R379). -/
def sinValue (x : Exact) : Value :=
  match x with
  | .nan b => .nan (some b)
  | .inf _ => .nan none
  | .fin neg num exp =>
    if num = 0 then .fin neg 0 0 false
    else if magnitude num exp < -63 then justBelow neg num exp
    else
      let (q, r) := reduceTrig num exp
      ofFix (neg != decide (2 ≤ q)) (if q % 2 = 0 then sinFix r else cosFix r)

/-- cos x (R379). -/
def cosValue (x : Exact) : Value :=
  match x with
  | .nan b => .nan (some b)
  | .inf _ => .nan none
  | .fin _ num exp =>
    if num = 0 then .fin false 1 0 false
    else if magnitude num exp < -63 then justBelow false 1 0
    else
      let (q, r) := reduceTrig num exp
      ofFix (q == 1 || q == 2) (if q % 2 = 0 then cosFix r else sinFix r)

/-- tanh x (R379). -/
def tanhValue (x : Exact) : Value :=
  match x with
  | .nan b => .nan (some b)
  | .inf n => .fin n 1 0 false
  | .fin neg num exp =>
    if num = 0 then .fin neg 0 0 false
    else if magnitude num exp < -63 then justBelow neg num exp
    else if 6 ≤ magnitude num exp then justBelow neg 1 0
    else
      let t := 2 * toFix num exp
      let e := expFix (t % ln2Fix) <<< (t / ln2Fix)
      ofFix neg ((e - fixOne) * fixOne / (e + fixOne))

/-- 1 / x (R379). -/
def rcpValue (x : Exact) : Value :=
  match x with
  | .nan b => .nan (some b)
  | .inf n => .fin n 0 0 false
  | .fin neg num exp => if num = 0 then .inf neg else divFinite neg 1 0 num exp

/-- The square root (R379). -/
def sqrtValue (x : Exact) : Value :=
  match x with
  | .nan b => .nan (some b)
  | .inf n => if n then .nan none else .inf false
  | .fin neg num exp => if num = 0 then .fin neg 0 0 false else if neg then .nan none else sqrtFinite num exp

/-- 1 / sqrt x (R379). -/
def rsqrtValue (x : Exact) : Value :=
  match x with
  | .nan b => .nan (some b)
  | .inf n => if n then .nan none else .fin false 0 0 false
  | .fin neg num exp => if num = 0 then .inf neg else if neg then .nan none else rsqrtFinite num exp

end Sys2Proof.Machine
end

