-- ==== Sys2Proof/Machine/FloatOps.lean ====
section
/-! DEFINITION. What each floating operation, conversion and dot product computes from its operands (R174, R175, R375, R377 to R379,
R381, R389 to R394, R425, R456). -/

namespace Sys2Proof.Machine

/-- The mode, sat and level of an operation that is no conversion. -/
def AluIn.writeMode (a : AluIn) : WriteMode :=
  { mode := Rounding.ofCode a.var, sat := a.sat, level := a.level, conv := false, f32ToF16 := false }

/-- Element k of a packed operand (R159). -/
def elem (w k : Nat) (x : BitVec 64) : Nat := x.toNat / 2 ^ (w * k) % 2 ^ w

/-- An operation on the one element, or on each element of a packed type (R159, R377): the element's bits of the operands, with the
format, to the element's result. -/
def eachElem (a : AluIn) (f : FloatFmt → Nat → Nat → Nat → Nat) : AluOut :=
  let (fmt, packed) := floatType a.ty
  let w := fmt.width
  let one := fun k => f fmt (elem w k a.x) (elem w k a.y) (elem w k a.z)
  AluOut.of (BitVec.ofNat 64 (if packed then one 0 + one 1 * 2 ^ w else one 0))

/-- A rounded operation of one, two or three operands (R377 to R379). -/
def floatOp (a : AluIn) (f : Rounding → Exact → Exact → Exact → Value) : AluOut :=
  eachElem a fun fmt x y z =>
    writeFloat fmt a.writeMode
      (f a.writeMode.mode (readFloat fmt a.level x) (readFloat fmt a.level y) (readFloat fmt a.level z))

def faddOp (a : AluIn) : AluOut := floatOp a fun m x y _ => addValue m x y
def fsubOp (a : AluIn) : AluOut := floatOp a fun m x y _ => addValue m x y.negate
def fmulOp (a : AluIn) : AluOut := floatOp a fun _ x y _ => mulValue x y
def ffmaOp (a : AluIn) : AluOut := floatOp a fun m x y z => fmaValue m x y z
def fdivOp (a : AluIn) : AluOut := floatOp a fun _ x y _ => divValue x y
def frcpOp (a : AluIn) : AluOut := floatOp a fun _ x _ _ => rcpValue x
def frsqOp (a : AluIn) : AluOut := floatOp a fun _ x _ _ => rsqrtValue x
def fsqrtOp (a : AluIn) : AluOut := floatOp a fun _ x _ _ => sqrtValue x
def fexp2Op (a : AluIn) : AluOut := floatOp a fun _ x _ _ => exp2Value x
def flog2Op (a : AluIn) : AluOut := floatOp a fun _ x _ _ => log2Value x
def fsinOp (a : AluIn) : AluOut := floatOp a fun _ x _ _ => sinValue x
def fcosOp (a : AluIn) : AluOut := floatOp a fun _ x _ _ => cosValue x
def ftanhOp (a : AluIn) : AluOut := floatOp a fun _ x _ _ => tanhValue x

/-- x x 2^y with y an i32 that scales every element (R394). -/
def fscaleOp (a : AluIn) : AluOut :=
  let k := signedOf 32 (lowNat 32 a.y)
  floatOp a fun _ x _ _ => scaleValue x k

/-- The integral value that the mode selects, with the sign of x (R393). -/
def frndOp (a : AluIn) : AluOut :=
  floatOp a fun m x _ _ => match x with
    | .fin n v e => .fin n (roundIntegral m n v e) 0 false
    | x => x.toValue

/-- The lesser or the greater operand, carrying its bits (R392, R172). -/
def pickOp (a : AluIn) (first : Exact → Exact → Bool) : AluOut :=
  eachElem a fun fmt x y _ =>
    let u := readFloat fmt a.level x
    let v := readFloat fmt a.level y
    let w : WriteMode := { a.writeMode with mode := .rn }
    match u, v with
    | .nan b, .nan _ => writeFloat fmt w (.nan (some b))
    | .nan _, v => writeFloat fmt w v.toValue
    | u, .nan _ => writeFloat fmt w u.toValue
    | u, v => writeFloat fmt w (if first u v then u else v).toValue

def fminOp (a : AluIn) : AluOut := pickOp { a with var := 0 } fun u v => !lessExact v u
def fmaxOp (a : AluIn) : AluOut := pickOp { a with var := 0 } fun u v => !lessExact u v

/-- 1 where x cond y holds; with a NaN only ne holds (R390). -/
def fcmpOp (a : AluIn) : AluOut :=
  let (fmt, _) := floatType a.ty
  let u := readFloat fmt a.level (elem fmt.width 0 a.x)
  let v := readFloat fmt a.level (elem fmt.width 0 a.y)
  AluOut.of (boolWord (if u.isNan || v.isNan then a.var == 1 else condHolds a.var (compareExact u v)))

/-- The class bit of a value after R377's reading (R389). -/
def classBit (fmt : FloatFmt) (x : Exact) : Nat :=
  match x with
  | .nan _ => 8
  | .inf n => if n then 0 else 7
  | .fin n num exp =>
    if num = 0 then (if n then 3 else 4)
    else if exp == fmt.minExp && decide (num < 2 ^ fmt.mant) then (if n then 2 else 5)
    else if n then 1 else 6

def fclassOp (a : AluIn) : AluOut :=
  let (fmt, _) := floatType a.ty
  AluOut.of (BitVec.ofNat 64 (2 ^ classBit fmt (readFloat fmt a.level (elem fmt.width 0 a.x))))

-- ## Conversions (R167, R375)

/-- The floating format of a format code below 6 (R160). -/
def codeFloat (code : Nat) : FloatFmt :=
  match code with
  | 0 => .f32
  | 1 => .f16
  | 2 => .bf16
  | 3 => .f8e4
  | 4 => .f8e5
  | _ => .f4

/-- An integer format code names a signed format: i4, i8, i16, i32 (R160). -/
def codeSigned (code : Nat) : Bool := code % 2 == 0

/-- The value of an integer pattern of a format code. -/
def codeInt (code x : Nat) : Int :=
  let n := formatWidth code
  if codeSigned code then signedOf n (x % 2 ^ n) else ((x % 2 ^ n : Nat) : Int)

/-- The low bits of an integer in a format code's width. -/
def intBits (code : Nat) (v : Int) : Nat := (v % (2 ^ formatWidth code : Nat)).toNat

/-- The bits of cvt in the width of the destination (R375). -/
def convert (dst src : Nat) (mode : Rounding) (sat : Bool) (level x : Nat) : Nat :=
  let n := formatWidth dst
  if formatIsInt dst then
    if formatIsInt src then
      let v := codeInt src x
      intBits dst (if sat then clampTo n (codeSigned dst) v else v)
    else
      match readFloat (codeFloat src) level x with
      | .nan _ => 0
      | .inf neg =>
        intBits dst (clampTo n (codeSigned dst) (if neg then -(2 ^ 64 : Nat) else (2 ^ 64 : Nat)))
      | .fin neg num exp =>
        let m : Int := (roundIntegral mode neg num exp : Nat)
        intBits dst (clampTo n (codeSigned dst) (if neg then -m else m))
  else
    let f := codeFloat dst
    let w : WriteMode := { mode := mode, sat := sat, level := level, conv := true, f32ToF16 := src == 0 && dst == 1 }
    if formatIsInt src then
      let v := codeInt src x
      writeFloat f w (.fin (decide (v < 0)) v.natAbs 0 false)
    else writeFloat f w (readFloat (codeFloat src) level x).toValue

/-- cvt of one value under a word's codes, mode and sat. -/
def AluIn.cvt (a : AluIn) (x : Nat) : Nat :=
  convert (a.codes / 16) (a.codes % 16) (Rounding.ofCode a.var) a.sat a.level x

def cvtOp (a : AluIn) : AluOut := AluOut.of (BitVec.ofNat 64 (a.cvt a.x.toNat))

/-- Two converted values side by side in d, the other bits kept (R425). -/
def packOp (a : AluIn) : AluOut :=
  let w := formatWidth (a.codes / 16)
  let lo := 2 * a.pos * w
  let mask : BitVec 64 := BitVec.ofNat 64 ((2 ^ (2 * w) - 1) * 2 ^ lo)
  let v : BitVec 64 := BitVec.ofNat 64 ((a.cvt a.x.toNat + a.cvt a.y.toNat * 2 ^ w) * 2 ^ lo)
  AluOut.of ((a.old &&& ~~~mask) ||| v)

/-- Element k of x, converted (R456). -/
def unpackOp (a : AluIn) : AluOut := AluOut.of (BitVec.ofNat 64 (a.cvt (elem (formatWidth (a.codes % 16)) a.pos a.x)))

-- ## Dot products (R174, R175, R381)

/-- The floating input format of a dot product by its element count and type code. -/
def dotFormat (n ty : Nat) : FloatFmt :=
  match n with
  | 2 => if ty = 0 then .f16 else .bf16
  | 4 => if ty = 0 then .f8e4 else .f8e5
  | _ => .f4

/-- The integer input of a dot product is signed. -/
def dotSigned (n ty : Nat) : Bool := if n = 8 then ty == 1 else ty == 2

/-- An exact sum of products and the accumulator, rounded once, wrapped once or clamped once. -/
def dotOp (n : Nat) (a : AluIn) : AluOut :=
  let w := 32 / n
  let ks := List.range n
  if dotIsFloat n a.ty then
    let f := dotFormat n a.ty
    let xs := ks.map fun k => readFloat f a.level (elem w k a.x)
    let ys := ks.map fun k => readFloat f a.level (elem w k a.y)
    let c := readFloat .f32 a.level (lowNat 32 a.z)
    AluOut.of (BitVec.ofNat 64 (writeFloat .f32 a.writeMode
      (dotValue a.writeMode.mode (xs ++ ys ++ [c]) (xs.zip ys) c)))
  else
    let sg := dotSigned n a.ty
    let val := fun v : Nat => if sg then signedOf w v else (v : Int)
    let c : Int := if sg then signedOf 32 (lowNat 32 a.z) else (lowNat 32 a.z : Int)
    let s : Int := ks.foldl (fun acc k => acc + val (elem w k a.x) * val (elem w k a.y)) c
    AluOut.of (ofInt64 (if a.sat then clampTo 32 sg s else s))

def dot2Op (a : AluIn) : AluOut := dotOp 2 a
def dot4Op (a : AluIn) : AluOut := dotOp 4 a
def dot8Op (a : AluIn) : AluOut := dotOp 8 a

end Sys2Proof.Machine
end

