-- ==== Sys2Proof/Machine/Memory.lean ====
section
/-! DEFINITION. Physical memory, the versions of launches, translation, the on-chip window, and one access to memory (R196 to R202,
R246 to R250, R307). -/

namespace Sys2Proof.Machine

-- ## Physical memory (R196, R213, R307)

/-- The second-tier port that holds a byte at an offset of the second tier, by the ports' sizes in order. -/
def tier2Port : List Nat → Nat → Nat → Option Nat
  | [], _, _ => none
  | n :: r, k, off => if off < n then some k else tier2Port r (k + 1) (off - n)

/-- The byte at a physical address exists and its port works: a hole, a byte beyond the second tier's size, the module's own peer
window, a peer without a route and a failed port raise PAGE. -/
def State.physOk (s : State) (pa : Nat) : Bool :=
  if pa < 2 ^ 39 then decide (pa % 2 ^ 36 < 64 * 10 ^ 9)
  else if pa < 2 ^ 46 then false
  else if pa < 2 ^ 49 then
    match tier2Port s.tier2Sizes 0 (pa - 2 ^ 46) with
    | some p => !s.tier2Failed.contains p
    | none => false
  else if pa < 2 ^ 50 then true
  else if pa < 2 ^ 50 + 2 ^ 49 then
    let p := (pa - 2 ^ 50) / 2 ^ 45
    p != s.peer && (match Table.find s.routes p with
      | some port => !s.failedLinks.contains port
      | none => false)
  else false

-- ## Ranges whose values the spec does not give

/-- What is left of a range once n bytes from an address on have been written. -/
def Blur.cut (b : Blur) (scratch : Bool) (lo n : Nat) : List Blur :=
  if b.scratch != scratch || decide (b.start + b.len ≤ lo) || decide (lo + n ≤ b.start) then [b]
  else [{ b with len := lo - b.start }, { b with start := lo + n, len := b.start + b.len - (lo + n) }].filter fun x => x.len != 0

/-- The ranges after n bytes from an address on have been written. -/
def cutBlurs (l : List Blur) (scratch : Bool) (lo n : Nat) : List Blur := l.flatMap fun b => b.cut scratch lo n

/-- The free value that a range gives a byte; none outside them. -/
def blurByte (l : List Blur) (scratch : Bool) (a : Nat) : Option Byte :=
  (l.find? fun b => b.scratch == scratch && decide (b.start ≤ a) && decide (a < b.start + b.len)).map fun b => Config.freeByte b.stamp a

/-- n bytes of memory or scratchpad from an address on take values that the spec does not give (log 82). -/
def State.blur (s : State) (scratch : Bool) (lo n : Nat) : State :=
  { s with blurs := { scratch := scratch, start := lo, len := n, stamp := s.choices } :: cutBlurs s.blurs scratch lo n, choices := s.choices + 1 }

/-- The byte that memory holds at a physical address. -/
def State.memByte (s : State) (pa : Nat) : Byte := (blurByte s.blurs false pa).getD (Sparse.get s.mem pa)

/-- The byte that the newest committed version whose line is not yet written back gives a physical address, else the given one (R252). -/
def committedByte (base : Byte) : List Committed → Nat → Byte
  | [], _ => base
  | c :: r, pa => match Table.find c.bytes pa with
    | some b => b
    | none => committedByte base r pa

/-- The committed byte at a physical address. -/
def State.committedAt (s : State) (pa : Nat) : Byte := committedByte (s.memByte pa) s.committed pa

/-- n committed bytes. -/
def State.committedBytes (s : State) (pa n : Nat) : List Byte := (List.range n).map fun k => s.committedAt (pa + k)

/-- n committed bytes as a little-endian number. -/
def State.committedNat (s : State) (pa n : Nat) : Nat := ofLeBytes (s.committedBytes pa n)

/-- The line of a physical address (R204). -/
def lineOf (pa : Nat) : Nat := pa / 64

/-- A committed version holds bytes of a line. -/
def Committed.hasLine (c : Committed) (line : Nat) : Bool := c.bytes.any fun e => lineOf e.1 == line

/-- A context's overflow region without the lines that no version of a list of committed ones holds any longer (R256): those of a line whose
tag a version bears. -/
def Context.dropLines (c : Context) (l : List Committed) (line : Nat) : Context :=
  { c with overflow := c.overflow.filter fun e => !(e.2 == line && l.any fun v => v.tag.toNat == e.1 / 4096) }

/-- A touch of a committed line: it returns from the overflow region to the LLC (R256). -/
def State.touchCommitted (s : State) (pa : Nat) : State :=
  let l := s.committed.filter fun c => c.hasLine (lineOf pa)
  if l.isEmpty then s else { s with contexts := s.contexts.map fun e => (e.1, e.2.dropLines l (lineOf pa)) }

/-- Writes one byte of committed data directly, which touches its line. -/
def State.writeDirect (s : State) (pa : Nat) (b : Byte) : State :=
  { (s.touchCommitted pa) with
      mem := Sparse.set s.mem pa b,
      blurs := cutBlurs s.blurs false pa 1,
      committed := (s.committed.map fun (c : Committed) => { c with bytes := Table.del c.bytes pa }).filter fun c => !c.bytes.isEmpty }

/-- Writes a list of bytes of committed data directly. -/
def State.writeDirectBytes (s : State) (pa : Nat) : List Byte → State
  | [] => s
  | b :: r => State.writeDirectBytes (s.writeDirect pa b) (pa + 1) r

-- ## Versions (R249, R258)

/-- The versions that a grid reads through: its own sub-version, then its ancestors', nearest first (R249). -/
def State.versionsOf (s : State) : Nat → Nat → List (Nat × Nat)
  | 0, _ => []
  | fuel + 1, g => match Table.find s.grids g with
    | none => []
    | some gr => (gr.launch, gr.sub) :: (match gr.parent with
      | some p => State.versionsOf s fuel p
      | none => [])

/-- A grid's view; nesting is at most 10 deep (R33). -/
def State.viewOf (s : State) (g : Nat) : List (Nat × Nat) := s.versionsOf 11 g

/-- The byte that a version's shadow holds. -/
def shadowByte (l : List Shadow) (ver : Nat × Nat) (pa : Nat) : Option Byte :=
  match l.find? fun x => x.launch == ver.1 && x.sub == ver.2 with
  | some x => Table.find x.bytes pa
  | none => none

/-- The byte that the nearest version of a view holds; none where the view takes committed data (R249). -/
def State.viewByte (s : State) : List (Nat × Nat) → Nat → Option Byte
  | [], _ => none
  | v :: r, pa => match shadowByte s.shadows v pa with
    | some b => some b
    | none => State.viewByte s r pa

/-- A descriptor still names the entries that it did, in committed data or in some version: a table that has moved is no longer where it was. -/
def State.tableStands (s : State) (t : KnownTable) : Bool :=
  let words := fun view : List (Nat × Nat) => (List.range 12).map fun k => (s.viewByte view (t.pa + k)).getD (s.committedAt (t.pa + k))
  ([] :: s.shadows.map fun x => [(x.launch, x.sub)]).any fun view => words view == leBytes 8 t.entries.toNat ++ leBytes 4 t.count

/-- The byte lies in the entry array of a block table that the table unit knows (log 92). -/
def State.tableByte (s : State) (pa : Nat) : Bool :=
  s.tables.any fun t => t.pages.any fun p => decide (p.1 ≤ pa) && decide (pa < p.1 + p.2)

/-- A table that has moved is no longer known: after each step the table unit keeps those whose descriptors still name their entries. -/
def State.forgetMoved (s : State) : State := if s.tables.isEmpty then s else { s with tables := s.tables.filter s.tableStands }

/-- The byte belongs to bits [127:64] of a block-table entry, which are never transactional (R209, R248). -/
def State.highEntry (s : State) (pa : Nat) : Bool := decide (8 ≤ pa % 16) && s.tableByte pa

/-- The versions through which a byte is read. -/
def State.viewAt (s : State) (view : List (Nat × Nat)) (pa : Nat) : List (Nat × Nat) := if s.highEntry pa then [] else view

/-- A byte as a view reads it. -/
def State.readThrough (s : State) (view : List (Nat × Nat)) (pa : Nat) : Byte := (s.viewByte (s.viewAt view pa) pa).getD (s.committedAt pa)

/-- n bytes as a view reads them, and as a number. -/
def State.readBytes (s : State) (view : List (Nat × Nat)) (pa n : Nat) : List Byte :=
  (List.range n).map fun k => s.readThrough view (pa + k)
def State.readNat (s : State) (view : List (Nat × Nat)) (pa n : Nat) : Nat := ofLeBytes (s.readBytes view pa n)

/-- Puts one byte into the shadow of a version (R249). -/
def putShadow (ver : Nat × Nat) (pa : Nat) (b : Byte) : List Shadow → List Shadow
  | [] => [{ launch := ver.1, sub := ver.2, bytes := [(pa, b)] }]
  | x :: r => if x.launch == ver.1 && x.sub == ver.2 then { x with bytes := Table.put x.bytes pa b } :: r else x :: putShadow ver pa b r

/-- A version holds a shadow line for a line. -/
def State.hasShadowLine (s : State) (ver : Nat × Nat) (line : Nat) : Bool :=
  s.shadows.any fun x => x.launch == ver.1 && x.sub == ver.2 && x.bytes.any fun e => e.1 / 64 == line

/-- The lines for which a version holds a shadow line. -/
def State.linesOf (s : State) (ver : Nat × Nat) : List Nat :=
  (s.shadows.filter fun x => x.launch == ver.1 && x.sub == ver.2).flatMap fun x => x.bytes.map fun e => e.1 / 64

/-- The lines of a top-level launch's write set (R250). -/
def State.writeLines (s : State) (l : Nat) : List Nat :=
  (s.shadows.filter fun x => x.launch == l).foldl (fun acc x => x.bytes.foldl (fun a e => if a.contains (e.1 / 64) then a else (e.1 / 64) :: a) acc) []

/-- The lines of a top-level launch's read set that its signature does not hold. -/
def State.readLines (s : State) (l : Nat) : List Nat :=
  match Table.find s.launches l with
  | some x => x.readWords.map fun w => w / 8
  | none => []

/-- The launch's write set holds the line, or its 8-byte word. -/
def State.wroteLine (s : State) (l line : Nat) : Bool :=
  s.shadows.any fun x => x.launch == l && x.bytes.any fun e => e.1 / 64 == line
def State.wroteWord (s : State) (l word : Nat) : Bool :=
  s.shadows.any fun x => x.launch == l && x.bytes.any fun e => e.1 / 8 == word

/-- The number of a version among the overflow regions' lines: its launch's tag and its sub-version (R249, R256). -/
def State.versionKey (s : State) (ver : Nat × Nat) : Option Nat :=
  match Table.find s.launches ver.1 with
  | some l => l.tag.map fun t => t.toNat * 4096 + ver.2
  | none => none

/-- A touch of a version's shadow line: a line in the overflow region returns to the LLC (R256). -/
def State.touchLine (s : State) (ver : Nat × Nat) (line : Nat) : State :=
  match s.versionKey ver, Table.find s.launches ver.1 with
  | some k, some l =>
    { s with contexts := Table.modify s.contexts l.ctx fun c => { c with overflow := c.overflow.filter fun e => e != (k, line) } }
  | _, _ => s

/-- The version of a view that holds a byte is touched by a read of it. -/
def State.touchView (s : State) : List (Nat × Nat) → Nat → State
  | [], _ => s
  | v :: r, pa => if (shadowByte s.shadows v pa).isSome then s.touchLine v (lineOf pa) else State.touchView s r pa

/-- A read of n bytes touches the lines that it takes them from. -/
def State.touchBytes (s : State) (view : List (Nat × Nat)) (pa n : Nat) : State :=
  (List.range n).foldl (fun s k => if (s.viewByte view (pa + k)).isSome then s.touchView view (pa + k) else s.touchCommitted (pa + k)) s

/-- Adds a number to a list that lacks it. -/
def addNew (l : List Nat) (n : Nat) : List Nat := if l.contains n then l else n :: l


-- ## Page tables (R197 to R200)

/-- What a translation gives: the physical address, the page's size, its rights, NT, tier and policy. -/
structure Xlat where
  pa : Nat
  size : Nat
  rd : Bool
  w : Bool
  x : Bool
  nt : Bool
  tier : Nat
  cp : Nat
deriving DecidableEq, Repr

/-- The page is transactional (R248). -/
def Xlat.txn (t : Xlat) : Bool := !t.nt && decide (t.tier ≤ 1)

/-- The physical page address of an entry. -/
def pteAddr (e : BitVec 64) : Nat := natBits e.toNat 51 16 * 2 ^ 16

/-- The start and length of the physical range of a tier; the window of a peer for tier 11 (R196, R198). -/
def tierRange (tier peer : Nat) : Nat × Nat :=
  match tier with
  | 0 => (0, 2 ^ 39)
  | 1 => (2 ^ 46, 2 ^ 49 - 2 ^ 46)
  | 2 => (2 ^ 49, 2 ^ 49)
  | _ => (2 ^ 50 + peer * 2 ^ 45, 2 ^ 45)

/-- The page size of a leaf at a level; 0 for a code that is not valid. -/
def leafSize (level : Nat) (e : BitVec 64) : Nat :=
  if level = 1 then 2 ^ 30
  else match (e.extractLsb' 10 2).toNat with
    | 0 => 2 ^ 16
    | 1 => 2 ^ 21
    | 2 => 2 ^ 25
    | _ => 0

/-- A leaf entry is valid (R198). A level-1 leaf has SIZE 0: the spec gives SIZE a meaning at level 0 alone (DESIGN CHOICE, log 93). -/
def leafValid (level : Nat) (e : BitVec 64) : Bool :=
  let size := leafSize level e
  let tier := (e.extractLsb' 5 2).toNat
  let peer := (e.extractLsb' 12 4).toNat
  let (lo, len) := tierRange tier peer
  e.getLsbD 0 && e.extractLsb' 52 12 == 0 && e.extractLsb' 8 2 != 3 && size != 0
    && (level == 0 && !e.getLsbD 1 || level == 1 && e.getLsbD 1 && e.extractLsb' 10 2 == 0)
    && (tier == 3 || peer == 0)
    && pteAddr e % size == 0 && decide (lo ≤ pteAddr e) && decide (pteAddr e + size ≤ lo + len)

/-- A pointer entry at level 3, 2 or 1 is valid: it leads to a table of the level below (R198). -/
def pointerValid (level : Nat) (e : BitVec 64) : Bool :=
  e.getLsbD 0 && !e.getLsbD 1 && e.extractLsb' 52 12 == 0 && e.extractLsb' 2 10 == 0
    && (level != 1 || e.extractLsb' 12 5 == 0)

/-- The index of an address at a level of the walk (R197). -/
def walkIndex (level va : Nat) : Nat :=
  match level with
  | 3 => natBits va 56 48
  | 2 => natBits va 47 39
  | 1 => natBits va 38 30
  | _ => natBits va 29 16

/-- The walk from a table of a level: the leaf entry and its level, or none where an entry is not valid or a table is not there. Page
tables are read as committed data, never through a shadow (R200). -/
def State.walk (s : State) (va : Nat) : Nat → Nat → Option (BitVec 64 × Nat)
  | 0, table =>
    let a := table + 8 * walkIndex 0 va
    let e := BitVec.ofNat 64 (s.committedNat a 8)
    if s.physOk a && leafValid 0 e then some (e, 0) else none
  | level + 1, table =>
    let a := table + 8 * walkIndex (level + 1) va
    let e := BitVec.ofNat 64 (s.committedNat a 8)
    if !s.physOk a then none
    else if level = 0 && e.getLsbD 1 then (if leafValid 1 e then some (e, 1) else none)
    else if pointerValid (level + 1) e then State.walk s va level (natBits e.toNat 51 12 * 2 ^ 12)
    else none

/-- The translation that a leaf entry gives an address. -/
def xlatOf (e : BitVec 64) (level va : Nat) : Xlat :=
  let size := leafSize level e
  { pa := pteAddr e + va % size, size := size, rd := e.getLsbD 2, w := e.getLsbD 3, x := e.getLsbD 4, nt := e.getLsbD 7,
    tier := (e.extractLsb' 5 2).toNat, cp := (e.extractLsb' 8 2).toNat }

/-- The page-table entries that a walk reads, from a table of a level. -/
def State.walked (s : State) (va : Nat) : Nat → Nat → List Nat
  | 0, table => [table + 8 * walkIndex 0 va]
  | level + 1, table =>
    let a := table + 8 * walkIndex (level + 1) va
    let e := BitVec.ofNat 64 (s.committedNat a 8)
    a :: if s.physOk a && pointerValid (level + 1) e then State.walked s va level (natBits e.toNat 51 12 * 2 ^ 12) else []

/-- A walk of a context's tables reads a poisoned line (R215). -/
def State.walkPoisoned (s : State) (ctx : Nat) (va : Nat) : Bool :=
  !s.poison.isEmpty && (s.context ctx).ttbEn && (s.walked va 3 ((s.context ctx).ttbBase.toNat * 2 ^ 12)).any fun a => s.poison.contains (lineOf a)

/-- A walk of a context's tables touches the lines that it reads (R256). -/
def State.touchWalk (s : State) (ctx : Nat) (va : Nat) : State :=
  if s.committed.isEmpty then s
  else (s.walked va 3 ((s.context ctx).ttbBase.toNat * 2 ^ 12)).foldl State.touchCommitted s

/-- A walk of a context's tables; none raises PAGE. The physical byte must exist (R196). -/
def State.walkCtx (s : State) (ctx : Nat) (va : Nat) : Option (BitVec 64 × Nat) :=
  let c := s.context ctx
  if !c.ttbEn then none
  else match s.walk va 3 (c.ttbBase.toNat * 2 ^ 12) with
    | some (e, level) => if s.physOk (xlatOf e level va).pa then some (e, level) else none
    | none => none

/-- The compute die of a core, and the entries of its last-level TLB (R6, R200). -/
def dieOf (core : Nat) : Nat := core / 64
def dieTlbSize : Nat := 12288

/-- The entry of a list that covers an address of a context. -/
def coveringEntry (l : List TlbEntry) (ctx va : Nat) : Option TlbEntry :=
  l.find? fun t => t.ctx == ctx && decide (t.va ≤ va) && decide (va < t.va + t.size)

/-- The cached entry that covers an address of a context: the core's own, or one of its die's last-level TLB (R200). -/
def State.cachedEntry (s : State) (core ctx va : Nat) : Option TlbEntry :=
  match coveringEntry (s.core core).tlb ctx va with
  | some t => some t
  | none => coveringEntry (Table.getD s.dieTlb (dieOf core) []) ctx va

/-- An entry enters a core's TLB and its die's. The spec names no replacement and gives no size for a core's own: the oldest entry leaves a full
last-level TLB, and a core's own drops none (DESIGN CHOICE, log 36 and log 93). -/
def State.cacheEntry (s : State) (core : Nat) (t : TlbEntry) : State :=
  { (s.modCore core fun c => { c with tlb := t :: c.tlb }) with
    dieTlb := Table.put s.dieTlb (dieOf core) ((t :: Table.getD s.dieTlb (dieOf core) []).take dieTlbSize) }

/-- The level at which a cached entry is a leaf. -/
def TlbEntry.level (t : TlbEntry) : Nat := if t.pte.getLsbD 1 then 1 else 0

/-- The address is outside the 57 bits used: PROT (R196). -/
def vaWide (va : BitVec 64) : Bool := va.extractLsb' 57 7 != 0

/-- Translates an address of a context on a core: PROT for high bits, PAGE without page tables (R197), where the walk fails, and where the
physical byte does not exist or its port has failed (R196, R213); ECC where the walk reads a poisoned line (R215). While a cached entry differs from the tables, the access uses the old entry or
the new one, and the hardware chooses (R200, R206). -/
def State.translate (s : State) (core ctx : Nat) (va : BitVec 64) : Except TrapKind Xlat × State :=
  if vaWide va then (.error .prot, s)
  else if !(s.context ctx).ttbEn then (.error .page, s)
  else
    let a := va.toNat
    let fresh := s.walkCtx ctx a
    match s.cachedEntry core ctx a with
    | some t =>
      let old := (t.pte, t.level)
      if fresh == some old then (.ok (xlatOf t.pte t.level a), s)
      else
        let (k, s) := s.choose 2
        if k = 0 then (if s.physOk (xlatOf t.pte t.level a).pa then .ok (xlatOf t.pte t.level a) else .error .page, s)
        else if s.walkPoisoned ctx a then (.error .ecc, s)
        else match fresh with
          | some (e, level) => (.ok (xlatOf e level a), s.touchWalk ctx a)
          | none => (.error .page, s.touchWalk ctx a)
    | none =>
      if s.walkPoisoned ctx a then (.error .ecc, s)
      else match fresh with
      | none => (.error .page, s.touchWalk ctx a)
      | some (e, level) =>
        let size := min (leafSize level e) (2 ^ 25)
        (.ok (xlatOf e level a), (s.touchWalk ctx a).cacheEntry core { ctx := ctx, va := a / size * size, size := size, pte := e })

/-- The rights that an access needs; the first it lacks raises PROT (R199). -/
def Xlat.allows (t : Xlat) (k : AccessKind) : Bool :=
  match k with
  | .read => t.rd
  | .write => t.w
  | .atomic => t.rd && t.w
  | .fetch => t.x

/-- Translates and checks an access. -/
def State.access (s : State) (core ctx : Nat) (va : BitVec 64) (k : AccessKind) : Except TrapKind Xlat × State :=
  match s.translate core ctx va with
  | (.error e, s) => (.error e, s)
  | (.ok t, s) => if t.allows k then (.ok t, s) else (.error .prot, s)

-- ## The window and scratchpad (R201, R202)

/-- The start of the window, and the stride and size of a core's slice. -/
def windowBase : Nat := 0x01FFFFFFF0000000
def sliceSize : Nat := 0x100000
def scratchSize : Nat := 0x80000

/-- The address lies in the window. -/
def inWindow (va : BitVec 64) : Bool := decide (windowBase ≤ va.toNat) && decide (va.toNat < 2 ^ 57)

/-- The scratchpad range of a team as bytes of the window: start and length. -/
def State.teamRange (s : State) (t : Team) : Nat × Nat :=
  (t.core * sliceSize + t.scratch, match Table.find s.grids t.grid with
    | some g => g.image.scratch
    | none => 0)

/-- A byte of the window lies in the range of a placed team of a grid, on an enabled core. -/
def State.windowByteOk (s : State) (grid off : Nat) : Bool :=
  decide (off % sliceSize < scratchSize) && (s.core (off / sliceSize)).enabled
    && s.teams.any fun e => e.2.grid == grid && e.2.phase == .placed
      && (let (lo, n) := s.teamRange e.2; decide (lo ≤ off) && decide (off < lo + n))

/-- Every byte of an access to the window is in bounds. -/
def State.windowOk (s : State) (grid off n : Nat) : Bool := (List.range n).all fun k => s.windowByteOk grid (off + k)

/-- A team-relative access lies in its team's own range (R201). -/
def State.teamOk (s : State) (t : Team) (off : BitVec 64) (n : Nat) : Bool := decide (off.toNat + n ≤ (s.teamRange t).2)

/-- The location of a team-relative offset. -/
def State.teamLoc (s : State) (t : Team) (off : Nat) : Loc := .scratch ((s.teamRange t).1 + off)

/-- n bytes of scratchpad at an offset of the window. -/
def State.scratchByte (s : State) (off : Nat) : Byte := (blurByte s.blurs true off).getD (Sparse.get s.scratch off)
def State.scratchBytes (s : State) (off n : Nat) : List Byte := (List.range n).map fun k => s.scratchByte (off + k)

/-- Writes bytes of scratchpad directly (R202). -/
def State.writeScratch (s : State) (off : Nat) : List Byte → State
  | [] => s
  | b :: r => State.writeScratch { s with scratch := Sparse.set s.scratch off b, blurs := cutBlurs s.blurs true off 1 } (off + 1) r

-- ## One access (R30, R248 to R250)

/-- The bytes at a location as a view reads them. -/
def State.readLoc (s : State) (view : List (Nat × Nat)) (l : Loc) (n : Nat) : List Byte :=
  match l with
  | .phys pa txn => if txn then s.readBytes view pa n else s.committedBytes pa n
  | .scratch off => s.scratchBytes off n

/-- The location after n more bytes. -/
def Loc.plus (l : Loc) (n : Nat) : Loc :=
  match l with
  | .phys pa txn => .phys (pa + n) txn
  | .scratch off => .scratch (off + n)

/-- Two accesses touch a common byte. -/
def Loc.overlaps (l : Loc) (n : Nat) (m : Loc) (k : Nat) : Bool :=
  match l, m with
  | .phys a _, .phys b _ => decide (a < b + k) && decide (b < a + n)
  | .scratch a, .scratch b => decide (a < b + k) && decide (b < a + n)
  | _, _ => false

-- ## What bytes held before (R218, R222, R242)

/-- Who changes bytes other than for a group: the host or a peer, the hub die, and a commit. -/
def outsideRef : GroupRef := { team := 0, grp := 256 }
def hubRef : GroupRef := { team := 0, grp := 257 }
def commitRef : GroupRef := { team := 0, grp := 258 }

/-- The versions through which a byte of an access is read: none for committed data and scratchpad. -/
def State.locView (s : State) (view : List (Nat × Nat)) (l : Loc) : List (Nat × Nat) :=
  match l with
  | .phys pa true => s.viewAt view pa
  | _ => []

/-- The byte that a version, or committed data or scratchpad, holds at a location now. -/
def State.byteNow (s : State) (ver : Option (Nat × Nat)) (l : Loc) : Option Byte :=
  match l, ver with
  | .scratch off, _ => some (s.scratchByte off)
  | .phys pa _, some v => shadowByte s.shadows v pa
  | .phys pa _, none => some (s.committedAt pa)

/-- Keeps the values that bytes of versions hold before one event changes them; pubs: what the event tells as a release. -/
def State.keep (s : State) (src : GroupRef) (seq : Nat) (xs : List (Option (Nat × Nat) × Loc)) (pubs : List Pub := []) : State :=
  if xs.isEmpty then s
  else { s with stamp := s.stamp + 1, history := s.history ++ xs.map fun x =>
    { stamp := s.stamp + 1, cycle := s.cycle, src := src, seq := seq, pubs := pubs, ver := x.1, loc := x.2, old := s.byteNow x.1 x.2 } }

/-- Keeps the values of n bytes at a location before a store changes them. -/
def State.remember (s : State) (src : GroupRef) (seq : Nat) (view : List (Nat × Nat)) (l : Loc) (n : Nat) (pubs : List Pub := []) : State :=
  s.keep src seq ((List.range n).map fun k => ((s.locView view (l.plus k)).head?, l.plus k)) pubs

/-- The byte of a version as it stood once the store with a number had performed; at the number of the newest, as it stands now. -/
def State.byteAt (s : State) (at_ : Nat) (ver : Option (Nat × Nat)) (l : Loc) : Option Byte :=
  if s.stamp ≤ at_ then s.byteNow ver l
  else match s.history.find? fun h => decide (at_ < h.stamp) && h.ver == ver && h.loc.overlaps 1 l 1 with
    | some h => h.old
    | none => s.byteNow ver l

/-- A byte as a view read it then. -/
def State.viewByteAt (s : State) (at_ : Nat) (l : Loc) : List (Nat × Nat) → Byte
  | [] => (s.byteAt at_ none l).getD 0
  | v :: r => match s.byteAt at_ (some v) l with
    | some b => b
    | none => State.viewByteAt s at_ l r

/-- The bytes at a location as a view read them then: as they stand, at the number of the newest store. -/
def State.readLocAt (s : State) (at_ : Nat) (view : List (Nat × Nat)) (l : Loc) (n : Nat) : List Byte :=
  if s.stamp ≤ at_ then s.readLoc view l n
  else (List.range n).map fun k => s.viewByteAt at_ (l.plus k) (s.locView view (l.plus k))

/-- The place lies in a peer's memory (R196). -/
def Loc.atPeer (l : Loc) : Bool :=
  match l with
  | .phys a _ => decide (2 ^ 50 ≤ a)
  | .scratch _ => false

/-- A kept value concerns a read of a location through a view. -/
def OldByte.meets (h : OldByte) (view : List (Nat × Nat)) (l : Loc) (n : Nat) : Bool :=
  h.loc.overlaps 1 l n && match h.ver, l with
    | some v, .phys _ true => view.contains v
    | some _, _ => false
    | none, _ => true

-- ## What a launch has read (R237, R250, R251, R306)

/-- A byte of a transactional page that a view took from committed data at a time (R249). -/
def State.fromCommitted (s : State) (at_ : Nat) (view : List (Nat × Nat)) (l : Loc) : Bool :=
  match l with
  | .phys pa true => !view.isEmpty && !s.highEntry pa && view.all fun v => (s.byteAt at_ (some v) l).isNone
  | _ => false

/-- A change of committed data that concerns a launch which has read it: a commit, or a write from outside (R251, R306). -/
def OldByte.joint (h : OldByte) : Bool := h.src == commitRef || h.src == outsideRef

/-- The number of the commit or write from outside that gave a byte the committed value which it had at a time. -/
def State.jointShown (s : State) (at_ : Nat) (l : Loc) : List Nat :=
  match s.history.reverse.find? fun h => decide (h.stamp ≤ at_) && h.ver.isNone && h.loc.overlaps 1 l 1 with
  | some h => if h.joint then [h.stamp] else []
  | none => []

/-- The numbers of those that have changed it since. -/
def State.jointHidden (s : State) (at_ : Nat) (l : Loc) : List Nat :=
  (s.history.filter fun h => h.joint && decide (at_ < h.stamp) && h.ver.isNone && h.loc.overlaps 1 l 1).map fun h => h.stamp

/-- The bytes of a location that a view took from committed data at a time. -/
def State.takenBytes (s : State) (at_ : Nat) (view : List (Nat × Nat)) (l : Loc) (n : Nat) : List Loc :=
  ((List.range n).map fun k => l.plus k).filter fun m => s.fromCommitted at_ view m

/-- A read at a time agrees with what its launch has read: it shows no commit before which another read stood, nor stands before one that
another has shown (FS8). -/
def State.agrees (s : State) (at_ : Nat) (view : List (Nat × Nat)) (l : Loc) (n : Nat) : Bool :=
  match view.head?.bind fun v => Table.find s.launches v.1 with
  | some x => (s.takenBytes at_ view l n).all fun m =>
      !((s.jointShown at_ m).any fun k => x.missed.contains k) && !((s.jointHidden at_ m).any fun k => x.saw.contains k)
  | none => true

/-- A read of a byte: from committed data its word enters the read set, which counts by line, or by word in a block table's entry array (R250), with
the commits that it shows and hides; the line that it is taken from is touched (R256). -/
def State.trackByte (s : State) (at_ : Nat) (view : List (Nat × Nat)) (l : Loc) : State :=
  match l, view with
  | .phys pa true, v :: _ =>
    if s.fromCommitted at_ view l then
      (s.touchCommitted pa).modLaunch v.1 fun x =>
        { x with saw := (s.jointShown at_ l).foldl addNew x.saw, missed := (s.jointHidden at_ l).foldl addNew x.missed,
                 readWords := addNew x.readWords (pa / 8) }
    else if s.highEntry pa then s.touchCommitted pa
    else s.touchView view pa
  | .phys pa _, _ => s.touchCommitted pa
  | .scratch _, _ => s

/-- A read of a location at a time. -/
def State.trackAt (s : State) (at_ : Nat) (view : List (Nat × Nat)) (l : Loc) (n : Nat) : State :=
  (List.range n).foldl (fun s k => s.trackByte at_ view (l.plus k)) s

/-- A read of a location as it stands. -/
def State.trackLoc (s : State) (view : List (Nat × Nat)) (l : Loc) (n : Nat) : State := s.trackAt s.stamp view l n

/-- The launch has read data before a commit or a write from outside that changed it: it is to abort and replay (R251, R306). -/
def Launch.doomed (l : Launch) : Bool := !l.missed.isEmpty

/-- The location is poisoned: every read of it raises ECC (R215). -/
def State.poisoned (s : State) (l : Loc) : Bool :=
  match l with
  | .phys pa _ => s.poison.contains (lineOf pa)
  | .scratch _ => false

/-- Writes a byte of a transactional page into the shadow of a version (R249). -/
def State.writeTxn (s : State) (v : Nat × Nat) (pa : Nat) (b : Byte) : State :=
  if s.highEntry pa then s.writeDirect pa b else { (s.touchLine v (lineOf pa)) with shadows := putShadow v pa b s.shadows }

/-- Writes bytes at a location: a transactional one into the shadow of the view's own version (R249), another directly. -/
def State.writeLoc (s : State) (view : List (Nat × Nat)) (l : Loc) (bs : List Byte) : State :=
  match l with
  | .scratch off => s.writeScratch off bs
  | .phys pa txn =>
    match txn, view with
    | true, v :: _ => (bs.zipIdx).foldl (fun s e => s.writeTxn v (pa + e.2) e.1) s
    | _, _ => s.writeDirectBytes pa bs

/-- A store performs at its location's home; pubs: what it tells as a release. -/
def State.perform (s : State) (src : GroupRef) (seq : Nat) (view : List (Nat × Nat)) (l : Loc) (bs : List Byte) (pubs : List Pub := []) : State :=
  (s.remember src seq view l bs.length pubs).writeLoc view l bs

/-- The bytes of a list of accesses, oldest first, laid over the n bytes at a location. -/
def overlay (l : Loc) (n : Nat) (bs : List Byte) (m : Loc) (data : List Byte) : List Byte :=
  let at_ : Loc → Nat := fun x => match x with
    | .phys a _ => a
    | .scratch a => a
  let same := match l, m with
    | .phys _ _, .phys _ _ => true
    | .scratch _, .scratch _ => true
    | _, _ => false
  if !same then bs
  else (List.range n).map fun k =>
    let a := at_ l + k
    if at_ m ≤ a && a < at_ m + data.length then listGetD data (a - at_ m) 0 else listGetD bs k 0

/-- The bytes of a store. -/
def PendStore.bytesOf (x : PendStore) : List Byte := leBytes x.bytes x.data.toNat

/-- Stores, in order, laid over the n bytes at a location. -/
def overStores (l : Loc) (n : Nat) (bs : List Byte) (xs : List PendStore) : List Byte := xs.foldl (fun bs x => overlay l n bs x.loc x.bytesOf) bs

-- ## Capacity of the shadow (R256, R257)

/-- The context's overflow region is full. -/
def State.overflowFull (s : State) (ctx : Nat) : Bool :=
  let c := s.context ctx
  decide (2 ^ c.ovfInForce.toNat * 2 ^ 30 / 64 ≤ c.overflow.length)

/-- The compute die whose LLC holds a line: of the first tier the one to which its stack is local, of the second by a hash (R6, R204). -/
def homeDie (line : Nat) : Nat := if line < 2 ^ 33 then line / 2 ^ 31 else Config.lineHome line % 4

/-- The lines that the LLC of a compute die holds: 96 MiB (R6). -/
def llcLines : Nat := 96 * 2 ^ 20 / 64

/-- The shadow lines that stand in LLCs: their contexts, the numbers of their versions, and the lines. -/
def State.shadowLines (s : State) : List (Nat × Nat × Nat) :=
  ((s.shadows.flatMap fun x => ((s.linesOf (x.launch, x.sub)).eraseDups).filterMap fun l => (s.versionKey (x.launch, x.sub)).map fun k =>
      (((Table.find s.launches x.launch).map fun y => y.ctx).getD 0, k, l))
    ++ s.committed.flatMap fun c => ((c.bytes.map fun e => lineOf e.1).eraseDups).map fun l => (c.ctx, c.tag.toNat * 4096, l)).filter fun x =>
      !(s.context x.1).overflow.contains (x.2.1, x.2.2)

/-- The LLC of a die holds more shadow lines than it has room for: it evicts some before anything else happens (R6, R256). -/
def State.llcOver (s : State) : Bool :=
  !(s.shadows.isEmpty && s.committed.isEmpty)
    && (let l := s.shadowLines.map fun x => homeDie x.2.2
        (List.range 4).any fun d => decide (llcLines < (l.filter fun k => k == d).length))

/-- A store at a location would need a new shadow line while the overflow region is full. -/
def State.shadowBlocked (s : State) (ctx : Nat) (view : List (Nat × Nat)) (l : Loc) : Bool :=
  match l, view with
  | .phys pa true, v :: _ => !s.highEntry pa && !s.hasShadowLine v (lineOf pa) && s.overflowFull ctx
  | _, _ => false

/-- The launch is uncommitted: it holds a tag and has not ended. -/
def Launch.uncommitted (l : Launch) : Bool := l.tag.isSome

/-- The launch is before another in commit order: both are uncommitted, and it started first (R246, R247). -/
def State.before (s : State) (a b : Nat) : Bool :=
  match Table.find s.launches a, Table.find s.launches b with
  | some x, some y => x.uncommitted && y.uncommitted && decide (x.order < y.order)
  | _, _ => false

/-- A launch is the oldest uncommitted one. -/
def State.isOldest (s : State) (l : Nat) : Bool :=
  match Table.find s.launches l with
  | some x => x.uncommitted && s.launches.all fun e => !e.2.uncommitted || decide (x.order ≤ e.2.order)
  | none => false

end Sys2Proof.Machine
end

