-- ==== Sys2Proof/Machine/Power.lean ====
section
/-! DEFINITION. Charging a core's power bucket (R280, R281). -/

namespace Sys2Proof.Machine

/-- The bucket after the credits of a cycle: RATE, up to CAP (R280). -/
def Core.refilled (c : Core) : Core :=
  { c with level := if c.cap.toNat ≤ c.level.toNat + c.rate.toNat then c.cap else c.level + (c.rate.setWidth 17), owed := false }

/-- The bucket at the end of a cycle: the cycle's credits have come, at the latest now. A gated core's bucket stands still. -/
def Core.bucketTicked (c : Core) : Core := let c := if c.owed then c.refilled else c; { c with owed := !c.gated }

/-- The bucket after a charge of n; none where the charge must wait. A charge above CAP waits for a full bucket and empties it; with
EN = 0 nothing is charged. -/
def Core.charge (c : Core) (n : Nat) : Option Core :=
  if !c.pwrEn then some c
  else if n ≤ c.level.toNat then some { c with level := c.level - BitVec.ofNat 17 n }
  else if c.cap.toNat < n && c.level == c.cap then some { c with level := 0 }
  else none

/-- The state after a charge of a core's bucket. -/
def State.charge (s : State) (core n : Nat) : Option State :=
  match (s.core core).charge n with
  | some c => some (s.modCore core fun _ => c)
  | none => none

/-- An issue that charges n first: the group waits for the bucket where it must (R281). -/
def Env.charged (e : Env) (s : State) (n : Nat) (body : State → State) : State :=
  match s.charge e.core n with
  | some s => body s
  | none => e.waitOn (.power e.core n) s

/-- The charges of accesses at memory tiles, core by core, each an access of one lane (R100, R281, log 55): the state, or the charge that must wait. -/
def State.chargeAll : List (Nat × Nat) → State → Except (Nat × Nat) State
  | [], s => .ok s
  | x :: r, s => match s.charge x.1 x.2 with
    | some s => State.chargeAll r s
    | none => .error x

/-- The accesses at the memory tiles of each core among the lanes of an atomic (R95, R225). -/
def tileCharges (lanes : List (Nat × Loc)) : List (Nat × Nat) :=
  let cores := lanes.filterMap fun x => match x.2 with
    | .scratch off => some (off / sliceSize)
    | .phys _ _ => none
  cores.eraseDups.map fun c => (c, (cores.filter fun k => k == c).length)

/-- Adds 1 to the context's retuse counter (R312). -/
def State.countRetuse (s : State) (ctx : Nat) : State := s.modContext ctx fun c => { c with retuse := c.retuse + 1 }

end Sys2Proof.Machine
end

