-- ==== Sys2Proof/WellFormed.lean ====
section
/-! DEFINITION. Well-formed instructions: those whose fields keep every rule of R319 to R333. -/

namespace Sys2Proof

/-- The instruction breaks no rule of the formats (R333). -/
abbrev Instr.WellFormed (i : Instr) : Prop := i.check = none

end Sys2Proof
end

