-- ==== Sys2Proof/Decode.lean ====
section
/-! DEFINITION. The decoder: from a native word of 64 bits or a spatial slot of 96 bits to an instruction or a named refusal, and
the encoder, written from the same tables (R318 to R333). -/

namespace Sys2Proof

-- ## The fields of the formats

/-- Formats A and I (R318). -/
def aWord (w : DWord) : AWord :=
  { ty := w.extractLsb' 52 3, sat := w.getLsbD 51, var := w.extractLsb' 48 3,
    g := { pg := w.extractLsb' 41 7, pn := w.getLsbD 40 }, d := w.extractLsb' 32 8, a := w.extractLsb' 24 8,
    tail := if w.getLsbD 55 then .imm (w.extractLsb' 0 24)
      else .reg (w.extractLsb' 16 8) (w.extractLsb' 8 8) (w.extractLsb' 0 8) }

/-- Formats M and MA (R323). -/
def mWord (w : DWord) : MWord :=
  { width := w.extractLsb' 53 3, order := w.extractLsb' 51 2, scope := w.extractLsb' 48 3,
    g := { pg := w.extractLsb' 41 7, pn := w.getLsbD 40 }, d := w.extractLsb' 32 8, base := w.extractLsb' 24 8,
    index := w.extractLsb' 16 8, imm := w.extractLsb' 0 16 }

/-- Format B (R326). -/
def bWord (w : DWord) : BWord :=
  { fn := w.extractLsb' 48 8, g := { pg := w.extractLsb' 41 7, pn := w.getLsbD 40 }, aux := w.extractLsb' 32 8,
    disp := w.extractLsb' 0 32 }

/-- Format P (R327). -/
def pWord (w : DWord) : PWord :=
  { g := { pg := w.extractLsb' 41 7, pn := w.getLsbD 40 }, pd := w.extractLsb' 33 7, pa := w.extractLsb' 25 7,
    na := w.getLsbD 24, pb := w.extractLsb' 17 7, nb := w.getLsbD 16 }

/-- Format X (R328). -/
def xWord (w : DWord) : XWord :=
  { fsel := w.getLsbD 55, acq := w.getLsbD 54, rel := w.getLsbD 53, scope := w.extractLsb' 50 3,
    g := { pg := w.extractLsb' 41 7, pn := w.getLsbD 40 }, r1 := w.extractLsb' 32 8, r2 := w.extractLsb' 24 8,
    r3 := w.extractLsb' 16 8, d := w.extractLsb' 8 8, variant := w.extractLsb' 0 8 }

/-- Format H (R329). -/
def hWord (w : DWord) : HWord :=
  { wait := w.extractLsb' 44 12, flagA := w.extractLsb' 40 4, flagB := w.extractLsb' 36 4, count := w.extractLsb' 32 4 }

/-- Format S: the control word in [95:32], the operand word in [31:0] (R318, R330). -/
def sWord (w : BitVec 96) : SWord :=
  { care := w.extractLsb' 80 8, value := w.extractLsb' 72 8, ready := w.extractLsb' 68 4, space := w.extractLsb' 64 4,
    tagen := w.getLsbD 63, tagInput := w.extractLsb' 61 2, tagVal := w.extractLsb' 59 2, deq := w.extractLsb' 55 4,
    srcA := w.extractLsb' 51 4, srcB := w.extractLsb' 47 4, out := w.extractLsb' 43 4, ldest := w.extractLsb' 40 3,
    lwe := w.getLsbD 39, pbit := w.extractLsb' 36 3, pkind := w.extractLsb' 34 2, otag := w.extractLsb' 32 2,
    fn := w.extractLsb' 24 7, imm := w.extractLsb' 0 24 }

/-- An instruction, unless the reserved bits are set. -/
def withReserved (zero : Bool) (i : Instr) : Except DecodeError Instr := if zero then .ok i else .error .unusedField

/-- A word whose every field but op is zero (R332). -/
def bareWord (w : DWord) (i : Instr) : Except DecodeError Instr := withReserved (w.extractLsb' 0 56 == 0) i

/-- A P word: fn, bit 32 and [15:0] are zero (R327). -/
def pInstr (w : DWord) (f : PWord → Instr) : Except DecodeError Instr :=
  withReserved (w.extractLsb' 48 8 == 0 && !w.getLsbD 32 && w.extractLsb' 0 16 == 0) (f (pWord w))

/-- An X word: [49:48] is zero (R328). -/
def xInstr (w : DWord) (f : XWord → Instr) : Except DecodeError Instr :=
  withReserved (w.extractLsb' 48 2 == 0) (f (xWord w))

/-- eqp: I = 1, the id in [11:0], every other field zero, the guard included (R383). -/
def eqpInstr (w : DWord) : Except DecodeError Instr :=
  if !w.getLsbD 55 then .error .immediateForm
  else withReserved (w.extractLsb' 12 43 == 0) (.eqp (w.extractLsb' 0 12))

/-- hop: I = 1, the target in [1:0], a guard (R398). -/
def hopInstr (w : DWord) : Except DecodeError Instr :=
  if !w.getLsbD 55 then .error .immediateForm
  else withReserved (w.extractLsb' 48 7 == 0 && w.extractLsb' 2 38 == 0)
    (.hop { pg := w.extractLsb' 41 7, pn := w.getLsbD 40 } (w.extractLsb' 0 2))

/-- trap: I = 1, imm24, a guard (R455). -/
def trapInstr (w : DWord) : Except DecodeError Instr :=
  if !w.getLsbD 55 then .error .immediateForm
  else withReserved (w.extractLsb' 48 7 == 0 && w.extractLsb' 24 16 == 0)
    (.trap { pg := w.extractLsb' 41 7, pn := w.getLsbD 40 } (w.extractLsb' 0 24))

-- ## The opcode map (R332)

/-- The fields of a native word by its op. -/
def splitNative (w : DWord) : Except DecodeError Instr :=
  match (w.extractLsb' 56 8).toNat with
  | 0x01 => .ok (.add (.native (aWord w)))
  | 0x02 => .ok (.sub (.native (aWord w)))
  | 0x03 => .ok (.addc (.native (aWord w)))
  | 0x04 => .ok (.subb (.native (aWord w)))
  | 0x05 => .ok (.mul (.native (aWord w)))
  | 0x06 => .ok (.mulh (.native (aWord w)))
  | 0x07 => .ok (.mad (.native (aWord w)))
  | 0x08 => .ok (.divi (aWord w))
  | 0x09 => .ok (.remi (aWord w))
  | 0x0A => .ok (.min (.native (aWord w)))
  | 0x0B => .ok (.max (.native (aWord w)))
  | 0x0C => .ok (.abs (.native (aWord w)))
  | 0x0D => .ok (.and (.native (aWord w)))
  | 0x0E => .ok (.or (.native (aWord w)))
  | 0x0F => .ok (.xor (.native (aWord w)))
  | 0x10 => .ok (.andn (.native (aWord w)))
  | 0x11 => .ok (.not (.native (aWord w)))
  | 0x12 => .ok (.shl (.native (aWord w)))
  | 0x13 => .ok (.shr (.native (aWord w)))
  | 0x14 => .ok (.sar (.native (aWord w)))
  | 0x15 => .ok (.rot (.native (aWord w)))
  | 0x16 => .ok (.clz (.native (aWord w)))
  | 0x17 => .ok (.popc (.native (aWord w)))
  | 0x18 => .ok (.brev (.native (aWord w)))
  | 0x19 => .ok (.bfx (.native (aWord w)))
  | 0x1A => .ok (.bfi (.native (aWord w)))
  | 0x1B => .ok (.sel (.native (aWord w)))
  | 0x1C => .ok (.cmp (.native (aWord w)))
  | 0x1D => .ok (.lea (.native (aWord w)))
  | 0x20 => .ok (.fadd (.native (aWord w)))
  | 0x21 => .ok (.fsub (.native (aWord w)))
  | 0x22 => .ok (.fmul (.native (aWord w)))
  | 0x23 => .ok (.ffma (.native (aWord w)))
  | 0x24 => .ok (.fmin (.native (aWord w)))
  | 0x25 => .ok (.fmax (.native (aWord w)))
  | 0x26 => .ok (.fcmp (.native (aWord w)))
  | 0x27 => .ok (.fdiv (aWord w))
  | 0x28 => .ok (.frcp (.native (aWord w)))
  | 0x29 => .ok (.frsq (.native (aWord w)))
  | 0x2A => .ok (.fsqrt (.native (aWord w)))
  | 0x2B => .ok (.fexp2 (.native (aWord w)))
  | 0x2C => .ok (.flog2 (.native (aWord w)))
  | 0x2D => .ok (.fsin (.native (aWord w)))
  | 0x2E => .ok (.fcos (.native (aWord w)))
  | 0x2F => .ok (.ftanh (.native (aWord w)))
  | 0x30 => .ok (.fclass (.native (aWord w)))
  | 0x31 => .ok (.frnd (.native (aWord w)))
  | 0x32 => .ok (.fscale (.native (aWord w)))
  | 0x33 => .ok (.cvt (.native (aWord w)))
  | 0x34 => .ok (.pack (.native (aWord w)))
  | 0x35 => .ok (.unpack (.native (aWord w)))
  | 0x36 => .ok (.dot2 (.native (aWord w)))
  | 0x37 => .ok (.dot4 (.native (aWord w)))
  | 0x38 => .ok (.dot8 (.native (aWord w)))
  | 0x40 => .ok (.mov (.native (aWord w)))
  | 0x41 => .ok (.movi (aWord w))
  | 0x42 => .ok (.movh (aWord w))
  | 0x43 => .ok (.shfl (aWord w))
  | 0x44 => .ok (.bcast (aWord w))
  | 0x45 => .ok (.vote (aWord w))
  | 0x46 => .ok (.red (aWord w))
  | 0x47 => .ok (.scan (aWord w))
  | 0x48 => .ok (.mfsr (aWord w))
  | 0x49 => .ok (.mtsr (aWord w))
  | 0x50 => pInstr w .pand
  | 0x51 => pInstr w .por
  | 0x52 => pInstr w .pxor
  | 0x53 => pInstr w .pnot
  | 0x54 => pInstr w .pmov
  | 0x58 => .ok (.br (bWord w))
  | 0x59 => .ok (.brx (bWord w))
  | 0x5A => .ok (.call (bWord w))
  | 0x5B => .ok (.ret (bWord w))
  | 0x5C => .ok (.loop (bWord w))
  | 0x5D => .ok (.yield (bWord w))
  | 0x5E => .ok (.exit (bWord w))
  | 0x5F => bareWord w .serl
  | 0x60 => bareWord w .sere
  | 0x61 => eqpInstr w
  | 0x62 => hopInstr w
  | 0x63 => bareWord w .nop
  | 0x64 => .ok (.cwait (mWord w))
  | 0x65 => bareWord w .bsync
  | 0x70 => .ok (.ld (mWord w))
  | 0x71 => .ok (.st (mWord w))
  | 0x72 => .ok (.lds (mWord w))
  | 0x73 => .ok (.sts (mWord w))
  | 0x74 => .ok (.ldv (mWord w))
  | 0x75 => .ok (.stv (mWord w))
  | 0x76 => .ok (.ldbt (mWord w))
  | 0x77 => .ok (.stbt (mWord w))
  | 0x78 => .ok (.ldc (mWord w))
  | 0x79 => .ok (.prf (mWord w))
  | 0x80 => .ok (.atom (mWord w))
  | 0x81 => .ok (.atoms (mWord w))
  | 0x82 => .ok (.cas (mWord w))
  | 0x83 => .ok (.cass (mWord w))
  | 0x84 => .ok (.fence (mWord w))
  | 0x85 => .ok (.barinit (mWord w))
  | 0x86 => .ok (.arrive (mWord w))
  | 0x87 => .ok (.wait (mWord w))
  | 0x90 => xInstr w .copy
  | 0x91 => xInstr w .gather
  | 0x92 => xInstr w .mma
  | 0x93 => xInstr w .accalloc
  | 0x94 => xInstr w .accgrow
  | 0x95 => xInstr w .accfree
  | 0x96 => xInstr w .accld
  | 0x97 => xInstr w .accst
  | 0x98 => xInstr w .query
  | 0x99 => xInstr w .launch
  | 0x9A => xInstr w .coll
  | 0x9B => xInstr w .waitf
  | 0xA0 => trapInstr w
  | 0xA1 => bareWord w .eret
  | 0xA2 => bareWord w .bkpt
  | 0xA3 => bareWord w .icinv
  | 0xA4 => bareWord w .fbar
  | 0xA5 => xInstr w .tlbinv
  | 0xA6 => xInstr w .btop
  | 0xA7 => bareWord w .halt
  | 0xF0 => withReserved (w.extractLsb' 0 32 == 0) (.clause (hWord w))
  | op => if 0xC0 ≤ op && op ≤ 0xD3 then .error .slotOnly else .error .unassignedOp

/-- The ops whose Forms column lacks S (R332). -/
def nativeOps : List Nat := [
    0x08, 0x09, 0x27, 0x41, 0x42, 0x43, 0x44, 0x45, 0x46, 0x47, 0x48, 0x49, 0x50, 0x51, 0x52, 0x53, 0x54, 0x58, 0x59,
    0x5A, 0x5B, 0x5C, 0x5D, 0x5E, 0x5F, 0x60, 0x61, 0x62, 0x63, 0x64, 0x65, 0x70, 0x71, 0x72, 0x73, 0x74, 0x75, 0x76,
    0x77, 0x78, 0x79, 0x80, 0x81, 0x82, 0x83, 0x84, 0x85, 0x86, 0x87, 0x90, 0x91, 0x92, 0x93, 0x94, 0x95, 0x96, 0x97,
    0x98, 0x99, 0x9A, 0x9B, 0xA0, 0xA1, 0xA2, 0xA3, 0xA4, 0xA5, 0xA6, 0xA7, 0xF0]

/-- The fields of a spatial word by its op. -/
def splitSlot (w : BitVec 96) : Except DecodeError Instr :=
  match (w.extractLsb' 88 8).toNat with
  | 0x01 => .ok (.add (.slot (sWord w)))
  | 0x02 => .ok (.sub (.slot (sWord w)))
  | 0x03 => .ok (.addc (.slot (sWord w)))
  | 0x04 => .ok (.subb (.slot (sWord w)))
  | 0x05 => .ok (.mul (.slot (sWord w)))
  | 0x06 => .ok (.mulh (.slot (sWord w)))
  | 0x07 => .ok (.mad (.slot (sWord w)))
  | 0x0A => .ok (.min (.slot (sWord w)))
  | 0x0B => .ok (.max (.slot (sWord w)))
  | 0x0C => .ok (.abs (.slot (sWord w)))
  | 0x0D => .ok (.and (.slot (sWord w)))
  | 0x0E => .ok (.or (.slot (sWord w)))
  | 0x0F => .ok (.xor (.slot (sWord w)))
  | 0x10 => .ok (.andn (.slot (sWord w)))
  | 0x11 => .ok (.not (.slot (sWord w)))
  | 0x12 => .ok (.shl (.slot (sWord w)))
  | 0x13 => .ok (.shr (.slot (sWord w)))
  | 0x14 => .ok (.sar (.slot (sWord w)))
  | 0x15 => .ok (.rot (.slot (sWord w)))
  | 0x16 => .ok (.clz (.slot (sWord w)))
  | 0x17 => .ok (.popc (.slot (sWord w)))
  | 0x18 => .ok (.brev (.slot (sWord w)))
  | 0x19 => .ok (.bfx (.slot (sWord w)))
  | 0x1A => .ok (.bfi (.slot (sWord w)))
  | 0x1B => .ok (.sel (.slot (sWord w)))
  | 0x1C => .ok (.cmp (.slot (sWord w)))
  | 0x1D => .ok (.lea (.slot (sWord w)))
  | 0x20 => .ok (.fadd (.slot (sWord w)))
  | 0x21 => .ok (.fsub (.slot (sWord w)))
  | 0x22 => .ok (.fmul (.slot (sWord w)))
  | 0x23 => .ok (.ffma (.slot (sWord w)))
  | 0x24 => .ok (.fmin (.slot (sWord w)))
  | 0x25 => .ok (.fmax (.slot (sWord w)))
  | 0x26 => .ok (.fcmp (.slot (sWord w)))
  | 0x28 => .ok (.frcp (.slot (sWord w)))
  | 0x29 => .ok (.frsq (.slot (sWord w)))
  | 0x2A => .ok (.fsqrt (.slot (sWord w)))
  | 0x2B => .ok (.fexp2 (.slot (sWord w)))
  | 0x2C => .ok (.flog2 (.slot (sWord w)))
  | 0x2D => .ok (.fsin (.slot (sWord w)))
  | 0x2E => .ok (.fcos (.slot (sWord w)))
  | 0x2F => .ok (.ftanh (.slot (sWord w)))
  | 0x30 => .ok (.fclass (.slot (sWord w)))
  | 0x31 => .ok (.frnd (.slot (sWord w)))
  | 0x32 => .ok (.fscale (.slot (sWord w)))
  | 0x33 => .ok (.cvt (.slot (sWord w)))
  | 0x34 => .ok (.pack (.slot (sWord w)))
  | 0x35 => .ok (.unpack (.slot (sWord w)))
  | 0x36 => .ok (.dot2 (.slot (sWord w)))
  | 0x37 => .ok (.dot4 (.slot (sWord w)))
  | 0x38 => .ok (.dot8 (.slot (sWord w)))
  | 0x40 => .ok (.mov (.slot (sWord w)))
  | 0xC0 => .ok (.steer (sWord w))
  | 0xC1 => .ok (.merge (sWord w))
  | 0xC2 => .ok (.cnt (sWord w))
  | 0xC3 => .ok (.isect (sWord w))
  | 0xC4 => .ok (.ldn (sWord w))
  | 0xC5 => .ok (.stn (sWord w))
  | 0xC6 => .ok (.atn (sWord w))
  | 0xC7 => .ok (.xlat (sWord w))
  | 0xC8 => .ok (.conv (sWord w))
  | 0xC9 => .ok (.calln (sWord w))
  | 0xCA => .ok (.retn (sWord w))
  | 0xCB => .ok (.next (sWord w))
  | 0xCC => .ok (.pent (sWord w))
  | 0xCD => .ok (.pexit (sWord w))
  | 0xCE => .ok (.btok (sWord w))
  | 0xCF => .ok (.emit (sWord w))
  | 0xD0 => .ok (.sink (sWord w))
  | 0xD1 => .ok (.swait (sWord w))
  | 0xD2 => .ok (.mport (sWord w))
  | 0xD3 => .ok (.eqpn (sWord w))
  | op => if nativeOps.contains op then .error .nativeOnly else .error .unassignedOp

/-- The instruction that a native word stands for (R333). -/
def decodeNative (w : DWord) : Except DecodeError Instr :=
  match splitNative w with
  | .error e => .error e
  | .ok i => match i.check with
    | none => .ok i
    | some e => .error e

/-- The content of a configuration slot: an all-zero word is an empty slot (R76, R333). A converter's word stands in no slot (R371). -/
def decodeSlot (w : BitVec 96) : Except DecodeError (Option Instr) :=
  if w == 0 then .ok none
  else if w.getLsbD 31 then .error .unusedField
  else match splitSlot w with
    | .error e => .error e
    | .ok (.conv _) => .error .slotOnly
    | .ok i => match i.check with
      | none => .ok (some i)
      | some e => .error e

/-- The word of a converter node (R371). -/
def decodeConverter (w : BitVec 96) : Except DecodeError SWord :=
  if w.getLsbD 31 then .error .unusedField
  else match splitSlot w with
    | .error e => .error e
    | .ok (.conv s) => match (Instr.conv s).check with
      | none => .ok s
      | some e => .error e
    | .ok _ => .error .nativeOnly

/-- The word of an encoded instruction: 64 bits in a native stream, 96 bits in a configuration. -/
inductive Encoded where
  | native (w : DWord)
  | slot (w : BitVec 96)
deriving DecidableEq, Repr

/-- The instruction that an encoded word stands for. -/
def decode (e : Encoded) : Except DecodeError Instr :=
  match e with
  | .native w => decodeNative w
  | .slot w => match decodeSlot w with
    | .ok (some i) => .ok i
    | .ok none => .error .unassignedOp
    | .error .slotOnly => match decodeConverter w with
      | .ok s => .ok (.conv s)
      | .error e => .error e
    | .error e => .error e

/-- The instruction that the decoder reads from nbits bits: up to 64 bits are a native word, more are a spatial word. -/
def decodeTableWord (nbits w : Nat) : Option Instr :=
  if nbits ≤ 64 then (decodeNative (BitVec.ofNat 64 w)).toOption
  else (decode (.slot (BitVec.ofNat 96 w))).toOption

/-- The native word of 8 little-endian bytes, lowest address first (R3). -/
def wordOfBytes : List Byte → DWord
  | [] => 0
  | b :: r => (wordOfBytes r <<< 8) ||| b.setWidth 64

/-- The 8 bytes of a native word, lowest address first (R3). -/
def bytesOfWord (w : DWord) : List Byte := (List.range 8).map fun k => w.extractLsb' (8 * k) 8

-- ## The encoder

/-- The guard fields, bits [47:40] (R318). -/
def Guard.bits (g : Guard) : BitVec 8 := g.pg ++ BitVec.ofBool g.pn

/-- A word of format A or I. -/
def AWord.encode (op : Byte) (w : AWord) : DWord :=
  match w.tail with
  | .imm v =>
    op ++ BitVec.ofBool true ++ w.ty ++ BitVec.ofBool w.sat ++ w.var ++ w.g.bits ++ w.d ++ w.a ++ v
  | .reg b c ctl =>
    op ++ BitVec.ofBool false ++ w.ty ++ BitVec.ofBool w.sat ++ w.var ++ w.g.bits ++ w.d ++ w.a ++ b ++ c ++ ctl

/-- A word of format M or MA. -/
def MWord.encode (op : Byte) (w : MWord) : DWord :=
  op ++ w.width ++ w.order ++ w.scope ++ w.g.bits ++ w.d ++ w.base ++ w.index ++ w.imm

/-- A word of format B. -/
def BWord.encode (op : Byte) (w : BWord) : DWord := op ++ w.fn ++ w.g.bits ++ w.aux ++ w.disp

/-- A word of format P. -/
def PWord.encode (op : Byte) (w : PWord) : DWord :=
  op ++ 0#8 ++ w.g.bits ++ w.pd ++ 0#1 ++ w.pa ++ BitVec.ofBool w.na ++ w.pb ++ BitVec.ofBool w.nb ++ 0#16

/-- A word of format X. -/
def XWord.encode (op : Byte) (w : XWord) : DWord :=
  op ++ BitVec.ofBool w.fsel ++ BitVec.ofBool w.acq ++ BitVec.ofBool w.rel ++ w.scope ++ 0#2 ++ w.g.bits ++ w.r1 ++ w.r2 ++ w.r3
    ++ w.d ++ w.variant

/-- A clause header. -/
def HWord.encode (w : HWord) : DWord := 0xF0#8 ++ w.wait ++ w.flagA ++ w.flagB ++ w.count ++ 0#32

/-- A spatial word. -/
def SWord.encode (op : Byte) (w : SWord) : BitVec 96 :=
  op ++ w.care ++ w.value ++ w.ready ++ w.space ++ BitVec.ofBool w.tagen ++ w.tagInput ++ w.tagVal ++ w.deq ++ w.srcA ++ w.srcB
    ++ w.out ++ w.ldest ++ BitVec.ofBool w.lwe ++ w.pbit ++ w.pkind ++ w.otag ++ 0#1 ++ w.fn ++ w.imm

/-- A word that only its op distinguishes. -/
def bareEncode (op : Byte) : DWord := op ++ 0#56

/-- The word of an op with T, V and S forms. -/
def Alu.encode (op : Byte) (w : Alu) : Encoded :=
  match w with
  | .native a => .native (a.encode op)
  | .slot s => .slot (s.encode op)

/-- The word of an instruction; none for a step of the hardware or the host, which has no word. -/
def encode (i : Instr) : Option Encoded :=
  match i with
  | .add w => some (w.encode 0x01)
  | .sub w => some (w.encode 0x02)
  | .addc w => some (w.encode 0x03)
  | .subb w => some (w.encode 0x04)
  | .mul w => some (w.encode 0x05)
  | .mulh w => some (w.encode 0x06)
  | .mad w => some (w.encode 0x07)
  | .divi w => some (.native (w.encode 0x08))
  | .remi w => some (.native (w.encode 0x09))
  | .min w => some (w.encode 0x0A)
  | .max w => some (w.encode 0x0B)
  | .abs w => some (w.encode 0x0C)
  | .and w => some (w.encode 0x0D)
  | .or w => some (w.encode 0x0E)
  | .xor w => some (w.encode 0x0F)
  | .andn w => some (w.encode 0x10)
  | .not w => some (w.encode 0x11)
  | .shl w => some (w.encode 0x12)
  | .shr w => some (w.encode 0x13)
  | .sar w => some (w.encode 0x14)
  | .rot w => some (w.encode 0x15)
  | .clz w => some (w.encode 0x16)
  | .popc w => some (w.encode 0x17)
  | .brev w => some (w.encode 0x18)
  | .bfx w => some (w.encode 0x19)
  | .bfi w => some (w.encode 0x1A)
  | .sel w => some (w.encode 0x1B)
  | .cmp w => some (w.encode 0x1C)
  | .lea w => some (w.encode 0x1D)
  | .fadd w => some (w.encode 0x20)
  | .fsub w => some (w.encode 0x21)
  | .fmul w => some (w.encode 0x22)
  | .ffma w => some (w.encode 0x23)
  | .fmin w => some (w.encode 0x24)
  | .fmax w => some (w.encode 0x25)
  | .fcmp w => some (w.encode 0x26)
  | .fdiv w => some (.native (w.encode 0x27))
  | .frcp w => some (w.encode 0x28)
  | .frsq w => some (w.encode 0x29)
  | .fsqrt w => some (w.encode 0x2A)
  | .fexp2 w => some (w.encode 0x2B)
  | .flog2 w => some (w.encode 0x2C)
  | .fsin w => some (w.encode 0x2D)
  | .fcos w => some (w.encode 0x2E)
  | .ftanh w => some (w.encode 0x2F)
  | .fclass w => some (w.encode 0x30)
  | .frnd w => some (w.encode 0x31)
  | .fscale w => some (w.encode 0x32)
  | .cvt w => some (w.encode 0x33)
  | .pack w => some (w.encode 0x34)
  | .unpack w => some (w.encode 0x35)
  | .dot2 w => some (w.encode 0x36)
  | .dot4 w => some (w.encode 0x37)
  | .dot8 w => some (w.encode 0x38)
  | .mov w => some (w.encode 0x40)
  | .movi w => some (.native (w.encode 0x41))
  | .movh w => some (.native (w.encode 0x42))
  | .shfl w => some (.native (w.encode 0x43))
  | .bcast w => some (.native (w.encode 0x44))
  | .vote w => some (.native (w.encode 0x45))
  | .red w => some (.native (w.encode 0x46))
  | .scan w => some (.native (w.encode 0x47))
  | .mfsr w => some (.native (w.encode 0x48))
  | .mtsr w => some (.native (w.encode 0x49))
  | .pand w => some (.native (w.encode 0x50))
  | .por w => some (.native (w.encode 0x51))
  | .pxor w => some (.native (w.encode 0x52))
  | .pnot w => some (.native (w.encode 0x53))
  | .pmov w => some (.native (w.encode 0x54))
  | .br w => some (.native (w.encode 0x58))
  | .brx w => some (.native (w.encode 0x59))
  | .call w => some (.native (w.encode 0x5A))
  | .ret w => some (.native (w.encode 0x5B))
  | .loop w => some (.native (w.encode 0x5C))
  | .yield w => some (.native (w.encode 0x5D))
  | .exit w => some (.native (w.encode 0x5E))
  | .serl => some (.native (bareEncode 0x5F))
  | .sere => some (.native (bareEncode 0x60))
  | .eqp id => some (.native (0x61#8 ++ BitVec.ofBool true ++ 0#43 ++ id))
  | .hop g t => some (.native (0x62#8 ++ BitVec.ofBool true ++ 0#7 ++ g.bits ++ 0#38 ++ t))
  | .nop => some (.native (bareEncode 0x63))
  | .cwait w => some (.native (w.encode 0x64))
  | .bsync => some (.native (bareEncode 0x65))
  | .ld w => some (.native (w.encode 0x70))
  | .st w => some (.native (w.encode 0x71))
  | .lds w => some (.native (w.encode 0x72))
  | .sts w => some (.native (w.encode 0x73))
  | .ldv w => some (.native (w.encode 0x74))
  | .stv w => some (.native (w.encode 0x75))
  | .ldbt w => some (.native (w.encode 0x76))
  | .stbt w => some (.native (w.encode 0x77))
  | .ldc w => some (.native (w.encode 0x78))
  | .prf w => some (.native (w.encode 0x79))
  | .atom w => some (.native (w.encode 0x80))
  | .atoms w => some (.native (w.encode 0x81))
  | .cas w => some (.native (w.encode 0x82))
  | .cass w => some (.native (w.encode 0x83))
  | .fence w => some (.native (w.encode 0x84))
  | .barinit w => some (.native (w.encode 0x85))
  | .arrive w => some (.native (w.encode 0x86))
  | .wait w => some (.native (w.encode 0x87))
  | .copy w => some (.native (w.encode 0x90))
  | .gather w => some (.native (w.encode 0x91))
  | .mma w => some (.native (w.encode 0x92))
  | .accalloc w => some (.native (w.encode 0x93))
  | .accgrow w => some (.native (w.encode 0x94))
  | .accfree w => some (.native (w.encode 0x95))
  | .accld w => some (.native (w.encode 0x96))
  | .accst w => some (.native (w.encode 0x97))
  | .query w => some (.native (w.encode 0x98))
  | .launch w => some (.native (w.encode 0x99))
  | .coll w => some (.native (w.encode 0x9A))
  | .waitf w => some (.native (w.encode 0x9B))
  | .trap g v => some (.native (0xA0#8 ++ BitVec.ofBool true ++ 0#7 ++ g.bits ++ 0#16 ++ v))
  | .eret => some (.native (bareEncode 0xA1))
  | .bkpt => some (.native (bareEncode 0xA2))
  | .icinv => some (.native (bareEncode 0xA3))
  | .fbar => some (.native (bareEncode 0xA4))
  | .tlbinv w => some (.native (w.encode 0xA5))
  | .btop w => some (.native (w.encode 0xA6))
  | .halt => some (.native (bareEncode 0xA7))
  | .steer w => some (.slot (w.encode 0xC0))
  | .merge w => some (.slot (w.encode 0xC1))
  | .cnt w => some (.slot (w.encode 0xC2))
  | .isect w => some (.slot (w.encode 0xC3))
  | .ldn w => some (.slot (w.encode 0xC4))
  | .stn w => some (.slot (w.encode 0xC5))
  | .atn w => some (.slot (w.encode 0xC6))
  | .xlat w => some (.slot (w.encode 0xC7))
  | .conv w => some (.slot (w.encode 0xC8))
  | .calln w => some (.slot (w.encode 0xC9))
  | .retn w => some (.slot (w.encode 0xCA))
  | .next w => some (.slot (w.encode 0xCB))
  | .pent w => some (.slot (w.encode 0xCC))
  | .pexit w => some (.slot (w.encode 0xCD))
  | .btok w => some (.slot (w.encode 0xCE))
  | .emit w => some (.slot (w.encode 0xCF))
  | .sink w => some (.slot (w.encode 0xD0))
  | .swait w => some (.slot (w.encode 0xD1))
  | .mport w => some (.slot (w.encode 0xD2))
  | .eqpn w => some (.slot (w.encode 0xD3))
  | .clause w => some (.native w.encode)
  | _ => none

end Sys2Proof
end

