-- ==== Sys2Proof/Machine/Flags.lean ====
section
/-! DEFINITION. Completion flags (R60, R61) and the compare results that become predicates (R20, R367, R390). -/

namespace Sys2Proof.Machine

/-- The flag that an engine instruction's flag select names in its clause's header: f0 to f11, or none for 0xF (R60, R329). -/
def PathEntry.flagOf (p : PathEntry) (sel : Bool) : Option Nat :=
  let f := (if sel then p.fb else p.fa).toNat
  if f < 12 then some f else none

/-- FlagInc (R60). -/
def Group.flagInc (g : Group) (f : Nat) : Group := { g with flags := Sparse.set g.flags f (g.flag f + 1) }

/-- FlagDec (R60): the paths that wait on the flag may become runnable (R66). -/
def Group.flagDec (g : Group) (f : Nat) : Group := { g with flags := Sparse.set g.flags f (g.flag f - 1) }.wake

/-- A flag that reads 63 takes no further command (R60). -/
def Group.flagFull (g : Group) (f : Nat) : Bool := g.flag f == 63

/-- FlagDec of the group that a command names, where it still stands. -/
def State.flagDec (s : State) (r : GroupRef) (f : Nat) : State := s.modGroup r fun g => g.flagDec f

/-- An integer comparison of two values read as N bits of the type (R367). -/
def intCompare (n : Nat) (signed : Bool) (x y : BitVec 64) : Ordering :=
  if signed then compare (signedOf n (lowNat n x)) (signedOf n (lowNat n y)) else compare (lowNat n x) (lowNat n y)

end Sys2Proof.Machine
end

