-- ==== Sys2Proof/Machine/Reads.lean ====
section
/-! DEFINITION. The registers that each instruction names, and what T code can read from a place on: the check of the loader on map records
(R24, R122). -/

namespace Sys2Proof.Machine

-- ## The registers of the formats (R317 to R328)

/-- The bytes of a width code of format M: 8, 16, 32, 64 and 128 bits (R324). -/
def widthBytes (w : BitVec 3) : Nat := 2 ^ w.toNat

/-- The registers that form an M word's address. -/
def memUses (w : MWord) (v s : List Nat) : Uses :=
  { v := (if w.index == 0xFF then [] else [w.index.toNat]) ++ v, s := w.base.toNat :: (w.base.toNat + 1) :: s }

/-- The registers of a load or store of a number of bytes. -/
def dataRegs (d bytes : Nat) : List Nat := (List.range (max 1 (bytes / 4))).map fun k => d + k

/-- The registers that form the address of ldv and stv. -/
def vectorUses (w : MWord) (d : List Nat) : Uses :=
  let base := [w.base.toNat, w.base.toNat + 1]
  match (w.imm.extractLsb' 14 2).toNat with
  | 0 => { v := d, s := base }
  | 1 => { v := d, s := w.index.toNat :: base }
  | _ => memUses w d []

/-- The s-registers of an extent record. -/
def recordRegs (r : Nat) : List Nat := [r, r + 1, r + 2, r + 3]

/-- The registers of shfl and bcast beside their destination. -/
def laneUses (w : AWord) : Uses :=
  let a := regs (typeIs64 w.ty.toNat) w.a.toNat
  match w.tail with
  | .imm _ => { v := a, s := [] }
  | .reg b _ ctl =>
    { v := (if ctl[3] then [] else a) ++ (if ctl[2] then [] else [b.toNat]),
      s := (if ctl[3] then a else []) ++ (if ctl[2] then [b.toNat] else []) }

/-- The class and control byte of red and scan. -/
def reduceByte (w : AWord) : BitVec 8 :=
  match w.tail with
  | .reg _ c _ => c
  | .imm _ => 0

-- ## What an instruction reads

/-- The guard of a native instruction (R17). -/
def guardOf (i : Instr) : Option Guard :=
  match i.aluRow, i.xRow with
  | some (_, .native w), _ => some w.g
  | _, some (_, w) => some w.g
  | _, _ => match i with
    | .bcast w | .shfl w | .vote w | .red w | .scan w | .movi w | .movh w | .mfsr w | .mtsr w => some w.g
    | .pand w | .por w | .pxor w | .pnot w | .pmov w => some w.g
    | .br w | .brx w | .call w | .loop w | .yield w | .ret w | .exit w => some w.g
    | .ld w | .lds w | .ldv w | .ldbt w | .ldc w | .prf w | .st w | .sts w | .stv w | .stbt w | .cwait w | .wait w | .barinit w | .arrive w
      | .atom w | .atoms w | .cas w | .cass w | .fence w => some w.g
    | .trap g _ | .hop g _ => some g
    | _ => none

/-- The v- and s-registers that an instruction reads. -/
def sourcesOf (i : Instr) : Uses :=
  let x := fun l : List Nat => ({ v := [], s := l } : Uses)
  match i.aluRow with
  | some (r, .native w) =>
    let u := aluSources i r w
    match i with
    | .pack _ => { u with v := w.d.toNat :: u.v }
    | _ => u
  | some (_, .slot _) => x []
  | none => match i with
    | .bcast w | .shfl w => laneUses w
    | .red w | .scan w => { v := regs (!(reduceByte w).getLsbD 0 && typeIs64 w.ty.toNat) w.a.toNat, s := [] }
    | .mtsr w => x [w.a.toNat]
    | .brx w => x [w.aux.toNat, w.aux.toNat + 1]
    | .loop w => x [w.aux.toNat]
    | .ld w | .lds w | .prf w | .arrive w => memUses w [] []
    | .ldv w => vectorUses w []
    | .ldbt w => memUses w [] [w.base.toNat + 2]
    | .ldc w => x [w.base.toNat, w.base.toNat + 1]
    | .st w | .sts w | .cwait w => memUses w (dataRegs w.d.toNat (widthBytes w.width)) []
    | .stv w => vectorUses w (dataRegs w.d.toNat (widthBytes w.width))
    | .stbt w => memUses w (dataRegs w.d.toNat (widthBytes w.width)) [w.base.toNat + 2]
    | .wait w | .barinit w => memUses w [w.d.toNat] []
    | .atom w | .atoms w => memUses w (dataRegs w.data.toNat (widthBytes w.width)) []
    | .cas w | .cass w => memUses w (dataRegs w.data.toNat (2 * widthBytes w.width)) []
    | .copy w => x (recordRegs w.r1.toNat ++ recordRegs w.r2.toNat)
    | .gather w => x (recordRegs w.r1.toNat ++ [w.r2.toNat, w.r2.toNat + 1] ++ recordRegs w.r3.toNat)
    | .mma w => x (recordRegs w.r1.toNat ++ recordRegs w.r2.toNat ++ [w.r3.toNat])
    | .accld w | .accst w => x (recordRegs w.r1.toNat)
    | .query w => x [w.r1.toNat]
    | .launch w | .coll w => x [w.r1.toNat, w.r1.toNat + 1]
    | _ => x []

/-- The predicates that an instruction reads: its guard's, and those of sel, vote and format P. -/
def predicatesOf (i : Instr) : List Nat :=
  (((guardOf i).map fun g => g.pg.toNat).toList) ++ match i with
    | .sel (.native w) => match w.tail with
      | .reg _ c _ => [c.toNat]
      | .imm _ => []
    | .vote w => [w.a.toNat]
    | .pand w | .por w | .pxor w => [w.pa.toNat, w.pb.toNat]
    | .pnot w | .pmov w => [w.pa.toNat]
    | _ => []

-- ## Where T code can go

/-- A word of T code that a path can reach, and by how far the window stands above where it stood at the start (R57). -/
structure CodePos where
  word : Nat
  up : Int
deriving DecidableEq, Repr

/-- The word a branch at a word goes to (R326); none before the code. -/
def branchTo (k : Nat) (disp : BitVec 32) : List Nat := if 0 ≤ (k : Int) + disp.toInt then [((k : Int) + disp.toInt).toNat] else []

/-- Where the instruction at a place can go on: past it unless its guard holds in every lane by its encoding, and to its targets. A callee is entered
with the window moved, and its caller goes on with it moved back; a ret of the frame at the start, or of an outer one, goes on after any call of the code.
Windows further apart than a window is wide share no register. -/
def codeSteps (window : Nat) (code : List (Option Instr)) (x : CodePos) : List CodePos :=
  let places := fun (up : Int) (l : List Nat) => l.map fun k => ({ word := k, up := up } : CodePos)
  let next := fun (g : Guard) => if g.pg == 0 && !g.pn then [] else places x.up [x.word + 1]
  let steps := match (code[x.word]?).join with
    | none => []
    | some i => match i with
      | .br w => places x.up (branchTo x.word w.disp) ++ next w.g
      | .loop w | .yield w => places x.up (branchTo x.word w.disp ++ [x.word + 1])
      | .brx w => places x.up (List.range code.length) ++ next w.g
      | .call w => places (x.up + w.aux.toNat) (branchTo x.word w.disp) ++ places x.up [x.word + 1]
      | .ret w => next w.g ++ if 0 < x.up then [] else code.zipIdx.filterMap fun (c : Option Instr × Nat) => match c.1 with
        | some (.call v) => some (⟨c.2 + 1, x.up - v.aux.toNat⟩ : CodePos)
        | _ => none
      | .exit w => next w.g
      | _ => places x.up [x.word + 1]
  steps.filter fun y => decide (y.word < code.length) && decide (y.up < window) && decide (-(window : Int) < y.up)

/-- The places that can be reached from a list of them, found in rounds: todo are those whose steps are still to be taken. -/
def codeReach (window : Nat) (code : List (Option Instr)) : Nat → List CodePos → List CodePos → List CodePos
  | 0, _, done => done
  | _, [], done => done
  | fuel + 1, todo, done =>
    let new := ((todo.flatMap (codeSteps window code)).filter fun y => !done.contains y).eraseDups
    codeReach window code fuel new (done ++ new)

/-- T code as its instructions; a word that is none ends a path, as it raises ILLEGAL. -/
def codeInstrs (t : List Nat) : List (Option Instr) :=
  t.map fun w => match decodeNative (BitVec.ofNat 64 w) with
    | .ok i => some i
    | .error _ => none

/-- T code from a word on can read a register of the start (R122): a v-register by its place in the window there, an s-register, or a predicate. A value
that it holds live is one that it can read. -/
def codeReads (window : Nat) (t : List Nat) (start kind reg : Nat) : Bool :=
  let code := codeInstrs t
  (codeReach window code (code.length * (2 * window + 1)) [⟨start, 0⟩] [⟨start, 0⟩]).any fun x => match (code[x.word]?).join with
    | none => false
    | some i => match kind with
      | 0 | 1 => (sourcesOf i).v.any fun n => (n : Int) + x.up == reg || (kind == 1 && (n : Int) + x.up == reg + 1)
      | 2 | 3 => (sourcesOf i).s.any fun n => n == reg || (kind == 3 && n == reg + 1)
      | _ => (predicatesOf i).contains reg

end Sys2Proof.Machine
end

