-- ==== Sys2Proof/Machine/Fetch.lean ====
section
/-! DEFINITION. Fetching an instruction's words: loop buffers, the instruction cache, translation, breakpoints, and the issue of a
clause's header (R59, R60, R65, R72, R73, R153, R207, R292). -/

namespace Sys2Proof.Machine

/-- What a fetch of one word gives. -/
inductive Fetched where
  | word (w : DWord)
  | miss
  | trap (k : TrapKind)
deriving DecidableEq, Repr

/-- The versions through which the issuing group fetches and reads: its own launch's and its ancestors' (R249). -/
def Env.view (e : Env) (s : State) : List (Nat × Nat) :=
  match e.team with
  | some t => s.viewOf t.grid
  | none => []

/-- The address lies in the code that the group runs: the kernel's T code, or its V code in V form (R358). -/
def Env.inCode (e : Env) (pc : BitVec 64) : Bool :=
  match e.grid with
  | some g =>
    let (lo, n) := if e.grp.vform then (g.image.vBase, g.image.vLen) else (g.image.tBase, g.image.tLen)
    decide ((pc - lo).toNat < n)
  | none => true

/-- Translates the address of a word. The window is never translated, so no code lies there (R201). An agent's slot fetches from the physical address (log 8). -/
def Env.fetchAddr (e : Env) (s : State) (pc : BitVec 64) : Except TrapKind Nat × State :=
  match e.ref with
  | none => (if s.physOk pc.toNat then .ok pc.toNat else .error .page, s)
  | some _ =>
    if !e.inCode pc then (.error .prot, s)
    else if inWindow pc then (.error .page, s)
    else match s.access e.core e.ctx pc .fetch with
      | (.ok t, s) => (if s.poisoned (.phys t.pa false) then .error .ecc else .ok t.pa, s)
      | (.error k, s) => (.error k, s)

/-- The word that an instruction cache holds for a physical address as a view fetched it. -/
def Core.cachedWord (c : Core) (view : List (Nat × Nat)) (pa : Nat) : Option DWord :=
  (c.icache.find? fun w => w.pa == pa && w.view == view).map fun w => w.word

/-- The word that the group's loop buffer holds for an address (R72). -/
def Group.bufferedWord (g : Group) (pc : BitVec 64) : Option DWord :=
  match g.loop with
  | some b => Table.find b.words pc.toNat
  | none => none

/-- The word that the loop buffer gives the group; none while the context has capture disabled (R75, R130). -/
def Env.bufferedWord (e : Env) (s : State) (pc : BitVec 64) : Option DWord :=
  if (s.context e.ctx).csc.getLsbD 11 then none else e.grp.bufferedWord pc

/-- Fetches one word: from the loop buffer, else through translation from the instruction cache (R72). -/
def Env.fetchWord (e : Env) (s : State) (pc : BitVec 64) : Fetched × State :=
  match e.bufferedWord s pc with
  | some w => (.word w, s)
  | none =>
    match e.fetchAddr s pc with
    | (.error k, s) => (.trap k, s)
    | (.ok pa, s) =>
      match (s.core e.core).cachedWord (e.view s) pa with
      | some w => (.word w, s)
      | none => (.miss, s)

/-- Fetches n words from an address: the words, or the first that misses or traps with its address. -/
def Env.fetchWords (e : Env) : Nat → State → BitVec 64 → List DWord → Except (Fetched × BitVec 64) (List DWord) × State
  | 0, s, _, acc => (.ok acc.reverse, s)
  | n + 1, s, pc, acc =>
    match e.fetchWord s pc with
    | (.word w, s) => Env.fetchWords e n s (pc + 8) (w :: acc)
    | (f, s) => (.error (f, pc), s)

/-- The word in memory at a physical address, as a view reads it. -/
def State.memWord (s : State) (view : List (Nat × Nat)) (pa : Nat) : DWord := BitVec.ofNat 64 (s.readNat view pa 8)

/-- The words that an instruction cache holds: 64 KiB (R8). -/
def icacheWords : Nat := 8192

/-- Brings a line into an instruction cache, in place of what it held of it (R65, R388), and of the oldest lines where it is full: R8 gives the
size and names no replacement (DESIGN CHOICE, log 93). Lines that
memory no longer agrees with leave it, so that no clause holds words of two times (R72). -/
def State.bringLine (s : State) (core : Nat) (view : List (Nat × Nat)) (pa : Nat) : State :=
  let lo := pa / 64 * 64
  let new := (List.range 8).map fun k => { view := view, pa := lo + 8 * k, word := s.memWord view (lo + 8 * k) : CodeWord }
  (s.touchBytes view lo 64).modCore core fun c => { c with icache := (new ++ c.icache.filter fun w =>
    !(w.view == view && w.pa / 64 == pa / 64) && s.memWord w.view w.pa == w.word).take icacheWords }

/-- The active path waits for a line (R65): the group turns to another path whose next word is present. -/
def Env.missed (e : Env) (s : State) : State := e.setGroup (e.grp.setPath e.sel { e.path with miss := true }) s

/-- The trap of a fetch: PAGE, PROT or ECC at the address, of the whole group; ECC of a poisoned line (R286). -/
def Env.fetchTrap (e : Env) (s : State) (k : TrapKind) (addr : BitVec 64) : State :=
  e.trapWith s e.grp k (if k == .ecc then 2 else AccessKind.fetch.code) addr wholeGroup false

/-- Brings the lines of the words from an address on, as far as they translate. -/
def Env.bringWords (e : Env) (view : List (Nat × Nat)) : Nat → State → BitVec 64 → State
  | 0, s, _ => s
  | n + 1, s, pc =>
    match e.fetchAddr s pc with
    | (.ok pa, s) => Env.bringWords e view n (s.bringLine e.core view pa) (pc + 8)
    | (.error _, s) => s

/-- Every group of the machine, agents' slots and what ended teams have left included. -/
def State.allGroups (s : State) : List (GroupRef × Group) :=
  (s.teams.flatMap fun e => e.2.groups.zipIdx.map fun x => ({ team := e.1, grp := x.2 }, x.1))
    ++ (s.left.flatMap fun e => e.2.2.zipIdx.map fun x => ({ team := e.1, grp := x.2 }, x.1))
    ++ s.cores.map fun e => ({ team := 0, grp := e.1 }, e.2.agent.grp)

/-- A core may fetch n bytes of a location from memory: the stores to them that an icinv on it stands behind have performed there (R73). -/
def State.codeReady (s : State) (core : Nat) (l : Loc) (n : Nat) : Bool :=
  let k := (s.core core).codeKnow
  s.allGroups.all fun w => w.2.stores.all fun x => !(x.loc.overlaps x.bytes l n && k.shows w.1 x.seq)

/-- The lines of the words from an address on may be fetched from memory, as far as they translate. -/
def Env.wordsReady (e : Env) : Nat → State → BitVec 64 → Bool
  | 0, _, _ => true
  | n + 1, s, pc =>
    match e.fetchAddr s pc with
    | (.ok pa, s) => s.codeReady e.core (.phys (pa / 64 * 64) false) 64 && Env.wordsReady e n s (pc + 8)
    | (.error _, _) => true

/-- The words of the clause at an address, header included, that a fetch asks for: the header's count decides (R329). -/
def Env.clauseWords (e : Env) (s : State) (view : List (Nat × Nat)) (pc : BitVec 64) : Nat :=
  match e.fetchAddr s pc with
  | (.ok pa, s) =>
    let w := s.memWord view pa
    if w.extractLsb' 56 8 == 0xF0 then 1 + (w.extractLsb' 32 4).toNat else 1
  | (.error _, _) => 1

-- ## Breakpoints (R135, R153, R292)

/-- The T address by which a word is compared: its own in T form; in V form the one that the correspondence table, or for a header
the E-point table, gives it. -/
def Env.bpAddr (e : Env) : Option (BitVec 64) :=
  match e.grid with
  | none => none
  | some g =>
    let im := g.image
    if !e.grp.vform then some e.path.pc
    else
      let off := (e.path.pc - im.vBase).toNat
      match Table.find im.corr off with
      | some t => some (im.tBase + BitVec.ofNat 64 t)
      | none => match im.epoints.find? fun p => p.vok && p.vpos == off with
        | some p => some (im.tBase + BitVec.ofNat 64 p.tpos)
        | none => none

/-- Breakpoint register n of a context is armed for a T address. -/
def Context.armedAt (c : Context) (a : BitVec 64) (n : Nat) : Bool :=
  listGetD c.bpEn n false && listGetD c.bpAddr n 0 == a.extractLsb' 3 54 && vaWide a == false

/-- The lowest breakpoint register that the word at hand meets and has not met in this arrival. Of several armed at one header the group takes this
one alone, and goes on past all of them (DESIGN CHOICE, log 101). -/
def Env.breakpoint (e : Env) (s : State) : Option Nat :=
  if e.path.bpDone then none
  else match e.bpAddr with
    | some a => (List.range 4).find? ((s.context e.ctx).armedAt a)
    | none => none

-- ## Branches and loop buffers (R72, R73, R356)

/-- The words of a body from lo to hi that the instruction cache holds, all of them or none. -/
def Env.captureWords (e : Env) (s : State) (lo : BitVec 64) (n : Nat) : Option (List (Nat × DWord)) :=
  match e.fetchWords n s lo [] with
  | (.ok ws, _) => some (ws.zipIdx.map fun x => (lo.toNat + 8 * x.2, x.1))
  | (.error _, _) => none

/-- The loop buffer after a taken branch from the word at hand to a target (R72, R73): a backward branch within 64 words runs its
body from its quadrant's buffer, or captures it; another backward branch leaves the buffer, and a forward one does when it leaves the body. -/
def Env.takeLoop (e : Env) (s : State) (target : BitVec 64) : Option LoopBuf × State :=
  let pc := e.path.pc
  let n := (pc.toNat - target.toNat) / 8
  if decide (target.toNat ≤ pc.toNat) && decide (n < 64) && e.ref.isSome && !(s.context e.ctx).csc.getLsbD 11 then
    let view := e.view s
    match (s.core e.core).loops.find? fun b =>
        b.quad == e.grp.quad && b.ctx == e.ctx && b.view == view && b.lo == target.toNat && b.hi == pc.toNat with
    | some b => (some b, s)
    | none =>
      let e := { e with grp := { e.grp with loop := none } }
      match e.captureWords s target (n + 1) with
      | some ws =>
        let b : LoopBuf := { quad := e.grp.quad, ctx := e.ctx, view := view, lo := target.toNat, hi := pc.toNat, words := ws }
        (some b, s.modCore e.core fun c => { c with loops := b :: c.loops.filter fun x => x.quad != b.quad })
      | none => (none, s)
  else match e.grp.loop with
    | some b => (if decide (target.toNat ≤ pc.toNat) || b.hi < target.toNat then none else some b, s)
    | none => (none, s)

-- ## The header of a clause (R59, R60, R72)

/-- The group at a header after its fbar has taken effect: the fetch is a miss, past the loop buffer and the cache (R388). -/
def Env.fencedFetch (e : Env) (s : State) : State :=
  e.setGroup { (e.grp.setPath e.sel { e.path with miss := true }) with fbar := false, loop := none } s

/-- The cached words of a clause differ from memory's: the lines may have left the cache, so the fetch may find them or not, for the
whole clause (R72, R399). -/
def Env.staleClause (e : Env) (s : State) (words : List DWord) : Bool :=
  let view := e.view s
  (words.zipIdx).any fun x =>
    let pc := e.path.pc + 8 + BitVec.ofNat 64 (8 * x.2)
    match e.bufferedWord s pc with
    | some _ => false
    | none => match e.fetchAddr s pc with
      | (.ok pa, s) => s.memWord view pa != x.1
      | (.error _, _) => false

/-- A group none of whose paths stands in the body of its loop buffer no longer runs from it. -/
def Group.leaveLoop (g : Group) : Group :=
  match g.loop with
  | some b =>
    let inside := fun p : PathEntry => decide (b.lo ≤ p.pc.toNat) && decide (p.pc.toNat ≤ b.hi)
    if g.paths.any inside || (g.serl.any fun z => inside z.path) then g else { g with loop := none }
  | none => g

/-- clause: inside a count it is ILLEGAL (R59); at a header it waits for the flags of its mask (R60), then fetches its clause whole
(R72), and its first word is at hand. -/
def execClause (h : HWord) (s : State) : Result :=
  native { v := [], s := [] } s fun e =>
    if !e.path.words.isEmpty then e.trap s .illegal
    else if !e.grp.flagsClear h.wait then e.waitOn .flags s
    else match e.fetchWords h.count.toNat s (e.path.pc + 8) [] with
      | (.error (.trap k, a), s) => e.fetchTrap s k a
      | (.error _, s) => e.missed s
      | (.ok ws, s) =>
        let (k, s) := if e.staleClause s ws then s.choose 2 else (0, s)
        if k = 1 then e.missed s
        else
          let e := { e with grp := (e.grp.sawFlags h.wait).leaveLoop }
          let p := { e.path with pc := e.path.pc + 8, words := ws, fa := h.flagA, fb := h.flagB, fresh := true, bpDone := false,
                                 decided := false }
          e.setGroup ((e.grp.setPath e.sel p).settle) s

/-- instruction fetch complete: the lines of the clause that a path waits for arrive, and the path can be active again (R65). -/
def execInstructionFetchComplete (r : GroupRef) (path : Nat) (s : State) : Result :=
  due <|
    match s.findGroup r with
    | none => none
    | some g =>
      let p := if path < g.paths.length then g.paths[path]? else g.serl.map fun z => z.path
      match p with
      | none => none
      | some p =>
        if !p.miss then none
        else
          let probe := { g with state := .ready, paths := [{ p with miss := false, waits := 0 }], serl := none, held := none }
          let base := if r.team = 0 then Actor.agent r.grp else Actor.group r
          let t := { (s.modGroup r fun _ => probe) with cur := base }
          match t.env with
          | none => none
          | some e =>
            let view := e.view s
            let n := e.clauseWords s view p.pc
            if !e.wordsReady n s p.pc then none
            else some ((e.bringWords view n s p.pc).modGroup r fun g =>
              let g := g.rouse
              if path < g.paths.length then { g with paths := listModify g.paths path fun p => { p with miss := false } }
              else { g with serl := g.serl.map fun z => { z with path := { z.path with miss := false } } })

end Sys2Proof.Machine
end

