-- ==== Sys2Proof/Machine/Access.lean ====
section
/-! DEFINITION. The checks of a memory instruction's lanes (R151, R201, R202, R404), its fault in V form (R70), and the order of a
group's accesses (R220 to R222). -/

namespace Sys2Proof.Machine

-- ## Addresses

/-- The zero-extended index register of a lane; 0xFF names none (R323). -/
def Env.indexOf (e : Env) (w : MWord) (lane : Nat) : BitVec 64 :=
  if w.index == 0xFF then 0 else (e.readV w.index.toNat lane).setWidth 64

/-- base + ZeroExtend(index) + SignExtend(imm16) (R323, R404). -/
def Env.memAddr (e : Env) (w : MWord) (lane : Nat) : BitVec 64 :=
  e.grp.readSPair w.base.toNat + e.indexOf w lane + w.imm.signExtend 64

/-- base + ZeroExtend(index), of format MA (R350). -/
def Env.atomAddr (e : Env) (w : MWord) (lane : Nat) : BitVec 64 := e.grp.readSPair w.base.toNat + e.indexOf w lane

-- ## The checks of one lane (R151)

/-- Alignment, then bounds of a window address, then translation and protection; a read of a poisoned line raises ECC. -/
def Env.checkVirtual (e : Env) (s : State) (addr : BitVec 64) (align bytes : Nat) (k : AccessKind) : Except TrapKind Loc × State :=
  if addr.toNat % align != 0 then (.error .align, s)
  else if inWindow addr then
    let off := addr.toNat - windowBase
    match e.team with
    | some t => (if s.windowOk t.grid off bytes then .ok (.scratch off) else .error .bounds, s)
    | none => (.error .bounds, s)
  else match s.access e.core e.ctx addr k with
    | (.error x, s) => (.error x, s)
    | (.ok t, s) =>
      let l := Loc.phys t.pa (t.txn && e.ref.isSome)
      (if k != .write && s.poisoned l then .error .ecc else .ok l, s)

/-- Alignment, then the bounds of the team's own range (R201). -/
def Env.checkTeam (e : Env) (s : State) (off : BitVec 64) (align bytes : Nat) : Except TrapKind Loc :=
  if off.toNat % align != 0 then .error .align
  else match e.team with
    | some t => if s.teamOk t off bytes then .ok (s.teamLoc t off.toNat) else .error .bounds
    | none => .error .bounds

/-- Checks lanes in ascending order up to the first that fails: the locations of those that pass, and the failing one. -/
def checkLanes {α : Type} (f : Nat → State → Except (BitVec 64 × TrapKind) α × State) :
    List Nat → State → List (Nat × α) → List (Nat × α) × Option LaneFault × State
  | [], s, acc => (acc.reverse, none, s)
  | l :: r, s, acc =>
    match f l s with
    | (.ok x, s) => checkLanes f r s ((l, x) :: acc)
    | (.error (a, k), s) => (acc.reverse, some { lane := l, addr := a, kind := k }, s)

/-- A check that reports its own address. -/
def atAddr {α : Type} (a : BitVec 64) (r : Except TrapKind α × State) : Except (BitVec 64 × TrapKind) α × State :=
  match r with
  | (.ok x, s) => (.ok x, s)
  | (.error k, s) => (.error (a, k), s)

-- ## Faults (R70, R151)

/-- The detail of a memory trap: the access; ECC has 2 for a poisoned line, and SHADOW 0 (R286). -/
def accessDetail (k : TrapKind) (ak : AccessKind) : BitVec 32 := if k == .ecc then 2 else if k == .shadow then 0 else ak.code

/-- The header of the T clause that holds an address, and the words of that clause from the address on: walking the T code from its
start. -/
def Env.clauseRest (e : Env) (s : State) (view : List (Nat × Nat)) (target : BitVec 64) :
    Nat → BitVec 64 → DWord × List DWord
  | 0, _ => (0, [])
  | fuel + 1, pc =>
    let wordAt := fun a : BitVec 64 => match e.fetchAddr s a with
      | (.ok pa, s) => s.memWord view pa
      | (.error _, _) => 0
    let h := wordAt pc
    let n := (h.extractLsb' 32 4).toNat
    let next := pc + BitVec.ofNat 64 (8 * (1 + n))
    if target.toNat < next.toNat then
      (h, (List.range ((next.toNat - target.toNat) / 8)).map fun k => wordAt (target + BitVec.ofNat 64 (8 * k)))
    else Env.clauseRest e s view target fuel next

/-- The group of a V-form fault at element f: in T form and diverged, the elements below f past the word and the others at it, both in
T terms (R70). g holds the effect on the elements below. -/
def Env.divergeAt (e : Env) (s : State) (g : Group) (f : Nat) : Group :=
  match e.grid with
  | none => g
  | some gr =>
    let t := e.tPc
    let te := { e with grp := { e.grp with vform := false, loop := none } }
    let view := e.view s
    let (h, ws) := te.clauseRest s view t (gr.image.tLen / 8 + 1) gr.image.tBase
    let at_ := { PathEntry.at t (e.path.mask &&& ~~~ lanesBelow f) with
                   words := ws, fa := h.extractLsb' 40 4, fb := h.extractLsb' 36 4 }
    let past := { at_ with pc := t + 8, mask := e.path.mask &&& lanesBelow f, words := ws.tail }
    ({ g with vform := false, loop := none, paths := [past, at_] }).settle

/-- The trap of a memory instruction's lane. In T form nothing has been done; in V form g holds the effect on the elements below, and
the group is in T form (R70, R151). -/
def Env.laneTrap (e : Env) (s : State) (g : Group) (f : LaneFault) (ak : AccessKind) : State :=
  let lane := BitVec.ofNat 32 f.lane
  if e.vform then e.trapWith s (e.divergeAt s g f.lane) f.kind (accessDetail f.kind ak) f.addr lane false
  else e.trapWith s e.grp f.kind (accessDetail f.kind ak) f.addr lane false

/-- The same for a lane that fails after its instruction's issue: the group is Ready, and takes the trap once it issues (R42). -/
def Env.laneOwed (e : Env) (s : State) (g : Group) (f : LaneFault) (ak : AccessKind) : State :=
  let t : TrapInfo := { kind := f.kind, detail := accessDetail f.kind ak, pc := e.tPc, addr := f.addr, lane := e.trapLane (BitVec.ofNat 32 f.lane),
                        after := false, phase := .raised }
  let g := if e.vform then e.divergeAt s g f.lane else { g with held := some e.sel }
  e.setGroup { g with state := .ready, owed := some t } s

-- ## The order of a group's accesses (R217 to R222)

/-- The scope at which an access performs at the home of its bytes: dev; a scope from it on is performed there (R217). -/
def homeScope : Nat := 4

/-- An acquire that has not performed holds back every later load, store and atomic of the group (R221). -/
def Group.acquiring (g : Group) : Bool := g.loads.any fun l => l.acq

/-- A pending load stands in a lane's program order; one that fills an s-register stands in every lane's. -/
def PendLoad.ofLane (l : PendLoad) (lane : Nat) : Bool :=
  match l.dst with
  | .v _ k => k == lane
  | .s _ => true

/-- Both locations lie in one 64-byte line of a peer's memory, where a group's accesses perform in program order (R308). -/
def Loc.samePeerLine (l m : Loc) : Bool :=
  match l, m with
  | .phys a _, .phys b _ => l.atPeer && lineOf a == lineOf b
  | _, _ => false

/-- Two accesses of a group that keep their order: they share a byte, or a line of a peer. -/
def Loc.ordered (l : Loc) (n : Nat) (m : Loc) (k : Nat) : Bool := l.overlaps n m k || l.samePeerLine m

/-- Every load of the group older than a number for which a test holds has its value. -/
def Group.loadsDone (g : Group) (f : PendLoad → Bool) (seq : Nat) : Bool := g.loads.all fun l => !(decide (l.seq < seq) && l.known.isNone && f l)

/-- Later releases of its group cover a store: a byte that an engine wrote only with rel, and once the group has seen the flag at 0 (R228, R301,
R391). -/
def PendStore.covered (x : PendStore) : Bool := !x.loose || x.rel && x.flag.isNone

/-- A release or a fence at a scope puts an access to a location behind a store: not where both lie with a peer and the scope is below sys, since
accesses to different lines of a peer keep no order then (R308). -/
def PendStore.before (x : PendStore) (l : Loc) (scope : Nat) : Bool := x.covered && !(x.loc.atPeer && l.atPeer && decide (scope ≤ homeScope))

/-- Every access of the group older than a number has performed at a scope, its engine commands' writes with rel among them (R220, R221, R228,
R301). -/
def Group.performed (g : Group) (seq scope : Nat) : Bool :=
  g.loadsDone (fun _ => true) seq && g.stores.all fun x => !(decide (x.seq < seq) && x.covered && decide (x.level < scope))

/-- Every access of a lane older than a number has performed at a scope, with the group's engine writes, and every store of the group that an
acquire of it may have followed, as far as an access to a location stands behind it. -/
def Group.lanePerformed (g : Group) (lane seq scope : Nat) (l : Loc) : Bool :=
  g.loadsDone (fun l => l.ofLane lane) seq
    && g.stores.all fun x => !(decide (x.seq < seq) && x.before l scope && (x.lane == lane || x.loose || decide (x.seq < g.acquired)) && decide (x.level < scope))

/-- What a fence put before an access to a location has performed (R221): the accesses older than a number, at a scope. -/
def Group.fenceDone (g : Group) (l : Loc) (f : Nat × Nat) : Bool :=
  g.loadsDone (fun _ => true) f.1 && g.stores.all fun x => !(decide (x.seq < f.1) && x.before l f.2 && decide (x.level < f.2))

/-- What the group's fences put before an access to a location has performed (R221). -/
def Group.fencesDone (g : Group) (after : List (Nat × Nat)) (l : Loc) : Bool := after.all (g.fenceDone l)

/-- The widest scope of a list of fences. -/
def fenceScope (after : List (Nat × Nat)) : Nat := after.foldl (fun n f => max n f.2) 0

/-- Every access of the group older than a number has performed at its home. -/
def Group.drained (g : Group) (seq : Nat) : Bool := g.performed seq homeScope

/-- A pending access of the group, older than a number, keeps its order with one at a location. -/
def Group.overlapsLoad (g : Group) (seq : Nat) (l : Loc) (n : Nat) : Bool :=
  g.loads.any fun x => decide (x.seq < seq) && x.known.isNone && x.loc.ordered x.bytes l n
def Group.overlapsStore (g : Group) (seq : Nat) (l : Loc) (n : Nat) : Bool :=
  g.stores.any fun x => decide (x.seq < seq) && x.loc.ordered x.bytes l n

/-- The core on which a reference's group runs, and the versions that it reads through. -/
def State.coreOf (s : State) (r : GroupRef) : Nat :=
  if r.team = 0 then r.grp else match Table.find s.teams r.team with
    | some t => t.core
    | none => ((Table.find s.left r.team).map fun x => x.1).getD 0
def State.viewOfRef (s : State) (r : GroupRef) : List (Nat × Nat) :=
  match Table.find s.teams r.team with
  | some t => s.viewOf t.grid
  | none => []

/-- The versions of a view that are nearer than the one which a group writes; none where the group writes no version of the view (R249). -/
def State.nearerThan (s : State) (view : List (Nat × Nat)) (g : GroupRef) : Option (List (Nat × Nat)) :=
  match (s.viewOfRef g).head? with
  | some v => if view.contains v then some (view.takeWhile fun x => x != v) else none
  | none => none

/-- A byte of a location is hidden from a view by a nearer version. -/
def State.hiddenBy (s : State) (nearer : List (Nat × Nat)) (l : Loc) : Bool :=
  match l with
  | .phys pa _ => nearer.any fun v => (shadowByte s.shadows v pa).isSome
  | .scratch _ => false

/-- A reader through a view meets what a group writes to n bytes of a location: a transactional byte only as a version of the view, where no nearer
one hides it (R249). -/
def State.meetsWrites (s : State) (view : List (Nat × Nat)) (g : GroupRef) (dst : Loc) (n : Nat) : Bool :=
  match dst with
  | .phys _ true => match s.nearerThan view g with
    | some nearer => (List.range n).all fun k => !s.hiddenBy nearer (dst.plus k)
    | none => false
  | _ => true

/-- A nearer version hides some of what a group writes to n bytes of a location, and not all of it. -/
def State.partlyHidden (s : State) (view : List (Nat × Nat)) (g : GroupRef) (dst : Loc) (n : Nat) : Bool :=
  match dst with
  | .phys _ true => match s.nearerThan view g with
    | some nearer => ((List.range n).any fun k => s.hiddenBy nearer (dst.plus k)) && (List.range n).any fun k => !s.hiddenBy nearer (dst.plus k)
    | none => false
  | _ => false

-- ## What a group knows (R218, R221, R222)

/-- What the reads of a reference must show: a group's, and of a team its region's. -/
def State.knowOf (s : State) (r : GroupRef) : Know :=
  match s.findGroup r with
  | some g => g.know
  | none => match Table.find s.teams r.team with
    | some t => t.know
    | none => Know.none

/-- Changes what a group, or a team's region, knows. -/
def State.modKnow (s : State) (r : GroupRef) (f : Know → Know) : State :=
  match s.findGroup r with
  | some _ => s.modGroup r fun g => { g with know := f g.know }
  | none => s.modTeam r.team fun t => { t with know := f t.know }

-- ## Stores that have not performed at their home (R217, R218, R222)

/-- The narrowest scope that includes two groups, on their cores; dev for an agent's slot and another (R217). -/
def scopeOf (r w : GroupRef) (rc wc : Nat) : Nat :=
  if r == w then 0
  else if r.team = 0 || w.team = 0 then homeScope
  else if r.team == w.team then 1
  else if rc / 4 == wc / 4 then 2
  else if dieOf rc == dieOf wc then 3
  else homeScope
def State.distance (s : State) (r w : GroupRef) : Nat := scopeOf r w (s.coreOf r) (s.coreOf w)

/-- A store of another group can be seen by one before it performs at its home: at a scope that includes both, or by one that has seen it. One to a
peer's memory performs there alone (R308). -/
def State.reaches (s : State) (r : GroupRef) (w : GroupRef × PendStore) : Bool :=
  decide (1 ≤ w.2.level) && !w.2.loc.atPeer && (decide (s.distance r w.1 ≤ w.2.level) || (s.knowOf r).met.contains (w.1, w.2.seq))

/-- The stores of other groups that a group can see before they perform at their home. -/
def State.standing (s : State) (r : GroupRef) : List (GroupRef × PendStore) :=
  s.allGroups.flatMap fun w => if w.1 == r then [] else (w.2.stores.map fun x => (w.1, x)).filter (s.reaches r)

/-- Those of them that it can see through its versions. -/
def State.nearStores (s : State) (r : GroupRef) (view : List (Nat × Nat)) : List (GroupRef × PendStore) :=
  (s.standing r).filter fun x => s.meetsWrites view x.1 x.2.loc x.2.bytes

/-- Their groups and numbers: what a fence, which discards every copy, makes its group know of those that have performed at its scope. -/
def State.nearIds (s : State) (r : GroupRef) (scope : Nat) : List (GroupRef × Nat) :=
  ((s.nearStores r (s.viewOfRef r)).filter fun x => decide (scope ≤ x.2.level)).map fun x => (x.1, x.2.seq)

/-- Nothing that is known of others' stores is still to perform at a scope, nor where the group would see it: a release tells what its group knows
(R221). -/
def State.nearClear (s : State) (r : GroupRef) (k : Know) (scope : Nat) : Bool :=
  (s.standing r).all fun x => !x.2.covered || !k.shows x.1 x.2.seq || decide (max scope (s.distance r x.1) ≤ x.2.level)

/-- Puts a store before the first of a list that did not arrive earlier. -/
def insertStore (x : GroupRef × PendStore) : List (GroupRef × PendStore) → List (GroupRef × PendStore)
  | [] => [x]
  | y :: r => if x.2.arr ≤ y.2.arr then x :: y :: r else y :: insertStore x r

/-- The stores that a group's access with a number may see before they perform, in the order in which they will: the widest level first, at each
level in the order of arrival, and last its own that have yet to leave it. -/
def State.seenStores (s : State) (r : GroupRef) (view : List (Nat × Nat)) (g : Group) (seq : Nat) : List (GroupRef × PendStore) :=
  let own := (g.stores.filter fun x => decide (x.seq < seq)).map fun x => (r, x)
  let l := s.nearStores r view ++ own
  ([3, 2, 1].flatMap fun k => (l.filter fun x => x.2.level == k).foldr insertStore []) ++ own.filter fun x => x.2.level == 0

/-- A store is to be shown to a group: its own, or one that it knows. -/
def Know.binds (k : Know) (r : GroupRef) (x : GroupRef × PendStore) : Bool := x.1 == r || k.shows x.1 x.2.seq

/-- How many of a list of stores, in order, reach to the last one for which a test holds. -/
def reachLast (f : GroupRef × PendStore → Bool) (l : List (GroupRef × PendStore)) : Nat :=
  l.length - (l.reverse.takeWhile fun y => !f y).length

/-- The stores to a location that an access of a group may see before they perform, in order. -/
def State.overlying (s : State) (r : GroupRef) (view : List (Nat × Nat)) (g : Group) (seq : Nat) (l : Loc) (n : Nat) : List (GroupRef × PendStore) :=
  (s.seenStores r view g seq).filter fun x => x.2.loc.overlaps x.2.bytes l n

/-- Those of them up to the last that it must show. -/
def State.mustShow (s : State) (r : GroupRef) (view : List (Nat × Nat)) (g : Group) (seq : Nat) (l : Loc) (n : Nat) : List (GroupRef × PendStore) :=
  let zs := s.overlying r view g seq l n
  zs.take (reachLast ((s.knowOf r).binds r) zs)

/-- Other groups' stores to a location that a group must show have all performed at their home. -/
def State.othersHome (s : State) (r : GroupRef) (k : Know) (l : Loc) (n : Nat) : Bool :=
  (s.standing r).all fun y => !(y.2.loc.overlaps y.2.bytes l n && k.shows y.1 y.2.seq)

/-- The bytes at a location as an access of a group sees them: memory under the stores that it sees (R220, R222). -/
def State.readOwn (s : State) (r : GroupRef) (view : List (Nat × Nat)) (g : Group) (seq : Nat) (l : Loc) (n : Nat) : List Byte :=
  overStores l n (s.readLoc view l n) ((s.seenStores r view g seq).map fun x => x.2)

/-- The newest store of a list that touches a location and that one event reads or writes whole (R224), with the bytes of engines that lie over it. -/
def wholeStore (l : Loc) (n : Nat) : List (GroupRef × PendStore) → Option ((GroupRef × PendStore) × List (GroupRef × PendStore))
  | [] => none
  | x :: r => match wholeStore l n r with
    | some y => some y
    | none => if !x.2.loose && x.2.loc.overlaps x.2.bytes l n then some (x, r.filter fun y => y.2.loose) else none

/-- A store gives every byte of a location. -/
def PendStore.covers (x : PendStore) (l : Loc) (n : Nat) : Bool :=
  match x.loc, l with
  | .phys a _, .phys b _ => decide (a ≤ b) && decide (b + n ≤ a + x.bytes)
  | .scratch a, .scratch b => decide (a ≤ b) && decide (b + n ≤ a + x.bytes)
  | _, _ => false

-- ## Older values (R218, R222, R242)

/-- A kept value stands before a read of a location through a view, by a byte that they share or by a line of a peer (R308). -/
def OldByte.bounds (h : OldByte) (view : List (Nat × Nat)) (l : Loc) (n : Nat) : Bool :=
  h.meets view l n || h.ver.isNone && h.loc.samePeerLine l

/-- The number of the newest event at home that a group's reads of a location must show: those up to its floor, its own, those that it knows, and
those that it has seen there. -/
def State.staleBound (s : State) (r : GroupRef) (view : List (Nat × Nat)) (l : Loc) (n : Nat) : Nat :=
  let k := s.knowOf r
  let own := (s.history.filter fun h => h.bounds view l n && (h.src == r || k.shows h.src h.seq)).map fun h => h.stamp
  let seen := (k.seen.filter fun x => x.1.ordered x.2.1 l n).map fun x => x.2.2
  (own ++ seen).foldl max k.floor

/-- The events at a location before which a plain read of a group may still stand, oldest first: none longer ago than a store may stay unseen (R222,
log 96). -/
def State.staleStamps (s : State) (r : GroupRef) (view : List (Nat × Nat)) (l : Loc) (n : Nat) : List Nat :=
  ((s.history.filter fun h => h.meets view l n && decide (s.staleBound r view l n < h.stamp)
    && decide ((s.cycle - h.cycle).toNat ≤ Config.patience)).map fun h => h.stamp).eraseDups

/-- The times at which a read of memory by a group may stand, as the number of the newest event that it shows: now, and for a plain read of a
team before one that the group's reads need not show; each of them in agreement with what the launch has read (FS8). -/
def State.readTimes (s : State) (r : GroupRef) (view : List (Nat × Nat)) (l : Loc) (n : Nat) (fresh : Bool) : List Nat :=
  let old := match Table.find s.teams r.team with
    | some _ => if fresh then [] else (s.staleStamps r view l n).map fun k => k - 1
    | none => []
  (s.stamp :: old).filter fun k => s.agrees k view l n

/-- A group has read a location at a time: its later reads of it do not go back behind that (FS2). Nothing is to be kept where they could not. -/
def State.noteSeen (s : State) (r : GroupRef) (view : List (Nat × Nat)) (l : Loc) (n at_ : Nat) : State :=
  let b := s.staleBound r view l n
  if s.history.any fun h => h.bounds view l n && decide (b < h.stamp) then s.modKnow r fun k => { k with seen := (l, n, at_) :: k.seen } else s

/-- A group has read others' stores before they performed at their home. -/
def State.noteMet (s : State) (r : GroupRef) (xs : List (GroupRef × PendStore)) : State :=
  match xs.filter fun x => x.1 != r with
  | [] => s
  | ys => s.modKnow r fun k => { k with met := (ys.map fun x => (x.1, x.2.seq)) ++ k.met }

/-- What the release whose value a read at a time took tells, with those before it in a row of atomics (R221). -/
def State.valuePubs (s : State) (at_ : Nat) (view : List (Nat × Nat)) (l : Loc) (n : Nat) : List Pub :=
  match s.history.reverse.find? fun h => decide (h.stamp ≤ at_) && h.meets view l n with
  | some h => h.pubs
  | none => []

/-- A group has read the values of releases: its next acquire takes what they tell. -/
def State.hear (s : State) (r : GroupRef) (ps : List Pub) : State :=
  if ps.isEmpty then s else s.modGroup r fun g => { g with heard := ps ++ g.heard }

/-- An acquire's scope from which on it discards the copies held closer (R221). -/
def wideAcquire (acq : Option Nat) : Bool := acq.any fun scope => decide (2 ≤ scope)

/-- How many of the stores that lie over a location a read may show, the most first: up to the last that it must show at least, all of them for an
acquire at dev or wider. The newest that touches it then gives all its bytes (R224), an acquire takes none that has yet to perform at its scope
(R221, R222), and what memory gives agrees with what the launch has read (FS8). -/
def State.shownCounts (s : State) (r : GroupRef) (view : List (Nat × Nat)) (g : Group) (seq : Nat) (l : Loc) (n : Nat) (acq : Option Nat) : List Nat :=
  let zs := s.overlying r view g seq l n
  let least := if acq.any fun k => decide (homeScope ≤ k) then zs.length else (s.mustShow r view g seq l n).length
  (List.range (zs.length + 1)).reverse.filter fun k =>
    decide (least ≤ k) && (zs.take k).all (fun x => acq.all fun scope => decide (scope ≤ x.2.level))
      && match wholeStore l n (zs.take k) with
        | none => !(s.readTimes r view l n (wideAcquire acq)).isEmpty
        | some x => x.1.2.covers l n

/-- A read of a location by a group can have its value now: of a peer's line, no older store of the group is under way there (R308), and no nearer
version hides a part of a store (R249). -/
def State.readable (s : State) (r : GroupRef) (view : List (Nat × Nat)) (g : Group) (seq : Nat) (l : Loc) (n : Nat) (acq : Option Nat) : Bool :=
  !(s.shownCounts r view g seq l n acq).isEmpty
    && !(g.stores.any fun x => decide (x.seq < seq) && x.loc.samePeerLine l)
    && !((s.standing r).any fun x => x.2.loc.overlaps x.2.bytes l n && s.partlyHidden view x.1 x.2.loc x.2.bytes)

/-- An acquire at a scope on a core takes what a release tells: both scopes include both groups (R218). -/
def Pub.carries (p : Pub) (r : GroupRef) (core scope : Nat) : Bool :=
  let d := scopeOf r p.src core p.core
  decide (d ≤ scope) && decide (d ≤ p.scope)

/-- An acquire of a group has performed at a scope: it takes what the releases told whose values the group has read, and from clu on, the copies held
closer than it are gone (R221). seq: the accesses older than it. -/
def State.acquire (s : State) (r : GroupRef) (scope seq : Nat) : State :=
  let core := s.coreOf r
  s.modGroup r fun g =>
    let k := (g.heard.filter fun p => p.carries r core scope).foldl (fun k p => k.join p.know) g.know
    { g with acquired := max g.acquired seq, heard := g.heard.filter fun p => !p.carries r core scope,
             know := if 2 ≤ scope then { k with floor := s.stamp, seen := [] } else k }

/-- A fence that is an acquire: besides, its group knows every store that has performed at its scope where it sees it (R221, R391). -/
def State.fenceAcquire (s : State) (r : GroupRef) (scope seq : Nat) : State :=
  (s.acquire r scope seq).modKnow r fun k => { k with met := s.nearIds r scope ++ k.met }

/-- Row i of a scratchpad extent. -/
def Extent.row (e : Extent) (i : Nat) : Loc := .scratch (e.start.toNat + i * e.pitch)

/-- How far a location lies behind another of its kind. -/
def Loc.behind (l start : Loc) : Nat :=
  match start, l with
  | .phys a _, .phys b _ => b - a
  | .scratch a, .scratch b => b - a
  | _, _ => 0

/-- What a copy or gather in flight gives a byte of its destination. An element of a gather is written whole (R396): its bytes share the
number of its place, and those of a copy share nothing. -/
def State.copyByte (s : State) (view : List (Nat × Nat)) (l : Loc) (c : CopyCmd) : Option (Nat × Byte) :=
  c.pairs.zipIdx.findSome? fun p =>
    let (src, dst, n) := p.1
    if dst.overlaps n l 1 && s.meetsWrites view c.g l 1 then
      ((s.readLoc (s.viewOfRef c.g) (src.plus (l.behind dst)) 1).head?).map fun b => (if c.isGather then p.2 + 1 else 0, b)
    else none

/-- What an accst that the matrix engine executes gives a byte of its destination. -/
def Core.accstByte (c : Core) (l : Loc) : Option (Nat × Byte) :=
  match c.executing with
  | some x => match x.op with
    | .accst _ e => (List.range 64).findSome? fun i =>
      if (e.row i).overlaps 256 l 1 then
        let k := l.behind (e.row i)
        some (0, (Sparse.get c.tiles (x.phys * 4096 + i * 64 + k / 4)).extractLsb' (8 * (k % 4)) 8)
      else none
    | _ => none
  | none => none

/-- What the answer of a query or a collective that has reached the hub gives a byte of its destination. -/
def answerByte (dst : List Loc) (answer : Option (List Byte)) (l : Loc) : Option (Nat × Byte) :=
  match answer with
  | some bs => ((dst.zip bs).find? fun x => x.1.overlaps 1 l 1).map fun x => (0, x.2)
  | none => none

/-- The 16 bytes that a query's answer fills (R431). -/
def State.queryDst (s : State) (q : Query) : List Loc :=
  match Table.find s.teams q.g.team with
  | some t => (List.range 16).map fun k => s.teamLoc t (q.off + k)
  | none => []

/-- What an engine instruction in flight gives a byte of its destination (R61). -/
def State.inflightByte (s : State) (view : List (Nat × Nat)) (l : Loc) : Option (Nat × Byte) :=
  match s.cores.findSome? fun c => match c.2.copies.findSome? fun x => s.copyByte view l x with
      | some b => some b
      | none => c.2.accstByte l with
  | some b => some b
  | none => match s.queries.findSome? fun q => answerByte (s.queryDst q) q.answer l with
    | some b => some b
    | none => s.colls.findSome? fun c => answerByte c.dst c.answer l

/-- Until the flag of an engine instruction has been seen at 0, a read of its destination returns the old or the new value of each byte, by
the hardware's choice (R61): the new bytes that a read takes; last is the element and the choice of the byte before. -/
def State.chooseInflight (s : State) (view : List (Nat × Nat)) (l : Loc) (last : Nat × Nat) : Nat → Nat → List (Option Byte) × State
  | 0, _ => ([], s)
  | n + 1, k =>
    let (b, last, s) : Option Byte × (Nat × Nat) × State := match s.inflightByte view (l.plus k) with
      | some x =>
        let (c, s) := if x.1 != 0 && x.1 == last.1 then (last.2, s) else s.choose 2
        (if c = 0 then none else some x.2, (x.1, c), s)
      | none => (none, (0, 0), s)
    let (r, s) := State.chooseInflight s view l last n (k + 1)
    (b :: r, s)

/-- Bytes with those that a read takes from engines in flight. -/
def takeNew (bs : List Byte) (new : List (Option Byte)) : List Byte := (bs.zip new).map fun x => x.2.getD x.1

-- ## The value of a read (R30, R61, R218, R222, R224)

/-- A read of n bytes takes those from memory at a time that no store of a list and no engine in flight gives. -/
def State.trackUnder (s : State) (xs : List (GroupRef × PendStore)) (new : List (Option Byte)) (at_ : Nat) (view : List (Nat × Nat)) (l : Loc) (n : Nat) : State :=
  (List.range n).foldl (fun s k =>
    if (listGetD new k none).isSome || xs.any fun x => x.2.loc.overlaps x.2.bytes (l.plus k) 1 then s else s.trackByte at_ view (l.plus k)) s

/-- A read of a location by an access of a group as it sees it now (readOwn): what comes from memory is tracked (R250). -/
def State.trackOwn (s : State) (r : GroupRef) (view : List (Nat × Nat)) (g : Group) (seq : Nat) (l : Loc) (n : Nat) : State :=
  s.trackUnder (s.seenStores r view g seq) [] s.stamp view l n

/-- One of a list, by the hardware's choice where there are several. -/
def State.pickFrom {α : Type} (s : State) (l : List α) (d : α) : α × State :=
  match l with
  | [] => (d, s)
  | [x] => (x, s)
  | x :: r => let (c, s) := s.choose (r.length + 1); (listGetD (x :: r) c x, s)

/-- The time of a read of memory. -/
def State.pickTime (s : State) (r : GroupRef) (view : List (Nat × Nat)) (l : Loc) (n : Nat) (fresh : Bool) : Nat × State :=
  let (at_, s) := s.pickFrom (s.readTimes r view l n fresh) s.stamp
  (at_, s.noteSeen r view l n at_)

/-- The value that a read of a group takes, under as many of the stores that it may see as the hardware chooses: of the newest of them, else of
memory, as it is now for an acquire of scope clu or wider and for an agent's slot, and at a time that the hardware chooses for a plain read; bytes of
engines lie over it, and those in flight are a choice. Only what comes from memory is tracked (R250). -/
def State.sample (s : State) (r : GroupRef) (view : List (Nat × Nat)) (g : Group) (seq : Nat) (l : Loc) (n : Nat) (acq : Option Nat) : List Byte × State :=
  let zs := s.overlying r view g seq l n
  let (k, s) := s.pickFrom (s.shownCounts r view g seq l n acq) zs.length
  let xs := zs.take k
  match wholeStore l n xs with
  | some (x, upper) =>
    (overStores l n (overlay l n (List.replicate n 0) x.2.loc x.2.bytesOf) (upper.map fun y => y.2),
      (s.noteMet r (x :: upper)).hear r ((x :: upper).flatMap fun y => y.2.pubs))
  | none =>
    let (at_, s) := s.pickTime r view l n (wideAcquire acq)
    let bs := overStores l n (s.readLocAt at_ view l n) (xs.map fun x => x.2)
    let (new, s) := s.chooseInflight view l (0, 0) n 0
    (takeNew bs new,
      ((s.trackUnder xs new at_ view l n).noteMet r xs).hear r (s.valuePubs at_ view l n ++ xs.flatMap fun y => y.2.pubs))

end Sys2Proof.Machine
end

