-- ==== Sys2Proof/Machine/Loads.lean ====
section
/-! DEFINITION. ld, lds, ldv, ldc and prf, and the completion of a load (R62, R403 to R408, R429). -/

namespace Sys2Proof.Machine

/-- Adds a pending load to a group, under the group's next number. -/
def Group.addLoad (g : Group) (l : PendLoad) : Group := { g with seq := g.seq + 1, loads := g.loads ++ [{ l with seq := g.seq }] }

/-- The virtual address of a lane's access, by which a shootdown finds it (R206); none for scratchpad. -/
def Loc.virtualAt (l : Loc) (va : BitVec 64) : Option (BitVec 64) :=
  match l with
  | .phys _ _ => some va
  | .scratch _ => none

/-- The pending load of a lane: one register, a pair for 64 bits, and two pairs for 128 bits, which are two accesses (R224, R403). order 01 makes
it an acquire. -/
def Env.addLaneLoad (e : Env) (w : MWord) (va : Nat → Loc → Option (BitVec 64)) (g : Group) (x : Nat × Loc) : Group :=
  let r := fun k => RegDst.v (e.grp.vSlot e.ring (w.d.toNat + k)) x.1
  let l := fun (d : RegDst) (pair : Option RegDst) (off n : Nat) =>
    ({ seq := 0, op := e.grp.seq, dst := d, pair := pair, loc := x.2.plus off, bytes := n, known := none, acq := w.order == 1, scope := w.scope.toNat,
       va := va x.1 x.2 } : PendLoad)
  match widthBytes w.width with
  | 16 => (g.addLoad (l (r 0) (some (r 1)) 0 8)).addLoad (l (r 2) (some (r 3)) 8 8)
  | 8 => g.addLoad (l (r 0) (some (r 1)) 0 8)
  | n => g.addLoad (l (r 0) none 0 n)

/-- A load whose lanes have been checked: the pending loads of those that pass, and the trap of the one that fails. -/
def Env.loadLanes (e : Env) (w : MWord) (va : Nat → BitVec 64) (r : List (Nat × Loc) × Option LaneFault × State) : State :=
  let (ok, bad, s) := r
  let g := ok.foldl (e.addLaneLoad w fun l loc => loc.virtualAt (va l)) e.grp
  match bad with
  | some f => e.laneTrap s g f .read
  | none => e.finish g s

/-- A memory instruction waits while an acquire of the group has not performed (R221). -/
def Env.ordered (e : Env) (s : State) (body : State) : State := if e.grp.acquiring then e.waitOn .ordering s else body

/-- ld (R404). -/
def execLd (w : MWord) (s : State) : Result :=
  let n := widthBytes w.width
  native (memUses w (dataRegs w.d.toNat n) []) s fun e => e.ordered s <|
    e.loadLanes w (e.memAddr w) (checkLanes (fun l s => let a := e.memAddr w l; atAddr a (e.checkVirtual s a n n .read)) (lanesOf (e.guard w.g)) s [])

/-- lds (R404). -/
def execLds (w : MWord) (s : State) : Result :=
  let n := widthBytes w.width
  native (memUses w (dataRegs w.d.toNat n) []) s fun e => e.ordered s <|
    e.loadLanes w (e.memAddr w) (checkLanes (fun l s => let a := e.memAddr w l; atAddr a (e.checkTeam s a n n, s)) (lanesOf (e.guard w.g)) s [])

/-- The address of an element of ldv and stv by its mode (R408). -/
def Env.vectorAddr (e : Env) (w : MWord) (lane : Nat) : BitVec 64 :=
  let off := (w.imm.extractLsb' 0 14).signExtend 64
  let base := e.grp.readSPair w.base.toNat + off
  match (w.imm.extractLsb' 14 2).toNat with
  | 0 => base + BitVec.ofNat 64 (lane * widthBytes w.width)
  | 1 => base + BitVec.ofNat 64 lane * (e.grp.readS w.index.toNat).signExtend 64
  | _ => base + e.indexOf w lane

/-- ldv (R408). -/
def execLdv (w : MWord) (s : State) : Result :=
  let n := widthBytes w.width
  native (vectorUses w (dataRegs w.d.toNat n)) s fun e => e.ordered s <|
    e.loadLanes w (e.vectorAddr w) (checkLanes (fun l s => let a := e.vectorAddr w l; atAddr a (e.checkVirtual s a n n .read)) (lanesOf (e.guard w.g)) s [])

/-- ldc (R406): once for the group, into an s-register or pair. -/
def execLdc (w : MWord) (s : State) : Result :=
  let n := widthBytes w.width
  let d := w.d.toNat
  native { v := [], s := [w.base.toNat, w.base.toNat + 1] ++ dataRegs d n } s fun e => e.ordered s <|
    if !e.acts w.g then e.finish e.grp s
    else
      let a := e.grp.readSPair w.base.toNat + w.imm.signExtend 64
      match e.checkVirtual s a n n .read with
      | (.ok l, s) =>
        e.finish (e.grp.addLoad { seq := 0, op := e.grp.seq, dst := .s d, pair := if n = 8 then some (.s (d + 1)) else none, loc := l, bytes := n,
                                  known := none, acq := false, scope := 0, va := l.virtualAt a }) s
      | (.error k, s) => e.trapWith s e.grp k (accessDetail k .read) a wholeGroup false

/-- prf (R429): it changes no value and raises no trap. -/
def execPrf (w : MWord) (s : State) : Result := native (memUses w [] []) s fun e => e.finish e.grp s

/-- The lane of a register; 64 for an s-register. -/
def RegDst.lane (d : RegDst) : Nat :=
  match d with
  | .v _ lane => lane
  | .s _ => 64

/-- Writes a value to a register of a group. -/
def Group.writeDst (g : Group) (d : RegDst) (x : Word) : Group :=
  match d with
  | .v slot lane => if g.present.getLsbD lane then { g with v := Sparse.set g.v (vKey slot lane) x } else g
  | .s n => g.writeS n x

/-- The scope of a load that is an acquire. -/
def PendLoad.acquireScope (l : PendLoad) : Option Nat := if l.acq then some l.scope else none

/-- A pending load of a group may take its value now: no older load that it keeps its order with is still to take its own (FS2), nor one of a lower
lane of its instruction (R151), and its location is readable. A save holds it. -/
def State.loadMayRun (s : State) (r : GroupRef) (g : Group) (l : PendLoad) : Bool :=
  s.mayMove r && (l.known.isSome
    || !g.overlapsLoad l.seq l.loc l.bytes
        && (g.loads.all fun x => !(x.op == l.op && x.known.isNone && decide (x.seq < l.seq) && x.dst.lane != l.dst.lane))
        && s.readable r (s.viewOfRef r) g l.seq l.loc l.bytes l.acquireScope)

/-- A pending load reads a line that has been poisoned meanwhile, and no store that it must show gives its bytes (R215). -/
def State.loadPoisoned (s : State) (r : GroupRef) (g : Group) (l : PendLoad) : Bool :=
  l.known.isNone && s.poisoned l.loc && (wholeStore l.loc l.bytes (s.mustShow r (s.viewOfRef r) g l.seq l.loc l.bytes)).isNone

/-- A command may begin its reads: the group's earlier acquires have performed, where it is an acquire (R228). -/
def Group.acquiresDone (g : Group) (acq : Bool) (seq : Nat) : Bool :=
  !acq || g.loads.all fun l => !(l.acq && decide (l.seq < seq))

/-- The group's engine commands whose own acquire waited for its earlier ones perform it once those have (R228). -/
def State.settleFloors (s : State) (r : GroupRef) : State :=
  match s.findGroup r with
  | none => s
  | some g =>
    let due := fun (h : GroupRef) (floor : Option Nat) (seq : Nat) => h == r && floor.isNone && g.acquiresDone true seq
    let now := fun (scope : Nat) (k : Know) => { (k.join g.know) with met := s.nearIds r scope ++ (k.met ++ g.know.met) }
    let m := fun (c : MatrixCmd) => if due c.g c.floor c.seq then { c with floor := some s.stamp, know := now c.scope c.know } else c
    { s with
        cores := Table.mapVals s.cores fun k => { k with
          accepted := k.accepted.map m, executing := k.executing.map m,
          copies := k.copies.map fun c => if due c.g c.floor c.seq then { c with floor := some s.stamp, know := now c.scope c.know } else c },
        colls := s.colls.map fun c => if due c.g c.floor c.seq then { c with floor := some s.stamp, know := now c.scope c.know } else c }

/-- The lane of a trap for a load: its own, or none for an s-register. -/
def RegDst.trapLane (d : RegDst) : BitVec 32 :=
  match d with
  | .v _ lane => BitVec.ofNat 32 lane
  | .s _ => wholeGroup

/-- load completion: the load takes its value (R220, R222), and the register is written (R62). An acquire has then performed (R221). A read of a line
that has been poisoned meanwhile raises ECC (R215). -/
def execLoadCompletion (r : GroupRef) (idx : Nat) (s : State) : Result :=
  due <|
    match s.findGroup r with
    | none => none
    | some g => match g.loads[idx]? with
      | none => none
      | some l =>
        if !s.loadMayRun r g l then none
        else if s.loadPoisoned r g l then
          (if g.hasTrap then none else some (s.asyncTrap r g .ecc 2 (l.va.getD 0) l.dst.trapLane))
        else
          let (x, s) : BitVec 64 × State := match l.known with
            | some x => (x, s)
            | none =>
              let (bs, s) := s.sample r (s.viewOfRef r) g l.seq l.loc l.bytes l.acquireScope
              (BitVec.ofNat 64 (ofLeBytes bs), s)
          let s := if l.acq then s.acquire r l.scope l.seq else s
          let s := s.modGroup r fun g =>
            let g := { g with loads := listDrop g.loads idx }
            let g := g.writeDst l.dst (loWord x)
            (match l.pair with
              | some p => g.writeDst p (hiWord x)
              | none => g).rouse
          some (if l.acq then s.settleFloors r else s)

end Sys2Proof.Machine
end

