-- ==== Sys2Proof/Machine/Stores.lean ====
section
/-! DEFINITION. st, sts, stv and fence, and when a store may perform (R221, R222, R391, R445 to R450). -/

namespace Sys2Proof.Machine

/-- Adds a store that has issued to a group, under the group's next number: it is ordered after the group's fences (R221). -/
def Group.addStore (g : Group) (x : PendStore) : Group :=
  { g with seq := g.seq + 1, stores := g.stores ++ [{ x with seq := g.seq, after := g.fence }] }

/-- What an access of a group tells those who acquire it: as a release at a scope, the accesses before its number, and behind each of the group's fences
those before that (R221). -/
def Group.pubs (g : Group) (r : GroupRef) (core seq : Nat) (rel : Option Nat) : List Pub :=
  let pub := fun (n scope : Nat) => ({ src := r, core := core, scope := scope, know := g.know.told r n } : Pub)
  (rel.map (pub seq)).toList ++ g.fence.map fun f => pub f.1 f.2

/-- The same for an access that issues now. -/
def Env.pubs (e : Env) (rel : Option Nat) : List Pub := e.grp.pubs e.gref e.core e.grp.seq rel

/-- The scope at which the order field of a store makes it a release (R219). -/
def storeRelease (w : MWord) : Option Nat := if w.order == 2 then some w.scope.toNat else none

/-- The store of a lane; 128 bits are two halves (R224). order 10 makes it a release. -/
def Env.addLaneStore (e : Env) (w : MWord) (va : Nat → BitVec 64) (g : Group) (x : Nat × Loc) : Group :=
  let y := fun (off n : Nat) (data : BitVec 64) =>
    ({ seq := 0, op := e.grp.seq, after := [], lane := x.1, rel := w.order == 2, scope := w.scope.toNat, level := 0, loose := false,
       loc := x.2.plus off, bytes := n, data := data, va := x.2.virtualAt (va x.1), pubs := e.pubs (storeRelease w) } : PendStore)
  let d := w.d.toNat
  match widthBytes w.width with
  | 16 => (g.addStore (y 0 8 (e.readVPair d x.1))).addStore (y 8 8 (e.readVPair (d + 2) x.1))
  | 8 => g.addStore (y 0 8 (e.readVPair d x.1))
  | n => g.addStore (y 0 n ((e.readV d x.1).setWidth 64))

/-- The first lane whose write would need a shadow line that the overflow region has no room for (R257). -/
def Env.firstFull (e : Env) (s : State) (ok : List (Nat × Loc)) : Option Nat :=
  (ok.find? fun x => s.shadowBlocked e.ctx (e.view s) x.2).map fun x => x.1

/-- The launch of the issuing group. -/
def Env.launchId (e : Env) : Nat :=
  match e.grid with
  | some g => g.launch
  | none => 0

/-- A write of a lane that finds the overflow region full waits, except that of the oldest uncommitted launch, which raises SHADOW (R257). In V form, t and
g hold the effect on the elements below it (R70). -/
def Env.onFullShadow (e : Env) (s t : State) (g : Group) (lane : Nat) (va : BitVec 64) (ak : AccessKind) : State :=
  if s.isOldest e.launchId then e.laneTrap (if e.vform then t else s) g { lane := lane, addr := va, kind := .shadow } ak else e.waitOn .shadow s

/-- The lanes below one. -/
def lanesUnder (ok : List (Nat × Loc)) (lane : Nat) : List (Nat × Loc) := ok.filter fun x => decide (x.1 < lane)

/-- The lane that holds the writes of lanes whose checks have been made: in T form none where a check has failed, which traps first. -/
def Env.fullLane (e : Env) (s : State) (ok : List (Nat × Loc)) (bad : Option LaneFault) : Option Nat :=
  if bad.isNone || e.vform then e.firstFull s ok else none

/-- A store whose lanes have been checked. -/
def Env.storeLanes (e : Env) (w : MWord) (va : Nat → BitVec 64) (r : List (Nat × Loc) × Option LaneFault × State) : State :=
  let (ok, bad, s) := r
  let stored := fun lanes : List (Nat × Loc) => lanes.foldl (e.addLaneStore w va) e.grp
  match e.fullLane s ok bad, bad with
  | some l, _ => e.onFullShadow s s (stored (lanesUnder ok l)) l (va l) .write
  | none, some f => e.laneTrap s (stored ok) f .write
  | none, none => e.finish (stored ok) s

/-- st (R445). -/
def execSt (w : MWord) (s : State) : Result :=
  let n := widthBytes w.width
  native (memUses w (dataRegs w.d.toNat n) []) s fun e => e.ordered s <|
    e.storeLanes w (e.memAddr w) (checkLanes (fun l s => let a := e.memAddr w l; atAddr a (e.checkVirtual s a n n .write)) (lanesOf (e.guard w.g)) s [])

/-- sts (R445). -/
def execSts (w : MWord) (s : State) : Result :=
  let n := widthBytes w.width
  native (memUses w (dataRegs w.d.toNat n) []) s fun e => e.ordered s <|
    e.storeLanes w (e.memAddr w) (checkLanes (fun l s => let a := e.memAddr w l; atAddr a (e.checkTeam s a n n, s)) (lanesOf (e.guard w.g)) s [])

/-- stv (R450). -/
def execStv (w : MWord) (s : State) : Result :=
  let n := widthBytes w.width
  native (vectorUses w (dataRegs w.d.toNat n)) s fun e => e.ordered s <|
    e.storeLanes w (e.vectorAddr w) (checkLanes (fun l s => let a := e.vectorAddr w l; atAddr a (e.checkVirtual s a n n .write)) (lanesOf (e.guard w.g)) s [])

/-- A release fence of the group at a scope: it takes the place of those whose accesses have performed and that are no wider. -/
def Group.addFence (g : Group) (scope : Nat) : Group :=
  { g with fence := (g.seq, scope) :: g.fence.filter fun f => decide (scope < f.2) || !g.performed f.1 f.2 }

/-- fence (R221, R391) at its scope: acq waits for the earlier loads, rel holds the later stores behind every earlier access, and full waits for
every earlier access. acq and full are acquires. -/
def execFence (w : MWord) (s : State) : Result :=
  native { v := [], s := [] } s fun e =>
    let g := e.grp
    let k := w.scope.toNat
    if !e.acts w.g then e.finish g s
    else match w.order.toNat with
      | 1 => if g.loadsDone (fun _ => true) g.seq then (e.finish g s).fenceAcquire e.gref k g.seq else e.waitOn .ordering s
      | 2 => e.finish (g.addFence k) s
      | _ => if g.performed g.seq k && s.nearClear e.gref g.know k then (e.finish (g.addFence k) s).fenceAcquire e.gref k g.seq else e.waitOn .ordering s

/-- A release of a lane at a scope, to a location, may perform: every earlier access of the lane has performed there, and what the group knew of others'
stores (R221). seq: the accesses before it. -/
def State.releasable (s : State) (r : GroupRef) (g : Group) (k : Know) (lane seq scope : Nat) (l : Loc) : Bool :=
  g.lanePerformed lane seq scope l && s.nearClear r k scope

/-- What fences put before an access to a location has performed, with what the group knew of others' stores (R221). -/
def State.fencesClear (s : State) (r : GroupRef) (g : Group) (k : Know) (after : List (Nat × Nat)) (l : Loc) : Bool :=
  g.fencesDone after l && (after.isEmpty || s.nearClear r k (fenceScope after))

/-- What a store tells, or what its group knows now. -/
def PendStore.knew (x : PendStore) (g : Group) : Know := ((x.pubs.head?).map fun p => p.know).getD g.know

/-- At the level at which a store stands, another group's store to its bytes has arrived before it, where both are seen: that one goes on first (R222). -/
def State.behindOther (s : State) (r : GroupRef) (x : PendStore) : Bool :=
  decide (1 ≤ x.level) && s.allGroups.any fun w => w.1 != r && decide (s.distance r w.1 ≤ x.level)
    && w.2.stores.any fun y => y.level == x.level && y.loc.overlaps y.bytes x.loc x.bytes && decide (y.arr < x.arr)

/-- A store that the group has seen, and that stands where the group sees it no longer, goes before a store of the group to its bytes (FS2). -/
def State.behindMet (s : State) (r : GroupRef) (x : PendStore) : Bool :=
  (s.standing r).any fun y => y.2.loc.overlaps y.2.bytes x.loc x.bytes && decide (y.2.level < s.distance r y.1) && decide (s.distance r y.1 ≤ x.level + 1)

/-- A store of a group may perform at the next wider scope now. Every older access that it keeps its order with has performed there (FS2), lower
lanes of its instruction have gone before it (R151), and at one level stores to the same bytes go on in the order of their arrival (R222). To leave its
group, it waits for what fences put before it, and as a release for its lane's accesses (R221). A save holds it. -/
def State.storeMayRun (s : State) (r : GroupRef) (g : Group) (x : PendStore) : Bool :=
  s.mayMove r && !g.overlapsLoad x.seq x.loc x.bytes
    && !(g.stores.any fun y => decide (y.seq < x.seq) && y.loc.ordered y.bytes x.loc x.bytes && decide (y.level ≤ x.level))
    && !(g.stores.any fun y => y.op == x.op && decide (y.lane < x.lane) && decide (y.level ≤ x.level))
    && (x.level ≠ 0 || x.loose || s.fencesClear r g (x.knew g) x.after x.loc && (!x.rel || s.releasable r g (x.knew g) x.lane x.op x.scope x.loc))
    && !s.behindOther r x && !s.behindMet r x

/-- A store to a location needs a shadow line for which its context has no room (R257): whether its launch is the oldest. -/
def State.storeBlocked (s : State) (r : GroupRef) (l : Loc) : Option Bool :=
  match (Table.find s.teams r.team).bind fun t => Table.find s.grids t.grid with
  | some gr => if s.shadowBlocked gr.ctx (s.viewOfRef r) l then some (s.isOldest gr.launch) else none
  | none => none

/-- What a group has under way can go no further: a load of a poisoned line whose trap it has taken (R215), or a store that finds no room in the shadow
(R257), stands before all of it. A save does not wait for it (R289). -/
def State.groupHeld (s : State) (r : GroupRef) (g : Group) : Bool :=
  let load := fun l : PendLoad => s.loadMayRun r g l && s.loadPoisoned r g l && g.trap.isSome
  let store := fun x : PendStore => s.storeMayRun r g x && (x.loc.atPeer || decide (3 ≤ x.level))
    && ((s.storeBlocked r x.loc).any fun oldest => !oldest || g.trap.isSome)
  (g.loads.any load || g.stores.any store) && g.loads.all (fun l => load l || !s.loadMayRun r g l)
    && g.stores.all fun x => store x || !s.storeMayRun r g x

/-- The stores that ended teams have left, without the teams whose stores have all performed. -/
def State.sweepLeft (s : State) : State := { s with left := s.left.filter fun e => e.2.2.any fun g => !g.stores.isEmpty }

/-- A store of a group, by its place, performs at the next wider scope: it arrives there behind those that have. -/
def State.raiseStore (s : State) (r : GroupRef) (idx : Nat) : State :=
  { (s.modGroup r fun g => ({ g with stores := listModify g.stores idx fun y => { y with level := y.level + 1, arr := s.arrivals + 1 } }).rouse) with
    arrivals := s.arrivals + 1 }

end Sys2Proof.Machine
end

