-- ==== Sys2Proof/Machine/Atomics.lean ====
section
/-! DEFINITION. atom, atoms, cas, cass, and the barrier operations barinit and arrive (R226, R347 to R352, R364). -/

namespace Sys2Proof.Machine

/-- A read-modify-write of n bytes at a location as one event at its home (R225), by a group under a number: the old value, and the state after.
f answers none where nothing is written. The group has seen the value (FS2). pubs: what the event tells as a release, with what the value that it has
read tells (R221). -/
def State.rmw (s : State) (src : GroupRef) (seq : Nat) (view : List (Nat × Nat)) (l : Loc) (n : Nat) (pubs : List Pub) (f : Nat → Option Nat) : Nat × State :=
  let (new, s) := s.chooseInflight view l (0, 0) n 0
  let old := ofLeBytes (takeNew (s.readLoc view l n) new)
  let heard := s.valuePubs s.stamp view l n
  let s := ((s.trackUnder [] new s.stamp view l n).noteSeen src view l n s.stamp).hear src heard
  match f old with
  | some x => (old, s.perform src seq view l (leBytes n x) (pubs ++ heard))
  | none => (old, s)

/-- The new value of an atomic of n bytes (R351). -/
def atomResult (aop n level old v : Nat) : Nat :=
  let m := 2 ^ (8 * n)
  match aop with
  | 0 => (old + v) % m
  | 1 => if v < old then v else old
  | 2 => if old < v then v else old
  | 3 => Nat.land old v
  | 4 => Nat.lor old v
  | 5 => Nat.xor old v
  | 6 => v
  | 7 => if v ≤ old then 0 else old + 1
  | 8 => if old = 0 || v < old then v else old - 1
  | _ => (faddOp { ty := 0, sat := false, var := 0, codes := 0, pos := 0, level := level, x := BitVec.ofNat 64 old,
                   y := BitVec.ofNat 64 v, z := 0, old := 0 }).d.toNat

/-- The value of a data register or pair of a lane, n bytes of it. -/
def Env.dataValue (e : Env) (r n lane : Nat) : Nat :=
  if n = 8 then (e.readVPair r lane).toNat else (e.readV r lane).toNat % 2 ^ (8 * n)

/-- A group with what the state has noted of its reads meanwhile. -/
def State.noted (s : State) (r : GroupRef) (g : Group) : Group :=
  match s.findGroup r with
  | some h => { g with know := h.know, heard := h.heard }
  | none => g

/-- The old value as the write of register d that is pending (R62); 0xFF names none. -/
def Env.returnOld (e : Env) (d : BitVec 8) (n lane : Nat) (l : Loc) (old : Nat) (g : Group) : Group :=
  if d == 0xFF then g
  else
    let r := fun k => RegDst.v (e.grp.vSlot e.ring (d.toNat + k)) lane
    g.addLoad { seq := 0, op := e.grp.seq, dst := r 0, pair := if n = 8 then some (r 1) else none, loc := l, bytes := n,
                known := some (BitVec.ofNat 64 old), acq := false, scope := 0, va := none }

/-- An atomic of a lane, which performs at its home, meets a pending access of its group, or another's store to the same bytes that its group must
show; it stands behind the group's fences (R221). It waits as well while memory does not agree with what its launch has read (FS8). -/
def Env.mustWait (e : Env) (s : State) (n : Nat) (x : Nat × Loc) : Bool :=
  let g := e.grp
  g.overlapsLoad g.seq x.2 n || g.overlapsStore g.seq x.2 n || !s.othersHome e.gref g.know x.2 n
    || !s.agrees s.stamp (e.view s) x.2 n || !s.fencesClear e.gref g g.know g.fence x.2

/-- An atomic of a lane that is a release at a scope meets what must perform there first (R221). -/
def Env.mustRelease (e : Env) (s : State) (rel : Option Nat) (x : Nat × Loc) : Bool :=
  rel.any fun k => !s.releasable e.gref e.grp e.grp.know x.1 e.grp.seq k x.2

/-- Performs an atomic in the lanes that passed their checks, in ascending order: the state, the group with what returns to it, and the lanes that
have written. -/
def Env.atomLanes (e : Env) (d : BitVec 8) (n : Nat) (pubs : List Pub) (f : Nat → Nat → Option Nat) :
    List (Nat × Loc) → State → Group → List (Nat × Loc) → State × Group × List (Nat × Loc)
  | [], s, g, ws => (s, g, ws)
  | x :: r, s, g, ws =>
    let (old, s) := s.rmw e.gref g.seq (e.view s) x.2 n pubs (f x.1)
    Env.atomLanes e d n pubs f r s (e.returnOld d n x.1 x.2 old g) (if (f x.1 old).isSome then ws ++ [x] else ws)

/-- The state after an atomic that is an acquire at a scope (R221). -/
def Env.acquired (e : Env) (acq : Option Nat) (s : State) : State :=
  match acq with
  | some k => s.acquire e.gref k e.grp.seq
  | none => s

/-- An atomic whose lanes have been checked: rel gives the scope at which it is a release in a lane that writes (R364), acq that of its acquire. It
waits where a lane meets what stands before it, where one that writes meets what it releases, where what it writes has no room in the shadow, and for the
charge of its accesses at memory tiles (R100). What the
performing lanes have read of their group's notes goes with the group. -/
def Env.atomic (e : Env) (d : BitVec 8) (n : Nat) (rel : Option Nat) (acq : Option Nat) (f : Nat → Nat → Option Nat) (va : Nat → BitVec 64)
    (r : List (Nat × Loc) × Option LaneFault × State) : State :=
  let (ok, bad, s) := r
  if bad.isSome && !e.vform then match bad with
    | some x => e.laneTrap s e.grp x .atomic
    | none => s
  else if ok.any (e.mustWait s n) then e.waitOn .ordering s
  else
    let run := fun lanes : List (Nat × Loc) => e.atomLanes d n (e.pubs rel) f lanes s e.grp []
    let (t, g, ws) := run ok
    if ws.any (e.mustRelease s rel) then e.waitOn .ordering s
    else match e.firstFull s ws with
    | some l =>
      let (t, g, _) := run (lanesUnder ok l)
      e.onFullShadow s t (t.noted e.gref g) l (va l) .atomic
    | none => match t.chargeAll (tileCharges ok) with
      | .error x => e.waitOn (.power x.1 x.2) s
      | .ok t =>
        let g := t.noted e.gref g
        match bad with
        | some x => e.laneTrap t g x .atomic
        | none => e.acquired acq (e.finish g t)

/-- The registers of an atomic. -/
def atomUses (w : MWord) (data : List Nat) : Uses :=
  let n := widthBytes w.width
  memUses w (data ++ if w.d == 0xFF then [] else dataRegs w.d.toNat n) []

/-- The lanes of an atomic to virtual memory, or to the team's scratchpad. -/
def Env.atomCheck (e : Env) (s : State) (w : MWord) (team : Bool) : List (Nat × Loc) × Option LaneFault × State :=
  let n := widthBytes w.width
  checkLanes (fun l s => let a := e.atomAddr w l
    atAddr a (if team then (e.checkTeam s a n n, s) else e.checkVirtual s a n n .atomic)) (lanesOf (e.guard w.g)) s []

/-- The scopes at which the order field makes an atomic a release and an acquire (R219). -/
def releaseScope (w : MWord) : Option Nat := if w.order == 2 || w.order == 3 then some w.scope.toNat else none
def acquireScope (w : MWord) : Option Nat := if w.order == 1 || w.order == 3 then some w.scope.toNat else none

/-- atom and atoms (R350, R351). -/
def atomStep (w : MWord) (team : Bool) (s : State) : Result :=
  let n := widthBytes w.width
  native (atomUses w (dataRegs w.data.toNat n)) s fun e => e.ordered s <|
    e.atomic w.d n (releaseScope w) (acquireScope w) (fun l old => some (atomResult w.aop.toNat n e.level old (e.dataValue w.data.toNat n l))) (e.atomAddr w)
      (e.atomCheck s w team)

/-- atom. -/
def execAtom (w : MWord) (s : State) : Result := atomStep w false s
/-- atoms. -/
def execAtoms (w : MWord) (s : State) : Result := atomStep w true s

/-- What a cas of a lane writes (R364). -/
def Env.casResult (e : Env) (w : MWord) (lane old : Nat) : Option Nat :=
  let n := widthBytes w.width
  let c := w.data.toNat
  if old = e.dataValue c n lane then some (e.dataValue (c + n / 4) n lane) else none

/-- cas and cass (R364): a failed compare writes nothing and is no release. -/
def casStep (w : MWord) (team : Bool) (s : State) : Result :=
  let n := widthBytes w.width
  native (atomUses w (dataRegs w.data.toNat (2 * n))) s fun e => e.ordered s <|
    e.atomic w.d n (releaseScope w) (acquireScope w) (e.casResult w) (e.atomAddr w) (e.atomCheck s w team)

/-- cas. -/
def execCas (w : MWord) (s : State) : Result := casStep w false s
/-- cass. -/
def execCass (w : MWord) (s : State) : Result := casStep w true s

-- ## Barriers (R226, R227, R347, R348, R352)

/-- A barrier object's address is checked: ALIGN unless a multiple of 16, then as a memory access of 16 bytes. -/
def Env.checkBarrier (e : Env) (s : State) (w : MWord) (k : AccessKind) (lane : Nat) :
    Except (BitVec 64 × TrapKind) Loc × State :=
  let a := e.memAddr w lane
  let slice := (a.toNat - windowBase) / sliceSize
  if w.width == 3 && a.toNat % 16 == 0
      && !(inWindow a && slice / 4 == e.core / 4 && slice != e.core) then (.error (a, .bounds), s)
  else atAddr a (e.checkVirtual s a 16 16 k)

/-- barinit (R352): a plain store of the whole object. -/
def execBarinit (w : MWord) (s : State) : Result :=
  native (memUses w [w.d.toNat] []) s fun e => e.ordered s <|
    let (ok, bad, s) := checkLanes (fun l s => e.checkBarrier s w .write l) (lanesOf (e.guard w.g)) s []
    let stored := fun lanes : List (Nat × Loc) => lanes.foldl (fun (g : Group) x =>
      let n := e.readV w.d.toNat x.1
      let n := if n == 0 then 1 else n
      g.addStore { seq := 0, op := e.grp.seq, after := [], lane := x.1, rel := false, scope := 0, level := 0, loose := false, loc := x.2, bytes := 16,
                   data := pairOf n n, va := x.2.virtualAt (e.memAddr w x.1), pubs := e.pubs none }) e.grp
    match e.fullLane s ok bad, bad with
    | some l, _ => e.onFullShadow s s (stored (lanesUnder ok l)) l (e.memAddr w l) .write
    | none, some f => e.laneTrap s (stored ok) f .write
    | none, none => e.finish (stored ok) s

/-- The barrier object after an arrival, from its 16 bytes as a number (R348). -/
def arriveResult (o : Nat) : Nat :=
  let expected := natBits o 31 0
  let pending := natBits o 63 32
  let phase := natBits o 95 64
  let p := (if pending = 0 || expected < pending then 1 else pending) - 1
  let (p, ph) := if p = 0 then (expected, (phase + 1) % 2 ^ 32) else (p, phase)
  expected + p * 2 ^ 32 + ph * 2 ^ 64 + natBits o 127 96 * 2 ^ 96

/-- The arrivals of the lanes that passed their checks; each returns the phase in which it arrived, and they are told with their objects. Each is one
event (R226), and the spec does not say whether another agent's may fall between two of them: here none does (DESIGN CHOICE, log 93). -/
def Env.arriveLanes (e : Env) (d : BitVec 8) (pubs : List Pub) :
    List (Nat × Loc) → State → Group → List (Loc × Nat) → State × Group × List (Loc × Nat)
  | [], s, g, ps => (s, g, ps)
  | x :: r, s, g, ps =>
    let (old, s) := s.rmw e.gref g.seq (e.view s) x.2 16 pubs fun o => some (arriveResult o)
    Env.arriveLanes e d pubs r s (e.returnOld d 4 x.1 x.2 (natBits old 95 64) g) (ps ++ [(x.2, natBits old 95 64)])

/-- Release arrivals of a group at objects, each in a phase: the bindings made before them, of any team, can be learnt from them (R302). -/
def State.tellTiles (s : State) (r : GroupRef) (scope : Nat) (arrivals : List (Loc × Nat)) : State :=
  { s with teams := Table.mapVals s.teams fun t => { t with tiles := Table.mapVals t.tiles fun b =>
    { b with sent := (arrivals.map fun a => (a.1, a.2, r, scope)) ++ b.sent } } }

/-- A completed wait at an object on a phase, at a scope: its group finds the names bound whose binding a release arrival of that phase there has
followed, where both scopes include both groups (R218, R227, R302). -/
def State.learnTiles (s : State) (r : GroupRef) (scope : Nat) (object : Loc) (phase : Nat) : State :=
  let told := fun (x : Loc × Nat × GroupRef × Nat) => x.1 == object && x.2.1 == phase
    && decide (s.distance r x.2.2.1 ≤ scope) && decide (s.distance r x.2.2.1 ≤ x.2.2.2)
  s.modTeam r.team fun t => { t with tiles := Table.mapVals t.tiles fun b => if b.sent.any told then { b with knows := addNew b.knows r.grp } else b }

/-- The scope at which an arrival is a release: order 00 (R227). -/
def arriveScope (w : MWord) : Option Nat := if w.order == 0 then some w.scope.toNat else none

/-- arrive (R347, R348): order 00 is a release of the lane at the scope field (R227). -/
def execArrive (w : MWord) (s : State) : Result :=
  native (memUses w (if w.d == 0xFF then [] else [w.d.toNat]) []) s fun e => e.ordered s <|
    let (ok, bad, s) := checkLanes (fun l s => e.checkBarrier s w .atomic l) (lanesOf (e.guard w.g)) s []
    if bad.isSome && !e.vform then match bad with
      | some x => e.laneTrap s e.grp x .atomic
      | none => s
    else if ok.any fun x => e.mustWait s 16 x || e.mustRelease s (arriveScope w) x then e.waitOn .ordering s
    else
      let run := fun (lanes : List (Nat × Loc)) (s : State) =>
        let (s, g, ps) := e.arriveLanes w.d (e.pubs (arriveScope w)) lanes s e.grp []
        let s := match arriveScope w with
          | some k => s.tellTiles e.gref k ps
          | none => s
        (s, s.noted e.gref g)
      match e.firstFull s ok with
      | some l => let (t, g) := run (lanesUnder ok l) s; e.onFullShadow s t g l (e.memAddr w l) .atomic
      | none => match s.chargeAll (tileCharges ok) with
        | .error x => e.waitOn (.power x.1 x.2) s
        | .ok s =>
          let (s, g) := run ok s
          match bad with
          | some x => e.laneTrap s g x .atomic
          | none => e.finish g s

end Sys2Proof.Machine
end

