-- ==== Sys2Proof/Machine/Fire.lean ====
section
/-! DEFINITION. The firing of a slot of a processing element (R76, R77): its triggers, its sources and what it writes. -/

namespace Sys2Proof.Machine

/-- The PE at a place of a plane. -/
def Plane.cell (p : Plane) (col row : Nat) : Option Cell := p.cells.find? fun c => c.col == col && c.row == row

/-- Changes the PE at a place of a plane. -/
def Plane.modCell (p : Plane) (col row : Nat) (f : Cell → Cell) : Plane :=
  { p with cells := p.cells.map fun c => if c.col == col && c.row == row then f c else c }

/-- Changes a team's region, where it has one. -/
def State.modRegion (s : State) (tk : Nat) (f : Region → Region) : State :=
  s.modTeam tk fun t => { t with region := t.region.map f }

/-- Changes the active plane of a team's region. -/
def State.modPlane (s : State) (tk : Nat) (f : Plane → Plane) : State :=
  s.modRegion tk fun r => { r with active := f r.active }

/-- Changes a PE of the active plane of a team's region. -/
def State.modCell (s : State) (tk col row : Nat) (f : Cell → Cell) : State :=
  s.modPlane tk fun p => p.modCell col row f

/-- The tokens of input queue k. -/
def Cell.inq (c : Cell) (k : Nat) : List Token := listGetD c.ins k []
/-- The entries of output buffer k. -/
def Cell.outq (c : Cell) (k : Nat) : List OutEntry := listGetD c.outs k []

/-- Output buffer k has a free entry of its two (R76). -/
def Cell.hasRoom (c : Cell) (k : Nat) : Bool := decide ((c.outq k).length < 2)

/-- The bits of a mask of four. -/
def bits4 (m : BitVec 4) : List Nat := (List.range 4).filter fun k => m.getLsbD k

/-- A local register that an earlier firing has yet to write. -/
def Cell.waitsL (c : Cell) (n : Nat) : Bool := c.lBusy.getLsbD n

/-- A slot reads or writes a local register or a predicate bit that an earlier firing has yet to write (R77). -/
def Cell.pendingFor (c : Cell) (i : Instr) (w : SWord) : Bool :=
  let src := fun k : BitVec 4 => decide (4 ≤ k.toNat) && decide (k.toNat ≤ 11) && c.waitsL (k.toNat - 4)
  src w.srcA || src w.srcB || ((w.lwe || readsThird i) && c.waitsL w.ldest.toNat)
    || (w.care &&& c.bBusy) != 0 || (w.pkind != 0 && c.bBusy.getLsbD w.pbit.toNat)

/-- The trigger conditions that every slot has (R77). -/
def Cell.eligible (c : Cell) (i : Instr) (w : SWord) : Bool :=
  (c.b &&& w.care) == (w.value &&& w.care)
    && (bits4 w.ready).all (fun k => !(c.inq k).isEmpty)
    && (!w.tagen || (match c.inq w.tagInput.toNat with
      | t :: _ => t.tag == w.tagVal
      | [] => false))
    && (bits4 w.space).all c.hasRoom
    && !c.pendingFor i w

/-- The head of input queue k; a data token of 0 where it is empty. -/
def Cell.head (c : Cell) (k : Nat) : Token :=
  match c.inq k with
  | t :: _ => t
  | [] => { data := 0, tag := 0 }

/-- Source (R77): an input's head, a local register, imm24 sign-extended, or zero. -/
def Cell.source (c : Cell) (w : SWord) (code : BitVec 4) : Word :=
  let k := code.toNat
  if k < 4 then (c.head k).data
  else if k < 12 then Sparse.get c.l (k - 4)
  else if k = 12 then w.imm.signExtend 32
  else 0

/-- The value of the local register that ldest names. -/
def Cell.third (c : Cell) (w : SWord) : Word := Sparse.get c.l w.ldest.toNat

/-- OutTag (R77). -/
def Cell.outTag (c : Cell) (w : SWord) : BitVec 2 :=
  match w.otag.toNat with
  | 0 => 0
  | 1 => (c.head w.srcA.toNat).tag
  | 2 => 1
  | _ => 3

/-- Removes the heads of the inputs of a mask. -/
def Cell.dequeue (c : Cell) (m : BitVec 4) : Cell :=
  { c with ins := (List.range 4).map fun k => if m.getLsbD k then (c.inq k).tail else c.inq k }

/-- Appends an entry to each output of a mask. -/
def Cell.emit (c : Cell) (m : BitVec 4) (e : OutEntry) : Cell :=
  { c with outs := (List.range 4).map fun k => if m.getLsbD k then c.outq k ++ [e] else c.outq k }

/-- Writes a local register, which then holds the translation token of a making, or none. -/
def Cell.writeL (c : Cell) (n : Nat) (x : Word) (stamp : Nat := 0) : Cell :=
  { c with l := Sparse.set c.l n x, made := if stamp = 0 then Table.del c.made n else Table.put c.made n stamp }

/-- A byte with one bit set to a value. -/
def setBit8 (b : BitVec 8) (k : Nat) (v : Bool) : BitVec 8 := if v then b ||| (1#8 <<< k) else b &&& ~~~(1#8 <<< k)

/-- The predicate update of a slot with a result (R77). -/
def Cell.predicate (c : Cell) (w : SWord) (result : Word) : Cell :=
  match w.pkind.toNat with
  | 0 => c
  | 1 => { c with b := setBit8 c.b w.pbit.toNat (result != 0) }
  | 2 => { c with b := setBit8 c.b w.pbit.toNat true }
  | _ => { c with b := setBit8 c.b w.pbit.toNat false }

/-- What a firing writes beside its outputs: the local register and the predicate bit. -/
def Cell.writeBack (c : Cell) (w : SWord) (result : Word) (stamp : Nat := 0) : Cell :=
  (if w.lwe then c.writeL w.ldest.toNat result stamp else c).predicate w result

/-- The making of the translation token that a source holds; 0 where it holds none (R90). -/
def Cell.sourceStamp (c : Cell) (code : BitVec 4) : Nat :=
  if code.toNat < 4 then (c.head code.toNat).stamp else if code.toNat < 12 then Table.getD c.made (code.toNat - 4) 0 else 0

/-- The making of the translation token that a result comes from: of the one source whose data it is, else of the older of those that the firing
reads (R90). -/
def Cell.stampOf (c : Cell) (w : SWord) (x : Word) : Nat :=
  let a := c.sourceStamp w.srcA
  let b := c.sourceStamp w.srcB
  let fromA := c.source w w.srcA == x
  let fromB := c.source w w.srcB == x
  if fromA && !fromB then a else if fromB && !fromA then b else if a = 0 then b else if b = 0 then a else min a b

/-- A firing that gives its result at once (R77): it dequeues, sends {result, tag} and writes back. -/
def Cell.fire (c : Cell) (w : SWord) (result : Word) (tag : BitVec 2) (stamp : Nat) : Cell :=
  ((c.dequeue w.deq).emit w.out (.tok { data := result, tag := tag, stamp := stamp })).writeBack w result stamp

/-- Puts a late result in the first place that a slot's firings keep in an output buffer. -/
def fillPending (slot : Nat) (t : Token) : List OutEntry → List OutEntry
  | [] => []
  | .pend k :: r => if k = slot then .tok t :: r else .pend k :: fillPending slot t r
  | .tok x :: r => .tok x :: fillPending slot t r

/-- A firing whose result comes later: it dequeues and keeps a place in each output, in its local register and its predicate bit. -/
def Cell.fireLater (c : Cell) (w : SWord) (slot : Nat) : Cell :=
  let c := (c.dequeue w.deq).emit w.out (.pend slot)
  { c with lBusy := if w.lwe then setBit8 c.lBusy w.ldest.toNat true else c.lBusy,
           bBusy := if w.pkind != 0 then setBit8 c.bBusy w.pbit.toNat true else c.bBusy }

/-- The late result of a slot's firing arrives (R93, R107). -/
def Cell.complete (c : Cell) (w : SWord) (slot : Nat) (t : Token) : Cell :=
  let c := { c with outs := (List.range 4).map fun k => if w.out.getLsbD k then fillPending slot t (c.outq k) else c.outq k }
  let c := c.writeBack w t.data t.stamp
  { c with lBusy := if w.lwe then setBit8 c.lBusy w.ldest.toNat false else c.lBusy,
           bBusy := if w.pkind != 0 then setBit8 c.bBusy w.pbit.toNat false else c.bBusy }

/-- The key of a slot in the starvation watch. -/
def watchKey (col row slot : Nat) : Nat := (col * 8 + row) * 16 + slot

/-- Cell column c of a region is frozen (R111). -/
def Region.frozenCol (r : Region) (col : Nat) : Bool := match r.frozen with
  | some k => decide (col < k)
  | none => false

/-- A region whose cells may fire: configured, and neither releasing a span, nor faulted (R84, R133, R385). -/
def Region.runs (r : Region) : Bool := r.live && r.closing.isNone && r.fault.isNone

/-- A cell of a column fires: its region runs, and the freeze wave has not reached it (R111). -/
def Region.firesAt (r : Region) (col : Nat) : Bool := r.runs && !r.frozenCol col

/-- A region that no freeze wave has entered and whose cells may fire. -/
def Region.fires (r : Region) : Bool := r.runs && r.frozen.isNone

/-- What a firing slot sees; inTiles says that a request of its team stands at a memory tile. -/
structure PeEnv where
  tk : Nat
  team : Team
  region : Region
  cell : Cell
  slot : Nat
  inTiles : Bool
deriving DecidableEq, Repr

/-- A request of a team stands at a tile of its core. -/
def State.inTiles (s : State) (tk core : Nat) : Bool := (s.core core).tileQ.any fun x => x.2.team == tk

/-- The entry of an output buffer is a token. -/
def OutEntry.isTok (e : OutEntry) : Bool :=
  match e with
  | .tok _ => true
  | .pend _ => false

/-- The live-token count of a plane (R108): input queues, output buffers, link slots and the queues of edge nodes. -/
def Plane.live (p : Plane) : Nat :=
  (p.cells.map fun c => (c.ins.map List.length).sum + (c.outs.map fun o => (o.filter OutEntry.isTok).length).sum + c.links.length).sum
    + (p.ports.map fun q => q.inq.length + q.queue.length).sum + (p.convs.map fun v => v.inq.length + v.outq.length).sum

/-- A port has completed its pattern: an in port when it has emitted its end token, an out port when every element stands in the span
buffer (R88). -/
def Port.total (p : Port) : Nat := p.dims.foldl (fun n d => n * d.1) 1
def Port.completed (p : Port) : Bool := if p.out then decide (p.total ≤ p.pos) else p.endSent && p.queue.isEmpty

/-- Port k of a plane. -/
def Plane.port (p : Plane) (k : Nat) : Option Port := p.ports.find? fun q => q.k == k

/-- A chain of a plane. -/
def Plane.chain (p : Plane) (id : Nat) : Option Chain := p.chains.find? fun c => c.id == id

/-- No request waits in the region's memory interface (R105). -/
def Region.interfaceIdle (r : Region) : Bool :=
  r.active.chains.all (fun c => c.queue.isEmpty) && r.oldPlanes.all fun p => p.chains.all fun c => c.queue.isEmpty

/-- A chain takes a node's request: there is room, or the request is the expected one, which needs none (R93). -/
def Chain.takes (c : Chain) (seq : Nat) : Bool :=
  decide (c.queue.length < 16) || (seq == c.e && !c.queue.any fun q => q.seq == c.e)


/-- What a slot needs beside the conditions that every slot has: a chain that takes its request (R93); the selected input of a merge (R413); the
completed port of a swait (R88); both heads of an mport (R193); and the conditions of R105, R107 and R111. -/
def PeEnv.extra (e : PeEnv) (i : Instr) : Bool :=
  let r := e.region
  match i with
  | .merge _ => !(e.cell.inq (if (e.cell.head 0).data.getLsbD 0 then 2 else 1)).isEmpty
  | .ldn w | .stn w | .atn w | .btok w => match r.active.chain w.chain.toNat with
    | some c => c.takes w.seqNo.toNat
    | none => false
  | .calln _ => r.frozen.isNone && r.active.pendingNext.isNone && r.interfaceIdle && !e.inTiles
  | .retn w => r.frozen.isNone && r.active.live == (bits4 w.deq).length && (!r.shadows.isEmpty || r.spilled.isEmpty)
  | .next _ => r.frozen.isNone
  | .swait w => match r.active.port (w.imm.toNat % 8) with
    | some p => p.completed
    | none => false
  | .mport _ => !(e.cell.inq 0).isEmpty && !(e.cell.inq 1).isEmpty
  | _ => true

/-- The PE that executes; none where the actor is no slot of a region that fires. A column that the freeze wave has passed is frozen
(R111). -/
def State.peEnv (s : State) : Option PeEnv :=
  match s.cur with
  | .pe tk col row slot =>
    match Table.find s.teams tk with
    | some t =>
      match t.region with
      | some r =>
        match r.active.cell col row with
        | some c =>
          if r.firesAt col then some { tk := tk, team := t, region := r, cell := c, slot := slot, inTiles := s.inTiles tk t.core }
          else none
        | none => none
      | none => none
    | none => none
  | _ => none

/-- The meaning of a slot: it fires when eligible, and does nothing in this cycle otherwise (R77). -/
def slotStep (i : Instr) (w : SWord) (s : State) (body : PeEnv → State) : Result :=
  match s.peEnv with
  | none => .fault .noIssuer
  | some e => if e.cell.eligible i w && e.extra i then .next (body e) else .next s

/-- Changes the executing PE, which has fired. -/
def PeEnv.put (e : PeEnv) (s : State) (c : Cell) : State :=
  (s.modCell e.tk e.cell.col e.cell.row fun _ => c).modRegion e.tk fun r => { r with fired := true }

/-- The operands of an ALU op in a slot (R77, R330, R456). -/
def PeEnv.aluIn (e : PeEnv) (i : Instr) (w : SWord) (level : Nat) : AluIn :=
  { ty := w.ty.toNat, sat := w.sat, var := w.var.toNat, codes := (w.imm.extractLsb' 8 8).toNat,
    pos := match i with
      | .pack _ => (w.imm.extractLsb' 0 2).toNat
      | .unpack _ => (w.imm.extractLsb' 0 3).toNat
      | _ => 0
    level := level, x := (e.cell.source w w.srcA).setWidth 64, y := (e.cell.source w w.srcB).setWidth 64,
    z := (e.cell.third w).setWidth 64, old := (e.cell.third w).setWidth 64 }

/-- The making of the translation token that an ALU op's result comes from: sel's, of the source that it selects (R90, R439). -/
def PeEnv.aluStamp (e : PeEnv) (i : Instr) (w : SWord) (x : Word) : Nat :=
  match i with
  | .sel _ => e.cell.sourceStamp (if e.cell.third w != 0 then w.srcA else w.srcB)
  | _ => e.cell.stampOf w x

/-- An ALU op in a slot: the result goes out, and to l[ldest] with lwe; addc and subb write their carry there instead (R345, R452). -/
def PeEnv.aluCell (e : PeEnv) (i : Instr) (r : AluRow) (w : SWord) (level : Nat) (f : AluIn → AluOut) : Cell :=
  let o := f (e.aluIn i w level)
  let c := e.cell.fire w (loWord o.d) (e.cell.outTag w) (e.aluStamp i w (loWord o.d))
  match r.third with
  | .carry => c.writeL w.ldest.toNat o.carry
  | _ => c

end Sys2Proof.Machine
end

