-- ==== Sys2Proof/Machine/Images.lean ====
section
/-! DEFINITION. What the hub die and the agents read of memory, and reading a kernel image: its header, its sections and the limits for
which the loader refuses it (R36, R38, R104, R119 to R122, R310). -/

namespace Sys2Proof.Machine

-- ## Reads of the hub die and the agents

/-- Translation by the hub die or an agent: a walk with the rights that the access needs; none where it fails, reads a poisoned line (R215), or the byte
is absent (R196). -/
def State.hubXlat (s : State) (ctx : Nat) (va : BitVec 64) (k : AccessKind) : Option Xlat :=
  if vaWide va || inWindow va || s.walkPoisoned ctx va.toNat then none
  else match s.walkCtx ctx va.toNat with
    | some (e, level) =>
      let t := xlatOf e level va.toNat
      if t.allows k && s.physOk t.pa then some t else none
    | none => none

/-- The location of a byte that is read by its virtual address: in the window, a byte of a placed team of the grid at hand. -/
def State.hubLoc (s : State) (grid : Option Nat) (ctx : Nat) (va : BitVec 64) : Option Loc :=
  if inWindow va then match grid with
    | some g =>
      let off := va.toNat - windowBase
      if s.windowByteOk g off then some (.scratch off) else none
    | none => none
  else (s.hubXlat ctx va .read).map fun t => .phys t.pa t.txn

/-- The locations of n bytes from an address, or the first address that cannot be read. -/
def State.hubLocs (s : State) (grid : Option Nat) (ctx : Nat) : Nat → BitVec 64 → Except (BitVec 64) (List Loc)
  | 0, _ => .ok []
  | n + 1, va => match s.hubLoc grid ctx va with
    | none => .error va
    | some l => match State.hubLocs s grid ctx n (va + 1) with
      | .ok r => .ok (l :: r)
      | .error a => .error a

/-- The bytes at a list of locations. -/
def State.locBytes (s : State) (view : List (Nat × Nat)) (l : List Loc) : List Byte := l.flatMap fun x => s.readLoc view x 1

/-- n bytes from an address through a view; none where one cannot be read. -/
def State.hubRead (s : State) (view : List (Nat × Nat)) (grid : Option Nat) (ctx n : Nat) (va : BitVec 64) : Option (List Byte) :=
  match s.hubLocs grid ctx n va with
  | .ok l => some (s.locBytes view l)
  | .error _ => none

/-- The hub die or an agent has read n bytes from an address: it touches their lines (R256). -/
def State.hubTouch (s : State) (view : List (Nat × Nat)) (grid : Option Nat) (ctx n : Nat) (va : BitVec 64) : State :=
  if s.committed.isEmpty && s.shadows.isEmpty then s
  else match s.hubLocs grid ctx n va with
    | .ok l => l.foldl (fun s x => match x with
        | .phys pa txn => (s.touchWalk ctx va.toNat).touchBytes (if txn then view else []) pa 1
        | .scratch _ => s) s
    | .error _ => s

/-- Writes bytes directly at virtual addresses in one event, all of them or, where one cannot be written, none (R253, R271). -/
def State.hubWrite (s : State) (ctx : Nat) (va : BitVec 64) (bs : List Byte) : State :=
  let pas := (List.range bs.length).map fun k => s.hubXlat ctx (va + BitVec.ofNat 64 k) .write
  let s := (List.range bs.length).foldl (fun s k => s.touchWalk ctx (va + BitVec.ofNat 64 k).toNat) s
  if pas.all Option.isSome then (pas.zip bs).foldl (fun s x => match x.1 with
      | some t => s.writeDirect t.pa x.2
      | none => s) (s.keep hubRef 0 (pas.filterMap fun x => x.map fun t => (none, Loc.phys t.pa false)))
  else s

-- ## Where the groups of a team fit (R37, R38)

/-- The free slots and registers of a quadrant. -/
structure QuadFree where
  slots : Nat
  regs : Nat
deriving DecidableEq, Repr

/-- The quadrants of an empty core (R37). -/
def emptyQuads : List QuadFree := [⟨8, 256⟩, ⟨8, 256⟩, ⟨8, 256⟩, ⟨7, 256⟩]

/-- The quadrant that takes a group of a register count: a free slot, the registers, and the most free registers, the lowest on a tie. -/
def bestQuad (need : Nat) (l : List QuadFree) : Option Nat :=
  let ok := fun k => match l[k]? with
    | some q => decide (0 < q.slots) && decide (need ≤ q.regs)
    | none => false
  let regs := fun k => (listGetD l k ⟨0, 0⟩).regs
  (List.range l.length).find? fun k => ok k && (List.range l.length).all fun j => !ok j || decide (regs j ≤ regs k)

/-- The quadrants of n groups in order; none where one fits nowhere. -/
def assignQuads (need : Nat) : Nat → List QuadFree → Option (List Nat)
  | 0, _ => some []
  | n + 1, l => match bestQuad need l with
    | none => none
    | some k =>
      (assignQuads need n (listModify l k fun q => ⟨q.slots - 1, q.regs - need⟩)).map fun r => k :: r

/-- The lanes of a group, and the groups of a team (R31, R40). -/
def Image.groupLanes (im : Image) : Nat := if im.legacy then 32 else 64
def Image.groups (im : Image) : Nat := ceilDiv im.lanes im.groupLanes

/-- The tiles that a team reserves. -/
def Image.tiles (im : Image) : Nat := im.acc / 16384

-- ## The sections of an image (R119 to R121)

/-- Cuts a list of bytes into records of n bytes, as numbers. -/
def records (n : Nat) (l : List Byte) : List Nat := (List.range (l.length / n)).map fun k => bytesField l (n * k) n

/-- The E-point of a record (R120). -/
def readEPoint (x : Nat) : EPoint :=
  { id := natBits x 11 0, vok := x.testBit 16, sentry := x.testBit 17, snode := x.testBit 18, exit := x.testBit 19,
    cfg := natBits x 21 20, tpos := natBits x 63 32, vpos := natBits x 95 64, first := natBits x 115 96, count := natBits x 127 116 }

/-- The map record of 16 bytes (R121). -/
def readMapRec (x : Nat) : MapRec :=
  { id := natBits x 11 0, kind := natBits x 15 12, tloc := natBits x 23 16, vloc := natBits x 31 24, per := natBits x 33 32,
    place := natBits x 34 34, col := natBits x 43 40, row := natBits x 46 44, lreg := natBits x 50 48, sw := natBits x 95 64,
    stride := natBits x 111 96 }

/-- The configuration of a section; none where its header is refused (R119). -/
def readConfig (l : List Byte) : Option ConfigImg :=
  let h := bytesField l 0 16
  let c : ConfigImg := { id := natBits h 1 0, w := natBits h 7 4 + 1, h := natBits h 10 8 + 1, depth := natBits h 21 16,
                         col := natBits h 27 24, row := natBits h 30 28,
                         packets := (records 16 (l.drop 16)).map fun x => BitVec.ofNat 128 x }
  if natBits h 3 2 != 0 || h.testBit 11 || natBits h 15 12 != 0 || natBits h 23 22 != 0 || natBits h 127 31 != 0
      || decide (c.depth < 4) || decide (32 < c.depth) || decide (16 < c.col + c.w) || decide (8 < c.row + c.h) || l.length < 16 then none
  else some c

-- ## What the loader refuses (R36, R56, R104, R119, R122, R310)

/-- The plane spill area (R104): the largest (n - 4) x P of the entry configurations. -/
def Image.planeSpill (im : Image) : Nat :=
  (im.configs.filter fun c => im.epoints.any fun p => p.sentry && p.cfg == c.id).foldl (fun n c =>
    let edges := (if c.col = 0 then c.h else 0) + (if c.col + c.w = 16 then c.h else 0)
      + (if c.col + c.w = 16 ∧ c.row + c.h = 8 then 1 else 0)
    max n ((c.depth - 4) * (512 * (c.w * c.h + edges + 1)))) 0

/-- The bytes above which the map area and the mapped words may not reach. -/
def Image.mapLimit (im : Image) : Nat :=
  if im.configs.isEmpty then im.scratch else im.scratch - (65536 + im.planeSpill)

/-- The register that a map record names exists for T code (R24, R56, R122): a v-register below the window width, an s-register up to s63, an
even pair of either, a predicate. -/
def Image.mapRegOk (im : Image) (m : MapRec) : Bool :=
  match m.kind with
  | 0 => decide (m.tloc < im.window)
  | 1 => m.tloc % 2 == 0 && decide (m.tloc + 1 < im.window)
  | 2 => decide (m.tloc < 64)
  | 3 => m.tloc % 2 == 0 && decide (m.tloc + 1 < 64)
  | _ => decide (m.tloc < 128)

/-- The register of a map record is live at its E-point, or the T code there can read it (R24, R122). T code without the E-point reads nothing there. -/
def Image.mapRead (im : Image) (t : List Nat) (m : MapRec) : Bool :=
  (im.epoints.filter fun p => p.id == m.id).any fun p => codeReads im.window t (p.tpos / 8) m.kind m.tloc

/-- A map record is accepted. -/
def Image.mapOk (im : Image) (m : MapRec) : Bool :=
  let size := if m.kind = 1 || m.kind = 3 then 8 else 4
  let copies := if m.per = 0 then 1 else if m.per = 1 then im.groups else im.lanes
  decide (m.kind ≤ 4) && im.mapRegOk m && m.per != 3 && m.vloc == m.tloc && (m.place = 0 || m.per = 0)
    && (m.place = 1 || (decide (im.mapOff ≤ m.sw) && decide (m.sw + m.stride * (copies - 1) + size ≤ im.mapOff + im.mapSize)))

/-- The E-point has a T position: a clause start within T code (R120, R122). -/
def Image.tPosOk (im : Image) (p : EPoint) : Bool := p.tpos % 8 == 0 && decide (p.tpos + 8 ≤ im.tLen)

/-- Every instruction word of V code from a byte offset on has an entry in the correspondence table: any may carry a breakpoint (R122, R135,
R465). left: the words of the clause at hand that are still to come; a header has no entry. -/
def vWordsOk (corr : List (Nat × Nat)) : Nat → Nat → List Nat → Bool
  | _, _, [] => true
  | off, 0, w :: r => vWordsOk corr (off + 8) (if natBits w 63 56 = 0xF0 then natBits w 35 32 else 0) r
  | off, left + 1, _ :: r => (Table.find corr off).isSome && vWordsOk corr (off + 8) left r

/-- The image is accepted. -/
def Image.ok (im : Image) : Bool :=
  decide (1 ≤ im.profile) && decide (im.profile ≤ 4)
    && decide (1 ≤ im.lanes) && decide (im.lanes ≤ if im.legacy then 512 else 1024)
    && im.regs % 8 == 0 && decide (8 ≤ im.regs) && decide (im.regs ≤ 256) && decide (im.window ≤ im.regs)
    && im.scratch % 4096 == 0 && decide (im.scratch ≤ 262144) && im.acc % 16384 == 0 && decide (im.acc ≤ 262144)
    && (assignQuads im.regs im.groups emptyQuads).isSome
    && (im.configs.isEmpty || decide (65536 + im.planeSpill ≤ im.scratch))
    && (im.mapSize == 0 || decide (im.mapOff + im.mapSize ≤ im.mapLimit))
    && im.maps.all im.mapOk
    && im.epoints.all (fun p => !(p.vok || p.sentry || p.snode) || im.tPosOk p)
    && im.epoints.all fun p => decide (((im.maps.filter fun m => m.id == p.id && m.place == 1).map
        fun m => if m.kind = 1 || m.kind = 3 then 2 else 1).sum ≤ 16)

/-- The image at an address, as a view reads it; none where there is no image or the loader refuses it. -/
def State.readImage (s : State) (view : List (Nat × Nat)) (grid : Option Nat) (ctx : Nat) (addr : BitVec 64) : Option Image :=
  let rd := fun off n => s.hubRead view grid ctx n (addr + BitVec.ofNat 64 off)
  match rd 0 64 with
  | none => none
  | some h =>
    let f := fun off n => bytesField h off n
    let n := f 0x20 4
    if f 0 4 != 0x31564444 || 1 < f 6 2 || f 0x0E 2 != 0 || f 0x24 28 != 0 then none
    else match rd 64 (16 * n) with
      | none => none
      | some d =>
        let dir := (List.range n).map fun k => (bytesField d (16 * k) 4, bytesField d (16 * k + 4) 4, bytesField d (16 * k + 8) 4,
          bytesField d (16 * k + 12) 4)
        let sec := fun kind => (dir.find? fun x => x.1 == kind).map fun x => (x.2.2.1, x.2.2.2)
        let body := fun kind => match sec kind with
          | some (off, len) => rd off len
          | none => some []
        let cfgs := (dir.filter fun x => x.1 == 3).map fun x => (rd x.2.2.1 x.2.2.2).bind readConfig
        match sec 1, body 1, body 2, body 4, body 5, body 6, body 7 with
        | some (tOff, tLen), some tc, some vc, some ep, some mp, some co, some sp =>
          let (vOff, vLen) := (sec 2).getD (0, 0)
          if dir.any (fun x => x.1 = 0 || 8 < x.1 || x.2.1 != 0) || cfgs.any Option.isNone then none
          else
            let im : Image :=
              { addr := addr, profile := f 4 2, legacy := (f 6 2).testBit 0 || f 4 2 = 1 || f 4 2 = 2, lanes := f 8 2, regs := f 0x0A 2, window := f 0x0C 2,
                scratch := f 0x10 4, acc := f 0x14 4, mapOff := f 0x18 4, mapSize := f 0x1C 4,
                tBase := addr + BitVec.ofNat 64 tOff, tLen := tLen, vBase := addr + BitVec.ofNat 64 vOff, vLen := vLen,
                configs := cfgs.filterMap id, epoints := (records 16 ep).map readEPoint, maps := (records 16 mp).map readMapRec,
                corr := (records 8 co).map fun x => (natBits x 31 0, natBits x 63 32),
                spans := (records 16 sp).map fun x => (natBits x 15 0, natBits x 63 32, natBits x 95 64) }
            if im.ok && vWordsOk im.corr 0 0 (records 8 vc) && im.maps.all (im.mapRead (records 8 tc)) then some im else none
        | _, _, _, _, _, _, _ => none

/-- The loader has read the image at an address: it touches the lines of its header, directory and sections (R256). -/
def State.touchImage (s : State) (view : List (Nat × Nat)) (grid : Option Nat) (ctx : Nat) (addr : BitVec 64) : State :=
  match s.hubRead view grid ctx 64 addr with
  | none => s
  | some h =>
    let n := bytesField h 0x20 4
    let s := s.hubTouch view grid ctx (64 + 16 * n) addr
    match s.hubRead view grid ctx (16 * n) (addr + 64) with
    | none => s
    | some d => (List.range n).foldl (fun s k =>
        s.hubTouch view grid ctx (bytesField d (16 * k + 12) 4) (addr + BitVec.ofNat 64 (bytesField d (16 * k + 8) 4))) s

end Sys2Proof.Machine
end

