-- ==== Sys2Proof/Machine/Callisto.lean ====
section
/-! DEFINITION. Callisto, the form selector (R123 to R135, R150): its samples, its decision at an E-point, and the moves of groups and
teams between forms. Forms are numbered as in `hop`: 0 T, 1 V, 2 S. -/

namespace Sys2Proof.Machine

-- ## CSC (R130)

def Context.cscEn (c : Context) : Bool := c.csc.getLsbD 31
def Context.cscPin (c : Context) : Nat := (c.csc.extractLsb' 29 2).toNat
def Context.cscHint (c : Context) : Bool := c.csc.getLsbD 28
def Context.cscHyst (c : Context) : Nat := max 1 (c.csc.extractLsb' 24 4).toNat
def Context.cscProbe (c : Context) : Nat := (c.csc.extractLsb' 20 4).toNat
def Context.cscStall (c : Context) : Nat := (c.csc.extractLsb' 12 8).toNat

/-- What an agent's write of CSC leaves: the reserved bits read 0. -/
def cscMask : BitVec 32 := 0xFFFFF800

-- ## Samples (R129)

/-- The rate kept for a form. -/
def Perf.kept (p : Perf) (form : Nat) : Option (Nat × Nat) :=
  match form with
  | 0 => p.keptT
  | 1 => p.keptV
  | _ => p.keptS

/-- A form's kept rate exceeds a rate by 1/8 or more. -/
def Perf.leads (p : Perf) (rate form : Nat) : Bool :=
  match p.kept form with
  | some (_, r) => decide (rate < r) && decide (9 * rate ≤ 8 * r)
  | none => false

/-- For how many samples in a row a form has led. -/
def Perf.lead (p : Perf) (form : Nat) : Nat :=
  match form with
  | 0 => p.leadT
  | 1 => p.leadV
  | _ => p.leadS

/-- The record after a sample in a form, whose measures are a rate and a stall fraction in 256ths. -/
def Perf.sampled (p : Perf) (form rate stall : Nat) : Perf :=
  let n := p.samples + 1
  let p := { p with samples := n, rate := rate, stallFrac := stall, issueUse := p.issued, fireRate := p.fired, passes := 0, stall := 0, issued := 0,
                    fired := 0, coolS := p.coolS - 1,
                    probeEnded := p.probeFrom.isSome,
                    keptT := if form = 0 then some (n, rate) else p.keptT,
                    keptV := if form = 1 then some (n, rate) else p.keptV,
                    keptS := if form = 2 then some (n, rate) else p.keptS }
  let next := fun f => if f != form && p.leads rate f then p.lead f + 1 else 0
  { p with leadT := next 0, leadV := next 1, leadS := next 2 }

/-- The form of a group. -/
def Group.form (g : Group) : Nat := if g.vform then 1 else 0

/-- A group has not retired. -/
def Group.lives (g : Group) : Bool := g.state != .retired

/-- The mean of a list, cut to a whole number (DESIGN CHOICE, log 93); 0 of none. -/
def mean (l : List Nat) : Nat := l.foldl (· + ·) 0 / max 1 l.length

/-- The record of a group whose team is in S form: its samples are numbered on, and it measures nothing. -/
def Perf.skipped (p : Perf) : Perf :=
  { p.unprobed with samples := p.samples + 1, passes := 0, stall := 0, issued := 0, leadT := 0, leadV := 0, leadS := 0 }

/-- A team after a sample. Where its groups stand in both T and V form, the team's measure is kept under that of its first group that has not retired
(DESIGN CHOICE, log 93). A probe of S form begins with the entry: no sample that ends before is one. -/
def Team.sampled (t : Team) : Team :=
  let frac := fun n : Nat => min 256 (n / 16)
  if t.region.isSome then
    { t with perf := t.perf.sampled 2 t.perf.passes (frac t.perf.stall),
             groups := t.groups.map fun g => if g.lives then { g with perf := g.perf.skipped } else g }
  else
    let gs : List Group := t.groups.map fun g =>
      if g.lives then { g with perf := g.perf.sampled g.form g.perf.passes (frac g.perf.stall) } else g
    let live := gs.filter Group.lives
    let form := match live with
      | g :: _ => g.form
      | [] => 0
    let perf := { t.perf with issued := (live.map fun (g : Group) => g.perf.issueUse).sum }
    let perf := perf.sampled form (mean (live.map fun (g : Group) => g.perf.rate)) (mean (live.map fun (g : Group) => g.perf.stallFrac))
    { t with groups := gs, perf := { perf with probeEnded := perf.probeEnded && t.armed.isNone } }

/-- callisto sample: every 4,096 cycles Callisto records the measures of a core's groups and teams (R129). -/
def execCallistoSample (core : Nat) (s : State) : Result :=
  due <|
    if decide (4096 ≤ (s.cycle - (s.core core).sampledAt).toNat) then
      let s := { s with teams := s.teams.map fun (e : Nat × Team) => if e.2.core = core && e.2.phase == TeamPhase.placed then (e.1, e.2.sampled) else e }
      some (s.modCore core fun c => { c with sampledAt := c.sampledAt + 4096 })
    else none

-- ## The decision (R129, R132, R150)

/-- What Callisto looks at: the forms present at the E-point, the current form, the pending hop target, and the measures of the group
(or of the team in S form) and of the team. -/
structure Choice where
  present : List Nat
  form : Nat
  pending : Option Nat
  own : Perf
  team : Perf
deriving DecidableEq, Repr

/-- A form is present. -/
def Choice.has (c : Choice) (f : Nat) : Bool := c.present.contains f

/-- The measures that rank a form: S is measured by team. -/
def Choice.perfOf (c : Choice) (f : Nat) : Perf := if f = 2 then c.team else c.own

/-- A present form without a rate from the last 2^PROBE samples, S first under a high stall. -/
def Choice.probe (c : Choice) (ctx : Context) : Option Nat :=
  let n := 2 ^ ctx.cscProbe
  let stale := fun f => c.has f && f != c.form && (match (c.perfOf f).kept f with
    | some (k, _) => decide (n ≤ (c.perfOf f).samples - k)
    | none => true)
  if ctx.cscProbe = 0 || c.own.samples = 0 || c.own.samples % n != 0 then none
  else if decide (ctx.cscStall ≤ c.own.stallFrac) && stale 2 then some 2
  else (List.range 3).find? stale

/-- The sample that has just ended was a probe: the form before it. A probe of T or V form from S form is the team's. -/
def Choice.probed (c : Choice) : Option Nat :=
  if c.own.probeEnded then c.own.probeFrom else if c.team.probeEnded then c.team.probeFrom else none

/-- The target of R129, and whether it starts a probe. -/
def Choice.target (c : Choice) (ctx : Context) : Nat × Bool :=
  let orT := fun f => if c.has f then f else 0
  if !ctx.cscEn then (0, false)
  else if ctx.cscPin != 0 then (orT (ctx.cscPin - 1), false)
  else
    match (if ctx.cscHint then c.pending else none) with
    | some 0 => (0, false)
    | some 1 => (orT 1, false)
    | some 2 => (orT 2, false)
    | _ =>
      match c.probed with
      | some f =>
        let base := match (c.perfOf f).kept f with
          | some (_, r) => r
          | none => 0
        (orT (if decide (base < c.own.rate) then c.form else f), false)
      | none => match (List.range 3).find? fun f => f != c.form && c.has f && decide (ctx.cscHyst ≤ (c.perfOf f).lead f) with
        | some f => (f, false)
        | none => match c.probe ctx with
          | some f => (f, true)
          | none => (orT c.form, false)

/-- The record after a decision. -/
def Perf.afterDecision (p : Perf) (form : Nat) (probing : Bool) : Perf :=
  if probing then { p with probeFrom := some form, probeEnded := false }
  else if p.probeEnded then { p with probeFrom := none, probeEnded := false }
  else p

-- ## Regions of a core (R54, R83, R103)

/-- Two rectangles of PEs share a PE. -/
def rectsMeet (c1 r1 w1 h1 c2 r2 w2 h2 : Nat) : Bool :=
  decide (c1 < c2 + w2) && decide (c2 < c1 + w1) && decide (r1 < r2 + h2) && decide (r2 < r1 + h1)

/-- The regions of a core's placed teams. -/
def State.regionsOf (s : State) (core : Nat) : List Region :=
  s.teams.filterMap fun e => if e.2.core = core && e.2.phase == .placed then e.2.region else none

/-- A rectangle of a core's fabric is free, and so is one of its four regions. -/
def State.rectFree (s : State) (core col row w h : Nat) : Bool :=
  let l := s.regionsOf core
  decide (l.length < 4) && l.all fun r => !rectsMeet r.col r.row r.w r.h col row w h

/-- The lowest region number that no region of a core has. -/
def State.freeRegion (s : State) (core : Nat) : Nat :=
  let l := (s.regionsOf core).map fun r => r.rid
  ((List.range 4).find? fun k => !l.contains k).getD 0

/-- The configuration of an image with an id. -/
def Image.config (im : Image) (id : Nat) : Option ConfigImg := im.configs.find? fun c => c.id == id

/-- An armed breakpoint of a context lies in the span ranges of an E-point (R135). -/
def State.bpInSpan (s : State) (ctx : Nat) (im : Image) (id : Nat) : Bool :=
  let c := s.context ctx
  im.spans.any fun r => r.1 == id && (List.range 4).any fun n =>
    listGetD c.bpEn n false &&
      (let off := (BitVec.ofNat 64 ((listGetD c.bpAddr n 0).toNat * 8) - im.tBase).toNat
       decide (r.2.1 ≤ off) && decide (off < r.2.2))

/-- The forms that an E-point offers a group or team in T or V form (R126, R127, R129, R150). -/
def EPoint.forms (p : EPoint) (coolS : Nat) : List Nat :=
  [0] ++ (if p.vok then [1] else []) ++ (if p.sentry && coolS = 0 then [2] else [])

/-- The team can take the region of an E-point's configuration now (R54, R135). -/
def State.regionFits (s : State) (t : Team) (g : Grid) (p : EPoint) : Bool :=
  match g.image.config p.cfg with
  | some c => s.rectFree t.core c.col c.row c.w c.h && !s.bpInSpan g.ctx g.image p.id
  | none => false

-- ## At a header (R123, R126, R127)

/-- The E-point on whose header the active path stands. -/
def Env.epoint (e : Env) : Option EPoint :=
  if !e.path.words.isEmpty then none
  else match e.grid with
    | none => none
    | some g =>
      let im := g.image
      if e.grp.vform then im.epoints.find? fun p => p.vok && e.path.pc == im.vBase + BitVec.ofNat 64 p.vpos
      else im.epoints.find? fun p => e.path.pc == im.tBase + BitVec.ofNat 64 p.tpos

/-- The group can park for a hop to S form: one path, no flag above 0, no call outstanding (R127). -/
def Group.canPark (g : Group) : Bool := !g.severalPaths && g.serl.isNone && g.flagsZero && g.rets.isEmpty

/-- The group in another form at an E-point: only the PC and the form bit change (R126). -/
def Group.moveTo (g : Group) (im : Image) (p : EPoint) (form : Nat) : Group :=
  let pc := if form = 1 then im.vBase + BitVec.ofNat 64 p.vpos else im.tBase + BitVec.ofNat 64 p.tpos
  { g with vform := form == 1, loop := none, paths := g.paths.map fun q => { q with pc := pc, bpDone := true } }

/-- Adds 1 to a team's count of hops (R131). -/
def State.countHop (s : State) (tk : Nat) : State := s.modTeam tk fun t => { t with chc := t.chc + 1 }

/-- Marks the path at hand as decided for this arrival. -/
def Env.decided (e : Env) (g : Group) : Group := g.setPath e.sel { e.path with decided := true }

/-- Callisto's decision for a group at an E-point while no hop is armed: the state after it, and whether the header issues now. S without its
rectangle keeps the form, and T where CSC pins S (R54); a probe of S is the team's (R129). -/
def Env.selectForm (e : Env) (s : State) (r : GroupRef) (t : Team) (gr : Grid) (p : EPoint) : State × Bool :=
  let ctx := s.context gr.ctx
  let c : Choice := { present := p.forms t.perf.coolS, form := e.grp.form,
                      pending := if t.hopS then some 2 else e.grp.hopTarget, own := e.grp.perf, team := t.perf }
  let (f, probing) := c.target ctx
  let fits := e.grp.canPark && s.regionFits t gr p
  let f := if f = 2 && !fits then (if ctx.cscEn && ctx.cscPin = 3 then 0 else c.form) else f
  let moves := f != c.form && e.grp.flagsZero
  let perf := e.grp.perf.afterDecision c.form (probing && moves && f != 2)
  let g := { e.decided e.grp with hopTarget := none, perf := perf }
  let s := s.modTeam r.team fun t => { t with hopS := false, perf := t.perf.afterDecision c.form false }
  if f = 2 then
    let s := s.modTeam r.team fun t =>
      { t with armed := some (p.id, s.cycle.toNat), hopLate := false, perf := if probing then t.perf.afterDecision c.form true else t.perf }
    (e.setGroup { g with state := .parkedHop } s, false)
  else if moves then ((e.setGroup (g.moveTo gr.image p f) s).countHop r.team, false)
  else (e.setGroup g s, true)

/-- What happens before the header of the active path issues: at an E-point Callisto decides, a group parks for an armed hop, or its
arrival cancels the hop (R127, R129); a target of its own or of the team's that is pending then lapses (R132). One that cancels the hop gets no decision
there (DESIGN CHOICE, log 93). The Bool says that the header issues now. -/
def Env.atHeader (e : Env) (s : State) : State × Bool :=
  match e.ref, e.team, e.grid, e.epoint with
  | some r, some t, some gr, some p =>
    if e.path.decided || gr.image.legacy then (s, true)
    else match t.armed with
      | some (id, _) =>
        let s := s.modTeam r.team fun t => { t with hopS := false }
        let g := { e.decided e.grp with hopTarget := none }
        if !e.grp.canPark then ((e.setGroup g s).cancelHop r.team, true)
        else if p.id == id then (e.setGroup { g with state := .parkedHop } s, false)
        else (e.setGroup g s, true)
      | none =>
        if e.grp.severalPaths || e.grp.serl.isSome then (s, true)
        else e.selectForm s r t gr p
  | _, _, _, _ => (s, true)

/-- hop timeout: an armed hop whose groups have not all parked within 4,096 cycles is cancelled (R127). -/
def execHopTimeout (team : Nat) (s : State) : Result :=
  due <|
    match Table.find s.teams team with
    | some t => match t.armed with
      | some (_, since) =>
        if t.hopLate || decide (4096 ≤ (s.cycle - BitVec.ofNat 64 since).toNat) && t.groups.any (fun g => g.lives && g.state != .parkedHop)
        then some (s.cancelHop team) else none
      | none => none
    | none => none

-- ## Live values between T and S locations (R121, R127, R128, R464)

/-- A map record's kind is a pair. -/
def MapRec.pair (m : MapRec) : Bool := m.kind == 1 || m.kind == 3

/-- The value that a group's lane holds at the T location of a map record. -/
def Group.mapped (g : Group) (ring : Nat) (m : MapRec) (lane : Nat) : BitVec 64 :=
  match m.kind with
  | 0 => (g.readV ring m.tloc lane).setWidth 64
  | 1 => g.readVPair ring m.tloc lane
  | 2 => (g.readS m.tloc).setWidth 64
  | 3 => g.readSPair m.tloc
  | _ => boolWord ((g.readP m.tloc).getLsbD lane)

/-- Gives a lane of a group the value of a map record. -/
def Group.giveMapped (g : Group) (ring : Nat) (m : MapRec) (x : BitVec 64) (lane : Nat) : Group :=
  match m.kind with
  | 0 => g.writeV ring m.tloc lane (loWord x)
  | 1 => g.writeVPair ring m.tloc lane x
  | 2 => g.writeS m.tloc (loWord x)
  | 3 => g.writeSPair m.tloc x
  | _ => g.writeP m.tloc (laneBit lane) (if x == 0 then 0 else laneBit lane)

/-- The copies of a map record: the scratchpad offset of each, with the groups and lanes it serves; the group and the lane that it is
taken from come first. -/
def MapRec.copies (m : MapRec) (groups : List Group) : List (Nat × List (Nat × Nat)) :=
  let lanesOfGroup := fun g : Group => (lanesOf g.present).map fun l => (g.num, l)
  match m.per with
  | 0 => [(m.sw, groups.flatMap lanesOfGroup)]
  | 1 => groups.map fun g => (m.sw + m.stride * g.num, lanesOfGroup g)
  | _ => groups.flatMap fun g => (lanesOf g.present).map fun l => (m.sw + m.stride * (64 * g.num + l), [(g.num, l)])

/-- The map records of an E-point: those that carry its id (R121), which stand where its table entry's first and count say (R120). Where the two
differ, the id decides (DESIGN CHOICE, log 93). -/
def Image.mapsOf (im : Image) (id : Nat) : List MapRec := im.maps.filter fun m => m.id == id

/-- The key of a PE local in a region's latch. -/
def localKey (col row reg : Nat) : Nat := (col * 8 + row) * 8 + reg % 8

/-- The first of the groups and lanes of a copy: the group that R464 takes the value from, and its lane 0. -/
def takenFrom (l : List (Nat × Nat)) : Nat × Nat := l.headD (0, 0)

/-- A group of a team by its number. -/
def Team.group (t : Team) (n : Nat) : Option Group := t.groups.find? fun g => g.num == n

/-- The value of a copy at the T location. -/
def Team.takeMapped (t : Team) (ring : Nat) (m : MapRec) (l : List (Nat × Nat)) : BitVec 64 :=
  let (n, lane) := takenFrom l
  match t.group n with
  | some g => g.mapped ring m lane
  | none => 0

/-- The bytes of a live value of a record. -/
def MapRec.bytes (m : MapRec) (x : BitVec 64) : List Byte := leBytes (if m.pair then 8 else 4) x.toNat

/-- Copies the live values of an E-point to their S locations: scratchpad words, and PE locals into the latch (R127). -/
def State.copyToS (s : State) (t : Team) (im : Image) (id : Nat) : State × List (Nat × Word) :=
  let base := (s.teamRange t).1
  (im.mapsOf id).foldl (fun (acc : State × List (Nat × Word)) m =>
    if m.place = 0 then
      ((m.copies (if m.per = 0 then t.groups else t.groups.filter Group.lives)).foldl (fun (s : State) (c : Nat × List (Nat × Nat)) =>
        s.writeScratch (base + c.1) (m.bytes (t.takeMapped im.regs m c.2))) acc.1, acc.2)
    else
      let x := t.takeMapped im.regs m [(0, 0)]
      let l := (localKey m.col m.row m.lreg, loWord x) :: acc.2
      (acc.1, if m.pair then (localKey m.col m.row (m.lreg + 1), hiWord x) :: l else l)) (s, [])

/-- The value of a copy at its S location, PE locals from a latch. -/
def State.takeS (s : State) (base : Nat) (latch : List (Nat × Word)) (m : MapRec) (off : Nat) : BitVec 64 :=
  if m.place = 0 then BitVec.ofNat 64 (ofLeBytes (s.scratchBytes (base + off) (if m.pair then 8 else 4)))
  else
    let at_ := fun k => (latch.find? fun e => e.1 == localKey m.col m.row k).elim 0 fun e => e.2
    pairOf (at_ m.lreg) (if m.pair then at_ (m.lreg + 1) else 0)

/-- The highest 64 KiB of a team's scratchpad, which hold the span buffer (R124), with the plane spill area below where it is in use (R104): start
and length. -/
def State.spanArea (s : State) (t : Team) (spill : Bool) : Nat × Nat :=
  let (base, len) := s.teamRange t
  let n := 65536 + (if spill then match Table.find s.grids t.grid with
    | some g => g.image.planeSpill
    | none => 0
    else 0)
  (base + (len - n), min n len)

/-- The hardware has used the place of the span buffer, whose layout the spec does not give: its bytes are free (log 82). -/
def State.blurSpan (s : State) (t : Team) (spill : Bool) : State := s.blur true (s.spanArea t spill).1 (s.spanArea t spill).2

/-- A group as R128 resumes it, before its live values: one path over its present lanes at tpos, everything else at 0. -/
def Group.backToT (g : Group) (pc : BitVec 64) (decided : Bool) : Group :=
  { g with state := .ready, v := [], s := [], p := [], flags := [], base := 0, frames := [], rets := [], spilledPaths := [],
           serl := none, vform := false, loop := none, paths := [{ PathEntry.at pc g.present with decided := decided }] }

/-- A team leaves S form at an E-point (R128, R133): the region is freed, and every group that has not retired resumes in T form with
the live values of the E-point. -/
def State.resumeT (s : State) (tk : Nat) (id : Nat) (latch : List (Nat × Word)) (decided : Bool) : State :=
  match Table.find s.teams tk with
  | none => s
  | some t => match Table.find s.grids t.grid with
    | none => s
    | some gr =>
      let im := gr.image
      let base := (s.teamRange t).1
      let pc := match im.epoints.find? fun p => p.id == id with
        | some p => im.tBase + BitVec.ofNat 64 p.tpos
        | none => im.tBase
      let know := t.know.told { team := tk, grp := t.groups.length } 1
      let fresh := t.groups.map fun g => if g.lives then { g.backToT pc decided with know := know } else g
      let live := fresh.filter Group.lives
      let gs := (im.mapsOf id).foldl (fun gs m =>
        (if m.place = 0 then m.copies live
         else [(0, live.flatMap fun g => (lanesOf g.present).map fun l => (g.num, l))]).foldl
          (fun (gs : List Group) (c : Nat × List (Nat × Nat)) =>
            let x := s.takeS base latch m c.1
            gs.map fun g => if !g.lives then g
              else (c.2.filter fun e => e.1 == g.num).foldl (fun g e => g.giveMapped im.regs m x e.2) g) gs) fresh
      (s.modTeam tk fun t => { t with groups := gs, region := none, chc := t.chc + 1 }).blurSpan t false

/-- What a region knows that its team's groups give their work to: what they do, with their own stores (R94). -/
def Team.regionKnow (t : Team) (tk : Nat) : Know :=
  (t.groups.zipIdx.map fun x => x.1.know.told { team := tk, grp := x.2 } x.1.seq).foldl Know.join t.know

/-- s entry: every unretired group has parked; the team copies its live values and its span begins once its region is configured
(R127). The copies wait for pending register writes, and the span for the groups' stores. A hop that is late or that a save finds is none. -/
def execSEntry (team : Nat) (s : State) : Result :=
  due <|
    match Table.find s.teams team with
    | none => none
    | some t => match t.armed, Table.find s.grids t.grid with
      | some (id, _), some gr =>
        match gr.image.epoints.find? fun p => p.id == id with
        | none => none
        | some p => match gr.image.config p.cfg with
          | none => none
          | some c =>
            let live := t.groups.filter Group.lives
            if !(t.phase == .placed && !t.hopLate && !s.saving gr.ctx && !live.isEmpty && live.all fun g => g.state == .parkedHop && g.loads.isEmpty && g.stores.isEmpty)
            then none
            else if !s.regionFits t gr p then some (s.cancelHop team)
            else
              let (s, latch) := (s.blurSpan t false).copyToS t gr.image id
              let r : Region :=
                { rid := s.freeRegion t.core, col := c.col, row := c.row, w := c.w, h := c.h, depth := c.depth, ep := id, live := false,
                  active := { cfg := c.id, load := 1, cells := [], ports := [], convs := [], chains := [], gate := 0, caller := none,
                              pendingNext := none },
                  shadows := [], spilled := [], oldPlanes := [], span := [], epoch := 0, loads := 1, released := 0, releasedBy := [],
                  xlat := List.replicate 16 none, xlatNext := 0, stamps := 0, fault := none, atnDone := false, closing := none,
                  frozen := none, starve := [], mustLeave := false, latched := latch, fired := false }
              some (s.modTeam team fun t =>
                { t with region := some r, know := t.regionKnow team, armed := none, hopS := false, chc := t.chc + 1, perf := { t.perf with passes := t.perf.passes + 1 } })
      | _, _ => none

end Sys2Proof.Machine
end

