-- ==== Sys2Proof/Machine/Fabric.lean ====
section
/-! DEFINITION. The configuration of a region (R78, R84, R85, R93, R103, R466): reading the row streams, every check that raises CONFIG,
and the plane that a configuration image gives. -/

namespace Sys2Proof.Machine

-- ## Row streams (R84, R466)

/-- A PE's section as its packets give it. -/
structure Section where
  slots : Table (BitVec 96)
  locals : Table (BitVec 32)
  b : BitVec 8
  routes : Table (BitVec 16)
deriving DecidableEq, Repr

def Section.none : Section := { slots := [], locals := [], b := 0, routes := [] }

/-- A row's stream as far as it has been read: the west parts, the finished sections, the open one, the east parts and the gate mask of
its region-end packet. -/
structure RowCfg where
  west : Table (BitVec 96)
  done : List Section
  cur : Option Section
  east : Table (BitVec 96)
  gate : Option (BitVec 32)
deriving DecidableEq, Repr

def RowCfg.start : RowCfg := { west := [], done := [], cur := .none, east := [], gate := .none }

/-- One packet of row r of a configuration w columns wide; none raises CONFIG. A later packet of the same place stands (log 87). -/
def RowCfg.packet (r w : Nat) (wEdge eEdge : Bool) (s : RowCfg) (p : BitVec 128) : Option RowCfg :=
  let kind := (p.extractLsb' 124 4).toNat
  let idx := (p.extractLsb' 120 4).toNat
  let part := (p.extractLsb' 116 4).toNat
  let pay := p.extractLsb' 0 96
  let open_ := s.cur.getD Section.none
  let inside := s.gate.isNone && decide (s.done.length < w)
  if p.extractLsb' 96 20 != 0 || (kind != 5 && part != 0) || s.gate.isSome then none
  else match kind with
    | 0 => if inside then some { s with cur := some { open_ with slots := Table.put open_.slots idx pay } } else none
    | 1 =>
      if inside && decide (idx < 8) && pay.extractLsb' 32 64 == 0 then
        some { s with cur := some { open_ with locals := Table.put open_.locals idx (pay.extractLsb' 0 32) } }
      else none
    | 2 =>
      if inside && idx == 0 && pay.extractLsb' 8 88 == 0 then some { s with cur := some { open_ with b := pay.extractLsb' 0 8 } } else none
    | 3 =>
      if inside && pay.extractLsb' 16 80 == 0 then
        some { s with cur := some { open_ with routes := Table.put open_.routes idx (pay.extractLsb' 0 16) } }
      else none
    | 4 => if inside && idx == 0 && pay == 0 then some { s with done := s.done ++ [open_], cur := .none } else none
    | 5 =>
      if s.cur.isSome || idx != r || 4 < part then none
      else if s.done.isEmpty then (if wEdge then some { s with west := Table.put s.west part pay } else none)
      else if s.done.length = w && eEdge then some { s with east := Table.put s.east part pay } else none
    | 6 =>
      if s.cur.isNone && s.done.length = w && idx == 0 && pay.extractLsb' 32 64 == 0 then some { s with gate := some (pay.extractLsb' 0 32) }
      else none
    | _ => none

/-- The packets of the image, split into the rows' streams: each ends with its region-end packet. -/
def splitRows : List (BitVec 128) → List (BitVec 128) → List (List (BitVec 128))
  | [], [] => []
  | [], acc => [acc.reverse]
  | p :: r, acc => if p.extractLsb' 124 4 == 6 then (p :: acc).reverse :: splitRows r [] else splitRows r (p :: acc)

/-- Reads one row's stream; none raises CONFIG. -/
def readRow (r w : Nat) (wEdge eEdge : Bool) (l : List (BitVec 128)) : Option RowCfg :=
  match l.foldl (fun s p => s.bind fun s => s.packet r w wEdge eEdge p) (some RowCfg.start) with
  | some s => if s.gate.isSome then some s else none
  | none => none

/-- Reads every row of a configuration at a region's origin. -/
def readRows (c : ConfigImg) (col : Nat) : Option (List RowCfg) :=
  let rows := splitRows c.packets []
  if rows.length != c.h then none
  else
    let l := rows.zipIdx.map fun x => readRow x.2 c.w (col == 0) (col + c.w == 16) x.1
    if l.all Option.isSome then
      let l := l.filterMap id
      match l with
      | f :: _ => if l.all fun x => x.gate == f.gate then some l else none
      | [] => none
    else none

-- ## Routes (R85)

/-- A route entry of its 16 bits; none for a nonzero zero field. -/
def readRoute (x : BitVec 16) : Option Route :=
  let r : Route := { dlv := x.getLsbD 15, loc := x.getLsbD 14, src := x.extractLsb' 12 2, sslot := x.extractLsb' 10 2,
                     dst := x.extractLsb' 8 2, dslot := x.extractLsb' 6 2 }
  if x.extractLsb' 0 6 == 0 && (!r.loc || r.sslot == 0) && (!r.dlv || r.dslot == 0) then some r else none

/-- Two entries name the same source, or the same destination. -/
def Route.sameSource (a b : Route) : Bool := a.loc == b.loc && a.src == b.src && a.sslot == b.sslot
def Route.sameDest (a b : Route) : Bool := a.dlv == b.dlv && a.dst == b.dst && a.dslot == b.dslot

/-- The place of a neighbour in direction d (n, e, s, w), from a column and row of the region; none beyond its edge. -/
def neighbour (w h col row : Nat) (d : BitVec 2) : Option (Nat × Nat) :=
  match d.toNat with
  | 0 => if row = 0 then none else some (col, row - 1)
  | 1 => if col + 1 < w then some (col + 1, row) else none
  | 2 => if row + 1 < h then some (col, row + 1) else none
  | _ => if col = 0 then none else some (col - 1, row)

/-- The opposite direction. -/
def opposite (d : BitVec 2) : BitVec 2 := d + 2

/-- The port or converter beside a PE in direction d: the edge node that a link leads to or comes from. -/
inductive EdgeNode where
  | port (k : Nat)
  | conv (k : Nat)
deriving DecidableEq, Repr

/-- The edge node beside a PE of a plane, if it is configured. -/
def Plane.edge (p : Plane) (w col row : Nat) (d : BitVec 2) : Option EdgeNode :=
  if d == 3 && col == 0 && (p.port row).isSome then some (.port row)
  else if d == 1 && col + 1 == w && p.convs.any (fun v => v.k == row) then some (.conv row)
  else none

/-- The edge node sends tokens to the fabric, or takes tokens from it. -/
def Plane.edgeSends (p : Plane) (e : EdgeNode) : Bool :=
  match e with
  | .port k => (p.port k).any fun q => !q.out
  | .conv _ => true
def Plane.edgeTakes (p : Plane) (e : EdgeNode) : Bool :=
  match e with
  | .port k => (p.port k).any fun q => q.out || q.indexed
  | .conv _ => true

/-- An entry's far end exists: a link that it forwards onto is taken, and a link that it names is fed (R85). -/
def Plane.routeMet (p : Plane) (w h : Nat) (c : Cell) (r : Route) : Bool :=
  (r.dlv || match neighbour w h c.col c.row r.dst with
    | some (x, y) => (p.cell x y).any fun d => d.routes.any fun q => !q.loc && q.src == opposite r.dst && q.sslot == r.dslot
    | none => (p.edge w c.col c.row r.dst).any p.edgeTakes)
  && (r.loc || match neighbour w h c.col c.row r.src with
    | some (x, y) => (p.cell x y).any fun d => d.routes.any fun q => !q.dlv && q.dst == opposite r.src && q.dslot == r.sslot
    | none => (p.edge w c.col c.row r.src).any p.edgeSends)

/-- No two entries of a list agree. -/
def noneAgree {α : Type} (f : α → α → Bool) : List α → Bool
  | [] => true
  | x :: r => !r.any (f x) && noneAgree f r

/-- The routes of a PE are allowed (R85). -/
def Plane.routesOk (p : Plane) (w h : Nat) (c : Cell) : Bool :=
  noneAgree Route.sameSource c.routes && noneAgree Route.sameDest c.routes && c.routes.all (p.routeMet w h c)

/-- An edge node of a configuration w columns wide has one channel each way; an indexed port takes two (R81, R90, R371). -/
def Plane.edgeRoutesOk (p : Plane) (w : Nat) : Bool :=
  let from_ := fun (c : Cell) (d : BitVec 2) => (c.routes.filter fun r => !r.loc && r.src == d).length
  let into := fun (c : Cell) (d : BitVec 2) => (c.routes.filter fun r => !r.dlv && r.dst == d).length
  (p.ports.all fun q => match p.cell 0 q.k with
    | some c => decide (from_ c 3 ≤ 1) && decide (into c 3 ≤ if q.out then 1 else 2)
    | none => true)
  && (p.convs.all fun v => match p.cell (w - 1) v.k with
    | some c => decide (from_ c 1 ≤ 1) && decide (into c 1 ≤ 1)
    | none => true)

-- ## Edge nodes (R86, R371)

/-- A port of its parts; its base comes from scratchpad when the region is configured. Without part 0 it is read as zero, and parts beyond the named
dimensions are not read (DESIGN CHOICE, log 101). -/
def readPort (k : Nat) (parts : Table (BitVec 96)) : Option Port :=
  let part := fun n => Table.getD parts n 0
  let h := part 0
  let n := (h.extractLsb' 74 2).toNat + 1
  let dims := (List.range n).map fun i =>
    (((part (i + 1)).extractLsb' 64 32).toNat, ((part (i + 1)).extractLsb' 32 32).toInt)
  let wcode := (h.extractLsb' 78 2).toNat
  if wcode = 3 || h.extractLsb' 0 74 != 0 || dims.any (fun d => d.1 == 0)
      || (List.range n).any (fun i => (part (i + 1)).extractLsb' 0 32 != 0) then none
  else some { k := k, indexed := false, inq := [], baseLoc := (h.extractLsb' 80 16).toNat * 8, base := 0, width := 2 ^ wcode,
              out := h.getLsbD 77, mark := h.getLsbD 76, dims := dims, pos := 0, landing := [], queue := [], endSent := false, faulted := false, xlat := none }

/-- A converter node of its parts. -/
def readConv (k : Nat) (parts : Table (BitVec 96)) : Option Conv :=
  if parts.any (fun e => e.1 != 0) then none
  else match decodeConverter (Table.getD parts 0 0) with
    | .ok w => some { k := k, word := w, newWord := none, inq := [], outq := [], part := [] }
    | .error _ => none

-- ## Cells and nodes

/-- A PE with nothing in it. -/
def Cell.empty (col row : Nat) : Cell :=
  { col := col, row := row, slots := List.replicate 16 none, b := 0, l := [], made := [], lBusy := 0, bBusy := 0, ins := [[], [], [], []],
    outs := [[], [], [], []], routes := [], links := [], sum := .fin false 0 0, initPermit := false }

/-- A PE of its section; none where a slot or a route entry is refused (R78, R85). -/
def readCell (col row : Nat) (s : Section) : Option Cell :=
  let slots := (List.range 16).map fun k => match Table.find s.slots k with
    | some w => (decodeSlot w).toOption
    | none => some none
  let routes := s.routes.map fun e => readRoute e.2
  if slots.any Option.isNone || routes.any Option.isNone then none
  else
    let slots : List (Option Instr) := slots.map fun x => x.getD none
    let permit := slots.any fun i => match i with
      | some (.pexit w) => w.imm.getLsbD 0
      | _ => false
    some { Cell.empty col row with
      slots := slots, b := s.b, l := s.locals.foldl (fun (l : Sparse 32) e => Sparse.set l e.1 e.2) [], routes := routes.filterMap id,
      initPermit := permit, outs := if permit then [[], [.tok { data := 0, tag := 3 }], [], []] else [[], [], [], []] }

/-- The instruction's chain, sequence and successor, where it is a node of a chain. -/
def chainNode (i : Instr) : Option (Nat × Nat × Nat) :=
  match i with
  | .ldn w | .stn w | .atn w | .btok w => some (w.chain.toNat, w.seqNo.toNat, w.succ.toNat)
  | _ => none

/-- The nonempty slots of a plane's cells. -/
def Plane.instrs (p : Plane) : List (Cell × Nat × Instr) :=
  p.cells.flatMap fun c => c.slots.zipIdx.filterMap fun x => x.1.map fun i => (c, x.2, i)

/-- The chains of a plane's nodes, each with E at its lowest sequence number (R93). -/
def chainsOf (l : List Instr) : List Chain :=
  let nodes := l.filterMap chainNode
  (List.range 16).filterMap fun id =>
    let mine := (nodes.filter fun n => n.1 == id).map fun n => n.2
    match mine with
    | [] => none
    | f :: _ => some { id := id, nodes := mine, e := mine.foldl (fun m n => min m n.1) f.1, queue := [] }

/-- Walks a chain through its successors from E: the numbers that it meets. -/
def Chain.walk (c : Chain) : Nat → Nat → List Nat
  | 0, _ => []
  | fuel + 1, k => match c.nodes.find? fun n => n.1 == k with
    | some n => k :: Chain.walk c fuel n.2
    | none => []

/-- A chain forms one cycle and holds each number once (R93). -/
def Chain.whole (c : Chain) : Bool :=
  let l := c.walk c.nodes.length c.e
  noneAgree (fun a b : Nat × Nat => a.1 == b.1) c.nodes && l.length == c.nodes.length && noneAgree (· == ·) l
    && (match c.nodes.find? fun n => l.getLast? == some n.1 with
      | some n => n.2 == c.e
      | none => false)

/-- Input queue k of a PE has a route into it; and the source of that route is output o of a PE whose slots satisfy a test, traced back
over links. -/
def Cell.routed (c : Cell) (k : Nat) : Bool := c.routes.any fun r => r.dlv && r.dst.toNat == k

/-- The end of the channel that leaves a PE by a route: the PE and queue it delivers into, or an edge node. -/
inductive ChanEnd where
  | queue (col row k : Nat)
  | edge (e : EdgeNode)
deriving DecidableEq, Repr

/-- Follows a route to the end of its channel. -/
def Plane.chanEnd (p : Plane) (w h : Nat) : Nat → Cell → Route → Option ChanEnd
  | 0, _, _ => none
  | fuel + 1, c, r =>
    if r.dlv then some (.queue c.col c.row r.dst.toNat)
    else match neighbour w h c.col c.row r.dst with
      | some (x, y) => match p.cell x y with
        | some d => match d.routes.find? fun q => !q.loc && q.src == opposite r.dst && q.sslot == r.dslot with
          | some q => Plane.chanEnd p w h fuel d q
          | none => none
        | none => none
      | none => (p.edge w c.col c.row r.dst).map ChanEnd.edge

/-- The steps that a channel of a plane can have at most. -/
def Plane.fuel (p : Plane) : Nat := 16 * p.cells.length + 2

/-- The cell holds a pent. -/
def Cell.hasPent (c : Cell) : Bool := c.slots.any fun i => match i with
  | some (.pent _) => true
  | _ => false

/-- What configuration must know beside the image's packets. -/
structure CfgEnv where
  im : Image
  col : Nat
  row : Nat
  w : Nat
  h : Nat
deriving DecidableEq, Repr

/-- A called or selected configuration exists and fits the region (R103). -/
def CfgEnv.fits (e : CfgEnv) (id : Nat) : Bool := match e.im.config id with
  | some c => decide (c.w ≤ e.w) && decide (c.h ≤ e.h)
  | none => false

/-- The checks of a node that look beyond its slot. -/
def Plane.nodeOk (p : Plane) (e : CfgEnv) (w h : Nat) (x : Cell × Nat × Instr) : Bool :=
  let (c, k, i) := x
  match i with
  | .isect _ => k == 0 && (c.slots.drop 1).all Option.isNone
  | .merge _ => c.routed 1 && c.routed 2
  | .calln s | .next s => e.fits (s.imm.toNat % 4)
  | .swait s => e.col == 0 && decide (s.imm.toNat % 8 < e.h)
  | .mport _ => e.col + c.col == 15 && e.row + c.row == 7
  | .eqpn s => e.im.epoints.any fun q => q.id == s.imm.toNat && q.snode
  | .pexit _ => match c.routes.find? fun r => r.loc && r.src == 1 with
    | some r => match p.chanEnd w h p.fuel c r with
      | some (.queue x y 1) => (p.cell x y).any Cell.hasPent
      | _ => false
    | none => false
  | _ => true

-- ## The plane of a configuration

/-- Reads a configuration for a region: its plane with load number n, or none where configuration raises CONFIG. -/
def readPlane (e : CfgEnv) (c : ConfigImg) (n : Nat) : Option Plane :=
  if e.w < c.w || e.h < c.h then none
  else match readRows c e.col with
    | none => none
    | some rows =>
      let cells := rows.zipIdx.flatMap fun r => r.1.done.zipIdx.map fun s => readCell s.2 r.2 s.1
      let ports := rows.zipIdx.filterMap fun r => if r.1.west.isEmpty then none else some (readPort r.2 r.1.west)
      let convs := rows.zipIdx.filterMap fun r => if r.1.east.isEmpty then none else some (readConv r.2 r.1.east)
      if cells.any Option.isNone || ports.any Option.isNone || convs.any Option.isNone then none
      else
        let cells : List Cell := cells.filterMap id
        let gate := match rows with
          | r :: _ => r.gate.getD 0
          | [] => 0
        let ports : List Port := (ports.filterMap id).map fun (q : Port) =>
          { q with indexed := !q.out && cells.any fun c => c.col == 0 && c.row == q.k && c.routes.any fun r => !r.dlv && r.dst == 3 }
        let p : Plane := { cfg := c.id, load := n, cells := cells, ports := ports, convs := convs.filterMap id,
                           chains := [], gate := gate, caller := none, pendingNext := none }
        let p := { p with chains := chainsOf (p.instrs.map fun x => x.2.2) }
        if p.cells.all (p.routesOk c.w c.h) && p.edgeRoutesOk c.w && p.chains.all Chain.whole && p.instrs.all (p.nodeOk e c.w c.h) then some p
        else none

/-- Gives each port its base, read from the team's scratchpad (R86). -/
def State.portBases (s : State) (t : Team) (p : Plane) : Plane :=
  { p with ports := p.ports.map fun (q : Port) =>
      { q with base := BitVec.ofNat 64 (ofLeBytes (s.scratchBytes ((s.teamRange t).1 + q.baseLoc) 8)) } }

/-- Every port's base stands in the team's scratchpad. -/
def State.basesOk (s : State) (t : Team) (p : Plane) : Bool := p.ports.all fun q => s.teamOk t (BitVec.ofNat 64 q.baseLoc) 8

/-- What a configuration load comes to: a plane, or the trap in S form that it raises. -/
def State.loadPlane (s : State) (t : Team) (r : Region) (id n : Nat) : Except TrapKind Plane :=
  match Table.find s.grids t.grid with
  | none => .error .config
  | some g =>
    match g.image.config id with
    | none => .error .config
    | some c => match readPlane { im := g.image, col := r.col, row := r.row, w := r.w, h := r.h } c n with
      | none => .error .config
      | some p => if s.basesOk t p then .ok (s.portBases t p) else .error .bounds

-- ## Traps in S form, guard failures (R91, R110, R133, R134)

/-- The key of the record that decides a rollback: the first stays (R91). -/
def Region.fail (r : Region) (f : SFault) : Region := if r.fault.isSome then r else { r with fault := some f }

def SFault.trap (k : TrapKind) (addr : BitVec 64) : SFault :=
  { guard := false, kind := some k, port := none, addr := addr, pattern := [], pos := 0 }
def SFault.guardFailure : SFault := { guard := true, kind := none, port := none, addr := 0, pattern := [], pos := 0 }

/-- A trap in S form or a guard failure of a team's region. -/
def State.failRegion (s : State) (tk : Nat) (f : SFault) : State := s.modRegion tk fun r => r.fail f

/-- Puts the latched PE locals into the cells of a plane (R127). -/
def Plane.withLocals (p : Plane) (l : List (Nat × Word)) : Plane :=
  { p with cells := p.cells.map fun c => l.foldl (fun (c : Cell) e =>
      if e.1 / 64 == c.col && e.1 / 8 % 8 == c.row then c.writeL (e.1 % 8) e.2 else c) c }

/-- region configure: the row streams of the entry configuration have been delivered and checked; the region is configured, or CONFIG
leaves it unconfigured and the team goes back to T form (R78, R84, R133). -/
def execRegionConfigure (team : Nat) (s : State) : Result :=
  due <|
    match Table.find s.teams team with
    | none => none
    | some t => match t.region with
      | none => none
      | some r =>
        if r.live || r.fault.isSome || t.phase != .placed then none
        else some <| match s.loadPlane t r r.active.cfg r.active.load with
          | .ok p => s.modRegion team fun r => { r with live := true, active := p.withLocals r.latched }
          | .error k => s.failRegion team (SFault.trap k 0)

-- ## Token transfer (R81, R82, R111)

/-- A converter node whose turn it is: the actor names it by the column beyond the region's east edge. -/
def State.convEnv (s : State) : Option (Nat × Team × Conv) :=
  match s.cur with
  | .pe tk col row _ => match Table.find s.teams tk with
    | some t => match t.region with
      | some r =>
        if r.firesAt (r.w - 1) && t.phase == .placed && decide (r.w ≤ col) then
          (r.active.convs.find? fun v => v.k == row).map fun v => (tk, t, v)
        else none
      | none => none
    | none => none
  | _ => none

/-- The tokens on links that travel to the end of a channel. -/
def Plane.inFlight (p : Plane) (w h : Nat) (e : ChanEnd) : Nat :=
  (p.cells.map fun c => (c.links.filter fun l =>
    match c.routes.find? fun q => !q.loc && q.src == l.dir && q.sslot == l.slot with
    | some q => p.chanEnd w h p.fuel c q == some e
    | none => false).length).sum

/-- The tokens that stand at the end of a channel, and how many it holds. -/
def Plane.endLoad (p : Plane) (e : ChanEnd) : Nat × Nat :=
  match e with
  | .queue x y k => (match p.cell x y with
    | some c => (c.inq k).length
    | none => 0, 4)
  | .edge (.port k) => (match p.port k with
    | some q => if q.out then q.queue.length else q.inq.length
    | none => 0, 64)
  | .edge (.conv k) => (match p.convs.find? fun v => v.k == k with
    | some v => v.inq.length
    | none => 0, 4)

/-- The column in which the end of a channel freezes: an edge node freezes with its PE. -/
def ChanEnd.column (w : Nat) (e : ChanEnd) : Nat :=
  match e with
  | .queue x _ _ => x
  | .edge (.port _) => 0
  | .edge (.conv _) => w - 1

/-- The end of a channel holds a credit. -/
def Region.credit (r : Region) (e : ChanEnd) : Bool :=
  let (n, cap) := r.active.endLoad e
  decide (n + r.active.inFlight r.w r.h e < cap) && !r.frozenCol (e.column r.w)

/-- Changes a port or converter of a plane. -/
def Plane.modPort (p : Plane) (k : Nat) (f : Port → Port) : Plane :=
  { p with ports := p.ports.map fun q => if q.k == k then f q else q }
def Plane.modConv (p : Plane) (k : Nat) (f : Conv → Conv) : Plane :=
  { p with convs := p.convs.map fun v => if v.k == k then f v else v }

/-- Where a route entry of a PE takes its next token from, the token, and the plane without it. A faulted port emits none (R91). -/
def Plane.take (p : Plane) (w h : Nat) (c : Cell) (r : Route) : Option (Bool × Token × Plane) :=
  if r.loc then
    match c.outq r.src.toNat with
    | .tok t :: _ => some (true, t, p.modCell c.col c.row fun c =>
        { c with outs := listModify c.outs r.src.toNat List.tail })
    | _ => none
  else match neighbour w h c.col c.row r.src with
    | some _ =>
      match c.links.find? fun l => l.dir == r.src && l.slot == r.sslot with
      | some l => some (false, l.tok, p.modCell c.col c.row fun c =>
          { c with links := c.links.filter fun l => !(l.dir == r.src && l.slot == r.sslot) })
      | none => none
    | none =>
      match p.edge w c.col c.row r.src with
      | some (.port k) => match p.port k with
        | some q => match (if q.faulted then [] else q.queue) with
          | t :: rest => some (true, t, p.modPort k fun q => { q with queue := rest })
          | [] => none
        | none => none
      | some (.conv k) => match p.convs.find? fun v => v.k == k with
        | some v => match v.outq with
          | t :: rest => some (true, t, p.modConv k fun v => { v with outq := rest })
          | [] => none
        | none => none
      | none => none

/-- Puts a token where a route entry leads: an input queue, the neighbour's link slot, or an edge node; none where the link slot is
taken, or where the edge node is a faulted port (R91). Of an indexed port, both inputs join one queue, in the order of arrival, and either carries either
kind of token (DESIGN CHOICE, log 101). -/
def Plane.give (p : Plane) (w h : Nat) (c : Cell) (r : Route) (t : Token) : Option Plane :=
  if r.dlv then some (p.modCell c.col c.row fun c => { c with ins := listModify c.ins r.dst.toNat fun q => q ++ [t] })
  else match neighbour w h c.col c.row r.dst with
    | some (x, y) => match p.cell x y with
      | some d =>
        if d.links.any fun l => l.dir == opposite r.dst && l.slot == r.dslot then none
        else some (p.modCell x y fun d => { d with links := d.links ++ [{ dir := opposite r.dst, slot := r.dslot, tok := t }] })
      | none => none
    | none => match p.edge w c.col c.row r.dst with
      | some (.port k) => if (p.port k).any fun q => q.faulted then none else some (p.modPort k fun q => if q.out then { q with queue := q.queue ++ [t] } else { q with inq := q.inq ++ [t] })
      | some (.conv k) => some (p.modConv k fun v => { v with inq := v.inq ++ [t] })
      | none => none

/-- A route entry of a PE takes its token from a stream port, or leads to one. -/
def Plane.meetsPort (p : Plane) (w h : Nat) (c : Cell) (r : Route) : Bool :=
  let port := fun dir => (neighbour w h c.col c.row dir).isNone && match p.edge w c.col c.row dir with
    | some (.port _) => true
    | _ => false
  (!r.loc && port r.src) || (!r.dlv && port r.dst)

/-- token transfer: a token takes the step of a route entry (R81). It leaves an output buffer or an edge node only with a credit of the
queue at the end of its channel, and neither from nor to a frozen cell (R82, R111). While a span is released, no stream port emits or accepts one
(R385). -/
def execTokenTransfer (team col row entry : Nat) (s : State) : Result :=
  due <|
    match Table.find s.teams team with
    | none => none
    | some t => match t.region with
      | none => none
      | some r =>
        if !r.live || t.phase != .placed then none
        else match r.active.cell col row with
          | none => none
          | some c => match c.routes[entry]? with
            | none => none
            | some q => if r.closing.isSome && r.active.meetsPort r.w r.h c q then none else match r.active.take r.w r.h c q with
              | none => none
              | some (starts, tok, p) =>
                let ok := !starts || (match r.active.chanEnd r.w r.h r.active.fuel c q with
                  | some e => r.credit e && !r.frozenCol col
                  | none => false)
                if !ok then none
                else (p.give r.w r.h c q tok).map fun p => s.modPlane team fun _ => p

end Sys2Proof.Machine
end

