-- ==== Sys2Proof/Machine/Interface.lean ====
section
/-! DEFINITION. A region's memory interface and its span buffer: chains, memory tiles, and the end of a span (R92 to R95, R109, R110, R124
to R128, R193, R385), and the acknowledgement of a store, for which that end may wait (R222). -/

namespace Sys2Proof.Machine

-- ## The span buffer (R124)

/-- The entries of the span buffer. -/
def spanSize : Nat := 4096

/-- Appends an entry of an epoch; a 4,097th is a guard failure (R134). -/
def Region.buffer (r : Region) (src : SpanSrc) (va : Option (BitVec 64)) (l : Loc) (bytes : Nat) (data : BitVec 64) (epoch : Nat) : Region :=
  if spanSize ≤ r.span.length then r.fail SFault.guardFailure
  else { r with span := r.span ++ [{ src := src, va := va, loc := l, bytes := bytes, data := data, epoch := epoch, seenBy := [] }] }

/-- The entry is a store that touches bytes of memory. -/
def SpanEntry.stores (x : SpanEntry) : Bool := match x.src with
  | .mport _ => false
  | _ => true

/-- The bytes at a location under the entries for which a test holds, oldest first. -/
def Region.overSpan (r : Region) (f : SpanEntry → Bool) (l : Loc) (n : Nat) (bs : List Byte) : List Byte :=
  (r.span.filter fun x => x.stores && f x).foldl (fun bs x => overlay l n bs x.loc (leBytes x.bytes x.data.toNat)) bs

/-- An ldn of a chain must show an entry: one of its own chain, or of an epoch before its own (R94, R110). -/
def SpanEntry.binds (x : SpanEntry) (load chain epoch : Nat) : Bool := decide (x.epoch < epoch) || x.src == .chain load chain

/-- The places of the entries that touch a location, of which an ldn of a chain may show the first ones or none: those of other chains and
ports that it need not show and has not shown yet (R94). -/
def Region.offered (r : Region) (load chain epoch : Nat) (l : Loc) (n : Nat) : List Nat :=
  r.span.zipIdx.filterMap fun x =>
    if x.1.stores && x.1.loc.overlaps x.1.bytes l n && !x.1.binds load chain epoch && !x.1.seenBy.contains (load, chain) then some x.2 else none

/-- The region once a chain has read the entries at some places. -/
def Region.showTo (r : Region) (load chain : Nat) (ks : List Nat) : Region :=
  { r with span := r.span.zipIdx.map fun x => if ks.contains x.2 then { x.1 with seenBy := (load, chain) :: x.1.seenBy } else x.1 }

/-- The bytes that an ldn of a chain gets from the span buffer at a location, by their place: those that it must show (R94, R110), and under
them those of other chains and ports that it shows. -/
def Region.spanBytes (r : Region) (load chain epoch : Nat) (l : Loc) (n : Nat) : List (Nat × Byte) :=
  let got := fun bs => r.overSpan (fun x => x.binds load chain epoch) l n
    (r.overSpan (fun x => x.seenBy.contains (load, chain) && !x.binds load chain epoch) l n bs)
  (List.range n).filterMap fun k =>
    let a := listGetD (got (List.replicate n 0)) k 0
    let b := listGetD (got (List.replicate n 255)) k 0
    if a == b then some (k, a) else none

/-- The versions through which a team's accesses read. -/
def State.viewOfTeam (s : State) (t : Team) : List (Nat × Nat) := s.viewOf t.grid

/-- The context and launch of a team. -/
def State.teamCtx (s : State) (t : Team) : Nat := match Table.find s.grids t.grid with
  | some g => g.ctx
  | none => 0
def State.teamLaunch (s : State) (t : Team) : Nat := match Table.find s.grids t.grid with
  | some g => g.launch
  | none => 0

/-- The group that stands for a team's region in the order of stores: a number beyond its groups'. -/
def Team.spanRef (t : Team) (tk : Nat) : GroupRef := { team := tk, grp := t.groups.length }

/-- What a region reads at a location: as a plain read of its team does (R87, R92, R222); none while a store over part of it is under way. -/
def State.sampleTeam (s : State) (tk : Nat) (t : Team) (l : Loc) (n : Nat) : Option (List Byte × State) :=
  let r := t.spanRef tk
  let g := Group.start 0 0 0 0
  if s.readable r (s.viewOfTeam t) g 0 l n none then some (s.sample r (s.viewOfTeam t) g 0 l n none) else none

/-- An entry goes into the span buffer of a team's region. -/
def State.bufferSpan (s : State) (tk : Nat) (t : Team) (src : SpanSrc) (va : Option (BitVec 64)) (l : Loc) (bytes : Nat) (data : BitVec 64)
    (epoch : Nat) : State :=
  (s.modRegion tk fun r => r.buffer src va l bytes data epoch).blurSpan t false

/-- The key of an element of a physical tile of a core. -/
def tileKey (phys index : Nat) : Nat := phys * 4096 + index

/-- Performs one entry: a store with plain order, or tile[index] = Round(tile[index] + value, f32, rn) (R124, R193). -/
def State.performEntry (s : State) (tk : Nat) (t : Team) (x : SpanEntry) : State :=
  match x.src with
  | .mport name => match Table.find t.tiles name with
    | some b =>
      let level := s.teamLevel t
      let k := tileKey b.phys (x.data.toNat / 2 ^ 32)
      s.modCore t.core fun c =>
        let v := addValue .rn (readFloat .f32 level (Sparse.get c.tiles k).toNat) (readFloat .f32 level (x.data.toNat % 2 ^ 32))
        let w : WriteMode := { mode := .rn, sat := false, level := level, conv := false, f32ToF16 := false }
        { c with tiles := Sparse.set c.tiles k (BitVec.ofNat 32 (writeFloat .f32 w v)) }
    | none => s
  | _ => s.perform (t.spanRef tk) 0 (s.viewOfTeam t) x.loc (leBytes x.bytes x.data.toNat)

/-- The sources of a list of entries, each once. -/
def spanSources (l : List SpanEntry) : List SpanSrc :=
  l.foldl (fun acc x => if acc.contains x.src then acc else acc ++ [x.src]) []

/-- Performs every entry: each chain's and each port's in order, different ones in an order that the hardware chooses (R124). -/
def State.performSpan (tk : Nat) (t : Team) : Nat → State → List SpanEntry → State
  | 0, s, _ => s
  | fuel + 1, s, l =>
    match spanSources l with
    | [] => s
    | srcs =>
      let (k, s) := if srcs.length = 1 then (0, s) else s.choose srcs.length
      match listGetD srcs k (.chain 0 0) with
      | src => match l.find? fun x => x.src == src with
        | some x => State.performSpan tk t fuel (s.performEntry tk t x) (l.erase x)
        | none => s

-- ## Chains (R93, R94)

/-- The bank of a scratchpad byte (R95). -/
def bankOf (off : Nat) : Nat := off / 8 % 32

/-- The bytes of a memory node's access. -/
def nodeBytes (w : SWord) : Nat := intWidth w.ty.toNat / 8

/-- The word of a node of a chain. -/
def nodeWord (i : Instr) : Option SWord := match i with
  | .ldn w | .stn w | .atn w | .btok w => some w
  | _ => none

/-- The bank that a request accesses; none for a skip and for btok. -/
def MemReq.bank (q : MemReq) : Option Nat := match q.node with
  | .btok _ => none
  | _ => if q.skip then none else some (bankOf q.addr.toNat)

/-- The request waits for its bank to be released (R109). -/
def Region.gated (r : Region) (gate : BitVec 32) (q : MemReq) : Bool := match q.bank with
  | some g => gate.getLsbD g && !r.released.getLsbD g
  | none => false

/-- A chain by its number: the active configuration's by its id, those of the k-th replaced one from 16 x (k + 1) on, with the load it belongs
to and the gate that holds its requests (R109). -/
def Region.chainAt (r : Region) (n : Nat) : Option (Nat × BitVec 32 × Chain) :=
  if n < 16 then (r.active.chain n).map fun c => (r.active.load, r.active.gate, c)
  else match r.oldPlanes[n / 16 - 1]? with
    | some p => (p.chains.find? fun c => c.id == n % 16).map fun c => (p.load, p.gate, c)
    | none => none

/-- The request of a chain that can perform: the oldest with the expected number, not held by a gate, by an atn that has performed in this
span (R125), by an earlier access that an atn (R125) or a btok of its chain (R109) waits for, or by a full reorder buffer of 16 (R95). -/
def Region.nextRequest (r : Region) (n : Nat) (tiles : List TileReq) : Option MemReq :=
  match r.chainAt n with
  | none => none
  | some (load, gate, c) => match c.queue.find? fun q => q.seq == c.e with
    | none => none
    | some q =>
      let mine := tiles.filter fun x => x.load == load && x.chain == c.id
      let held := decide (16 ≤ mine.length) || match q.node with
        | .btok _ => !mine.isEmpty
        | .atn _ => !q.skip && !tiles.isEmpty
        | _ => false
      if r.atnDone || r.gated gate q || held then none else some q

/-- Changes a chain by its number. -/
def Region.modChain (r : Region) (n : Nat) (f : Chain → Chain) : Region :=
  if n < 16 then { r with active := { r.active with chains := r.active.chains.map fun c => if c.id == n then f c else c } }
  else { r with oldPlanes := listModify r.oldPlanes (n / 16 - 1) fun p => { p with chains := p.chains.map fun c => if c.id == n % 16 then f c else c } }

/-- A chain past its expected request: E is its successor (R93). -/
def Chain.advance (c : Chain) (q : MemReq) : Chain :=
  { c with queue := c.queue.erase q, e := match c.nodes.find? fun n => n.1 == q.seq with
      | some n => n.2
      | none => c.e }

/-- The response of a request: its place in its cell is filled, if its configuration is still the active one (R93, R108). -/
def Region.respond (r : Region) (load : Nat) (q : MemReq) (t : Token) : Region :=
  if load != r.active.load then r
  else match nodeWord q.node with
    | some w => { r with active := r.active.modCell q.col q.row fun c => c.complete w q.slot t }
    | none => r

/-- The requests of a team at its core's tiles. -/
def State.tileReqs (s : State) (tk core : Nat) : List TileReq :=
  ((s.core core).tileQ.filter fun x => x.2.team == tk).map fun x => x.2

/-- A request of the region can still perform (R385). -/
def State.interfaceBusy (s : State) (tk : Nat) (t : Team) (r : Region) : Bool :=
  let tiles := s.tileReqs tk t.core
  !tiles.isEmpty || (List.range (16 * (r.oldPlanes.length + 1))).any fun n => (r.nextRequest n tiles).isSome

-- ## The end of a span (R128, R129, R150, R385)

/-- The PE locals that an E-point maps, as the cells hold them. -/
def Plane.locals (p : Plane) (im : Image) (id : Nat) : List (Nat × Word) :=
  ((im.mapsOf id).filter fun m => m.place = 1).flatMap fun m =>
    let at_ := fun k => match p.cell m.col m.row with
      | some c => Sparse.get c.l (k % 8)
      | none => 0
    (localKey m.col m.row m.lreg, at_ m.lreg) :: if m.pair then [(localKey m.col m.row (m.lreg + 1), at_ (m.lreg + 1))] else []

/-- The forms that an eqpn offers its team (R128, R135, R150). One without exit takes a team out of S where an armed breakpoint lies in the ranges of
its next span, whatever pins it (DESIGN CHOICE, log 101). -/
def State.spanForms (s : State) (gr : Grid) (r : Region) (p : EPoint) : List Nat :=
  [0] ++ (if p.vok then [1] else []) ++ (if p.exit || r.mustLeave || s.bpInSpan gr.ctx gr.image p.id then [] else [2])

/-- The team is at E-point id, its stores performed: Callisto decides, and the team leaves S form or a new span begins (R128, R385). -/
def State.decideSpan (s : State) (tk id : Nat) : State :=
  match Table.find s.teams tk with
  | none => s
  | some t => match t.region, Table.find s.grids t.grid with
    | some r, some gr => match gr.image.epoints.find? fun p => p.id == id with
      | none => s
      | some p =>
        let ctx := s.context gr.ctx
        let c : Choice := { present := s.spanForms gr r p, form := 2, pending := if t.hopS then some 2 else none, own := t.perf, team := t.perf }
        let (f, probing) := c.target ctx
        let s := s.modTeam tk fun t => { t with
          hopS := false, perf := { (if f = 2 || probing then t.perf.afterDecision 2 probing else t.perf.unprobed) with passes := t.perf.passes + 1 },
          groups := t.groups.map fun g => { g with eqlast := BitVec.ofNat 32 id } }
        if f = 2 then
          (s.modRegion tk fun r => { r with ep := id, span := [], closing := none, atnDone := false, latched := r.active.locals gr.image id }).blurSpan t false
        else s.resumeT tk id (r.active.locals gr.image id) false
    | _, _ => s

/-- The end of the span goes on when nothing in the region's memory interface can still perform, and the stores of others that the region has read where
it stores have performed (FS2): the buffered entries perform, and the team is at the E-point. A full overflow region holds the release, except for the oldest uncommitted launch, which traps (R257). -/
def State.closeSpan (s : State) (tk : Nat) : State :=
  match Table.find s.teams tk with
  | none => s
  | some t => match t.region with
    | none => s
    | some r => match r.closing with
      | none => s
      | some (col, row, slot) =>
        if s.interfaceBusy tk t r || r.fault.isSome || !(r.span.all fun x => !x.stores || s.othersHome (t.spanRef tk) t.know x.loc x.bytes) then s
        else
          let view := s.viewOfTeam t
          if r.span.any fun x => x.stores && s.shadowBlocked (s.teamCtx t) view x.loc then
            (if s.isOldest (s.teamLaunch t) then s.failRegion tk (SFault.trap .shadow 0) else s)
          else
            let id := match r.active.cell col row with
              | some c => match listGetD c.slots slot none with
                | some (.eqpn w) => w.imm.toNat % 4096
                | _ => r.ep
              | none => r.ep
            (State.performSpan tk t (r.span.length + 1) s r.span).decideSpan tk id

/-- Every release that waits goes on where it can. -/
def State.closeSpans (s : State) : State := s.teams.foldl (fun s e => s.closeSpan e.1) s

-- ## Stores that perform (R217, R222)

/-- store acknowledge: the store performs at the next wider scope, in the end at its home, and what waits for it goes on (R217, R222). One to a peer's
memory performs there alone (R308). To reach its home it needs room in the shadow (R257). -/
def execStoreAcknowledge (r : GroupRef) (idx : Nat) (s : State) : Result :=
  due <|
    match s.findGroup r with
    | none => none
    | some g => match g.stores[idx]? with
      | none => none
      | some x =>
        if !s.storeMayRun r g x then none
        else if x.level < 3 && !x.loc.atPeer then some (s.raiseStore r idx).reorder.closeSpans
        else match s.storeBlocked r x.loc with
          | some true => if g.hasTrap then none else some (s.asyncTrap r g .shadow 0 (x.va.getD 0) (BitVec.ofNat 32 x.lane))
          | some false => none
          | none => some ((s.perform r x.seq (s.viewOfRef r) x.loc x.bytesOf x.pubs).modGroup r fun g =>
              ({ g with stores := listDrop g.stores idx }).rouse).reorder.sweepLeft.closeSpans

-- ## Requests (R93 to R95, R109)

/-- The token of a skip: control-tagged, with a value that the spec does not state. -/
def skipToken (q : MemReq) : Token := { data := (Config.unstatedWord 93 (q.addr.setWidth 64)).setWidth 32, tag := 3 }

/-- The trap of an access outside the team's allocation or not naturally aligned (R92). -/
def State.nodeFault (s : State) (t : Team) (q : MemReq) (n : Nat) : Option SFault :=
  if q.addr.toNat % n != 0 then some (SFault.trap .align (q.addr.setWidth 64))
  else if s.teamOk t (q.addr.setWidth 64) n then none else some (SFault.trap .bounds (q.addr.setWidth 64))

/-- The region with a request's bank opened: its released bit and its gate cleared (R109). -/
def Region.openGate (r : Region) (n : Nat) (q : MemReq) : Region :=
  match q.bank with
  | some g =>
    let shut := fun gate : BitVec 32 => gate &&& ~~~(1#32 <<< g)
    match r.chainAt n with
    | some (_, gate, _) =>
      if !gate.getLsbD g then r
      else if n < 16 then { r with released := shut r.released, active := { r.active with gate := shut r.active.gate } }
      else { r with released := shut r.released, oldPlanes := listModify r.oldPlanes (n / 16 - 1) fun p => { p with gate := shut p.gate } }
    | none => r
  | none => r

/-- The configuration that asks has released the bank itself (R109). -/
def Region.ownRelease (r : Region) (load : Nat) (q : MemReq) : Bool := match q.bank with
  | some g => r.releasedBy.contains (g, load)
  | none => false

/-- The response of a request that needs no tile: it leaves at once, or stands behind the earlier ones of its chain (R95). -/
def State.answer (s : State) (tk : Nat) (t : Team) (load : Nat) (c : Chain) (q : MemReq) (tok : Token) : State :=
  if (s.tileReqs tk t.core).any fun x => x.load == load && x.chain == c.id then
    s.modCore t.core fun k => { k with tileQ := k.tileQ ++ [(16, { team := tk, load := load, chain := c.id, req := q, fwd := [], answer := some tok })] }
  else s.modRegion tk fun r => r.respond load q tok

/-- What an ldn takes from the span buffer: the hardware chooses how many of the entries that it may show it does show (R94). -/
def State.forward (s : State) (tk : Nat) (r : Region) (load : Nat) (c : Chain) (q : MemReq) (l : Loc) (n : Nat) : List (Nat × Byte) × State :=
  match r.offered load c.id q.epoch l n with
  | [] => (r.spanBytes load c.id q.epoch l n, s)
  | ks =>
    let (k, s) := s.choose (ks.length + 1)
    let show_ := fun r : Region => r.showTo load c.id (ks.take k)
    ((show_ r).spanBytes load c.id q.epoch l n, s.modRegion tk show_)

/-- A request of a chain performs: a skip and a btok at once, a stn into the span buffer, and ldn and atn at their memory tile. The place of a stn
in the span buffer is a memory tile's too: it charges the power bucket (R100, log 55), and waits where that is empty. -/
def State.runRequest (s : State) (tk : Nat) (t : Team) (r : Region) (n load : Nat) (c : Chain) (q : MemReq) : Option State :=
  let fail := fun f => some (s.failRegion tk f)
  let go := fun (f : Region → Region) => s.modRegion tk fun r => f ((r.openGate n q).modChain n fun c => c.advance q)
  if q.skip then some ((go id).answer tk t load c q (skipToken q))
  else match q.node with
    | .btok _ =>
      let g := q.data.toNat % 32
      some ((go fun r => { r with released := r.released ||| (1#32 <<< g), releasedBy := (g, load) :: r.releasedBy }).answer tk t load c q
        { data := BitVec.ofNat 32 g, tag := q.tag })
    | .stn w =>
      match s.nodeFault t q (nodeBytes w) with
      | some f => fail f
      | none =>
        if r.ownRelease load q then fail SFault.guardFailure
        else ((go id).charge t.core 1).map fun s' =>
          (s'.bufferSpan tk t (.chain load c.id) none (s.teamLoc t q.addr.toNat) (nodeBytes w) (q.data.setWidth 64) q.epoch).answer tk t load c q
            { data := q.addr, tag := q.tag }
    | .ldn w | .atn w =>
      match s.nodeFault t q (nodeBytes w) with
      | some f => fail f
      | none =>
        let isAtn := match q.node with
          | .atn _ => true
          | _ => false
        if r.ownRelease load q || (isAtn && !r.span.isEmpty) then fail SFault.guardFailure
        else
          let s := go fun r => if isAtn then { r with atnDone := true } else r
          let (fwd, s) := if isAtn then ([], s) else s.forward tk r load c q (s.teamLoc t q.addr.toNat) (nodeBytes w)
          let req : TileReq := { team := tk, load := load, chain := c.id, req := q, fwd := fwd, answer := none }
          some (s.modCore t.core fun k => { k with tileQ := k.tileQ ++ [(bankOf q.addr.toNat / 2, req)] })
    | _ => none

/-- memory chain request: the region's memory interface performs the request of a chain whose number is expected (R93). -/
def execMemoryChainRequest (team chain : Nat) (s : State) : Result :=
  due <|
    match Table.find s.teams team with
    | none => none
    | some t => match t.region with
      | none => none
      | some r =>
        if !r.live || r.fault.isSome || t.phase != .placed then none
        else match r.chainAt chain, r.nextRequest chain (s.tileReqs team t.core) with
          | some (load, _, c), some q => (s.runRequest team t r chain load c q).map fun s => s.closeSpan team
          | _, _ => none

/-- The value that ldn gives, widened by its type (R92, R407). -/
def widened (ty x : Nat) : Word :=
  let n := intWidth ty
  (if intSigned ty then signExt n (BitVec.ofNat 64 x) else zeroExt n (BitVec.ofNat 64 x)).setWidth 32

/-- The new value of an atn: min and max compare under the node's type (R349). -/
def atnResult (w : SWord) (level old v : Nat) : Nat :=
  let aop := (w.fn.extractLsb' 0 4).toNat
  if w.ty == 0 && (aop = 1 || aop = 2) then
    let less := decide (signedOf 32 v < signedOf 32 old)
    if aop = 1 then (if less then v else old) else if less || v = old then old else v
  else atomResult aop 4 level old v

/-- The access of a request at its tile: the state, and the token of its response; none while another group's store to its bytes that the team
sees is under way. -/
def State.tileAccess (s : State) (t : Team) (x : TileReq) : Option (State × Token) :=
  let off := (s.teamRange t).1 + x.req.addr.toNat
  match x.req.node with
  | .atn w =>
    if !s.othersHome (t.spanRef x.team) t.know (.scratch off) 4 then none
    else
    let (old, s) := s.rmw (t.spanRef x.team) 0 (s.viewOfTeam t) (.scratch off) 4 [] fun old => some (atnResult w (s.teamLevel t) old x.req.data.toNat)
    some (s, { data := BitVec.ofNat 32 old, tag := x.req.tag })
  | .ldn w =>
    (s.sampleTeam x.team t (.scratch off) (nodeBytes w)).map fun got =>
      let bs := got.1.zipIdx.map fun b => match x.fwd.find? fun e => e.1 == b.2 with
        | some e => e.2
        | none => b.1
      (got.2, { data := widened w.ty.toNat (ofLeBytes bs), tag := x.req.tag })
  | _ => none

/-- The first request at a tile before which no earlier one of its chain stands at any tile (R93, R95): its position. -/
def Core.tileNext (c : Core) (tile : Nat) : Option Nat :=
  (List.range c.tileQ.length).find? fun k => match c.tileQ[k]? with
    | some (t, x) => t == tile && x.answer.isNone && !((c.tileQ.take k).any fun y => y.2.team == x.team && y.2.load == x.load && y.2.chain == x.chain)
    | none => false

/-- The responses of a chain that stand behind no request leave, in order (R95). -/
def State.flushChain (s : State) (core : Nat) (x : TileReq) : Nat → State
  | 0 => s
  | fuel + 1 =>
    let q := (s.core core).tileQ
    match (List.range q.length).find? fun k => q[k]?.any fun y => y.2.team == x.team && y.2.load == x.load && y.2.chain == x.chain with
    | none => s
    | some k => match q[k]?.bind fun y => y.2.answer.map fun tok => (y.2, tok) with
      | none => s
      | some (y, tok) => State.flushChain
          ((s.modCore core fun c => { c with tileQ := listDrop c.tileQ k }).modRegion x.team fun r => r.respond y.load y.req tok) core x fuel

/-- One access of a tile that has the power for it: a request whose team has left S form is dropped. -/
def State.runTile (s : State) (core tile : Nat) : Option State :=
  match (s.core core).tileNext tile with
  | none => none
  | some k => match (s.core core).tileQ[k]? with
    | none => none
    | some (_, x) =>
      let s0 := s.modCore core fun c => { c with tileQ := listDrop c.tileQ k }
      match Table.find s.teams x.team with
      | none => some s0
      | some t => match t.region with
        | none => some s0
        | some _ => match s0.charge core 1 with
          | none => none
          | some s => (s.tileAccess t x).map fun got =>
            ((got.1.modRegion x.team fun r => r.respond x.load x.req got.2).flushChain core x ((s.core core).tileQ.length)).closeSpan x.team

/-- memory tile access (R95, R100). -/
def execMemoryTileAccess (core tile : Nat) (s : State) : Result := due (s.runTile core tile)

end Sys2Proof.Machine
end

