-- ==== Sys2Proof/Machine/Control.lean ====
section
/-! DEFINITION. Control flow, and the system instructions: br, brx, call, ret, loop, yield, exit, serl, sere, eqp, hop, nop, bsync,
trap, eret, bkpt, icinv, fbar and halt. -/

namespace Sys2Proof.Machine

/-- The group is Parked when every path waits on flags (R66). -/
def Group.park (g : Group) : Group :=
  if g.state == .ready && g.serl.isNone && !g.paths.isEmpty && g.paths.all (fun p => p.waits != 0)
      && g.spilledPaths.all (fun p => p.waits != 0)
  then { g with state := .parkedYield } else g

/-- The spill-stack limit of the issuing group's grid (R58). -/
def Env.spillLimit (e : Env) : Nat :=
  match e.grid with
  | some g => Machine.spillLimit g.sps
  | none => Machine.spillLimit 0

/-- The guard does not hold the same value in every active lane: ILLEGAL for a control instruction in V form (R69). -/
def Env.unevenV (e : Env) (m : LaneMask) : Bool := e.vform && m != 0 && m != e.path.mask

/-- The header after the clause that ends with sere, from the header of a body on (R440): none where the clauses end without one, and the
fetch's trap at the first word that cannot be fetched. -/
def Env.bodyEnd (e : Env) (s : State) (view : List (Nat × Nat)) : Nat → BitVec 64 → Option (Except (TrapKind × BitVec 64) (BitVec 64))
  | 0, _ => none
  | fuel + 1, pc =>
    let wordAt := fun a : BitVec 64 => match e.fetchAddr s a with
      | (.ok pa, s) => Except.ok (s.memWord view pa)
      | (.error k, _) => .error (k, a)
    match wordAt pc with
    | .error x => some (.error x)
    | .ok h =>
      let n := (h.extractLsb' 32 4).toNat
      let next := pc + BitVec.ofNat 64 (8 * (1 + n))
      if h.extractLsb' 56 8 != 0xF0 || n = 0 then none
      else match wordAt (next - 8) with
        | .error x => some (.error x)
        | .ok w => if w.extractLsb' 56 8 == 0x60 then some (.ok next) else Env.bodyEnd e s view fuel next

/-- The clauses that a body can have: those that fit in the code. -/
def Env.bodyClauses (e : Env) : Nat :=
  match e.grid with
  | some g => g.image.tLen / 8 + 1
  | none => 2 ^ 20

/-- The address after the open body of the serialising path. -/
def Env.afterBody (e : Env) (s : State) (z : Serl) : Option (Except (TrapKind × BitVec 64) (BitVec 64)) := e.bodyEnd s (e.view s) e.bodyClauses z.body

/-- A target inside the open body (R67); outside a serialising path every target is allowed. Where a word of the body
cannot be fetched, sere stands no earlier than that word, and a target past it is no target of the body (DESIGN CHOICE, log 94). -/
def Env.targetOk (e : Env) (s : State) (target : BitVec 64) : Bool :=
  match e.sel, e.grp.serl with
  | none, some z => decide (z.body.toNat ≤ target.toNat) && match e.afterBody s z with
    | some (.ok fin) => decide (target.toNat < fin.toNat)
    | some (.error x) => decide (target.toNat ≤ x.2.toNat)
    | none => false
  | _, _ => true

/-- Lanes of the active path leave the clause for a target, there waiting on a flag set (R64, R66, R356): all of them, none, or some by
a split. A split whose spill would pass the spill stack's limit raises STACK with no effect. g is the group with the instruction's
other effect. -/
def Env.jump (e : Env) (g : Group) (taken : LaneMask) (target : BitVec 64) (waits : BitVec 12) (s : State) : State :=
  if taken = 0 then e.finish g s
  else if e.unevenV taken then e.trap s .illegal
  else if !e.targetOk s target then e.trap s .illegal
  else
    let p := { PathEntry.at target taken with waits := waits }
    let (lb, s) := if waits == 0 then e.takeLoop s target else (g.loop, s)
    let g1 := { g with loop := lb }
    let g2 := if taken == e.path.mask then g1.setPath e.sel p
      else { g1.setPath e.sel { e.path.past with mask := e.path.mask &&& ~~~taken } with paths :=
               (g1.setPath e.sel { e.path.past with mask := e.path.mask &&& ~~~taken }).paths ++ [p] }
    let g3 := g2.settle.park
    if decide (e.grp.spilledPaths.length < g3.spilledPaths.length) && decide (e.spillLimit < g3.spillBytes) then e.trap s .stack
    else e.setGroup g3 s

/-- The target of a branch: its own address + 8 x disp (R326). -/
def Env.target (e : Env) (disp : BitVec 32) : BitVec 64 := e.path.pc + (disp.signExtend 64) * 8

/-- br (R356). -/
def execBr (w : BWord) (s : State) : Result :=
  native { v := [], s := [] } s fun e => e.jump e.grp (e.guard w.g) (e.target w.disp) 0 s

/-- brx (R358): the target stands in an s-pair; ALIGN where some lane branches to a misaligned one. -/
def execBrx (w : BWord) (s : State) : Result :=
  let n := w.aux.toNat
  native { v := [], s := [n, n + 1] } s fun e =>
    let m := e.guard w.g
    let t := e.grp.readSPair n
    if e.unevenV m then e.trap s .illegal
    else if m != 0 && t.extractLsb' 0 3 != 0 then e.trapWith s e.grp .align AccessKind.fetch.code t wholeGroup false
    else e.jump e.grp m t 0 s

/-- loop (R410). -/
def execLoop (w : BWord) (s : State) : Result :=
  let n := w.aux.toNat
  native { v := [], s := [n] } s fun e =>
    let m := e.guard w.g
    if e.unevenV m then e.trap s .illegal
    else if m = 0 then e.finish e.grp s
    else
      let x := e.grp.readS n - 1
      let g := e.grp.writeS n x
      if x == 0 then e.finish g s else e.jump g m (e.target w.disp) 0 s

/-- The flag set of a yield (R326). -/
def yieldFlags (w : BWord) : BitVec 12 := w.fn.extractLsb' 0 4 ++ w.aux

/-- yield (R66, R462): inside a serl body it is ILLEGAL. -/
def execYield (w : BWord) (s : State) : Result :=
  native { v := [], s := [] } s fun e =>
    if e.sel.isNone then e.trap s .illegal
    else if e.grp.flagsClear (yieldFlags w) then e.jump (if e.acts w.g then e.grp.sawFlags (yieldFlags w) else e.grp) (e.guard w.g) (e.target w.disp) 0 s
    else e.jump e.grp (e.guard w.g) (e.target w.disp) (yieldFlags w) s

-- ## call and ret (R57)

/-- A call or ret acts when Guard holds in every active lane: none when it does nothing, else whether it raises CONVERGE or ILLEGAL
for a partial guard (R362, R435). -/
def Env.callGuard (e : Env) (m : LaneMask) : Option TrapKind :=
  if m == e.path.mask then none else some (if e.vform then .illegal else .converge)

/-- The outer registers that are resident in the ring: L (R57). -/
def Group.resident (g : Group) : Nat := (g.frames.filter fun f => f.spilled.isNone).foldl (fun n f => n + f.size) 0

/-- The first ring position of frame k. -/
def Group.frameBase (g : Group) (k : Nat) : Nat := (g.frames.take k).foldl (fun n f => n + f.size) 0

/-- The registers of a frame as the ring holds them, keyed by register and lane. -/
def Group.saveFrame (g : Group) (ring base size : Nat) : Sparse 32 :=
  (List.range (size * 64)).foldl (fun (m : Sparse 32) k =>
    Sparse.set m k (Sparse.get g.v (vKey ((base + k / 64) % ring) (k % 64)))) []

/-- Writes a spilled frame back into the ring. -/
def Group.loadFrame (g : Group) (ring base size : Nat) (m : Sparse 32) : Group :=
  (List.range (size * 64)).foldl (fun (g : Group) k =>
    { g with v := Sparse.set g.v (vKey ((base + k / 64) % ring) (k % 64)) (Sparse.get m k) }) g

/-- The position of the oldest resident frame. -/
def Group.oldestResident (g : Group) : Option Nat := g.frames.findIdx? fun f => f.spilled.isNone

/-- Spills the oldest resident frame whole; it is kept in the group's record (R58, log 90). -/
def Group.spillOne (g : Group) (ring : Nat) : Group :=
  match g.oldestResident with
  | some k =>
    { g with frames := listModify g.frames k fun (f : Frame) =>
        ({ f with spilled := some (g.saveFrame ring (g.frameBase k) f.size) } : Frame) }
  | none => g

/-- Spills the oldest resident frames while the resident registers and the window exceed the ring (R57, step 4). -/
def Group.spillFrames (g : Group) (ring window : Nat) : Nat → Group
  | 0 => g
  | fuel + 1 => if ring < g.resident + window then Group.spillFrames (g.spillOne ring) ring window fuel else g

/-- Ring slots of a range have pending writes. -/
def Group.busyRange (g : Group) (ring base size : Nat) : Bool := (List.range size).any fun k => g.busyV ((base + k) % ring)

/-- The image's window width W. -/
def Env.window (e : Env) : Nat :=
  match e.grid with
  | some g => g.image.window
  | none => 0

/-- The group after a call's push: the return record, the new base, and the spills that the ring needs. -/
def Env.pushed (e : Env) (size : Nat) : Group :=
  let g : Group := { e.grp with rets := ({ clause := e.path.pc + 8, size := size } : RetRec) :: e.grp.rets,
                                frames := e.grp.frames ++ [({ size := size, spilled := none } : Frame)], base := e.grp.base + size }
  g.spillFrames e.ring e.window (g.frames.length)

/-- The spills of a call meet a pending write: the call waits on the scoreboard. -/
def Env.spillBusy (e : Env) (g : Group) : Bool :=
  (List.range g.frames.length).any fun k =>
    match g.frames[k]?, e.grp.frames[k]? with
    | some f, some old => f.spilled.isSome && old.spilled.isNone && e.grp.busyRange e.ring (g.frameBase k) f.size
    | some f, none => f.spilled.isSome && e.grp.busyRange e.ring (g.frameBase k) f.size
    | none, _ => false

/-- call (R57, R362). An agent's slot has no ring and no frames: there it is ILLEGAL (log 8). -/
def execCall (w : BWord) (s : State) : Result :=
  native { v := [], s := [] } s fun e =>
    let m := e.guard w.g
    if e.path.words.length ≠ 1 || e.sel.isNone || e.ref.isNone then e.trap s .illegal
    else if m = 0 then e.finish e.grp s
    else match e.callGuard m with
      | some k => e.trap s k
      | none =>
        if e.grp.severalPaths then e.trap s .converge
        else
          let g := e.pushed w.aux.toNat
          if e.spillBusy g then e.waitOn .scoreboard s
          else if decide (e.grp.spillBytes < g.spillBytes) && decide (e.spillLimit < g.spillBytes) then e.trap s .stack
          else e.jump g m (e.target w.disp) 0 s

/-- ret (R57, R435). -/
def execRet (w : BWord) (s : State) : Result :=
  native { v := [], s := [] } s fun e =>
    let m := e.guard w.g
    if e.sel.isNone then e.trap s .illegal
    else if m = 0 then e.finish e.grp s
    else match e.callGuard m with
      | some k => e.trap s k
      | none =>
        if e.grp.severalPaths then e.trap s .converge
        else match e.grp.rets, e.grp.frames.getLast? with
          | r :: rest, some f =>
            let base := e.grp.base - r.size
            let g := { e.grp with rets := rest, frames := e.grp.frames.dropLast, base := base }
            match f.spilled with
            | none => e.jump g m r.clause 0 s
            | some regs =>
              if e.grp.busyRange e.ring base f.size then e.waitOn .scoreboard s
              else e.jump (g.loadFrame e.ring base f.size regs) m r.clause 0 s
          | _, _ => e.trap s .stack

-- ## exit, serl and sere (R67, R387, R440)

/-- A group whose last lane has exited is Retired, without its return records and frames (R387). -/
def Group.retireIfDone (g : Group) : Group :=
  if g.paths.isEmpty && g.spilledPaths.isEmpty && g.serl.isNone then { g with state := .retired, rets := [], frames := [], loop := none }
  else g

/-- The group after the pass of a serialising path: the next lane of M from the body's start, or the lanes of M after the body
(R440). -/
def Group.nextPass (g : Group) (z : Serl) (after : BitVec 64) : Group :=
  match (lanesOf z.m).find? fun l => decide (z.lane < l) with
  | some l => { g with serl := some { z with lane := l, path := PathEntry.at z.body (laneBit l) } }
  | none => ({ g with serl := none, paths := g.paths ++ [PathEntry.at after z.m] }).settle

/-- exit (R387). The last pass of a body needs the word after it. -/
def execExit (w : BWord) (s : State) : Result :=
  native { v := [], s := [] } s fun e =>
    let m := e.guard w.g
    if e.unevenV m then e.trap s .illegal
    else if m = 0 then e.finish e.grp s
    else match e.sel, e.grp.serl with
      | none, some z =>
        let z := { z with m := z.m &&& ~~~m }
        let go := fun a : BitVec 64 => e.setGroup ((e.grp.nextPass z a).park.retireIfDone) s
        if z.m = 0 || (lanesOf z.m).any (fun l => decide (z.lane < l)) then go 0
        else match e.afterBody s z with
          | some (.ok a) => go a
          | some (.error (k, a)) => e.fetchTrap s k a
          | none => e.trap s .illegal
      | _, _ => e.setGroup ((e.grp.setPath e.sel { e.path.past with mask := e.path.mask &&& ~~~m }).settle.park.retireIfDone) s

/-- serl (R67, R440). While another path of the group serialises, the path waits for it, and leaves it the issue. -/
def execSerl (s : State) : Result :=
  native { v := [], s := [] } s fun e =>
    match e.sel, e.path.words.length, e.vform with
    | some k, 1, false =>
      if e.grp.serl.isSome then e.setGroup { e.grp with state := .waiting .ordering } s
      else
        let body := e.path.pc + 8
        match lanesOf e.path.mask with
        | l :: _ =>
          e.setGroup { e.grp with paths := listDrop e.grp.paths k,
                                  serl := some { m := e.path.mask, lane := l, body := body, path := PathEntry.at body (laneBit l) } } s
        | [] => e.finish e.grp s
    | _, _, _ => e.trap s .illegal

/-- sere (R67, R440). -/
def execSere (s : State) : Result :=
  native { v := [], s := [] } s fun e =>
    match e.sel, e.grp.serl, e.path.words.length with
    | none, some z, 1 => e.setGroup (e.grp.nextPass z (e.path.pc + 8)) s
    | _, _, _ => e.trap s .illegal

-- ## eqp, hop, nop

/-- The clause that holds the word at hand is that of an E-point's entry, in the group's form (R383). -/
def Env.atEpoint (e : Env) (p : EPoint) : Bool :=
  match e.grid with
  | some g =>
    if e.grp.vform then p.vok && e.path.pc == g.image.vBase + BitVec.ofNat 64 (p.vpos + 8)
    else e.path.pc == g.image.tBase + BitVec.ofNat 64 (p.tpos + 8)
  | none => false

/-- eqp (R123, R383). -/
def execEqp (id : BitVec 12) (s : State) : Result :=
  native { v := [], s := [] } s fun e =>
    let entries : List EPoint := match e.grid with
      | some g => g.image.epoints
      | none => []
    if e.path.fresh && entries.any (fun p => p.id == id.toNat && e.atEpoint p) then
      e.finish { e.grp with eqlast := id.setWidth 32, perf := { e.grp.perf with passes := e.grp.perf.passes + 1 } } s
    else e.trap s .illegal

/-- hop (R132): it sets the target only while CSC.HINT is 1 and PIN is 00. The last one of the team's groups decides on its S target (DESIGN CHOICE,
log 101). -/
def execHop (g : Guard) (target : BitVec 2) (s : State) : Result :=
  native { v := [], s := [] } s fun e =>
    let ctx := s.context e.ctx
    match e.ref with
    | some r =>
      if e.acts g && ctx.cscHint && ctx.cscPin = 0 then
        if target == 2 then
          e.finish { e.grp with hopTarget := none } (s.modTeam r.team fun t => { t with hopS := true })
        else e.finish { e.grp with hopTarget := some target.toNat } (s.modTeam r.team fun t => { t with hopS := false })
      else e.finish e.grp s
    | none => e.finish e.grp s

/-- nop (R423). -/
def execNop (s : State) : Result := native { v := [], s := [] } s fun e => e.finish e.grp s

-- ## Traps by instruction

/-- bsync (R359): RETIRED, counted in retuse; the agent's emulation goes on past the word. -/
def execBsync (s : State) : Result :=
  native { v := [], s := [] } s fun e =>
    e.trapWith (s.countRetuse e.ctx) { e.grp with syncs := e.grp.syncs + 1 } .retired 0 0 wholeGroup true

/-- trap (R455). -/
def execTrap (g : Guard) (imm : BitVec 24) (s : State) : Result :=
  native { v := [], s := [] } s fun e =>
    if e.acts g then e.trapWith s e.grp .swtrap (imm.setWidth 32) 0 wholeGroup true else e.finish e.grp s

/-- bkpt (R355). -/
def execBkpt (s : State) : Result := native { v := [], s := [] } s fun e => e.trapWith s e.grp .bkpt 4 0 wholeGroup true

-- ## Code changes and the agent's slot

/-- icinv (R399): the instruction cache and the loop buffers of the core; a group completes the pass of the buffer it runs from. What the core fetches
from memory from then on shows the stores that the group knows, and its own before its fences (R73). -/
def execIcinv (s : State) : Result :=
  native { v := [], s := [] } s fun e =>
    let k := e.grp.fence.foldl (fun k f => k.told e.gref f.1) e.grp.know
    e.finish e.grp (s.modCore e.core fun c => { c with icache := [], loops := [], codeKnow := c.codeKnow.join k })

/-- fbar (R388): the group's next clause header is fetched from memory. -/
def execFbar (s : State) : Result := native { v := [], s := [] } s fun e => e.finish { e.grp with fbar := true } s

/-- eret (R386): PRIV from user software; it ends the handling of the agent's event, and the slot goes on where it stood, if only once the flags
that a yield named there read 0. -/
def execEret (s : State) : Result :=
  native { v := [], s := [] } s fun e =>
    match e.ref with
    | some _ => e.trap s .priv
    | none =>
      let a := (s.core e.core).agent
      if a.handling.isNone then e.trap s .illegal
      else s.modCore e.core fun c => { c with agent := { c.agent with
        handling := none, savedSerl := none,
        grp := (Group.park { c.agent.grp with paths := if a.savedSerl.isSome then [] else [a.saved], serl := a.savedSerl }).wake } }

/-- halt (R397): PRIV from user software; the agent's slot stops until an event reaches it. -/
def execHalt (s : State) : Result :=
  native { v := [], s := [] } s fun e =>
    match e.ref with
    | some _ => e.trap s .priv
    | none =>
      let s := e.finish e.grp s
      if (s.core e.core).agent.events.isEmpty then s.modCore e.core fun c => { c with agent := { c.agent with halted := true } } else s

end Sys2Proof.Machine
end

