-- ==== Sys2Proof/Machine/Issue.lean ====
section
/-! DEFINITION. Which instruction the machine executes next: the scheduler of a quadrant (R46, R47), the issue of a word (R59, R285,
R334), the slot of a processing element (R77), and the passing of a main-clock cycle. -/

namespace Sys2Proof.Machine

/-- What a turn comes to: an instruction to execute in a state, or a state with nothing to execute. -/
inductive Turned where
  | run (i : Instr) (s : State)
  | done (s : State)
deriving DecidableEq, Repr

-- ## The group scheduler (R46, R47)

/-- A Ready group of a quadrant, with its priority and slot. -/
structure Contender where
  ref : GroupRef
  prio : Nat
  slot : Nat
deriving DecidableEq, Repr

/-- Every team of a grid is placed, as a gang grid needs before any of its groups issues (R49). -/
def State.gangHeld (s : State) (gid : Nat) : Bool :=
  match Table.find s.grids gid with
  | some g => g.gang && decide ((s.teams.filter fun e => e.2.grid == gid).length + g.retired < g.teams)
  | none => false

/-- A group can issue its next word, or take a trap that it owes. -/
def Group.canIssue (g : Group) : Bool := g.state.canIssue && (g.active.isSome || g.owed.isSome)

/-- The priority of a grid. -/
def State.gridPrio (s : State) (gid : Nat) : Nat := match Table.find s.grids gid with
  | some g => g.prio
  | none => 0

/-- A save of a grid's context holds its groups at their instruction boundaries (R288, R289). -/
def State.saveHeld (s : State) (gid : Nat) : Bool := match Table.find s.grids gid with
  | some g => s.saving g.ctx
  | none => false

/-- The Ready user groups of a core's quadrant. One that owes a trap takes it in a save too, which reaches it Trapped (R289). -/
def State.contenders (s : State) (core quad : Nat) : List Contender :=
  s.teams.flatMap fun e =>
    if e.2.core = core && e.2.phase == TeamPhase.placed && !s.gangHeld e.2.grid then
      (e.2.groups.zipIdx.filter fun x => x.1.quad == quad && x.1.canIssue && (x.1.owed.isSome || !s.saveHeld e.2.grid)).map fun x =>
        { ref := { team := e.1, grp := x.2 }, slot := x.1.slot, prio := s.gridPrio e.2.grid }
    else []

/-- How far a slot lies behind the slot that issued last, in the round of a quadrant's eight slots. -/
def robinDistance (last slot : Nat) : Nat := (slot + 8 - (last + 1) % 8) % 8

/-- The slot of a quadrant that issued last for a priority (R46). -/
def Core.lastSlot (c : Core) (quad prio : Nat) : Nat := Table.getD c.robin (quad * 32 + prio) 0

/-- A contender issues before another: by priority, then in the round of its priority. -/
def Contender.before (last : Nat → Nat) (a b : Contender) : Bool :=
  decide (b.prio < a.prio) || a.prio == b.prio && decide (robinDistance (last a.prio) a.slot ≤ robinDistance (last b.prio) b.slot)

/-- A core's agent can issue: its slot ranks above every priority on Q3 (R46). While an event waits that it can take, the slot enters its handler first
(R386, R397). -/
def Core.agentReady (c : Core) : Bool :=
  !c.gated && !c.agent.halted && (c.agent.events.isEmpty || c.agent.handling.isSome) && c.agent.grp.canIssue

/-- The cycles after which a losing group is starved (R47). -/
def starvedAfter : Nat := 65536

/-- The contender is starved, or its ageing boost stands (R47). -/
def State.starved (s : State) (c : Contender) : Bool := match s.findGroup c.ref with
  | some g => g.boosted || decide (starvedAfter ≤ g.starve)
  | none => false

/-- The group that a quadrant's scheduler issues for: the starved one of the lowest slot, else by priority and round (R46, R47). One starved a cycle later in
a lower slot goes before one that still waits for its ageing issue (DESIGN CHOICE, log 93). -/
def State.chosen (s : State) (core quad : Nat) : Option GroupRef :=
  let l := s.contenders core quad
  if quad = 3 && (s.core core).agentReady then none
  else
    let aged := l.filter s.starved
    match aged.find? fun a => aged.all fun b => decide (a.slot ≤ b.slot) with
    | some a => some a.ref
    | none => (l.find? fun a => l.all fun b => a.before ((s.core core).lastSlot quad) b).map fun a => a.ref

/-- The group may issue now: its quadrant's scheduler chooses it (R46, R47). -/
def State.mayIssue (s : State) (r : GroupRef) : Bool :=
  match Table.find s.teams r.team with
  | some t => match t.groups[r.grp]? with
    | some g => s.chosen t.core g.quad == some r
    | none => false
  | none => false

/-- A group issues in this cycle: the Ready groups of its quadrant of lower priority lose to it (R47). -/
def State.noteLosers (s : State) (core quad prio : Nat) : State :=
  ((s.contenders core quad).filter fun c => decide (c.prio < prio)).foldl (fun s c =>
    s.modGroup c.ref fun g => if g.inCycle == .none then { g with inCycle := .lost } else g) s

/-- The group issues: its count of R47 restarts, those below it lose, and the round of its priority goes on after its slot. -/
def State.noteIssue (s : State) (r : GroupRef) : State :=
  match Table.find s.teams r.team with
  | some t => match t.groups[r.grp]? with
    | some g =>
      ((s.noteLosers t.core g.quad (s.gridPrio t.grid)).modGroup r fun g =>
          { g with starve := 0, inCycle := .issued, boosted := false, perf := { g.perf with issued := g.perf.issued + 1 } }).modCore t.core fun c =>
        { c with issued := addNew c.issued g.quad, robin := Table.put c.robin (g.quad * 32 + s.gridPrio t.grid) g.slot }
    | none => s
  | none => s

/-- A core's agent issues: its slot ranks above every priority, so every Ready group of Q3 loses to it (R46, R47). -/
def State.noteAgent (s : State) (core : Nat) : State :=
  (s.noteLosers core 3 32).modCore core fun c => { c with issued := addNew c.issued 3 }

/-- A quadrant's scheduler has issued in the cycle at hand. -/
def State.quadIssued (s : State) (core quad : Nat) : Bool := (s.core core).issued.contains quad

/-- starvation boost: a group Ready for 65,536 cycles and losing to higher priority issues one instruction ahead of every user group,
the lowest slot of its quadrant first, where the agent does not issue (R46, R47). -/
def execStarvationBoost (r : GroupRef) (s : State) : Result :=
  due <|
    match Table.find s.teams r.team with
    | some t => match t.groups[r.grp]? with
      | some g =>
        if decide (starvedAfter ≤ g.starve) && g.canIssue && s.mayIssue r && !s.quadIssued t.core g.quad then
          some { (s.modGroup r fun g => { g with starve := 0, boosted := true }) with turns := .issue r :: s.turns }
        else none
      | none => none
    | none => none

-- ## The issue of a word (R59, R285, R334)

/-- A word at hand: a word that is no instruction in the group's form raises ILLEGAL (R333). -/
def Env.issueWord (e : Env) (s : State) (w : DWord) : Turned :=
  match decodeNative w with
  | .error _ => .done (e.trap s .illegal)
  | .ok i => if i.formOk e.vform then .run i s else .done (e.trap s .illegal)

/-- A path at a header: the fetch of the header's word. A word whose op is not that of a header raises ILLEGAL (R59). -/
def Env.issueHeader (e : Env) (s : State) : Turned :=
  match e.fetchWord s e.path.pc with
  | (.trap k, s) => .done (e.fetchTrap s k e.path.pc)
  | (.miss, s) => .done (e.missed s)
  | (.word w, s) => if w.extractLsb' 56 8 == 0xF0 then e.issueWord s w else .done (e.trap s .illegal)

/-- The group at the word at hand, whose breakpoints have been looked at for this arrival: one that is armed later waits for the next (R153, R292). -/
def Env.arrived (e : Env) (s : State) : State :=
  e.setGroup { (e.grp.setPath e.sel { e.path with bpDone := true }) with held := some e.sel } s

/-- The issue of the word at hand, or of the header with what comes before it. -/
def State.issueHere (s : State) : Turned :=
  match s.env with
  | none => .done s
  | some e =>
    match e.path.words with
    | w :: _ => e.issueWord s w
    | [] =>
      if e.grp.fbar then .done (e.fencedFetch s)
      else match e.atHeader s with
        | (s, false) => .done s
        | (s, true) => match s.env with
          | some e => e.issueHeader s
          | none => .done s

/-- The issue of the next word of the actor's group: a breakpoint first (R153, R292), then the word. -/
def State.issueActor (s : State) : Turned :=
  match s.env with
  | none => .done s
  | some e =>
    if e.grp.stepped then .done (e.trapWith s { e.grp with stepped := false } .bkpt 5 0 wholeGroup false)
    else match e.breakpoint s with
    | some n => .done (e.trapWith s e.grp .bkpt (BitVec.ofNat 32 n) 0 wholeGroup false)
    | none => (e.arrived s).issueHere

/-- A group issues: it takes a trap that it owes, else its next word. -/
def State.issueFor (s : State) (r : GroupRef) : Turned :=
  match s.findGroup r with
  | some g => match g.owed with
    | some t => .done (s.takeOwed r g t)
    | none => s.issueActor
  | none => s.issueActor

/-- The turn of a group. -/
def State.issueGroup (s : State) (r : GroupRef) : Turned :=
  if s.mayIssue r then { (s.noteIssue r) with cur := .group r }.issueFor r else .done s

/-- The turn of a core's agent. -/
def State.issueAgent (s : State) (c : Nat) : Turned :=
  if (s.core c).agentReady then { (s.noteAgent c) with cur := .agent c }.issueFor { team := 0, grp := c } else .done s

/-- A group that single-steps has issued its instruction: BKPT with detail 5 at the next boundary (R293), which a group that its instruction has
parked reaches once it can issue again. -/
def State.stepTaken (before after : State) (i : Instr) : State :=
  match before.cur, i with
  | _, .clause _ => after
  | .group r, _ =>
    match before.findGroup r, after.env with
    | some g, some e =>
      if g.singleStep then e.trapWith after { e.grp with singleStep := false } .bkpt 5 0 wholeGroup false else after
    | some g, none =>
      if g.singleStep then after.modGroup r fun h => if h.state == .parkedYield then { h with singleStep := false, stepped := true } else h else after
    | _, _ => after
  | _, _ => after

/-- The result of an executed turn: the next state, from which a single step is reported (R293) and moved tables are forgotten. -/
def concludeTurn (before : State) (i : Instr) (r : Result) : Result :=
  match r with
  | .next s => .next (before.stepTaken s i).forgetMoved
  | .fault f => .fault f
  | .refused q => .refused q

-- ## A processing element's cycle (R77, R79)

/-- The nonempty slots of a PE, with their numbers. -/
def Cell.filled (c : Cell) : List (Nat × Instr) :=
  c.slots.zipIdx.filterMap fun x => x.1.map fun i => (x.2, i)

/-- A slot of the PE is eligible. -/
def PeEnv.canFire (e : PeEnv) (i : Instr) : Bool :=
  match slotWord i with
  | some w => e.cell.eligible i w && e.extra i
  | none => false

/-- The counts of the starvation watch after a cycle of a PE in which a slot fires: a slot that was eligible and did not fire counts on,
every other starts anew, and a disarmed watch counts nothing (R79). -/
def PeEnv.watched (e : PeEnv) (armed : Bool) (fired : Option Nat) (r : Region) : Region :=
  { r with starve := e.cell.filled.foldl (fun l x =>
      let k := watchKey e.cell.col e.cell.row x.1
      if armed && fired != some x.1 && e.canFire x.2 then Table.put l k (Table.getD l k 0 + 1) else Table.del l k) r.starve }

/-- The starvation watch of a team's region is armed (R79). -/
def State.watchArmed (s : State) (tk : Nat) : Bool :=
  match Table.find s.teams tk with
  | some t => match t.region with
    | some r => listGetD (s.core t.core).swcEn r.rid false
    | none => false
  | none => false

/-- A slot of a team's region fires: Callisto counts it (R129). -/
def State.noteFire (s : State) (tk : Nat) : State := s.modTeam tk fun t => { t with perf := { t.perf with fired := t.perf.fired + 1 } }

/-- The turn of a PE: its lowest-numbered eligible slot fires, if there is one (R77). A column beyond the region's names a converter node. -/
def State.peTurn (s : State) (tk col row : Nat) : Turned :=
  let s := { s with cur := .pe tk col row 0 }
  match s.peEnv with
  | none => match s.convEnv with
    | some (_, _, v) => .run (.conv v.word) s
    | none => .done s
  | some e =>
    match (e.cell.filled.find? fun x => e.canFire x.2), e.cell.filled with
    | some (k, i), _ => .run i { ((s.modRegion tk (e.watched (s.watchArmed tk) (some k))).noteFire tk) with cur := .pe tk col row k }
    | none, (k, i) :: _ => .run i { (s.modRegion tk (e.watched (s.watchArmed tk) none)) with cur := .pe tk col row k }
    | none, [] => .done s

-- ## A main-clock cycle (R7, R47, R129, R280, R288)

/-- A group after a cycle: Callisto counts it as stalled while it waits on the scoreboard or on a flag, and the ageing boost counts the cycle if the
group was Ready as its quadrant issued for higher priority, and has not issued in it. -/
def Group.ticked (g : Group) : Group :=
  let stalled := g.state == .waiting .scoreboard || g.state == .waiting .flags
  { g with perf := if stalled then { g.perf with stall := g.perf.stall + 1 } else g.perf,
           starve := if g.canIssue && g.inCycle == .lost then g.starve + 1 else 0,
           inCycle := .none }

/-- The region has a memory request outstanding: in its interface, at a memory tile, or at a stream port that has issued a read or has an
element to write (R129). -/
def State.waitsMemory (s : State) (tk core : Nat) (r : Region) : Bool :=
  r.active.chains.any (fun c => !c.queue.isEmpty) || r.oldPlanes.any (fun p => p.chains.any fun c => !c.queue.isEmpty)
    || (s.core core).tileQ.any (fun x => x.2.team == tk)
    || r.active.ports.any fun p => !p.faulted && (if p.out then !p.queue.isEmpty else p.landing.any fun x => x.value.isNone)

/-- A team whose armed hop has not parked every group when its 4,096 cycles have passed (R127). -/
def Team.hopTicked (t : Team) (now : Nat) : Team :=
  match t.armed with
  | some (_, since) => if decide (since + 4096 ≤ now) && t.groups.any (fun g => g.lives && g.state != .parkedHop) then { t with hopLate := true } else t
  | none => t

/-- A team after a cycle. -/
def State.tickTeam (s : State) (tk : Nat) (t : Team) : Team :=
  let t := t.hopTicked (s.cycle + 1).toNat
  let t := { t with groups := t.groups.map Group.ticked }
  match t.region with
  | some r =>
    let quiet := s.waitsMemory tk t.core r && !r.fired
    { t with region := some { r with fired := false },
             perf := if quiet then { t.perf with stall := t.perf.stall + 1 } else t.perf }
  | none => t

/-- A core after a cycle: its bucket has the cycle's credits, and it counts the cycles with no team placed (R280). -/
def State.tickCore (s : State) (k : Nat) (c : Core) : Core :=
  { c.bucketTicked with
    idle := if s.teams.any (fun t => t.2.core == k && t.2.phase == TeamPhase.placed) then 0 else c.idle + 1,
    issued := [] }

/-- A main-clock cycle passes. -/
def State.tick (s : State) : State :=
  { s with cycle := s.cycle + 1,
           teams := s.teams.map fun e => (e.1, s.tickTeam e.1 e.2),
           cores := s.cores.map fun e => (e.1, s.tickCore e.1 e.2),
           contexts := s.contexts.map fun e => (e.1, { e.2 with drain := e.2.drain - 1 }) }

/-- What a turn comes to. -/
def State.turned (s : State) (t : Turn) : Turned :=
  match t with
  | .issue r => s.issueGroup r
  | .agentIssue c => s.issueAgent c
  | .pe tk col row => s.peTurn tk col row
  | .event i => .run i { s with cur := .device }
  | .tick => .done s.tick

end Sys2Proof.Machine
end

