-- ==== Sys2Proof/Machine/Candidates.lean ====
section
/-! DEFINITION. The turns that the machine can take next, for a state whose list of turns is empty (log 1): what can issue, what can fire, the
steps of the hardware that are due, and a passing cycle. -/

namespace Sys2Proof.Machine

/-- The turns of the groups: the choice of each quadrant that has not issued in the cycle at hand (R46). -/
def State.issueTurns (s : State) : List Turn :=
  s.cores.flatMap fun e => (List.range 4).filterMap fun q => if s.quadIssued e.1 q then none else (s.chosen e.1 q).map Turn.issue

/-- The turns of the cores' agents that have not issued in the cycle at hand. -/
def State.agentTurns (s : State) : List Turn :=
  s.cores.filterMap fun e => if e.2.agentReady && !s.quadIssued e.1 3 then some (Turn.agentIssue e.1) else none

/-- The turns of the PEs and the converter nodes that fire. -/
def State.peTurns (s : State) : List Turn :=
  s.teams.flatMap fun e => match e.2.region with
    | some r =>
      ((r.active.cells.filter fun c => r.firesAt c.col).map fun c => Turn.pe e.1 c.col c.row)
        ++ if r.firesAt (r.w - 1) then r.active.convs.map fun v => Turn.pe e.1 r.w v.k else []
    | none => []

/-- The steps that may come about for a group. -/
def groupSteps (r : GroupRef) (g : Group) : List Instr :=
  (List.range g.loads.length).map (.loadCompletion r) ++ (List.range g.stores.length).map (.storeAcknowledge r)
    ++ (List.range (g.paths.length + 1)).map (.instructionFetchComplete r)
    ++ (match g.state with
      | .waiting (.lanes _ w _ l) => l.map fun x => if w then .waitPoll r x.lane else .cwaitPoll r x.lane
      | .waiting _ => [.accfreeUnbind r, .copyOnWriteComplete r, .shadowStoreResume r, .powerChargeResume (.group r)]
      | .trapped => [.groupResume r, .unresolvedFaultAbort r]
      | _ => [.starvationBoost r])
    ++ if g.trap.isSome then [.trapDelivery r] else []

/-- The steps that may come about for a region. -/
def regionSteps (k : Nat) (r : Region) : List Instr :=
  (r.active.cells.flatMap fun c => ((List.range c.routes.length).map (.tokenTransfer k c.col c.row))
      ++ (List.range c.slots.length).map (.starvationWatchEvent k c.col c.row))
    ++ (r.active.ports.flatMap fun p => [.streamPortRead k p.k, .streamPortWrite k p.k])
    ++ (r.active.chains.map fun c => .memoryChainRequest k c.id)
    ++ (r.oldPlanes.zipIdx.flatMap fun p => p.1.chains.map fun c => .memoryChainRequest k (16 * (p.2 + 1) + c.id))
    ++ (r.active.convs.map fun v => .converterReconfigure k (.take v.k))
    ++ [.sRollback k, .regionConfigure k, .planeReload k, .nextLoad k, .freezeWave k]

/-- The steps that may come about for a team. -/
def teamSteps (k : Nat) (t : Team) : List Instr :=
  (t.groups.zipIdx.flatMap fun x => groupSteps { team := k, grp := x.2 } x.1)
    ++ [.teamRetire k, .sEntry k, .hopTimeout k] ++ (match t.region with
      | some r => regionSteps k r
      | none => [])

/-- The steps that may come about for a core. -/
def coreSteps (k : Nat) (c : Core) : List Instr :=
  groupSteps { team := 0, grp := k } c.agent.grp ++ (List.range 16).map (.memoryTileAccess k)
    ++ ((List.range c.copies.length).flatMap fun i => [.copyCompletion k i, .gatherCompletion k i])
    ++ [.callistoSample k, .mmaExecute k, .mmaCompletion k, .accCopyCompletion k, .packetDraw k, .launchPacket k, .barrierPacket k,
        .signalPacket k, .copyPacket k, .btopPacket k, .nopPacket k, .coreClockGate k, .coreWake k, .creditRefill k, .agentEventEntry k]

/-- The steps that may come about for a launch, a grid, a context or a queue. -/
def State.launchSteps (s : State) (l : Nat) : List Instr :=
  [.conflictAbort l, .launchReplay l, .launchCommit l] ++ ((s.writeLines l) ++ s.readLines l).eraseDups.map (.shadowEvict l)
def contextSteps (x : Nat) : List Instr := [.preqDrain x none, .drainLimitExpiry x, .preqSave x none, .preqRestore x none]

/-- The lines of committed versions that memory does not hold yet. -/
def State.homeSteps (s : State) : List Instr :=
  s.committed.flatMap fun c => c.bytes.flatMap fun e => [.shadowWriteback (e.1 / 64), .shadowEvict 0 (e.1 / 64)]

/-- The stores that ended teams have left. -/
def State.leftSteps (s : State) : List Instr :=
  s.left.flatMap fun e => e.2.2.zipIdx.flatMap fun x => (List.range x.1.stores.length).map (.storeAcknowledge { team := e.1, grp := x.2 })

/-- Every step of the hardware that may come about: those whose condition holds are due. What the host, the peers, the agents' own policies
and errors bring is no step of the machine's own, and only a list of turns brings it (log 1). -/
def State.hardwareSteps (s : State) : List Instr :=
  [.powerUp, .coreStartStep].filter (fun _ => s.stage.toNat ≤ 4) ++ [.attestationRequest .report].filter (fun _ => s.attesting.isSome)
    ++ (s.teams.flatMap fun t => teamSteps t.1 t.2) ++ s.leftSteps ++ (s.cores.flatMap fun c => coreSteps c.1 c.2)
    ++ (s.launches.flatMap fun l => s.launchSteps l.1) ++ (s.grids.flatMap fun g => [.teamPlacement g.1, .gangAdmission g.1])
    ++ (s.contexts.flatMap fun x => contextSteps x.1) ++ (s.queues.map fun q => .pendingListJoin q.1) ++ s.homeSteps
    ++ (List.range s.queries.length).map .queryAnswer ++ (List.range s.shootdowns.length).map .shootdownComplete
    ++ (List.range s.moves.length).map .demotionSwap ++ s.sweeps.map fun x => .blockTableSweep x.ctx x.desc

/-- Power-up is a step of its own only before bring-up. -/
def State.ownStep (s : State) : Instr → Bool
  | .powerUp => s.stage == 0 && !s.recov
  | _ => true

/-- The turns of the steps that are due. -/
def State.eventTurns (s : State) (eventDue : Instr → Bool) : List Turn :=
  (s.hardwareSteps.filter fun i => s.ownStep i && eventDue i).map Turn.event

/-- The turns among these that relieve an LLC which holds too many shadow lines (R256). -/
def State.reliefTurns (s : State) (l : List Turn) : List Turn :=
  if s.llcOver then l.filter fun t => match t with
    | .event (.shadowEvict ..) => true
    | _ => false
  else []

/-- A turn that comes in finite time once it is there to take (R48, R220): not a line's eviction or write back, which the hardware may leave out,
and not the ending of a grid for a fault, which is the agent's or the host's decision (log 96). -/
def Turn.mustCome : Turn → Bool
  | .event i => match i with
    | .shadowEvict .. | .shadowWriteback .. | .unresolvedFaultAbort .. => false
    | _ => true
  | _ => true

/-- The turns that the machine can take now, and the state with the turns that it owes brought up to date. A cycle passes only once every quadrant
with a Ready group has issued in it (R46). Once Config.patience turns have been taken, those that stood there from the first of them on come before all
others (R48, log 96). An LLC that holds too many shadow lines evicts some first. -/
def State.freeTurns (s : State) (eventDue : Instr → Bool) : List Turn × State :=
  let issues := s.issueTurns ++ s.agentTurns
  let all := issues ++ s.peTurns ++ s.eventTurns eventDue ++ if issues.isEmpty then [Turn.tick] else []
  let relief := s.reliefTurns all
  let owed := s.round.filter all.contains
  let s := if owed.isEmpty then { s with round := all.filter Turn.mustCome, taken := 0 } else { s with round := owed }
  if !relief.isEmpty then (relief, s)
  else if !s.round.isEmpty && decide (Config.patience ≤ s.taken) then (s.round, s)
  else (all, s)

/-- The next turn: the first of the list, else a free choice among the turns that the machine can take (log 1, log 2). -/
def State.nextTurn (s : State) (eventDue : Instr → Bool) : Turned :=
  match s.turns with
  | t :: r => { s with turns := r }.turned t
  | [] =>
    let (l, s) := s.freeTurns eventDue
    let (k, s) := s.choose l.length
    let t := listGetD l k .tick
    { s with round := s.round.erase t, taken := s.taken + 1 }.turned t

end Sys2Proof.Machine
end

