-- ==== Sys2Proof/Machine/IntOps.lean ====
section
/-! DEFINITION. What each integer operation computes from its operands (R340 to R346, R354, R357, R366, R367, R380, R409, R411, R412,
R421, R424, R434, R437, R439, R451, R452). -/

namespace Sys2Proof.Machine

/-- An operand read as the type (R162). -/
def AluIn.int (a : AluIn) (v : BitVec 64) : Int :=
  let n := intWidth a.ty
  if intSigned a.ty then signedOf n (lowNat n v) else (lowNat n v : Int)

/-- The low N bits of an operand, read as unsigned. -/
def AluIn.nat (a : AluIn) (v : BitVec 64) : Nat := lowNat (intWidth a.ty) v

/-- A result wrapped to N bits and extended (R162). -/
def AluIn.wrap (a : AluIn) (r : Int) : AluOut :=
  let n := intWidth a.ty
  let v := ofInt64 r
  AluOut.of (if intSigned a.ty then signExt n v else zeroExt n v)

/-- A result clamped with sat, else wrapped (R162). -/
def AluIn.fit (a : AluIn) (r : Int) : AluOut := if a.sat then a.wrap (clampTo (intWidth a.ty) (intSigned a.ty) r) else a.wrap r

/-- A count: the low register, with 0 in the high one of a pair (R366, R424). -/
def countOut (n : Nat) : AluOut := AluOut.of (BitVec.ofNat 64 n)

def absOp (a : AluIn) : AluOut := a.fit (if intSigned a.ty && decide (a.int a.x < 0) then -(a.int a.x) else a.int a.x)
def addOp (a : AluIn) : AluOut := a.fit (a.int a.x + a.int a.y)
def subOp (a : AluIn) : AluOut := a.fit (a.int a.x - a.int a.y)
def mulOp (a : AluIn) : AluOut := a.fit (a.int a.x * a.int a.y)
def mulhOp (a : AluIn) : AluOut := a.wrap ((a.int a.x * a.int a.y) / (2 ^ intWidth a.ty : Nat))
def madOp (a : AluIn) : AluOut := a.fit (a.int a.x * a.int a.y + a.int a.z)

/-- The sum and its unsigned carry out of bit N - 1 (R345). -/
def addcOp (a : AluIn) : AluOut :=
  let s := a.nat a.x + a.nat a.y + (if a.z.getLsbD 0 then 1 else 0)
  { a.wrap s with carry := BitVec.ofNat 32 (s / 2 ^ intWidth a.ty) }

/-- The difference and its borrow (R452). -/
def subbOp (a : AluIn) : AluOut :=
  let s : Int := (a.nat a.x : Int) - a.nat a.y - (if a.z.getLsbD 0 then 1 else 0)
  { a.wrap s with carry := if s < 0 then 1 else 0 }

/-- The truncated quotient; by zero, the limit of the type in the direction of x (R380). -/
def diviOp (a : AluIn) : AluOut :=
  let n := intWidth a.ty
  let x := a.int a.x
  let y := a.int a.y
  if y = 0 then
    a.wrap (if intSigned a.ty then (if 0 ≤ x then (2 ^ (n - 1) : Nat) - 1 else -((2 ^ (n - 1) : Nat) : Int)) else (2 ^ n : Nat) - 1)
  else a.fit (x.tdiv y)

/-- The remainder of the truncated quotient; x by zero (R434). -/
def remiOp (a : AluIn) : AluOut :=
  let x := a.int a.x
  let y := a.int a.y
  if y = 0 then a.wrap x else a.wrap (x.tmod y)

def minOp (a : AluIn) : AluOut := a.wrap (if a.int a.y < a.int a.x then a.int a.y else a.int a.x)
def maxOp (a : AluIn) : AluOut := a.wrap (if a.int a.x < a.int a.y then a.int a.y else a.int a.x)

/-- A bitwise result over N bits (R346). -/
def bitOut (a : AluIn) (v : BitVec 64) : AluOut := a.wrap v.toInt

def andOp (a : AluIn) : AluOut := bitOut a (a.x &&& a.y)
def orOp (a : AluIn) : AluOut := bitOut a (a.x ||| a.y)
def xorOp (a : AluIn) : AluOut := bitOut a (a.x ^^^ a.y)
def andnOp (a : AluIn) : AluOut := bitOut a (a.x &&& ~~~a.y)
def notOp (a : AluIn) : AluOut := bitOut a (~~~a.x)

/-- The shifts, with the amount read as unsigned; a full-width amount or more gives 0 or copies of the top bit (R437). -/
def shlOp (a : AluIn) : AluOut :=
  let n := intWidth a.ty
  let k := a.nat a.y
  a.wrap (if n ≤ k then 0 else (a.nat a.x * 2 ^ k : Nat))
def shrOp (a : AluIn) : AluOut :=
  let n := intWidth a.ty
  let k := a.nat a.y
  a.wrap (if n ≤ k then 0 else (a.nat a.x / 2 ^ k : Nat))
def sarOp (a : AluIn) : AluOut :=
  let n := intWidth a.ty
  let k := a.nat a.y
  let x := signedOf n (a.nat a.x)
  a.wrap (if n ≤ k then (if x < 0 then -1 else 0) else x / (2 ^ k : Nat))
def rotOp (a : AluIn) : AluOut :=
  let n := intWidth a.ty
  let k := a.nat a.y % n
  let x := a.nat a.x
  a.wrap (x * 2 ^ k % 2 ^ n + x / 2 ^ (n - k) : Nat)

def clzOp (a : AluIn) : AluOut := countOut (leadingZeros (intWidth a.ty) (a.nat a.x))
def popcOp (a : AluIn) : AluOut := countOut (popcount (intWidth a.ty) (a.nat a.x))
def brevOp (a : AluIn) : AluOut := a.wrap (bitReverse (intWidth a.ty) (a.nat a.x))

/-- The field of bfx: start b [7:0], length b [15:8] limited to N; bits at or above N count as 0 (R354). -/
def bfxOp (a : AluIn) : AluOut :=
  let n := intWidth a.ty
  let p := lowNat 8 a.y
  let l := min (lowNat 8 (a.y >>> 8)) n
  let f := a.nat a.x / 2 ^ p % 2 ^ l
  a.wrap (if l = 0 then 0 else if intSigned a.ty then signedOf l f else f)

/-- z with the field replaced by the low bits of x (R354). -/
def bfiOp (a : AluIn) : AluOut :=
  let n := intWidth a.ty
  let p := lowNat 8 a.y
  let l := min (lowNat 8 (a.y >>> 8)) n
  let m := (2 ^ l - 1) * 2 ^ p % 2 ^ n
  let x := a.nat a.x * 2 ^ p % 2 ^ n
  a.wrap ((x &&& m) + (a.nat a.z - (a.nat a.z &&& m)) : Nat)

/-- x where the chooser is not 0, else y (R439). -/
def selOp (a : AluIn) : AluOut := bitOut a (if a.z != 0 then a.x else a.y)

/-- 1 where x cond y holds, else 0 (R367). -/
def cmpOp (a : AluIn) : AluOut :=
  AluOut.of (boolWord (condHolds a.var (intCompare (intWidth a.ty) (intSigned a.ty) a.x a.y)))

/-- base + off, wrapping at 2^64 (R409). -/
def leaOp (a : AluIn) : AluOut :=
  let off := match a.ty with
    | 0 => signExt 32 a.y
    | 1 => zeroExt 32 a.y
    | _ => a.y
  AluOut.of (a.x + off)

/-- A copy (R417). -/
def movOp (a : AluIn) : AluOut := AluOut.of a.x

end Sys2Proof.Machine
end

