-- ==== Sys2Proof/Machine/Alu.lean ====
section
/-! DEFINITION. The meanings of the integer, floating, conversion and dot-product instructions, in T and V form and in a slot. -/

namespace Sys2Proof.Machine

/-- An ALU instruction: in T and V form it acts in every guarded lane or element and goes on at the next word (R340, R377); in a slot
it computes on one token (R77). -/
def aluStep (i : Instr) (f : AluIn → AluOut) (s : State) : Result :=
  match i.aluRow with
  | some (r, .native w) => native (aluUses i r w) s fun e => e.finish (e.aluGroup i r w f) s
  | some (r, .slot w) => slotStep i w s fun e => e.put s (e.aluCell i r w (s.teamLevel e.team) f)
  | none => .fault .noIssuer

/-- A dot product: its quadrant issue charges 16 (R281, R381); in a slot nothing is charged (R100). -/
def dotStep (i : Instr) (f : AluIn → AluOut) (s : State) : Result :=
  match i.aluRow with
  | some (r, .native w) =>
    native (aluUses i r w) s fun e => e.charged s 16 fun s => e.finish (e.aluGroup i r w f) s
  | _ => aluStep i f s

/-- A microcoded instruction: each issue with Guard in at least one lane counts in retuse (R311, R312). -/
def microStep (i : Instr) (w : AWord) (f : AluIn → AluOut) (s : State) : Result :=
  match i.aluRow with
  | some (r, _) =>
    native (aluUses i r w) s fun e =>
      e.finish (e.aluGroup i r w f) (if e.acts w.g then s.countRetuse e.ctx else s)
  | none => .fault .noIssuer

/-- abs (R341). -/
def execAbs (w : Alu) (s : State) : Result := aluStep (.abs w) absOp s

/-- add (R344). -/
def execAdd (w : Alu) (s : State) : Result := aluStep (.add w) addOp s

/-- addc (R345). -/
def execAddc (w : Alu) (s : State) : Result := aluStep (.addc w) addcOp s

/-- and (R346). -/
def execAnd (w : Alu) (s : State) : Result := aluStep (.and w) andOp s

/-- andn (R346). -/
def execAndn (w : Alu) (s : State) : Result := aluStep (.andn w) andnOp s

/-- bfi (R354). -/
def execBfi (w : Alu) (s : State) : Result := aluStep (.bfi w) bfiOp s

/-- bfx (R354). -/
def execBfx (w : Alu) (s : State) : Result := aluStep (.bfx w) bfxOp s

/-- brev (R357). -/
def execBrev (w : Alu) (s : State) : Result := aluStep (.brev w) brevOp s

/-- clz (R366). -/
def execClz (w : Alu) (s : State) : Result := aluStep (.clz w) clzOp s

/-- cmp (R367). -/
def execCmp (w : Alu) (s : State) : Result := aluStep (.cmp w) cmpOp s

/-- lea (R409). -/
def execLea (w : Alu) (s : State) : Result := aluStep (.lea w) leaOp s

/-- mad (R411). -/
def execMad (w : Alu) (s : State) : Result := aluStep (.mad w) madOp s

/-- max (R412). -/
def execMax (w : Alu) (s : State) : Result := aluStep (.max w) maxOp s

/-- min (R412). -/
def execMin (w : Alu) (s : State) : Result := aluStep (.min w) minOp s

/-- mul (R421). -/
def execMul (w : Alu) (s : State) : Result := aluStep (.mul w) mulOp s

/-- mulh (R421). -/
def execMulh (w : Alu) (s : State) : Result := aluStep (.mulh w) mulhOp s

/-- not (R424). -/
def execNot (w : Alu) (s : State) : Result := aluStep (.not w) notOp s

/-- or (R424). -/
def execOr (w : Alu) (s : State) : Result := aluStep (.or w) orOp s

/-- popc (R424). -/
def execPopc (w : Alu) (s : State) : Result := aluStep (.popc w) popcOp s

/-- rot (R437). -/
def execRot (w : Alu) (s : State) : Result := aluStep (.rot w) rotOp s

/-- sar (R437). -/
def execSar (w : Alu) (s : State) : Result := aluStep (.sar w) sarOp s

/-- shl (R437). -/
def execShl (w : Alu) (s : State) : Result := aluStep (.shl w) shlOp s

/-- shr (R437). -/
def execShr (w : Alu) (s : State) : Result := aluStep (.shr w) shrOp s

/-- sel (R439). -/
def execSel (w : Alu) (s : State) : Result := aluStep (.sel w) selOp s

/-- sub (R451). -/
def execSub (w : Alu) (s : State) : Result := aluStep (.sub w) subOp s

/-- subb (R452). -/
def execSubb (w : Alu) (s : State) : Result := aluStep (.subb w) subbOp s

/-- xor (R461). -/
def execXor (w : Alu) (s : State) : Result := aluStep (.xor w) xorOp s

/-- mov (R417). -/
def execMov (w : Alu) (s : State) : Result := aluStep (.mov w) movOp s

/-- fadd (R378). -/
def execFadd (w : Alu) (s : State) : Result := aluStep (.fadd w) faddOp s

/-- fclass (R389). -/
def execFclass (w : Alu) (s : State) : Result := aluStep (.fclass w) fclassOp s

/-- fcmp (R390). -/
def execFcmp (w : Alu) (s : State) : Result := aluStep (.fcmp w) fcmpOp s

/-- fcos (R379). -/
def execFcos (w : Alu) (s : State) : Result := aluStep (.fcos w) fcosOp s

/-- fexp2 (R379). -/
def execFexp2 (w : Alu) (s : State) : Result := aluStep (.fexp2 w) fexp2Op s

/-- ffma (R378). -/
def execFfma (w : Alu) (s : State) : Result := aluStep (.ffma w) ffmaOp s

/-- flog2 (R379). -/
def execFlog2 (w : Alu) (s : State) : Result := aluStep (.flog2 w) flog2Op s

/-- fmax (R392). -/
def execFmax (w : Alu) (s : State) : Result := aluStep (.fmax w) fmaxOp s

/-- fmin (R392). -/
def execFmin (w : Alu) (s : State) : Result := aluStep (.fmin w) fminOp s

/-- fmul (R378). -/
def execFmul (w : Alu) (s : State) : Result := aluStep (.fmul w) fmulOp s

/-- frcp (R379). -/
def execFrcp (w : Alu) (s : State) : Result := aluStep (.frcp w) frcpOp s

/-- frnd (R393). -/
def execFrnd (w : Alu) (s : State) : Result := aluStep (.frnd w) frndOp s

/-- frsq (R379). -/
def execFrsq (w : Alu) (s : State) : Result := aluStep (.frsq w) frsqOp s

/-- fscale (R394). -/
def execFscale (w : Alu) (s : State) : Result := aluStep (.fscale w) fscaleOp s

/-- fsin (R379). -/
def execFsin (w : Alu) (s : State) : Result := aluStep (.fsin w) fsinOp s

/-- fsqrt (R379). -/
def execFsqrt (w : Alu) (s : State) : Result := aluStep (.fsqrt w) fsqrtOp s

/-- fsub (R378). -/
def execFsub (w : Alu) (s : State) : Result := aluStep (.fsub w) fsubOp s

/-- ftanh (R379). -/
def execFtanh (w : Alu) (s : State) : Result := aluStep (.ftanh w) ftanhOp s

/-- cvt (R375). -/
def execCvt (w : Alu) (s : State) : Result := aluStep (.cvt w) cvtOp s

/-- pack (R425). -/
def execPack (w : Alu) (s : State) : Result := aluStep (.pack w) packOp s

/-- unpack (R456). -/
def execUnpack (w : Alu) (s : State) : Result := aluStep (.unpack w) unpackOp s

/-- dot2 (R381). -/
def execDot2 (w : Alu) (s : State) : Result := dotStep (.dot2 w) dot2Op s

/-- dot4 (R381). -/
def execDot4 (w : Alu) (s : State) : Result := dotStep (.dot4 w) dot4Op s

/-- dot8 (R381). -/
def execDot8 (w : Alu) (s : State) : Result := dotStep (.dot8 w) dot8Op s

/-- divi (R380). -/
def execDivi (w : AWord) (s : State) : Result := microStep (.divi w) w diviOp s

/-- remi (R434). -/
def execRemi (w : AWord) (s : State) : Result := microStep (.remi w) w remiOp s

/-- fdiv (R378). -/
def execFdiv (w : AWord) (s : State) : Result := microStep (.fdiv w) w fdivOp s

end Sys2Proof.Machine
end

