-- ==== Sys2Proof/Machine/Launches.lean ====
section
/-! DEFINITION. Launch transactions (R246 to R259): status records and completion signals, the end of grids and launches, conflict and
commit, and the steps of the shadow. -/

namespace Sys2Proof.Machine

-- ## Status records and signals (R253, R266)

/-- The final codes of a status record. -/
inductive EndCode where
  | committed | conflict | fault | kill | shadow
deriving DecidableEq, Repr

def EndCode.code : EndCode → Nat
  | .committed => 1
  | .conflict => 2
  | .fault => 3
  | .kill => 4
  | .shadow => 5

/-- What ends a launch or a grid: the code, and for a fault its kind and address. -/
structure Ending where
  code : EndCode
  kind : Nat
  addr : BitVec 64
deriving DecidableEq, Repr

def Ending.plain (c : EndCode) : Ending := { code := c, kind := 0, addr := 0 }

/-- The trap kinds' codes (R284). -/
def TrapKind.number : TrapKind → Nat
  | .illegal => 1
  | .priv => 2
  | .align => 3
  | .bounds => 4
  | .page => 5
  | .prot => 6
  | .converge => 7
  | .acclimit => 8
  | .stack => 9
  | .config => 10
  | .shadow => 11
  | .retired => 12
  | .bkpt => 13
  | .swtrap => 14
  | .ecc => 15

/-- The abort that a trap comes to (R284): ABORT_SHADOW for SHADOW, else ABORT_FAULT. -/
def Ending.ofTrap (k : TrapKind) (addr : BitVec 64) : Ending :=
  { code := if k == .shadow then .shadow else .fault, kind := k.number, addr := addr }

/-- The fields of a status record after its code. -/
structure StatusFields where
  attempts : Nat
  serial : Bool
  child : Bool
  tag : BitVec 16
  sub : Nat
  seq : BitVec 64
deriving DecidableEq, Repr

/-- Writes a status record; an address of 0 names none. -/
def State.writeStatus (s : State) (ctx : Nat) (addr : BitVec 64) (code : Nat) (f : StatusFields) (kind : Nat) (fault : BitVec 64) : State :=
  if addr == 0 then s
  else s.hubWrite ctx addr (leBytes 4 code ++ leBytes 2 f.attempts ++ leBytes 2 ((if f.serial then 1 else 0) + if f.child then 2 else 0)
    ++ leBytes 2 f.tag.toNat ++ leBytes 2 f.sub ++ leBytes 4 kind ++ leBytes 8 fault.toNat ++ leBytes 8 f.seq.toNat)

/-- The PENDING record of an accepted launch: code 0, every other field 0 (R253). -/
def State.writePending (s : State) (ctx : Nat) (addr : BitVec 64) : State :=
  if addr == 0 then s else s.hubWrite ctx addr (List.replicate 32 0)

/-- One atomic add to a signal; an address of 0 names none, and one that cannot be written any more is dropped (R266). -/
def State.addSignal (s : State) (ctx : Nat) (addr n : BitVec 64) : State :=
  if addr == 0 then s
  else
    let s := s.touchWalk ctx addr.toNat
    match s.hubXlat ctx addr .write with
    | some t => s.perform hubRef 0 [] (.phys t.pa false) (leBytes 8 (BitVec.ofNat 64 (s.committedNat t.pa 8) + n).toNat)
    | none => s

/-- The fields of a grid's record, by its launch. -/
def State.statusOf (s : State) (l : Nat) (sub : Nat) : StatusFields :=
  match Table.find s.launches l with
  | some x => { attempts := x.attempts, serial := x.ranSerial, child := sub != 0, tag := x.tag.getD 0, sub := sub, seq := 0 }
  | none => { attempts := 0, serial := false, child := sub != 0, tag := 0, sub := sub, seq := 0 }

-- ## Teams and grids that end (R34, R43, R45)

/-- A core without what a team has on it: its engine commands, requests and events. -/
def Core.without (tk : Nat) (c : Core) : Core :=
  { c with accepted := c.accepted.filter fun x => x.g.team != tk,
           executing := c.executing.filter fun x => x.g.team != tk,
           copies := c.copies.filter fun x => x.g.team != tk,
           tileQ := c.tileQ.filter fun x => x.2.team != tk,
           agent := { c.agent with events := c.agent.events.filter fun v => match v with
             | .trap g => g.team != tk
             | .faultRecord t => t != tk
             | _ => true } }

/-- A store goes on where its team has ended: what R248 leaves untransactional. -/
def PendStore.lasting (x : PendStore) : Bool :=
  match x.loc with
  | .phys _ txn => !txn
  | .scratch _ => false

/-- What a group of a team that ends leaves to perform: its stores that no shadow and no scratchpad range take with them (R248, R254, log 50). -/
def Group.leave (g : Group) : Group :=
  { g with state := .retired, trap := none, owed := none, loads := [], stores := g.stores.filter PendStore.lasting }

/-- A team's groups leave stores behind. -/
def State.leaveStores (s : State) (tk : Nat) (t : Team) : State :=
  let gs := t.groups.map Group.leave
  if gs.any fun g => !g.stores.isEmpty then { s with left := Table.put s.left tk (t.core, gs) } else s

/-- A team leaves the machine with everything it started: its slots, registers, scratchpad range, tiles and region are free. -/
def State.dropTeam (s : State) (tk : Nat) : State :=
  let core := match Table.find s.teams tk with
    | some t => t.core
    | none => 0
  let s := match Table.find s.teams tk with
    | some t => s.leaveStores tk t
    | none => s
  ({ s with teams := Table.del s.teams tk, queries := s.queries.filter fun q => q.g.team != tk,
            colls := s.colls.filter fun c => c.g.team != tk, cores := Table.mapVals s.cores (Core.without tk) }).rouseCore core

/-- The grid descends from another, or is it. -/
def State.descends (s : State) : Nat → Nat → Nat → Bool
  | 0, g, a => g == a
  | fuel + 1, g, a => g == a || match Table.find s.grids g with
    | some x => match x.parent with
      | some p => State.descends s fuel p a
      | none => false
    | none => false

/-- The grids that descend from a grid, itself not among them. -/
def State.descendants (s : State) (a : Nat) : List Nat :=
  (s.grids.filter fun g => g.1 != a && s.descends 11 g.1 a).map fun g => g.1

/-- The teams of a grid leave the machine. -/
def State.dropTeams (s : State) (g : Nat) : State :=
  (s.teams.filter fun t => t.2.grid == g).foldl (fun s t => s.dropTeam t.1) s

/-- A version's shadow is discarded, with its lines in the overflow region, and with the words of code that were fetched through it (R249). -/
def State.discardShadow (s : State) (ver : Nat × Nat) : State :=
  let s := match s.versionKey ver with
    | some k => { s with contexts := Table.mapVals s.contexts fun c => { c with overflow := c.overflow.filter fun e => e.1 != k } }
    | none => s
  { s with shadows := s.shadows.filter fun x => !(x.launch == ver.1 && x.sub == ver.2),
           cores := Table.mapVals s.cores fun c => { c with icache := c.icache.filter fun w => !w.view.contains ver,
                                                            loops := c.loops.filter fun b => !b.view.contains ver } }

/-- A grid leaves the machine: its record and its place in a device queue; a child's sub-version ends, and what waits for either goes on. -/
def State.removeGrid (s : State) (g : Nat) : State :=
  match Table.find s.grids g with
  | none => s
  | some x =>
    let s := { s with grids := Table.del s.grids g, devQueues := Table.mapVals s.devQueues fun l => l.filter fun k => k != g }
    (s.modLaunch x.launch fun l => { l with subs := l.subs.filter fun n => n != x.sub }).rouseAll

/-- A child grid ends without retiring: its teams leave, its sub-version is discarded, its record gets a final code (R34, R258). -/
def State.endChild (s : State) (g : Nat) (e : Ending) : State :=
  match Table.find s.grids g with
  | none => s
  | some x =>
    let s := (s.dropTeams g).discardShadow (x.launch, x.sub)
    let s := (s.writeStatus x.ctx x.status e.code.code (s.statusOf x.launch x.sub) e.kind e.addr).addSignal x.ctx x.signal 1
    s.removeGrid g

/-- Every descendant of a grid is killed: ABORT_KILL (R34). -/
def State.killDescendants (s : State) (g : Nat) : State :=
  (s.descendants g).foldl (fun s k => s.endChild k (Ending.plain .kill)) s

-- ## Retirement (R34, R35, R252, R258)

/-- The bytes of one version replace those of another in one event, whose lines are touched (R256, R258). -/
def State.joinShadow (s : State) (ver parent : Nat × Nat) : State :=
  match s.shadows.find? fun x => x.launch == ver.1 && x.sub == ver.2 with
  | none => s
  | some x =>
    let s := s.keep hubRef 0 (x.bytes.map fun e => (some parent, Loc.phys e.1 true))
    let s := { s with shadows := x.bytes.foldl (fun sh (e : Nat × Byte) => putShadow parent e.1 e.2 sh) s.shadows }
    (x.bytes.foldl (fun s (e : Nat × Byte) => s.touchLine parent (lineOf e.1)) s).discardShadow ver

/-- A grid whose teams and children have all retired retires: a child joins its parent's version as one event, and a top-level launch is ready
to commit. -/
def State.gridDone : Nat → State → Nat → State
  | 0, s, _ => s
  | fuel + 1, s, g =>
    match Table.find s.grids g with
    | none => s
    | some x =>
      if x.nextTeam != x.teams || x.retired != x.teams || s.grids.any (fun k => k.2.parent == some g) then s
      else match x.parent with
        | none => s.modLaunch x.launch fun l => if l.phase == .running then { l with phase := .done } else l
        | some p =>
          let psub := match Table.find s.grids p with
            | some y => y.sub
            | none => 0
          let s := s.joinShadow (x.launch, x.sub) (x.launch, psub)
          let s := (s.writeStatus x.ctx x.status EndCode.committed.code (s.statusOf x.launch x.sub) 0 0).addSignal x.ctx x.signal 1
          State.gridDone fuel (s.removeGrid g) p

/-- The bytes of window that a command of an engine names by an extent (R416). -/
def Extent.meets (e : Extent) (lo n : Nat) : Bool :=
  !e.virt && (List.range e.rows).any fun i =>
    decide (e.start.toNat + i * e.pitch < lo + n) && decide (lo < e.start.toNat + i * e.pitch + e.rowBytes)

/-- A command names scratchpad of a range. -/
def MatrixCmd.meets (c : MatrixCmd) (lo n : Nat) : Bool :=
  match c.op with
  | .mma _ _ a b _ _ _ => a.meets lo n || b.meets lo n
  | .accld _ e | .accst _ e => e.meets lo n

/-- An engine command of any core reads or writes a team's range (R416). -/
def State.rangeInUse (s : State) (t : Team) : Bool :=
  let (lo, n) := s.teamRange t
  s.cores.any fun c => (c.2.accepted ++ c.2.executing.toList).any fun x => x.meets lo n

/-- Every asynchronous operation that a team started has completed (R43), and no trap of a group of it waits to be recorded (R286). -/
def State.teamQuiet (s : State) (tk : Nat) (t : Team) : Bool :=
  t.groups.all (fun g => g.flagsZero && g.loads.isEmpty && g.stores.isEmpty && g.trap.isNone)
    && !(s.cores.any fun c => (c.2.accepted ++ c.2.executing.toList).any (fun x => x.g.team == tk) || c.2.copies.any fun x => x.g.team == tk)
    && !s.rangeInUse t

-- ## Aborts (R254, R258, R259)

/-- A new OVF is in force once its context has no uncommitted launch (R260). -/
def State.applyOverflow (s : State) (ctx : Nat) : State :=
  if s.launches.any fun l => l.2.ctx == ctx && l.2.tag.isSome then s
  else s.modContext ctx fun c => { c with ovfInForce := c.txcOvf }

/-- A launch leaves the machine: its packet completes (R266), and its queue goes on. -/
def State.forgetLaunch (s : State) (l : Nat) : State :=
  match Table.find s.launches l with
  | none => s
  | some x =>
    let s := ({ s with launches := Table.del s.launches l }).modQueue x.queue fun q =>
      { q with running := q.running.filter fun r => r.launch != some l }
    (s.applyOverflow x.ctx).rouseAll

/-- The grid of a top-level launch. -/
def Launch.grid (l : Launch) : Option Nat :=
  match l.kind with
  | .grid g => some g
  | _ => none

/-- Every team and child of a launch leaves the machine, and every shadow line of it is discarded. -/
def State.stopLaunch (s : State) (l : Nat) : State :=
  match Table.find s.launches l with
  | none => s
  | some x =>
    let s := match x.grid with
      | some g => (s.killDescendants g).dropTeams g
      | none => s
    s.discardShadow (l, 0)

/-- The final outcome of a launch: the record, with the code last, then the completion signal (R252, R253, R266). -/
def State.settleLaunch (s : State) (l : Nat) (e : Ending) (seq : BitVec 64) : State :=
  match Table.find s.launches l with
  | none => s
  | some x =>
    let s := (s.writeStatus x.ctx x.status e.code.code { s.statusOf l 0 with seq := seq } e.kind e.addr).addSignal x.ctx x.signal 1
    let s := match x.grid with
      | some g => s.removeGrid g
      | none => s
    (s.forgetLaunch l).closeSpans

/-- A final abort: ABORT_FAULT, ABORT_KILL or ABORT_SHADOW; no replay (R247, R259). -/
def State.abortLaunch (s : State) (l : Nat) (e : Ending) : State := (s.stopLaunch l).settleLaunch l e 0

/-- A grid aborts: a top-level launch finally, a child alone with its descendants, and its parent goes on (R34, R258). -/
def State.abortGrid (s : State) (g : Nat) (e : Ending) : State :=
  match Table.find s.grids g with
  | none => s
  | some x => match x.parent with
    | none => s.abortLaunch x.launch e
    | some p => (State.gridDone 11 ((s.killDescendants g).endChild g e) p).closeSpans

/-- The launch stands in the save area whole: it has teams, and none is placed (R259). -/
def State.launchSaved (s : State) (l : Nat) : Bool :=
  let ts := s.teams.filter fun t => match Table.find s.grids t.2.grid with
    | some g => g.launch == l
    | none => false
  !ts.isEmpty && ts.all fun t => t.2.phase != .placed

/-- A launch aborts with ABORT_CONFLICT, to replay (R251, R254): its effects are discarded and its sets cleared. counted says whether the abort
counts toward RETRY (R255). The teams of a saved launch stay in the save area until the restore (R259). -/
def State.abortOne (s : State) (l : Nat) (counted : Bool) : State :=
  match Table.find s.launches l with
  | none => s
  | some x =>
    let saved := s.launchSaved l
    let s := if saved then
        (s.shadows.filter fun v => v.launch == l).foldl (fun s v => s.discardShadow (v.launch, v.sub)) s
      else s.stopLaunch l
    let n := x.counted + if counted then 1 else 0
    let s := s.modLaunch l fun x => { x with
      phase := .replay, attempts := x.attempts + 1, counted := n, serial := x.serial || decide (x.retry ≤ n),
      readWords := [], saw := [], missed := [], sig := 0, aborted := saved }
    let s := s.writeStatus x.ctx x.status EndCode.conflict.code (s.statusOf l 0) 0 0
    (match x.grid with
      | some g => s.modGrid g fun g => { g with nextTeam := 0, retired := 0, counter := 0, admitted := false }
      | none => s).closeSpans

/-- A launch runs or is ready: an attempt of it is under way. -/
def Launch.active (l : Launch) : Bool := l.tag.isSome && (l.phase == .running || l.phase == .done)

/-- The launches later in commit order that are running abort; these aborts do not count (R255). -/
def State.abortLater (s : State) (l : Nat) : State :=
  (s.launches.filter fun y => y.2.active && s.before l y.1).foldl (fun s y => s.abortOne y.1 false) s

/-- A launch with an attempt under way aborts with ABORT_CONFLICT; one that waits to start again has nothing to abort. Where its next attempt is to
run serialised, it is serialised from here on: every later launch that is running aborts too (R255). -/
def State.abortConflict (s : State) (l : Nat) (counted : Bool) : State :=
  if !((Table.find s.launches l).any Launch.active) then s
  else
    let t := s.abortOne l counted
    match Table.find t.launches l with
    | some x => if x.serial then t.abortLater l else t
    | none => t

-- ## Conflict (R250, R251)

/-- The four signature bits of a line. -/
def signatureBits (line : Nat) : BitVec 2048 :=
  (List.range 4).foldl (fun b k => b ||| (1#2048 <<< (Config.signatureHash k line % 2048))) 0

/-- A signature reports a line. -/
def signatureHas (sig : BitVec 2048) (line : Nat) : Bool := sig &&& signatureBits line == signatureBits line

/-- The read set of l holds a line or word of the write set of e. -/
def State.conflicts (s : State) (e l : Nat) : Bool :=
  match Table.find s.launches l with
  | none => false
  | some x => x.readWords.any (fun w => if s.tableByte (8 * w) then s.wroteWord e w else s.wroteLine e (w / 8))
      || (x.sig != 0 && (s.writeLines e).any (signatureHas x.sig))

/-- conflict abort: the hardware finds that a launch has read what an earlier uncommitted launch has written, or data as it stood before a commit or
a write from outside that changed it (R251, R306). -/
def execConflictAbort (l : Nat) (s : State) : Result :=
  due <|
    match Table.find s.launches l with
    | none => none
    | some x =>
      if x.active && (x.doomed || s.launches.any fun e => e.2.active && s.before e.1 l && s.conflicts e.1 l)
      then some (s.abortConflict l true) else none

-- ## Commit (R252)

/-- The pins that a BTOP writes when it commits (R268) are the caller's; the version becomes committed data in one event. -/
def State.commitVersion (s : State) (l : Nat) (tag : BitVec 16) : State :=
  match s.shadows.find? fun x => x.launch == l && x.sub == 0 with
  | none => s
  | some x => { (s.keep commitRef 0 (x.bytes.map fun e => (none, Loc.phys e.1 false))) with
      committed := { ctx := ((Table.find s.launches l).map fun y => y.ctx).getD 0, tag := tag, bytes := x.bytes } :: s.committed,
      shadows := s.shadows.filter fun y => !(y.launch == l && y.sub == 0) }

/-- The steps of a commit: every later launch that conflicts aborts, the version commits, and the record and the signal report it. -/
def State.commitLaunch (s : State) (l : Nat) (tag : BitVec 16) : State :=
  let hit := (s.launches.filter fun x => x.2.active && s.before l x.1 && s.conflicts l x.1).map fun x => x.1
  let s := hit.foldl (fun s k => s.abortConflict k true) s
  let n := s.commits + 1
  ({ (s.commitVersion l tag) with commits := n }).settleLaunch l (Ending.plain .committed) n

-- ## The lines of the shadow (R252, R256, R257)

/-- The position of the oldest committed version that holds a line, in a list from position k. -/
def oldestWith (line : Nat) : List Committed → Nat → Option (Nat × Committed)
  | [], _ => none
  | c :: r, k => match oldestWith line r (k + 1) with
    | some x => some x
    | none => if c.bytes.any fun e => e.1 / 64 == line then some (k, c) else none

/-- shadow writeback: the oldest committed version of a line is written back to its home line (R252). -/
def execShadowWriteback (line : Nat) (s : State) : Result :=
  due <|
    match oldestWith line s.committed 0 with
    | none => none
    | some (k, c) =>
      let bytes := c.bytes.filter fun e => e.1 / 64 == line
      let s := { s with mem := bytes.foldr (fun (e : Nat × Byte) (m : Sparse 8) => Sparse.set m e.1 e.2) s.mem,
                        blurs := bytes.foldl (fun l (e : Nat × Byte) => cutBlurs l false e.1 1) s.blurs,
                        committed := (listModify s.committed k fun c => { c with bytes := c.bytes.filter fun e => e.1 / 64 != line }).filter
                          fun c => !c.bytes.isEmpty,
                        contexts := Table.mapVals s.contexts fun x => { x with overflow := x.overflow.filter fun e =>
                          !(e.1 / 4096 == c.tag.toNat && e.2 == line) } }
      some s.closeSpans

/-- The versions of a launch whose shadow line of a line is in the LLC. -/
def State.llcVersions (s : State) (l line : Nat) : List Nat :=
  let held := match Table.find s.launches l with
    | some x => (s.context x.ctx).overflow
    | none => []
  (s.shadows.filter fun x => x.launch == l && x.bytes.any fun e => e.1 / 64 == line).filterMap fun x =>
    (s.versionKey (l, x.sub)).bind fun k => if held.contains (k, line) then none else some k

/-- A line, or a word of it, is in the launch's read set (R250). -/
def Launch.readsLine (x : Launch) (line : Nat) : Bool := x.readWords.any fun w => w / 8 == line

/-- The membership of a line and of its words moves to the read signature (R250). -/
def Launch.evictRead (x : Launch) (line : Nat) : Launch :=
  { x with readWords := x.readWords.filter fun w => w / 8 != line, sig := x.sig ||| signatureBits line }

/-- The committed versions whose shadow line of a line is in the LLC: their contexts and numbers. -/
def State.llcCommitted (s : State) (line : Nat) : List (Nat × Nat) :=
  (s.committed.filter fun c => c.hasLine line && !(s.context c.ctx).overflow.contains (c.tag.toNat * 4096, line)).map fun c => (c.ctx, c.tag.toNat * 4096)

/-- A shadow line of a context moves to its overflow region. -/
def State.spillLine (s : State) (line : Nat) (x : Nat × Nat) : State :=
  s.modContext x.1 fun c => { c with overflow := (x.2, line) :: c.overflow }

/-- shadow evict: the LLC evicts a line of a launch, or for launch 0 one of a committed version. A shadow line moves to the overflow region, and the
membership of a line in the read set to the read signature (R250, R256). -/
def execShadowEvict (launch line : Nat) (s : State) : Result :=
  due <|
    let l := Table.find s.launches launch
    let lines := match l with
      | some x => (s.llcVersions launch line).map fun k => (x.ctx, k)
      | none => if launch = 0 then s.llcCommitted line else []
    let shadow := (lines.filter fun x => !s.overflowFull x.1).map some
    match shadow ++ (if l.any fun x => x.readsLine line then [none] else []) with
    | [] => none
    | x :: r =>
      let (y, s) := s.pickFrom (x :: r) none
      some (match y with
        | some v => s.spillLine line v
        | none => s.modLaunch launch fun l => l.evictRead line)

/-- shadow store resume: a store that waits for the overflow region issues again once space is free, or once its launch has become the
oldest (R257). -/
def execShadowStoreResume (r : GroupRef) (s : State) : Result :=
  due <|
    match s.findGroup r, Table.find s.teams r.team with
    | some g, some t =>
      if g.state == .waiting .shadow && (!s.overflowFull (s.teamCtx t) || s.isOldest (s.teamLaunch t))
      then some (s.modGroup r fun g => { g with state := .ready }) else none
    | _, _ => none

/-- A shadow line or an uncommitted launch carries the tag (R246). -/
def State.tagInUse (s : State) (tag : BitVec 16) : Bool :=
  (s.committed.any fun c => c.tag == tag) || s.launches.any fun l => l.2.tag == some tag

/-- The version window has room for a new launch, and none is serialised (R246, R255). -/
def State.windowOpen (s : State) : Bool :=
  decide ((s.launches.filter fun l => l.2.uncommitted).length < 64) && !(s.launches.any fun l => l.2.serial) && !s.tagInUse (s.lastTag + 1)

/-- A launch takes the next version tag (R246), and latches RETRY and its level (R171, R260). -/
def State.startLaunch (s : State) (l level : Nat) : State :=
  match Table.find s.launches l with
  | none => s
  | some x =>
    let c := s.context x.ctx
    ({ s with lastTag := s.lastTag + 1, nextId := s.nextId + 1 }).modLaunch l fun y =>
      { y with tag := some (s.lastTag + 1), phase := .running, retry := c.txcRetry.toNat, level := level, order := s.nextId }

end Sys2Proof.Machine
end

