-- ==== Sys2Proof/Machine/Matrix.lean ====
section
/-! DEFINITION. Engine records, the matrix engine and the accumulator tiles: mma, accld, accst, accalloc, accgrow, accfree and the steps
that complete them (R177 to R192, R205, R342, R343, R416). -/

namespace Sys2Proof.Machine

-- ## Engine commands at issue (R60, R180)

/-- The fields of an extent record. -/
structure Record where
  lo : Word
  hi : Word
  rows : Nat
  rowBytes : Nat
  pitch : Nat
deriving DecidableEq, Repr

/-- Reads an extent record from s-registers. -/
def Env.record (e : Env) (r : Nat) : Record :=
  { lo := e.grp.readS r, hi := e.grp.readS (r + 1), rows := ((e.grp.readS (r + 2)).extractLsb' 16 16).toNat,
    rowBytes := ((e.grp.readS (r + 2)).extractLsb' 0 16).toNat, pitch := (e.grp.readS (r + 3)).toNat }

/-- A pitch below the row bytes with more than one row (R180, R205). -/
def Record.badPitch (r : Record) : Bool := decide (1 < r.rows) && decide (r.pitch < r.rowBytes)

/-- The lowest byte of a footprint that lies outside a range lo to lo + n - 1, where its first byte is at a. -/
def Record.firstOutside (r : Record) (a lo n : Nat) : Option Nat :=
  if a < lo then some a
  else ((List.range r.rows).find? fun i => decide (lo + n < a + i * r.pitch + r.rowBytes)).map fun i => max (a + i * r.pitch) (lo + n)

/-- A scratchpad record: its extent as bytes of the window, or the address that raises BOUNDS (R180). -/
def Env.scratchExtent (e : Env) (s : State) (r : Record) : Except (BitVec 64) Extent :=
  let off := r.lo.toNat
  let ext := fun start : Nat => ({ virt := false, start := BitVec.ofNat 64 start, rows := r.rows, rowBytes := r.rowBytes, pitch := r.pitch } : Extent)
  if r.hi = 0 then
    match e.team with
    | none => .error (BitVec.ofNat 64 off)
    | some t =>
      if r.badPitch then .error (BitVec.ofNat 64 off)
      else
        let (lo, n) := s.teamRange t
        match r.firstOutside off 0 n with
        | some a => .error (BitVec.ofNat 64 a)
        | none => .ok (ext (lo + off))
  else
    let va := BitVec.ofNat 64 (windowBase + off)
    match e.team with
    | none => .error va
    | some t =>
      if r.hi != 1 || r.badPitch || off / sliceSize / 4 != e.core / 4 then .error va
      else match s.teams.find? fun x => x.2.grid == t.grid && x.2.phase == .placed && x.2.core == off / sliceSize
            && (let (lo, n) := s.teamRange x.2; decide (lo ≤ off) && decide (off < lo + n)) with
        | none => .error va
        | some x =>
          let (lo, n) := s.teamRange x.2
          match r.firstOutside off lo n with
          | some a => .error (BitVec.ofNat 64 (windowBase + a))
          | none => .ok (ext off)

/-- A trap of an engine command: of the whole group, with the address that fails. -/
def Env.engineTrap (e : Env) (s : State) (k : TrapKind) (ak : AccessKind) (addr : BitVec 64) : State :=
  e.trapWith s e.grp k (if k == .align || k == .bounds || k == .page || k == .prot || k == .ecc then accessDetail k ak else 0) addr wholeGroup false

/-- What an engine instruction does first: ILLEGAL for a selected flag of 0xF; nothing where Guard holds in no active lane (R60). -/
def Env.engine (e : Env) (s : State) (w : XWord) (body : Nat → State) : State :=
  match e.path.flagOf w.fsel with
  | none => e.trap s .illegal
  | some f => if e.acts w.g then body f else e.finish e.grp s

/-- A full flag holds the command (R60); else the state with the flag counted, and the next word. -/
def Env.counted (e : Env) (s : State) (f : Nat) : State := e.finish (e.grp.flagInc f) s

/-- The registers of an X word. -/
def xUses (l : List Nat) : Uses := { v := [], s := l }

/-- The team of a reference. -/
def State.teamOf (s : State) (r : GroupRef) : Option Team := if r.team = 0 then none else Table.find s.teams r.team

/-- What a command that issues now must show: what its group must, or none while its own acquire at a scope of clu or wider is yet to come (R188, R217,
R228). -/
def Env.commandFloor (e : Env) (s : State) (w : XWord) : Option Nat :=
  if !(w.acq && wideAcquire (some w.scope.toNat)) then some e.grp.know.floor
  else if e.grp.acquiresDone true e.grp.seq then some s.stamp
  else none

/-- What a command that issues now knows: what its group does, and by a wide acquire the stores that have performed at its scope. -/
def Env.commandKnow (e : Env) (s : State) (w : XWord) : Know :=
  if w.acq && wideAcquire (some w.scope.toNat) && e.grp.acquiresDone true e.grp.seq then
    { e.grp.know with met := s.nearIds e.gref w.scope.toNat ++ e.grp.know.met }
  else e.grp.know

/-- What a command's reads must show: its group, its own place, and its bounds (R187, R188). -/
structure Reader where
  g : GroupRef
  seq : Nat
  since : Nat
  floor : Nat
  know : Know
deriving DecidableEq, Repr

def MatrixCmd.reader (c : MatrixCmd) (s : State) : Reader :=
  { g := c.g, seq := c.seq, since := c.since, floor := c.floor.getD s.stamp, know := c.know }
def CopyCmd.reader (c : CopyCmd) (s : State) : Reader :=
  { g := c.g, seq := c.seq, since := c.since, floor := c.floor.getD s.stamp, know := c.know }
def CollCmd.reader (c : CollCmd) (s : State) : Reader :=
  { g := c.g, seq := c.seq, since := c.since, floor := c.floor.getD s.stamp, know := c.know }

/-- The stores to a location that a command sees before they perform at their home, in the order in which they will: of other groups, and of its own
before it (R187). -/
def State.readerStores (s : State) (x : Reader) (l : Loc) (n : Nat) : List (GroupRef × PendStore) :=
  let view := s.viewOfRef x.g
  (match s.findGroup x.g with
    | some g => s.seenStores x.g view g x.seq
    | none => s.nearStores x.g view).filter fun y => y.2.loc.overlaps y.2.bytes l n

/-- The number of the newest event at a location that a command's reads must show: its group's before its issue, those of others up to its floor, those
that it knows, and those that its group has seen there (R187, R188, R222, R242). -/
def State.readerBound (s : State) (x : Reader) (l : Loc) (n : Nat) : Nat :=
  let must := fun h : OldByte => if h.src == x.g then decide (h.stamp ≤ x.since) || decide (h.seq < x.seq) else x.know.shows h.src h.seq
  let own := (s.history.filter fun h => h.meets (s.viewOfRef x.g) l n && must h).map fun h => h.stamp
  let seen := (x.know.seen.filter fun y => y.1.ordered y.2.1 l n).map fun y => y.2.2
  (own ++ seen).foldl max x.floor

/-- The events at a location before which a command may have read it. -/
def State.readerStamps (s : State) (x : Reader) (l : Loc) (n : Nat) : List Nat :=
  let last := s.readerBound x l n
  ((s.history.filter fun h => h.meets (s.viewOfRef x.g) l n && decide (last < h.stamp)).map fun h => h.stamp).eraseDups

/-- The times at which a command may read memory: now, or before one of those stores, in agreement with what its launch has read (FS8). -/
def State.readerTimes (s : State) (x : Reader) (l : Loc) (n : Nat) : List Nat :=
  (s.stamp :: (s.readerStamps x l n).map fun k => k - 1).filter fun k => s.agrees k (s.viewOfRef x.g) l n

/-- A value that a command may read: its bytes, the time of what memory gives, and the stores that lie over it. -/
structure Seen where
  bytes : List Byte
  at_ : Nat
  upper : List (GroupRef × PendStore)
deriving DecidableEq, Repr

/-- What a list of stores leaves, laid over memory at a time. -/
def State.seenUnder (s : State) (x : Reader) (l : Loc) (n at_ : Nat) (upper : List (GroupRef × PendStore)) : Seen :=
  { bytes := overStores l n (s.readLocAt at_ (s.viewOfRef x.g) l n) (upper.map fun y => y.2), at_ := at_, upper := upper }

/-- The values of a stretch that a command may read (R187, R188): with the stores on their way to their home up to any of them, from the newest that
it knows on; where it knows none, memory alone as well, now or before a store that it need not show. -/
def State.readerValues (s : State) (x : Reader) (l : Loc) (n : Nat) : List Seen :=
  let ys := s.readerStores x l n
  let least := reachLast (x.know.binds x.g) ys
  ((List.range (ys.length + 1)).filter fun k => decide (max least 1 ≤ k)).reverse.map (fun k => s.seenUnder x l n s.stamp (ys.take k))
    ++ if least = 0 then (s.readerTimes x l n).map fun k => s.seenUnder x l n k [] else []

/-- One of a list of values, by the hardware's choice, under the bytes that it takes from engines in flight; the command reads it. -/
def State.pick (s : State) (x : Reader) (new : List (Option Byte)) (l : Loc) (n : Nat) (vals : List Seen) : List Byte × State :=
  let take := fun (v : Seen) (s : State) => (takeNew v.bytes new, s.trackUnder v.upper new v.at_ (s.viewOfRef x.g) l n)
  match vals with
  | [] => take (s.seenUnder x l n s.stamp []) s
  | [v] => take v s
  | v :: r =>
    if r.all fun y => y.bytes == v.bytes then take v s
    else
      let (k, s) := s.choose (r.length + 1)
      take (listGetD (v :: r) k v) s

/-- Bytes of a stretch from a place on, each by its own choice (R187, R224). -/
def State.pickEach (x : Reader) (l : Loc) : List (Option Byte) → Nat → State → List Byte × State
  | [], _, s => ([], s)
  | c :: new, k, s =>
    let (b, s) := s.pick x [c] (l.plus k) 1 (s.readerValues x (l.plus k) 1)
    let (r, s) := State.pickEach x l new (k + 1) s
    (b ++ r, s)

/-- The bytes of a stretch that a command reads: one by one, or as a whole (R396). Those that come from memory are tracked (R250). -/
def State.readerBytes (s : State) (x : Reader) (whole : Bool) (l : Loc) (n : Nat) : List Byte × State :=
  let (new, s) := s.chooseInflight (s.viewOfRef x.g) l (0, 0) n 0
  match s.readerValues x l n with
  | [v] => s.pick x new l n [v]
  | vs => if whole then s.pick x new l n vs else State.pickEach x l new 0 s

/-- The bytes of stretches that a command reads. -/
def State.sourceBytes (x : Reader) (whole : Bool) : List (Loc × Nat) → State → List (List Byte) × State
  | [], s => ([], s)
  | p :: r, s =>
    let (b, s) := s.readerBytes x whole p.1 p.2
    let (l, s) := State.sourceBytes x whole r s
    (b :: l, s)

/-- A command may write to a location: no access of the group before it still has to touch it, what fences put before it has performed (R221), and no
store that the group must show is still on its way there (FS2). -/
def State.engineMayWrite (s : State) (r : GroupRef) (seq : Nat) (after : List (Nat × Nat)) (l : Loc) (n : Nat) : Bool :=
  match s.findGroup r with
  | some g => !g.overlapsStore seq l n && !g.overlapsLoad seq l n && s.fencesClear r g g.know after l && s.othersHome r g.know l n
  | none => true

/-- Nothing that the matrix engine has written to a location is still on its way to its home: its later writes there go behind it (R187). -/
def State.turnClear (s : State) (l : Loc) (n : Nat) : Bool :=
  s.allGroups.all fun w => w.2.stores.all fun y => !(y.inTurn && y.loc.overlaps y.bytes l n)

/-- Where an engine command writes bytes: the location, the virtual address of its first byte (R206), and the bytes. -/
abbrev Piece := Loc × Option (BitVec 64) × List Byte

/-- How an engine command writes: its flag, rel and scope, and what its writes tell behind a fence (R221); whole: each piece is written whole (R396);
inTurn: the matrix engine's. -/
structure EngineWrite where
  flag : Nat
  rel : Bool
  scope : Nat
  pubs : List Pub
  whole : Bool := false
  inTurn : Bool := false
deriving DecidableEq, Repr

/-- The bytes of a piece as stores of its group that have performed at a scope, each on its own (R224), or as one that is never torn (R396). flag: the
flag of a command with rel, whose bytes later releases of the group cover once it has seen the flag at 0 (R228, R301). -/
def looseStores (w : EngineWrite) (p : Piece) : List PendStore :=
  let store := fun (k : Nat) (bs : List Byte) =>
    ({ seq := 0, op := 0, after := [], lane := 64, rel := w.rel, scope := 0, level := if w.rel then w.scope else 0, loose := true,
       flag := if w.rel then some w.flag else none, loc := p.1.plus k, bytes := bs.length, data := BitVec.ofNat 64 (ofLeBytes bs),
       va := p.2.1.map fun a => a + BitVec.ofNat 64 k, inTurn := w.inTurn, pubs := w.pubs } : PendStore)
  if w.whole then [store 0 p.2.2] else p.2.2.zipIdx.map fun b => store b.2 [b.1]

/-- Adds what an engine has written to a group, under its next numbers; it arrives at its level in turn. -/
def Group.addLoose (g : Group) (arr : Nat) (xs : List PendStore) : Group :=
  xs.foldl (fun g x => { g with seq := g.seq + 1, stores := g.stores ++ [{ x with seq := g.seq, op := g.seq, arr := arr }] }) g

/-- A write with rel performs at its home at once: at dev or wider, and to a peer's memory, where nothing performs closer (R228, R308). -/
def EngineWrite.atHome (w : EngineWrite) (p : Piece) : Bool := w.rel && (decide (homeScope ≤ w.scope) || p.1.atPeer)

/-- What an engine command writes, when its flag counts down: with rel it has performed at the scope, without it is for its group alone, and it
performs further in its own time (R61, R228). -/
def State.engineWrite (s : State) (r : GroupRef) (w : EngineWrite) (pieces : List Piece) : State :=
  if (s.findGroup r).isNone then pieces.foldl (fun s p => s.perform r 0 (s.viewOfRef r) p.1 p.2.2 w.pubs) s
  else
    let s := (pieces.filter w.atHome).foldl (fun s p => s.perform r 0 (s.viewOfRef r) p.1 p.2.2 w.pubs) s
    { (s.modGroup r fun g => g.addLoose (s.arrivals + 1) ((pieces.filter fun p => !w.atHome p).flatMap (looseStores w))) with arrivals := s.arrivals + 1 }

-- ## Accumulator tiles (R189, R190, R342)

/-- The physical tile numbers that the placed teams of a core have bound. -/
def State.boundTiles (s : State) (core : Nat) : List Nat :=
  s.teams.flatMap fun e => if e.2.core = core && e.2.phase == .placed then e.2.tiles.map fun b => b.2.phys else []

/-- The tiles of a core that no team has reserved or grown. -/
def State.unreserved (s : State) (core : Nat) : Nat :=
  16 - (s.teams.map fun e => if e.2.core = core && e.2.phase == .placed then e.2.reserved + (e.2.tiles.filter fun b => b.2.grown).length else 0).sum

/-- The tiles that a team has bound of its own reservation. -/
def Team.ownBound (t : Team) : Nat := (t.tiles.filter fun b => !b.2.grown).length

/-- The lowest physical tile of a core that is not bound. -/
def State.freeTile (s : State) (core : Nat) : Nat := ((List.range 16).find? fun k => !(s.boundTiles core).contains k).getD 0

/-- A group binds a name of its team: every element becomes +0 (R189). -/
def State.bindTile (s : State) (r : GroupRef) (core name : Nat) (grown : Bool) : State :=
  let k := s.freeTile core
  (s.modTeam r.team fun t => { t with tiles := Table.put t.tiles name { phys := k, grown := grown, knows := [r.grp], sent := [] } }).modCore core fun c =>
    { c with tiles := Sparse.clear c.tiles (k * 4096) 4096 }

/-- The tile name of a word. -/
def tileName (w : XWord) : Nat := (w.variant.extractLsb' 4 4).toNat

/-- accalloc (R190): ACCLIMIT for a reservation of 0 or a bound name; it waits while every reserved tile is bound. -/
def execAccalloc (w : XWord) (s : State) : Result :=
  native (xUses []) s fun e =>
    if !e.acts w.g then e.finish e.grp s
    else match e.ref, e.team with
      | some r, some t =>
        if t.reserved = 0 || (Table.find t.tiles (tileName w)).isSome then e.trap s .acclimit
        else if t.reserved ≤ t.ownBound then e.waitOn .tile s
        else e.finish e.grp (s.bindTile r e.core (tileName w) false)
      | _, _ => e.trap s .acclimit

/-- accgrow (R190): it never waits. -/
def execAccgrow (w : XWord) (s : State) : Result :=
  native (xUses [w.d.toNat]) s fun e =>
    if !e.acts w.g then e.finish e.grp s
    else match e.ref, e.team with
      | some r, some t =>
        if (Table.find t.tiles (tileName w)).isSome then e.trap s .acclimit
        else if s.unreserved e.core = 0 then e.finish (e.grp.writeS w.d.toNat 0) s
        else e.finish (e.grp.writeS w.d.toNat 1) (s.bindTile r e.core (tileName w) true)
      | _, _ => e.trap s .acclimit

/-- The commands that a core's matrix engine has accepted or executes. -/
def Core.commands (c : Core) : List MatrixCmd := c.accepted ++ c.executing.toList

/-- A command of a team names a tile. -/
def State.tileInUse (s : State) (tk core phys : Nat) : Bool := (s.core core).commands.any fun c => c.g.team == tk && c.phys == phys

/-- Unbinds a name of a team; what waits for a tile goes on. -/
def State.unbind (s : State) (tk core name : Nat) : State :=
  (s.modTeam tk fun t => { t with tiles := Table.del t.tiles name }).rouseCore core

/-- accfree (R190, R342): it waits until every accepted command that names the tile has completed. -/
def execAccfree (w : XWord) (s : State) : Result :=
  native (xUses []) s fun e =>
    if !e.acts w.g then e.finish e.grp s
    else match e.ref, e.team with
      | some r, some t => match Table.find t.tiles (tileName w) with
        | none => e.trap s .acclimit
        | some b =>
          if s.tileInUse r.team e.core b.phys then e.waitOn (.unbind (tileName w)) s
          else e.finish e.grp (s.unbind r.team e.core (tileName w))
      | _, _ => e.trap s .acclimit

/-- accfree unbind: the commands that name the tile have completed (R342). A name that another accfree has unbound meanwhile is met
by the instruction again. -/
def execAccfreeUnbind (r : GroupRef) (s : State) : Result :=
  due <|
    match s.findGroup r, s.teamOf r with
    | some g, some t => match g.state with
      | .waiting (.unbind name) => match Table.find t.tiles name with
        | none => some (s.modGroup r fun g => { g with state := .ready })
        | some b =>
          if s.tileInUse r.team t.core b.phys || !s.running r then none
          else some (((s.unbind r.team t.core name).modGroup r Group.pastWord).stepEnd r)
      | _ => none
    | _, _ => none

-- ## mma (R178 to R186)

/-- The element width of an element code; none for a code that is no element (R182). -/
def elemBits (c : Nat) : Option Nat := if 1 ≤ c && c ≤ 11 then some (formatWidth c) else none

/-- An operand of a format block from its 16 bytes; none where it raises ILLEGAL (R182). -/
def readFmt (x : Nat) : Option FmtBlock :=
  let efmt := natBits x 3 0
  let sfmt := natBits x 7 6
  if (elemBits efmt).isNone || sfmt = 3 || natBits x 31 8 != 0 || natBits x 127 64 != 0 then none
  else some { saddr := BitVec.ofNat 32 (natBits x 63 32), sfmt := sfmt, blen := 16 * 2 ^ natBits x 5 4, efmt := efmt }

/-- The bytes of a scale. -/
def FmtBlock.scaleBytes (f : FmtBlock) : Nat :=
  match f.sfmt with
  | 0 => 4
  | 1 => 2
  | _ => 1

/-- Blocks in a row of k elements (R183). -/
def FmtBlock.blocks (f : FmtBlock) (k : Nat) : Nat := ceilDiv k f.blen

/-- The check of a scale array: ALIGN, then BOUNDS in the team's own range (R183). -/
def FmtBlock.check (f : FmtBlock) (size k : Nat) : Option (TrapKind × BitVec 64) :=
  let a := f.saddr.toNat
  if f.saddr == 0xFFFFFFFF then none
  else if a % f.scaleBytes != 0 then some (.align, BitVec.ofNat 64 a)
  else if size < a + 64 * f.blocks k * f.scaleBytes then some (.bounds, BitVec.ofNat 64 (max a size))
  else none

/-- The engine cycles of an mma (R177). -/
def mmaCycles (bits k : Nat) : Nat :=
  match bits with
  | 4 => k / 16
  | 8 => k / 8
  | _ => k / 2

/-- A command's port is full: its quadrant has a command that the engine has not begun (R177). -/
def State.portFull (s : State) (core quad : Nat) : Bool :=
  (s.core core).accepted.any fun c => match s.findGroup c.g with
    | some g => g.quad == quad
    | none => false

/-- The scale array of an operand, in the team's own range. -/
def FmtBlock.array (f : FmtBlock) (lo k : Nat) : Loc × Nat :=
  if f.saddr == 0xFFFFFFFF then (.scratch lo, 0) else (.scratch (lo + f.saddr.toNat), 64 * f.blocks k * f.scaleBytes)

/-- The sources of a command: 64 rows of A, 64 of B, their scale arrays, or the 64 rows of an accld. -/
def MatrixOp.sources (op : MatrixOp) (lo : Nat) : List (Loc × Nat) :=
  match op with
  | .mma _ _ a b fa fb k =>
    ((List.range 64).map fun i => (a.row i, a.rowBytes)) ++ ((List.range 64).map fun i => (b.row i, b.rowBytes)) ++ [fa.array lo k, fb.array lo k]
  | .accld _ e => (List.range 64).map fun i => (e.row i, 256)
  | .accst _ _ => []

/-- Where the range of a group's team starts. -/
def State.ownBase (s : State) (r : GroupRef) : Nat :=
  match s.teamOf r with
  | some t => (s.teamRange t).1
  | none => 0

/-- A matrix command whose checks have passed: it waits for its port or its flag, is counted and accepted. -/
def Env.accept (e : Env) (s : State) (w : XWord) (f phys : Nat) (op : MatrixOp) : State :=
  if e.grp.flagFull f then e.waitOn .flagFull s
  else if s.portFull e.core e.grp.quad then e.waitOn .port s
  else
    let c : MatrixCmd := { g := e.gref, flag := f, seq := e.grp.seq, after := e.grp.fence, phys := phys, acq := w.acq, rel := w.rel,
                           scope := w.scope.toNat, op := op, since := s.stamp, floor := e.commandFloor s w,
                           know := e.commandKnow s w, pubs := e.pubs none }
    e.counted (s.modCore e.core fun k => { k with accepted := k.accepted ++ [c] }) f

/-- The binding that a word names for the issuing team. -/
def Env.binding (e : Env) (w : XWord) : Option Tile := e.team.bind fun t => Table.find t.tiles (tileName w)

/-- The physical tile that a command finds by its name. A group that has made the binding, or has waited on a release arrival made after it, finds the
name bound; another finds it bound or unbound, by the hardware's choice (R302). -/
def Env.findTile (e : Env) (s : State) (w : XWord) : Option Nat × State :=
  match e.binding w with
  | none => (none, s)
  | some b =>
    if b.knows.contains e.gref.grp then (some b.phys, s)
    else
      let (k, s) := s.choose 2
      (if k = 0 then some b.phys else none, s)

/-- The checks of an mma after its tile, in the order of R186, up to its extents: the two extents, the format block and K. Of the scale arrays, A's is
checked for ALIGN and BOUNDS before B's (DESIGN CHOICE, log 93). -/
def Env.mmaChecks (e : Env) (s : State) (w : XWord) : Except (TrapKind × BitVec 64) (Extent × Extent × FmtBlock × FmtBlock × Nat) :=
  match e.team with
  | none => .error (.bounds, 0)
  | some t =>
    let off := (e.grp.readS w.r3.toNat).toNat
    let (lo, size) := s.teamRange t
    if off % 64 != 0 then .error (.align, BitVec.ofNat 64 off)
    else if size < off + 64 then .error (.bounds, BitVec.ofNat 64 (max off size))
    else
      let bs := s.readOwn e.gref (e.view s) e.grp e.grp.seq (.scratch (lo + off)) 64
      match readFmt (bytesField bs 0 16), readFmt (bytesField bs 16 16) with
      | some fa, some fb =>
        let bits := formatWidth fa.efmt
        let ra := e.record w.r1.toNat
        let rb := e.record w.r2.toNat
        let k := ra.rowBytes * 8 / bits
        if bytesField bs 32 32 != 0 || formatWidth fb.efmt != bits then .error (.illegal, 0)
        else if ra.rows != 64 || rb.rows != 64 || ra.rowBytes != rb.rowBytes || ra.rowBytes * 8 % bits != 0 || k % 32 != 0 || k < 32 || 512 < k then .error (.illegal, 0)
        else match fa.check size k, fb.check size k with
          | some x, _ => .error x
          | none, some x => .error x
          | none, none => match e.scratchExtent s ra, e.scratchExtent s rb with
            | .error a, _ => .error (.bounds, a)
            | .ok _, .error a => .error (.bounds, a)
            | .ok a, .ok b => .ok (a, b, fa, fb, k)
      | _, _ => .error (.illegal, 0)

/-- mma (R178, R186): its checks, the charge of the bucket, and the command in its quadrant's port. -/
def execMma (w : XWord) (s : State) : Result :=
  native (xUses (recordRegs w.r1.toNat ++ recordRegs w.r2.toNat ++ [w.r3.toNat])) s fun e =>
    match e.path.flagOf w.fsel with
    | none => e.trap s .illegal
    | some f =>
      let m := e.guard w.g
      if e.grp.severalPaths || e.grp.serl.isSome || e.path.mask != e.grp.present then e.trap s .converge
      else if m = 0 then e.finish e.grp s
      else if m != e.grp.present then e.trap s .converge
      else match e.findTile s w with
        | (none, s) => e.trap s .acclimit
        | (some phys, s) => match e.mmaChecks s w with
          | .error (k, a) => e.engineTrap s k .read a
          | .ok (a, b, fa, fb, k) =>
            if e.grp.flagFull f then e.waitOn .flagFull s
            else if s.portFull e.core e.grp.quad then e.waitOn .port s
            else e.charged s (256 * mmaCycles (formatWidth fa.efmt) k) fun s =>
              e.accept s w f phys (.mma (tileName w) (w.variant.getLsbD 0) a b fa fb k)

/-- accld and accst (R191, R343). -/
def accCopyStep (w : XWord) (op : Nat → Extent → MatrixOp) (ak : AccessKind) (s : State) : Result :=
  native (xUses (recordRegs w.r1.toNat)) s fun e => e.engine s w fun f =>
    match e.findTile s w with
    | (none, s) => e.trap s .acclimit
    | (some phys, s) =>
      let r := e.record w.r1.toNat
      if r.rows != 64 || r.rowBytes != 256 then e.trap s .illegal
      else match e.scratchExtent s r with
        | .error a => e.engineTrap s .bounds ak a
        | .ok x => e.accept s w f phys (op (tileName w) x)

/-- accld. -/
def execAccld (w : XWord) (s : State) : Result := accCopyStep w .accld .read s
/-- accst. -/
def execAccst (w : XWord) (s : State) : Result := accCopyStep w .accst .write s

-- ## Execution (R177, R184, R185)

/-- A command that begins: an acquire performs before its first read (R188). -/
def State.begun (s : State) (x : MatrixCmd) : MatrixCmd :=
  if x.floor.isNone then { x with floor := some s.stamp, know := { x.know with met := s.nearIds x.g x.scope ++ x.know.met } } else x

/-- An extent of a command lies outside a range. -/
def Extent.leaves (e : Extent) (lo n : Nat) : Bool :=
  !e.virt && (List.range e.rows).any fun i => decide (e.start.toNat + i * e.pitch < lo) || decide (lo + n < e.start.toNat + i * e.pitch + e.rowBytes)

/-- A command names scratchpad outside its team's own range (R180). -/
def State.remote (s : State) (c : MatrixCmd) : Bool :=
  match s.teamOf c.g with
  | some t =>
    let (lo, n) := s.teamRange t
    match c.op with
    | .mma _ _ a b _ _ _ => a.leaves lo n || b.leaves lo n
    | .accld _ e | .accst _ e => e.leaves lo n
  | none => false

/-- mma execute: the engine takes the next accepted command, in acceptance order; what waits for its port goes on. An acquire waits for
the group's earlier ones (R228). A command of a context that is being saved does not begin (R194), unless one of that context that names another team's
range is among the accepted ones: the save of that team waits for it (R416). -/
def execMmaExecute (core : Nat) (s : State) : Result :=
  due <|
    let c := s.core core
    match c.executing, c.accepted with
    | none, x :: rest =>
      let ready := match s.findGroup x.g with
        | some g => g.acquiresDone x.acq x.seq
        | none => true
      let held := match s.teamOf x.g with
        | some t => match Table.find s.grids t.grid with
          | some g => s.saving g.ctx && !(c.accepted.any fun y => s.remote y && ((s.teamOf y.g).bind fun u => Table.find s.grids u.grid).any fun h => h.ctx == g.ctx)
          | none => false
        | none => false
      if ready && !held then
        some ((s.modCore core fun c => { c with executing := some (s.begun x), accepted := rest }).rouseCore core)
      else none
    | _, _ => none

/-- Element i of a row's bytes, of a number of bits (R159, R181). -/
def packedElem (bits k : Nat) (row : Nat) : Nat := row / 2 ^ (bits * k) % 2 ^ bits

/-- The exact value of an element (R182). -/
def elemValue (code level x : Nat) : Exact :=
  if formatIsInt code then
    let v := codeInt code x
    .fin (decide (v < 0)) v.natAbs 0
  else readFloat (codeFloat code) level x

/-- The exact value of a scale (R160, R183, R185). -/
def scaleValueOf (f : FmtBlock) (level x : Nat) : Exact :=
  match f.sfmt with
  | 0 => readFloat .f32 level x
  | 1 => readFloat .bf16 level x
  | _ => if x = 255 then .nan 0x7FC00000 else .fin false 1 ((x : Int) - 127)

/-- The scales of one row: its block scales, or 1.0 everywhere. -/
def FmtBlock.scale (f : FmtBlock) (level k row : Nat) (array : List Byte) (b : Nat) : Exact :=
  if f.saddr == 0xFFFFFFFF then .fin false 1 0
  else scaleValueOf f level (bytesField array ((row * f.blocks k + b) * f.scaleBytes) f.scaleBytes)

/-- The product of an element pair and its scales; none where it is invalid. -/
def mulFour (a b c d : Exact) : Option Exact :=
  let l := [a, b, c, d]
  let neg := (l.filter Exact.neg).length % 2 == 1
  if l.any (fun x => match x with
    | .inf _ => true
    | _ => false) then (if l.any Exact.isZero then none else some (.inf neg))
  else l.foldl (fun p x => p.bind fun p => mulExact p x) (some (.fin false 1 0))

/-- One chunk's step: acc + the exact sum of the chunk's products, rounded once (R184, R185). It is encoded after every
chunk, so that an overflow stays an infinity, and a subnormal sum is flushed at level 1 (DESIGN CHOICE, log 101). terms: A's element, B's, A's scale, B's. -/
def chunkStep (level : Nat) (acc : Word) (terms : List (Exact × Exact × Exact × Exact)) : Word :=
  let c := readFloat .f32 level acc.toNat
  let v : Value :=
    match firstNan (c :: terms.flatMap fun t => [t.1, t.2.1, t.2.2.1, t.2.2.2]) with
    | some b => .nan (some b)
    | none =>
      let ps := terms.map fun t => mulFour t.2.2.1 t.2.2.2 t.1 t.2.1
      if ps.any Option.isNone then .nan none else sumTerms .rn (c :: ps.filterMap id)
  BitVec.ofNat 32 (writeFloat .f32 { mode := .rn, sat := false, level := level, conv := false, f32ToF16 := false } v)

/-- The chunk size C (R184). -/
def chunkSize (bits : Nat) : Nat := if bits = 16 then 8 else 32

/-- One output element: the tile's value or -0, then every chunk in ascending order. -/
def mmaElement (level k bits : Nat) (start : Word) (a b : List (Exact × Exact)) : Word :=
  let c := chunkSize bits
  (List.range (k / c)).foldl (fun acc n =>
    let xs := ((a.zip b).drop (n * c)).take c
    chunkStep level acc (xs.map fun p => (p.1.1, p.2.1, p.1.2, p.2.2))) start

/-- The rows of an operand as element and scale pairs, of its rows' bytes and its scale array's. -/
def operandRows (rows : List (List Byte)) (arr : List Byte) (f : FmtBlock) (level k : Nat) : List (List (Exact × Exact)) :=
  let bits := formatWidth f.efmt
  rows.zipIdx.map fun r =>
    let row := ofLeBytes r.1
    (List.range k).map fun j => (elemValue f.efmt level (packedElem bits j row), f.scale level k r.2 arr (j / f.blen))

/-- The bytes that a command reads, by the time of its completion. -/
def State.seenBytes (s : State) (x : MatrixCmd) : List (List Byte) × State := State.sourceBytes (x.reader s) false (x.op.sources (s.ownBase x.g)) s

/-- The state after a command's FlagDec: the engine is free, and what waits goes on. -/
def State.engineDone (s : State) (core : Nat) (x : MatrixCmd) : State :=
  ((s.modCore core fun c => { c with executing := none }).flagDec x.g x.flag).rouseCore core

/-- mma completion: the tile holds the result (R184, R186). -/
def execMmaCompletion (core : Nat) (s : State) : Result :=
  due <|
    match (s.core core).executing with
    | some x => match x.op with
      | .mma _ z _ _ fa fb k => match s.teamOf x.g with
        | none => some (s.modCore core fun c => { c with executing := none })
        | some t =>
          let level := s.teamLevel t
          let (seen, s) := s.seenBytes x
          let ra := operandRows (seen.take 64) (listGetD seen 128 []) fa level k
          let rb := operandRows ((seen.drop 64).take 64) (listGetD seen 129 []) fb level k
          let tile := (s.core core).tiles
          let new := (List.range 4096).foldl (fun (m : Sparse 32) n =>
            let key := x.phys * 4096 + n
            let start := if z then 0x80000000#32 else Sparse.get tile key
            Sparse.set m key (mmaElement level k (formatWidth fa.efmt) start (listGetD ra (n / 64) []) (listGetD rb (n % 64) []))) tile
          some ((s.modCore core fun c => { c with tiles := new }).engineDone core x)
      | _ => none
    | none => none

/-- How a matrix command writes. -/
def MatrixCmd.write (x : MatrixCmd) : EngineWrite := { flag := x.flag, rel := x.rel, scope := x.scope, pubs := x.pubs, inTurn := true }

/-- acc copy completion: the block has moved between scratchpad and the tile (R191, R343). -/
def execAccCopyCompletion (core : Nat) (s : State) : Result :=
  due <|
    match (s.core core).executing with
    | some x => match x.op with
      | .accld _ _ =>
        let (seen, s) := s.seenBytes x
        let new := (List.range 64).foldl (fun (m : Sparse 32) i =>
          let row := listGetD seen i []
          (List.range 64).foldl (fun (m : Sparse 32) j =>
            Sparse.set m (x.phys * 4096 + i * 64 + j) (BitVec.ofNat 32 (bytesField row (4 * j) 4))) m) (s.core core).tiles
        some ((s.modCore core fun c => { c with tiles := new }).engineDone core x)
      | .accst _ e =>
        if (List.range 64).all fun i => s.engineMayWrite x.g x.seq x.after (e.row i) 256 && s.turnClear (e.row i) 256 then
          let tile := (s.core core).tiles
          let row := fun i => (List.range 64).flatMap fun j => leBytes 4 (Sparse.get tile (x.phys * 4096 + i * 64 + j)).toNat
          some ((s.engineWrite x.g x.write ((List.range 64).map fun i => (e.row i, none, row i))).engineDone core x)
        else none
      | .mma .. => none
    | none => none

end Sys2Proof.Machine
end

