-- ==== Sys2Proof/Machine/Placement.lean ====
section
/-! DEFINITION. The team distributors (R36 to R44, R49, R50, R274 to R276, R282, R291): where a team fits, which pending team comes next,
placing a team, gang admission, and a team's retirement with the refill of its core. -/

namespace Sys2Proof.Machine

-- ## A core's free resources (R37, R38)

/-- The placed teams of a core. -/
def State.placedOn (s : State) (core : Nat) : List Team :=
  (s.teams.filter fun t => t.2.core == core && t.2.phase == TeamPhase.placed).map fun t => t.2

/-- The registers per lane of each group of a team. -/
def State.teamRegs (s : State) (t : Team) : Nat :=
  match Table.find s.grids t.grid with
  | some g => g.image.regs
  | none => 0

/-- The free slots and registers of a core's quadrants. -/
def State.freeQuads (s : State) (core : Nat) : List QuadFree :=
  (s.placedOn core).foldl (fun l t => t.groups.foldl (fun l g =>
    listModify l g.quad fun q => ⟨q.slots - 1, q.regs - s.teamRegs t⟩) l) emptyQuads

/-- The lowest free scratchpad range of a size, at a multiple of 4 KiB. -/
def State.freeScratch (s : State) (core size : Nat) : Option Nat :=
  let used := (s.placedOn core).map fun t => (t.scratch, (s.teamRange t).2)
  ((List.range 129).map fun k => 4096 * k).find? fun off =>
    decide (off + size ≤ scratchSize) && used.all fun u => size == 0 || u.2 == 0 || decide (off + size ≤ u.1) || decide (u.1 + u.2 ≤ off)

/-- The slots of a quadrant that groups of a core hold. -/
def State.usedSlots (s : State) (core quad : Nat) : List Nat :=
  (s.placedOn core).flatMap fun t => (t.groups.filter fun g => g.quad == quad).map fun g => g.slot

/-- The grown bindings of a team. -/
def Team.grownTiles (t : Team) : Nat := (t.tiles.filter fun b => b.2.grown).length

/-- A rectangle of a saved region's shape owns the edge nodes that the region owns, at the same relative rows (R83, R103, R112). -/
def Region.samePlace (r : Region) (c : Nat × Nat) : Bool :=
  decide (c.1 + r.w ≤ 16) && decide (c.2 + r.h ≤ 8) && (r.col != 0 || c.1 == 0) && (r.col + r.w != 16 || c.1 + r.w == 16)
    && (r.col + r.w != 16 || r.row + r.h != 8 || c.2 + r.h == 8)

/-- Where a saved region goes on a core: its own rectangle where that is free, else the first free one of its shape, by column and then row, that
R112 accepts (log 83). -/
def State.regionPlace (s : State) (core : Nat) (r : Region) : Option (Nat × Nat) :=
  ((r.col, r.row) :: (List.range 16).flatMap fun c => (List.range 8).map fun k => (c, k)).find? fun c =>
    r.samePlace c && s.rectFree core c.1 c.2 r.w r.h

/-- A saved region has a place on a core (R112). -/
def State.regionRoom (s : State) (core : Nat) (r : Option Region) : Bool :=
  match r with
  | some r => (s.regionPlace core r).isSome
  | none => true

/-- Where a team fits on a core: the quadrants of its groups and its scratchpad offset (R38, R291). -/
def State.fit (s : State) (core : Nat) (im : Image) (saved : Option Team) : Option (List Nat × Nat) :=
  let grown := match saved with
    | some t => t.grownTiles
    | none => 0
  match assignQuads im.regs im.groups (s.freeQuads core), s.freeScratch core im.scratch with
  | some q, some off =>
    if im.tiles + grown ≤ s.unreserved core && s.regionRoom core (saved.bind fun t => t.region) then some (q, off) else none
  | _, _ => none

/-- A core that a grid's teams can be tried on (R274). -/
def State.mayUse (s : State) (g : Grid) (core : Nat) : Bool :=
  (s.core core).enabled && (s.core core).started && g.mask.getLsbD core

/-- The cores in the order in which a team is tried: the dies in order, each rotating after its last used core, which after reset is its
highest-numbered (R274). -/
def State.rotation (s : State) : List Nat :=
  (List.range 4).flatMap fun d => (List.range 64).map fun i => 64 * d + (Table.getD s.lastUsed d 63 + 1 + i) % 64

/-- The first core on which a team of a grid fits. -/
def State.findCore (s : State) (g : Grid) (saved : Option Team) : Option (Nat × List Nat × Nat) :=
  s.rotation.findSome? fun c => if s.mayUse g c then (s.fit c g.image saved).map fun f => (c, f.1, f.2) else none

-- ## Starting a team (R39, R41)

/-- The present lanes of group k of a team (R31, R32). -/
def Image.presentLanes (im : Image) (k : Nat) : LaneMask := maskOf (List.range (min im.groupLanes (im.lanes - im.groupLanes * k)))

/-- The launch arguments in s0:s1, s2:s3 and onward (R28). -/
def argRegs (args : List (BitVec 64)) : Sparse 32 :=
  args.zipIdx.foldl (fun m a => Sparse.set (Sparse.set m (2 * a.2) (loWord a.1)) (2 * a.2 + 1) (hiWord a.1)) []

/-- Gives each group the lowest free slot of its quadrant, in ascending group number. -/
def takeSlots : List (Group × Nat) → (Nat → List Nat) → List Group
  | [], _ => []
  | (g, q) :: r, used =>
    let k := ((List.range 8).find? fun k => !(used q).contains k).getD 0
    { g with quad := q, slot := k } :: takeSlots r fun p => if p = q then k :: used q else used p

/-- A group in the state of R41. Its form is T, unless CSC pins V and the entry clause has a V position. -/
def State.startGroup (s : State) (g : Grid) (k : Nat) : Group :=
  let im := g.image
  let present := im.presentLanes k
  let ctx := s.context g.ctx
  let v := if ctx.cscEn && ctx.cscPin = 2 && !im.legacy then im.epoints.find? fun p => p.vok && p.tpos == 0 else none
  let pc := match v with
    | some p => im.vBase + BitVec.ofNat 64 p.vpos
    | none => im.tBase
  { Group.start k 0 0 present with s := argRegs g.args, vform := v.isSome, paths := [PathEntry.at pc present],
                                   know := { Know.none with floor := s.stamp } }

/-- The compatibility level that a launch latches with its first team (R171, R173). -/
def State.latchLevel (s : State) (g : Grid) : Nat :=
  let c := s.context g.ctx
  if c.fix then c.level.toNat
  else match g.image.profile with
    | 1 => 2
    | 2 | 3 => 1
    | _ => 0

/-- The tiles of a restored team take free physical tiles: the new bindings, and what the core's tiles become. -/
def bindSaved (used : List Nat) (tiles : Sparse 32) (saved : Sparse 32) : Table Tile → Table Tile × Sparse 32
  | [] => ([], tiles)
  | (name, b) :: r =>
    let k := ((List.range 16).find? fun k => !used.contains k).getD 0
    let tiles := (List.range 4096).foldl (fun (m : Sparse 32) i => Sparse.set m (tileKey k i) (Sparse.get saved (tileKey b.phys i))) tiles
    let (r, tiles) := bindSaved (k :: used) tiles saved r
    ((name, { b with phys := k }) :: r, tiles)

/-- A range of scratchpad reads as zero, and nothing of what it held can be read any more (R39). -/
def State.zeroScratch (s : State) (off n : Nat) : State :=
  { s with scratch := Sparse.clear s.scratch off n, blurs := cutBlurs s.blurs true off n,
           history := s.history.filter fun h => !h.loc.overlaps 1 (.scratch off) n }

/-- Places team n of a grid on a core: a new one in its start state, its scratchpad range zeroed (R39). -/
def State.startTeam (s : State) (gid core : Nat) (quads : List Nat) (off : Nat) : State :=
  match Table.find s.grids gid with
  | none => s
  | some g =>
    let groups := takeSlots (quads.zipIdx.map fun q => (s.startGroup g q.2, q.1)) (s.usedSlots core)
    let t : Team :=
      { grid := gid, num := g.nextTeam, phase := .placed, core := core, scratch := off, reserved := g.image.tiles, tiles := [],
        groups := groups, region := none, armed := none, hopLate := false, hopS := false, know := { Know.none with floor := s.stamp }, queries := 0, ended := false, chc := 0, cgc := 0,
        perf := Perf.start, savedScratch := [], savedTiles := [], savedCmds := [], savedCopies := [] }
    let s := ({ s with teams := Table.put s.teams s.nextId t, nextId := s.nextId + 1 }).zeroScratch (core * sliceSize + off) g.image.scratch
    let s := s.modGrid gid fun g => { g with nextTeam := g.nextTeam + 1 }
    let s := match g.parent, Table.find s.launches g.launch with
      | none, some l => if l.tag.isNone then s.startLaunch g.launch (s.latchLevel g) else s
      | _, _ => s
    let s := if g.nextTeam + 1 = g.teams then
        { s with devQueues := Table.mapVals s.devQueues fun l => l.filter fun k => k != gid } else s
    s.rouseAll

/-- The state after a restored group's saved state ends: Frozen groups go on as they were saved (R42, R291). A group that waited in wait or cwait executes
it again in full (R376, R458), and one that was trapped its trapping word (R42). -/
def State.restoreTeam (s : State) (tk core : Nat) (quads : List Nat) (off : Nat) : State :=
  match Table.find s.teams tk with
  | none => s
  | some t =>
    let groups := takeSlots (t.groups.zip quads) (s.usedSlots core)
    let (tiles, arr) := bindSaved (s.boundTiles core) (s.core core).tiles t.savedTiles t.tiles
    let base := core * sliceSize + off
    let move := fun l : Loc => match l with
      | .scratch a => if t.core * sliceSize + t.scratch ≤ a && a < t.core * sliceSize + t.scratch + (s.teamRange t).2
          then Loc.scratch (a - (t.core * sliceSize + t.scratch) + base) else l
      | l => l
    let known := fun k : Know => { k with seen := k.seen.map fun x => (move x.1, x.2) }
    let groups := groups.map fun (g : Group) =>
      { g with
        know := known g.know
        loads := g.loads.map fun (l : PendLoad) => { l with loc := move l.loc }
        stores := g.stores.map fun (x : PendStore) => { x with loc := move x.loc }
        syncs := match g.trap with
          | some i => if i.kind == TrapKind.retired then g.syncs - 1 else g.syncs
          | none => g.syncs
        trap := none
        state := match g.state with
          | .waiting (.lanes ..) | .trapped => .ready
          | x => x }
    let region := t.region.map fun (r : Region) => { r with
      col := ((s.regionPlace core r).getD (r.col, r.row)).1
      row := ((s.regionPlace core r).getD (r.col, r.row)).2
      rid := s.freeRegion core, frozen := none, span := r.span.map fun (x : SpanEntry) => { x with loc := move x.loc } }
    let n := (s.teamRange t).2
    let s := s.zeroScratch base n
    let s := { s with scratch := t.savedScratch.foldl (fun (m : Sparse 8) (e : Nat × Byte) => Sparse.set m (base + e.1) e.2) s.scratch }
    let ext := fun e : Extent => match move (.scratch e.start.toNat) with
      | .scratch a => { e with start := BitVec.ofNat 64 a }
      | _ => e
    let cmds := t.savedCmds.map fun c =>
      let phys := match c.op with
        | .mma n .. | .accld n _ | .accst n _ => match Table.find tiles n with
          | some b => b.phys
          | none => c.phys
      { c with phys := phys, since := s.stamp, know := known c.know, op := match c.op with
        | .mma n z a b fa fb k => .mma n z (ext a) (ext b) fa fb k
        | .accld n e => .accld n (ext e)
        | .accst n e => .accst n (ext e) }
    let s := s.modCore core fun c => { c with tiles := arr, accepted := c.accepted ++ cmds, copies := c.copies ++ t.savedCopies.map fun (x : CopyCmd) =>
      { x with know := known x.know, pairs := x.pairs.map fun p => (move p.1, move p.2.1, p.2.2) } }
    let s := { s with teams := Table.mapVals s.teams fun (x : Team) => { x with
      tiles := Table.mapVals x.tiles fun (b : Tile) => { b with sent := b.sent.map fun (a : Loc × Nat × GroupRef × Nat) => (move a.1, a.2) } } }
    let s := { s with colls := s.colls.map fun (c : CollCmd) => if c.g.team == tk then { c with src := c.src.map move, dst := c.dst.map move } else c }
    (s.modTeam tk fun t => { t with
      phase := .placed, core := core, scratch := off, groups := groups, region := region,
      tiles := Table.mapVals tiles fun (b : Tile) => { b with sent := b.sent.map fun (a : Loc × Nat × GroupRef × Nat) => (move a.1, a.2) },
      know := known t.know, savedScratch := [],
      savedTiles := [], savedCmds := [], savedCopies := [] }).rouseAll

-- ## Which team comes next (R50, R255, R274, R275)

/-- Puts a team before the first of a list whose number is not less. -/
def insertTeam (x : Nat × Team) : List (Nat × Team) → List (Nat × Team)
  | [] => [x]
  | y :: r => if x.2.num ≤ y.2.num then x :: y :: r else y :: insertTeam x r

/-- The saved teams of a grid that a restore has made pending, in team-number order. -/
def State.restoring (s : State) (gid : Nat) : List (Nat × Team) :=
  (s.teams.filter fun t => t.2.grid == gid && t.2.phase == .restoring).foldr insertTeam []

/-- A packet of the launch's queue that comes before it has not taken its tag (R247, R269): a launch without one, or a COPY or BTOP that an
agent holds. -/
def State.queueBefore (s : State) (l : Launch) : Bool :=
  s.launches.any (fun x => x.2.queue == l.queue && x.2.tag.isNone && decide (x.2.index.toNat < l.index.toNat))
    || s.cores.any fun c => match c.2.agent.drawn with
      | some d => d.q == l.queue && decide (d.index.toNat < l.index.toNat)
      | none => false

/-- The grid's launch lets its teams be placed now (R246, R247, R255). -/
def State.launchOpen (s : State) (g : Grid) : Bool :=
  match Table.find s.launches g.launch with
  | none => false
  | some l => match l.tag with
    | some _ => l.phase == .running
    | none => l.phase == .waiting && s.windowOpen && !s.queueBefore l

/-- A grid has a team that the distributors may place: its context takes new teams, or the team was saved and is being restored. -/
def State.pendingGrid (s : State) (gid : Nat) (g : Grid) : Bool :=
  s.launchOpen g && ((decide (g.nextTeam < g.teams) && !(s.context g.ctx).stopped) || !(s.restoring gid).isEmpty)

/-- A gang grid that waits for admission, or for its saved teams to be placed together (R50, R291). -/
def State.gangWaits (s : State) (gid : Nat) (g : Grid) : Bool := g.gang && s.pendingGrid gid g

/-- No gang grid waits at this priority or above. -/
def State.gangClear (s : State) (prio : Nat) : Bool := !(s.grids.any fun g => decide (prio ≤ g.2.prio) && s.gangWaits g.1 g.2)

/-- A grid's source (R275): its die's device queue, or its queue. -/
def State.sourceId (s : State) (g : Grid) : Nat :=
  match g.die with
  | some d => d
  | none => match Table.find s.launches g.launch with
    | some l => 4 + l.queue
    | none => 4

/-- The place of a grid's source in the order of R275: the device queues by their dies, then the queues by the arrival of their first pending
launch at the grid's priority. -/
def State.sourceKey (s : State) (g : Grid) : Nat :=
  match g.die with
  | some d => d
  | none => 4 + ((s.grids.filter fun x => x.2.prio == g.prio && s.sourceId x.2 == s.sourceId g && s.pendingGrid x.1 x.2).foldl
      (fun n x => min n x.2.arrival) g.arrival)

/-- The next team of a grid fits somewhere: the core, the quadrants and the scratchpad offset. -/
def State.nextFit (s : State) (gid : Nat) (g : Grid) : Option (Nat × List Nat × Nat) :=
  s.findCore g ((s.restoring gid).head?.map fun t => t.2)

/-- A grid before another of the same source and priority: earlier in its queue or device queue. -/
def State.sameSourceBefore (s : State) (a b : Grid) : Bool :=
  a.prio == b.prio && s.sourceId a == s.sourceId b && decide (a.arrival < b.arrival)

/-- The grid has a pending team of its own (gang grids are placed whole) that fits. -/
def State.placeable (s : State) (gid : Nat) (g : Grid) : Bool :=
  !g.gang && s.pendingGrid gid g && s.gangClear g.prio && (s.nextFit gid g).isSome

/-- The place of the source that a priority served last: where it stands now, or stood when it was served if it has no pending team. -/
def State.servedKey (s : State) (prio : Nat) : Option Nat :=
  (Table.find s.lastSource prio).map fun last =>
    match s.grids.find? fun x => x.2.prio == prio && s.sourceId x.2 == last.1 && s.pendingGrid x.1 x.2 with
    | some x => s.sourceKey x.2
    | none => last.2

/-- The distance of a source from the one that its priority served last, in the round of R275. -/
def State.turnOf (s : State) (g : Grid) : Nat :=
  let k := s.sourceKey g
  match s.servedKey g.prio with
  | some last => if last < k then k else k + 2 ^ 64
  | none => k

/-- A grid's source has been served (R275). -/
def State.noteSource (s : State) (g : Grid) : State :=
  { s with lastSource := Table.put s.lastSource g.prio (s.sourceId g, s.sourceKey g) }

/-- A grid's team is the one that R275 names next: no team of higher priority fits anywhere, and its source comes first in the round. -/
def State.namedNext (s : State) (gid : Nat) (g : Grid) : Bool :=
  s.placeable gid g && s.grids.all fun x =>
    x.1 == gid || !s.placeable x.1 x.2
      || (decide (x.2.prio ≤ g.prio)
          && (x.2.prio != g.prio || (if s.sourceId x.2 = s.sourceId g then !s.sameSourceBefore x.2 g
              else decide (s.turnOf g < s.turnOf x.2))))

/-- Places the next team of a grid at a place. -/
def State.putTeam (s : State) (gid : Nat) (at_ : Nat × List Nat × Nat) : State :=
  match (s.restoring gid).head? with
  | some (tk, _) => s.restoreTeam tk at_.1 at_.2.1 at_.2.2
  | none => s.startTeam gid at_.1 at_.2.1 at_.2.2

/-- The rotation goes on after a core (R274). -/
def State.noteUsed (s : State) (core : Nat) : State := { s with lastUsed := Table.put s.lastUsed (core / 64) (core % 64) }

/-- Teams that a restore has placed: RES reads 4 once every saved team of the context is placed (R288). -/
def State.restoreDone (s : State) (ctx : Nat) : Bool :=
  !(s.teams.any fun t => t.2.phase != .placed && match Table.find s.grids t.2.grid with
    | some g => g.ctx == ctx
    | none => false)

/-- team placement: a distributor places the next team of a grid on the first core in rotation on which it fits (R274, R275). A core that
has gated its clock wakes first (R282). -/
def execTeamPlacement (gid : Nat) (s : State) : Result :=
  due <|
    match Table.find s.grids gid with
    | none => none
    | some g =>
      if !s.namedNext gid g then none
      else match s.nextFit gid g with
        | none => none
        | some f =>
          if (s.core f.1).gated then none
          else
            let s := s.noteSource g
            some ((s.putTeam gid f).noteUsed f.1)

-- ## Gang admission (R49, R50)

/-- Places every pending team of a gang grid, with the cores that they take; none where one fits nowhere. -/
def State.placeAll (gid : Nat) : Nat → State → Option (State × List Nat)
  | 0, s => some (s, [])
  | n + 1, s => match Table.find s.grids gid with
    | none => none
    | some g => match s.nextFit gid g with
      | some f => (State.placeAll gid n ((s.putTeam gid f).noteUsed f.1)).map fun r => (r.1, f.1 :: r.2)
      | none => none

/-- The gang grid that comes next, the waiting one of highest priority and earliest arrival, placed whole, with the cores that its teams take
(R49, R50). -/
def State.gangPlan (s : State) (gid : Nat) (g : Grid) : Option (State × List Nat) :=
  let first := s.grids.all fun x => x.1 == gid || !s.gangWaits x.1 x.2 || decide (x.2.prio < g.prio)
    || (x.2.prio == g.prio && decide (g.arrival < x.2.arrival))
  let higher := s.grids.any fun x => decide (g.prio < x.2.prio) && s.placeable x.1 x.2
  if !s.gangWaits gid g || !first || higher then none
  else s.placeAll gid ((s.restoring gid).length + if (s.context g.ctx).stopped then 0 else g.teams - g.nextTeam)

/-- gang admission: the gang grid that comes next is placed whole, once every core that it takes is awake (R49, R50, R282). -/
def execGangAdmission (gid : Nat) (s : State) : Result :=
  due <|
    match Table.find s.grids gid with
    | none => none
    | some g => match s.gangPlan gid g with
      | some (t, cores) =>
        if cores.any fun c => (s.core c).gated then none else some (t.modGrid gid fun g => { g with admitted := true })
      | none => none

/-- How many teams of an image an empty core takes. -/
def coreTeams (im : Image) : Nat → List QuadFree → Nat → Nat → Nat
  | 0, _, _, _ => 0
  | fuel + 1, q, scratch, tiles =>
    match assignQuads im.regs im.groups q with
    | some l =>
      if scratch < im.scratch || tiles < im.tiles then 0
      else 1 + coreTeams im fuel (l.foldl (fun q k => listModify q k fun x => ⟨x.slots - 1, x.regs - im.regs⟩) q) (scratch - im.scratch) (tiles - im.tiles)
    | none => 0

/-- A gang grid fits an idle device with its core mask (R50). -/
def State.gangFits (s : State) (im : Image) (mask : BitVec 256) (teams : Nat) : Bool :=
  decide (teams ≤ ((List.range 256).filter fun c => (s.core c).enabled && mask.getLsbD c).length * coreTeams im 32 emptyQuads scratchSize 16)

-- ## Retirement (R43, R44, R276)

/-- The freed core takes the pending team that R275 names next, if that team fits it. -/
def State.refill (s : State) (core : Nat) : State :=
  match s.grids.find? fun g => s.namedNext g.1 g.2 with
  | none => s
  | some (gid, g) =>
    if !s.mayUse g core then s
    else match s.fit core g.image ((s.restoring gid).head?.map fun t => t.2) with
      | some f => (s.noteSource g).putTeam gid (core, f.1, f.2)
      | none => s

/-- team retire: every group has retired and everything the team started has completed (R43, R416); its grid may retire with it (R34), and
its core is refilled (R276). -/
def execTeamRetire (team : Nat) (s : State) : Result :=
  due <|
    match Table.find s.teams team with
    | none => none
    | some t =>
      if t.phase != .placed || t.groups.any (fun g => g.state != .retired) || !s.teamQuiet team t then none
      else
        let s := (s.dropTeam team).modGrid t.grid fun g => { g with retired := g.retired + 1 }
        some ((State.gridDone 11 s t.grid).refill t.core)

end Sys2Proof.Machine
end

