-- ==== Sys2Proof/Machine/Nodes.lean ====
section
/-! DEFINITION. The spatial nodes: steer, merge, cnt, isect, emit, sink, swait, pent, pexit, the memory nodes, xlat, calln, retn, next,
mport, eqpn, and the converter node (R88, R89, R92, R97, R98, R105 to R108, R193, R371, R372). -/

namespace Sys2Proof.Machine

-- ## Routing nodes

/-- steer (R448). -/
def execSteer (w : SWord) (s : State) : Result :=
  slotStep (.steer w) w s fun e =>
    let t := e.cell.head 0
    let k := (e.cell.head 1).data.getLsbD 0
    let c := (e.cell.dequeue 3).emit (if k then 2 else 1) (.tok t)
    e.put s (if w.imm.getLsbD 0 then c.emit (if k then 1 else 2) (.tok { data := 0, tag := 3 }) else c)

/-- merge (R413): the selected token's data, with its tag under otag 01. -/
def execMerge (w : SWord) (s : State) : Result :=
  slotStep (.merge w) w s fun e =>
    let k := if (e.cell.head 0).data.getLsbD 0 then 2 else 1
    let t := e.cell.head k
    let tag := if w.otag == 1 then t.tag else e.cell.outTag w
    let tok : Token := { data := t.data, tag := tag, stamp := t.stamp }
    e.put s (((e.cell.dequeue (1 ||| (1#4 <<< k))).emit w.out (.tok tok)).writeBack w t.data t.stamp)

/-- cnt (R368). -/
def execCnt (w : SWord) (s : State) : Result :=
  slotStep (.cnt w) w s fun e =>
    let a := e.cell.source w w.srcA
    let b := e.cell.source w w.srcB
    let k := e.cell.third w
    let n := k + b
    let le := fun x y : Word => if w.ty == 0 then decide (x.toInt ≤ y.toInt) else decide (x.toNat ≤ y.toNat)
    let wrap := if b.msb then le n a else le a n
    let tok : Token := { data := k, tag := if wrap then 1 else e.cell.outTag w }
    let c := ((e.cell.dequeue w.deq).emit w.out (.tok tok)).writeL w.ldest.toNat (if wrap then 0 else n)
    e.put s (c.predicate w (if wrap then 1 else 0))

/-- What an isect decides on its two heads: whether it dequeues each, and what leaves on each output (R97). -/
def isectDecision (a b : Token) : Bool × Bool × Option (Token × Token) :=
  let x := (a.data.extractLsb' 16 16).toNat
  let y := (b.data.extractLsb' 16 16).toNat
  if a.tag == 3 || b.tag == 3 then (a.tag == 3, b.tag == 3, none)
  else match a.tag.toNat, b.tag.toNat with
    | 0, 0 => if x = y then (true, true, some ({ data := a.data, tag := 0 }, { data := b.data, tag := 0 })) else (decide (x < y), decide (y < x), none)
    | 0, _ => (true, false, none)
    | _, 0 => (false, true, none)
    | 1, 1 => (true, true, some ({ data := 0, tag := 1 }, { data := 0, tag := 1 }))
    | 2, 1 => (false, true, none)
    | 1, 2 => (true, false, none)
    | _, _ => (true, true, some ({ data := 0, tag := 2 }, { data := 0, tag := 2 }))

/-- isect (R97, R400). -/
def execIsect (w : SWord) (s : State) : Result :=
  slotStep (.isect w) w s fun e =>
    let (da, db, out) := isectDecision (e.cell.head 0) (e.cell.head 1)
    let c := e.cell.dequeue ((if da then 1 else 0) ||| (if db then 2 else 0))
    e.put s (match out with
      | some (x, y) => (c.emit 1 (.tok x)).emit 2 (.tok y)
      | none => c)

/-- emit (R382): the value of A with the tag that B names. -/
def execEmit (w : SWord) (s : State) : Result :=
  slotStep (.emit w) w s fun e =>
    e.put s (e.cell.fire w (e.cell.source w w.srcA) ((e.cell.source w w.srcB).extractLsb' 0 2) (e.cell.sourceStamp w.srcA))

/-- sink (R444). -/
def execSink (w : SWord) (s : State) : Result :=
  slotStep (.sink w) w s fun e => e.put s (e.cell.fire w (e.cell.source w w.srcA) (e.cell.outTag w) (e.cell.sourceStamp w.srcA))

/-- swait (R88, R453): the number of elements that the port has moved. -/
def execSwait (w : SWord) (s : State) : Result :=
  slotStep (.swait w) w s fun e =>
    let n := match e.region.active.port (w.imm.toNat % 8) with
      | some p => p.pos
      | none => 0
    e.put s (e.cell.fire w (BitVec.ofNat 32 n) (e.cell.outTag w) 0)

/-- pent (R98, R427): the contender's token passes, and the permit is consumed. -/
def execPent (w : SWord) (s : State) : Result :=
  slotStep (.pent w) w s fun e =>
    let t := e.cell.head 0
    e.put s (((e.cell.dequeue w.deq).emit w.out (.tok t)).writeBack w t.data t.stamp)

/-- pexit (R98, R428): the token passes, and a permit leaves on out1. -/
def execPexit (w : SWord) (s : State) : Result :=
  slotStep (.pexit w) w s fun e =>
    let t := e.cell.head 0
    e.put s ((((e.cell.dequeue w.deq).emit w.out (.tok t)).emit 2 (.tok { data := 0, tag := 3 })).writeBack w t.data t.stamp)

-- ## Memory nodes (R92, R93, R105)

/-- A memory node or btok fires: its request goes to its chain, and its outputs keep a place for the response. -/
def memNode (i : Instr) (w : SWord) (s : State) : Result :=
  slotStep i w s fun e =>
    let a := e.cell.source w w.srcA
    let skip := decide (w.srcA.toNat < 4) && (e.cell.head w.srcA.toNat).tag == 3
    let isBtok := match i with
      | .btok _ => true
      | _ => false
    let q : MemReq := { col := e.cell.col, row := e.cell.row, slot := e.slot, node := i, seq := w.seqNo.toNat, addr := a,
                        data := if isBtok then a else e.cell.source w w.srcB, tag := e.cell.outTag w, skip := skip,
                        epoch := e.region.epoch }
    (e.put s (e.cell.fireLater w e.slot)).modRegion e.tk fun r => r.modChain w.chain.toNat fun c => { c with queue := c.queue ++ [q] }

/-- ldn (R92, R407). -/
def execLdn (w : SWord) (s : State) : Result := memNode (.ldn w) w s
/-- stn (R92, R449). -/
def execStn (w : SWord) (s : State) : Result := memNode (.stn w) w s
/-- atn (R92, R349). -/
def execAtn (w : SWord) (s : State) : Result := memNode (.atn w) w s
/-- btok (R105, R109, R360). -/
def execBtok (w : SWord) (s : State) : Result := memNode (.btok w) w s

/-- The codes of the trap kinds that a failure token holds (R89, R284). -/
def TrapKind.code (k : TrapKind) : Nat :=
  match k with
  | .illegal => 1 | .priv => 2 | .align => 3 | .bounds => 4 | .page => 5 | .prot => 6 | .converge => 7 | .acclimit => 8
  | .stack => 9 | .config => 10 | .shadow => 11 | .retired => 12 | .bkpt => 13 | .swtrap => 14 | .ecc => 15

/-- The lookup of an xlat: PROT for high bits or a missing right, PAGE for a walk that fails (R89, R196, R460), and for the window, which is
never translated (R201, log 84). -/
def State.xlatLookup (s : State) (core ctx : Nat) (va : BitVec 64) (rd w : Bool) : Except TrapKind Xlat × State :=
  match (if inWindow va then (.error .page, s) else s.translate core ctx va) with
  | (.error k, s) => (.error k, s)
  | (.ok t, s) => if (rd && !t.rd) || (w && !t.w) then (.error .prot, s) else (.ok t, s)

/-- A token that may name an entry of the translation table and bears no stamp, made before the entry was replaced: it bears the old entry's (R90). -/
def Token.retired (n stamp : Nat) (t : Token) : Token :=
  if t.tag == 3 && t.stamp == 0 && !t.data.getLsbD 31 && t.data.toNat % 16 == n then { t with stamp := stamp } else t

/-- A plane with every token in it changed. -/
def Plane.mapTokens (f : Token → Token) (p : Plane) : Plane :=
  let out := fun x : OutEntry => match x with
    | .tok t => .tok (f t)
    | .pend k => .pend k
  { p with
    cells := p.cells.map fun c => { c with
      ins := c.ins.map fun l => l.map f, outs := c.outs.map fun l => l.map out, links := c.links.map fun x => { x with tok := f x.tok } },
    ports := p.ports.map fun q => { q with inq := q.inq.map f, queue := q.queue.map f },
    convs := p.convs.map fun v => { v with inq := v.inq.map f, outq := v.outq.map f } }

/-- Entry n of the translation table is about to be replaced: the tokens made for it before are known from later ones (R90). -/
def Region.retireEntry (r : Region) (n : Nat) : Region :=
  match listGetD r.xlat n none with
  | none => r
  | some e =>
    let f := Plane.mapTokens (Token.retired n e.stamp)
    { r with active := f r.active, shadows := r.shadows.map f, spilled := r.spilled.map f }

/-- xlat (R89, R460). -/
def execXlat (w : SWord) (s : State) : Result :=
  slotStep (.xlat w) w s fun e =>
    let va := pairOf (e.cell.source w w.srcA) (e.cell.source w w.srcB)
    let rd := w.var.getLsbD 0
    let wr := w.var.getLsbD 1
    match s.xlatLookup e.team.core (s.teamCtx e.team) va rd wr with
    | (.error k, s) => e.put s (e.cell.fire w (BitVec.ofNat 32 (2 ^ 31 + k.code)) 3 0)
    | (.ok t, s) =>
      let n := e.region.xlatNext % 16
      let stamp := e.region.stamps + 1
      let entry : XlatEntry := { va := BitVec.ofNat 64 (va.toNat / t.size * t.size), pa := t.pa / t.size * t.size, size := t.size,
                                 txn := t.txn, rd := rd, w := wr, stamp := stamp, cleared := false }
      let tok : Token := { data := BitVec.ofNat 32 n, tag := 3, stamp := stamp }
      let c := ((e.cell.dequeue w.deq).emit w.out (.tok tok)).writeBack w tok.data stamp
      (e.put s c).modRegion e.tk fun r =>
        { (r.retireEntry n) with xlat := listModify r.xlat n fun _ => some entry, xlatNext := (n + 1) % 16, stamps := stamp }

-- ## Calls and replacements (R105 to R110)

/-- calln (R106): every plane moves one place deeper, the deepest of four into the spill area, whose layout the spec does not give (log 82), and
the callee's configuration enters with the argument in in0 of its PE (0, 0). STACK beyond the region's depth, CONFIG where the callee cannot be
configured. -/
def execCalln (w : SWord) (s : State) : Result :=
  slotStep (.calln w) w s fun e =>
    let r := e.region
    if r.depth < r.shadows.length + r.spilled.length + 2 then s.failRegion e.tk (SFault.trap .stack 0)
    else match s.loadPlane e.team r (w.imm.toNat % 4) (r.loads + 1) with
      | .error k => s.failRegion e.tk (SFault.trap k 0)
      | .ok p =>
        let arg : Token := { data := e.cell.source w w.srcA, tag := 0, stamp := e.cell.sourceStamp w.srcA }
        let p := { p with caller := some (e.cell.col, e.cell.row, e.slot) }
        let p := p.modCell 0 0 fun c => { c with ins := listModify c.ins 0 fun q => q ++ [arg] }
        let s := (e.put s (e.cell.dequeue w.deq)).modRegion e.tk fun r =>
          let stack := r.active :: r.shadows
          { r with active := p, shadows := stack.take 3, spilled := stack.drop 3 ++ r.spilled, oldPlanes := [], loads := r.loads + 1,
                   epoch := r.epoch + 1 }
        if r.shadows.length < 3 then s else s.blurSpan e.team true

/-- The caller's plane once a retn has given its calln a value (R107). -/
def Plane.returned (p : Plane) (col row slot : Nat) (x : Word) (stamp : Nat) : Plane :=
  p.modCell col row fun c => match listGetD c.slots slot none with
    | some (.calln w) => (c.emit w.out (.tok { data := x, tag := 0, stamp := stamp })).writeBack w x stamp
    | _ => c

/-- retn (R107): the callee's plane is discarded, and the caller's thaws. STACK with no call outstanding. Requests that configurations replaced by next in the
callee have left in the memory interface (R108) are lost with it (DESIGN CHOICE, log 101). -/
def execRetn (w : SWord) (s : State) : Result :=
  slotStep (.retn w) w s fun e =>
    let r := e.region
    match r.shadows, r.active.caller with
    | p :: rest, some (col, row, slot) =>
      let x := e.cell.source w w.srcA
      (s.modRegion e.tk fun r =>
        { r with active := p.returned col row slot x (e.cell.sourceStamp w.srcA), shadows := rest, oldPlanes := [], epoch := r.epoch + 1, fired := true })
    | _, _ => s.failRegion e.tk (SFault.trap .stack 0)

/-- An mport of a configuration of the team's image would not stand at core column 15, row 7, were it loaded at the region's origin (R193). -/
def State.mportAstray (s : State) (t : Team) (r : Region) (id : Nat) : Bool :=
  match Table.find s.grids t.grid with
  | none => false
  | some g => match g.image.config id with
    | none => false
    | some c => ((readRows c r.col).getD []).zipIdx.any fun row => row.1.done.zipIdx.any fun x => x.1.slots.any fun k =>
        (match decodeSlot k.2 with
          | .ok (some (.mport _)) => true
          | _ => false) && !(r.col + x.2 == 15 && r.row + row.2 == 7)

/-- next (R108): the region is pending; a second one while it is raises CONFIG, and so does a configuration whose mport would not stand beside the
matrix port (R193). -/
def execNext (w : SWord) (s : State) : Result :=
  slotStep (.next w) w s fun e =>
    if e.region.active.pendingNext.isSome || s.mportAstray e.team e.region (w.imm.toNat % 4) then s.failRegion e.tk (SFault.trap .config 0)
    else
      let c := (e.cell.dequeue w.deq).writeBack w ((Config.unstatedWord 108 0).setWidth 32)
      (e.put s c).modPlane e.tk fun p => { p with pendingNext := some (w.imm.toNat % 4) }

-- ## The matrix port (R193, R419)

/-- The exact value of a value before rounding; an invalid operation's is the canonical NaN. -/
def Value.exact (v : Value) : Exact :=
  match v with
  | .nan (some b) => .nan b
  | .nan none => .nan 0x7FC00000
  | .inf n => .inf n
  | .fin n a x _ => .fin n a x

/-- mport (R193): every firing takes the heads of in0 and in1; data pairs add to the exact sum; a pair of last tokens appends it to the span
buffer and starts anew. An unbound tile raises ACCLIMIT. Of two NaNs the newest firing's stays at level 1 and up (DESIGN CHOICE, log 93). The mport slots of one PE add
to one sum (DESIGN CHOICE, log 101). -/
def execMport (w : SWord) (s : State) : Result :=
  slotStep (.mport w) w s fun e =>
    let x := e.cell.head 0
    let y := e.cell.head 1
    let level := s.teamLevel e.team
    let c := e.cell.dequeue (w.deq ||| 3)
    match x.tag.toNat, y.tag.toNat with
    | 0, 0 =>
      let f := if w.ty == 1 then FloatFmt.f16 else FloatFmt.bf16
      let v := fmaValue .rn (readFloat f level (x.data.toNat % 2 ^ 16)) (readFloat f level (y.data.toNat % 2 ^ 16)) e.cell.sum
      e.put s { c with sum := Value.exact v }
    | 1, 1 =>
      let name := w.imm.toNat % 16
      if (Table.find e.team.tiles name).isNone then s.failRegion e.tk (SFault.trap .acclimit 0)
      else
        let idx := (e.cell.source w w.srcB).toNat % 4096
        let mode : WriteMode := { mode := .rn, sat := false, level := level, conv := false, f32ToF16 := false }
        let v := writeFloat .f32 mode (Exact.toValue e.cell.sum)
        let c := ({ c with sum := .fin false 0 0 }.emit w.out (.tok { data := BitVec.ofNat 32 idx, tag := e.cell.outTag w })).writeBack w
          (BitVec.ofNat 32 idx)
        (e.put s c).bufferSpan e.tk e.team (.mport name) none (.scratch 0) 0 (BitVec.ofNat 64 (idx * 2 ^ 32 + v)) e.region.epoch
    | 2, 2 => e.put s (c.emit w.out (.tok { data := 0, tag := 2 }))
    | _, _ => e.put s c

-- ## eqpn (R384, R385)

/-- eqpn (R385): the firing ends the span; its token leaves at once, and no cell acts on it before the next span begins. -/
def execEqpn (w : SWord) (s : State) : Result :=
  slotStep (.eqpn w) w s fun e =>
    ((e.put s (e.cell.fire w (e.cell.source w w.srcA) (e.cell.outTag w) (e.cell.sourceStamp w.srcA))).modRegion e.tk fun r =>
      { r with closing := some (e.cell.col, e.cell.row, e.slot), atnDone := false }).closeSpan e.tk

-- ## Converter nodes (R96, R371, R372)

/-- The conversion that a configuration word fixes (R371, R375). -/
def convWord (w : SWord) (level : Nat) (x : Nat) : Nat :=
  convert (w.imm.extractLsb' 20 4).toNat (w.imm.extractLsb' 16 4).toNat (Rounding.ofCode w.var.toNat) w.sat level x

/-- The packed token of filled results, zero above them. -/
def packed (bits : Nat) (l : List Word) : Word := BitVec.ofNat 32 (l.zipIdx.foldl (fun n x => n + x.1.toNat % 2 ^ bits * 2 ^ (bits * x.2)) 0)

/-- One action of a converter node on the token at the head of its input queue (R372); nothing while its output buffer is full. -/
def Conv.step (v : Conv) (level : Nat) : Conv :=
  let w := v.word
  let mode := (w.imm.extractLsb' 14 2).toNat
  let conv := fun x : Nat => BitVec.ofNat 32 (convWord w level x)
  if 2 ≤ v.outq.length then v
  else match v.inq with
    | [] => v
    | t :: rest =>
      let elem := t.tag == 0 || t.tag == 1
      match mode with
      | 0 => { v with inq := rest, outq := v.outq ++ [if elem then { data := conv t.data.toNat, tag := t.tag } else t] }
      | 1 =>
        let bits := formatWidth (w.imm.extractLsb' 20 4).toNat
        let n := 32 / bits
        if t.tag == 0 || (t.tag == 1 && v.part.length + 1 = n) then
          let part := v.part ++ [conv t.data.toNat]
          if part.length < n then { v with inq := rest, part := part }
          else { v with inq := rest, part := [], outq := v.outq ++ [{ data := packed bits part, tag := t.tag }] }
        else if v.part.isEmpty then { v with inq := rest, outq := v.outq ++ [t] }
        else { v with part := [], outq := v.outq ++ [{ data := packed bits v.part, tag := 0 }] }
      | _ =>
        if !elem then { v with inq := rest, outq := v.outq ++ [t] }
        else
          let bits := formatWidth (w.imm.extractLsb' 16 4).toNat
          let part := if v.part.isEmpty then (List.range (32 / bits)).map fun k => conv (t.data.toNat / 2 ^ (bits * k) % 2 ^ bits) else v.part
          match part with
          | [] => v
          | x :: r => { v with inq := if r.isEmpty then rest else v.inq, part := r,
                               outq := v.outq ++ [{ data := x, tag := if r.isEmpty then t.tag else 0 }] }

/-- conv (R371, R372): one action of the converter node. -/
def execConv (w : SWord) (s : State) : Result :=
  match s.convEnv with
  | none => .fault .noIssuer
  | some (tk, t, v) => .next (s.modPlane tk fun p => p.modConv v.k fun v => { v with word := w }.step (s.teamLevel t))

/-- converter reconfigure (R96): a partial reconfiguration sends the node a new edge node part, which raises CONFIG as at configuration; or
the node takes the word of the one sent, once its queues are empty and its last token has left. -/
def execConverterReconfigure (team : Nat) (change : ConvChange) (s : State) : Result :=
  due <|
    match Table.find s.teams team with
    | none => none
    | some t => match t.region with
      | none => none
      | some r => match r.active.convs.find? fun v => v.k == change.node with
        | none => none
        | some v => match change, v.newWord with
          | .part node x, _ =>
            if !r.live || r.fault.isSome || t.phase != .placed then none
            else match decodeConverter x with
              | .ok w => some (s.modPlane team fun p => p.modConv node fun v => { v with newWord := some w })
              | .error _ => some (s.failRegion team (SFault.trap .config 0))
          | .take _, none => none
          | .take node, some w =>
            if v.inq.isEmpty && v.outq.isEmpty && v.part.isEmpty then
              some (s.modPlane team fun p => p.modConv node fun v => { v with word := w, newWord := none })
            else none

end Sys2Proof.Machine
end

