-- ==== Sys2Proof/Machine/Region.lean ====
section
/-! DEFINITION. The steps of a region beside its firings: stream ports, rollback, the starvation watch, spilled planes, a pending next and
the freeze wave (R79, R86 to R91, R107, R108, R111, R133, R134, R149). -/

namespace Sys2Proof.Machine

/-- An event reaches a core's agent (R386): a slot that has halted inside a handler goes on at once; another enters the event's handler (R397). -/
def State.agentEvent (s : State) (core : Nat) (v : AgentEvent) : State :=
  s.modCore core fun c => { c with agent := { c.agent with
    events := c.agent.events ++ [v], halted := c.agent.halted && c.agent.handling.isNone } }

-- ## Rollback (R133, R134, R149)

/-- s rollback: the span buffer, every token and the region are discarded, and the team resumes in T form at the span's starting
E-point without a decision there (R133, R150). A guard failure counts in CGC and keeps S from being a target for 4 samples (R129, R131). -/
def execSRollback (team : Nat) (s : State) : Result :=
  due <|
    match Table.find s.teams team with
    | none => none
    | some t => match t.region with
      | none => none
      | some r => match (if t.phase == .placed then r.fault else none) with
        | none => none
        | some f =>
          let s := s.modCore t.core fun c => { c with tileQ := c.tileQ.filter fun x => x.2.team != team }
          let s := s.resumeT team r.ep r.latched true
          some (s.modTeam team fun t =>
            if f.guard then { t with cgc := t.cgc + 1, perf := { t.perf.unprobed with coolS := 4 } } else { t with perf := t.perf.unprobed })

-- ## Stream ports (R86, R87, R90, R91)

/-- A port faults at an element of its pattern: one fault record goes to the core's agent, and the port stops (R91). -/
def State.portFault (s : State) (tk core k : Nat) (kind : TrapKind) (addr : BitVec 64) (pos : Nat) : State :=
  let first : Bool := match Table.find s.teams tk with
    | some t => t.region.any fun r => r.fault.isNone
    | none => false
  let s := s.modRegion tk fun r => match r.active.port k with
    | some p =>
      ({ r with active := r.active.modPort k fun p => { p with faulted := true } }).fail
        { guard := false, kind := some kind, port := some k, addr := addr, pattern := p.dims, pos := pos }
    | none => r
  if first then s.agentEvent core (.faultRecord tk) else s

/-- The iteration of an element of a pattern, innermost first, and its address (R86). -/
def iterations (dims : List (Nat × Int)) (pos : Nat) : List Nat :=
  match dims with
  | [] => []
  | d :: r => pos % d.1 :: iterations r (pos / d.1)
def Port.elemAddr (p : Port) : BitVec 64 :=
  (p.dims.zip (iterations p.dims p.pos)).foldl (fun a d => a + BitVec.ofInt 64 (d.1.2 * (d.2 : Nat))) p.base

/-- The last element of a run of dimension 0 (R86). -/
def Port.endsRun (p : Port) : Bool := match p.dims with
  | d :: _ => p.pos % d.1 + 1 == d.1
  | [] => false

/-- Alignment, bounds of a window address, translation and protection of a port's element. -/
def State.checkPort (s : State) (t : Team) (va : BitVec 64) (n : Nat) (k : AccessKind) : Except TrapKind Loc × State :=
  if va.toNat % n != 0 then (.error .align, s)
  else if inWindow va then
    let off := va.toNat - windowBase
    (if s.windowOk t.grid off n then .ok (.scratch off) else .error .bounds, s)
  else match s.access t.core (s.teamCtx t) va k with
    | (.error x, s) => (.error x, s)
    | (.ok x, s) =>
      let l := Loc.phys x.pa x.txn
      (if k != .write && s.poisoned l then .error .ecc else .ok l, s)

/-- A port of a team that may move an element: its region runs, no atn has performed in the span, and neither it nor its PE stands still. -/
def State.activePort (s : State) (tk k : Nat) : Option (Team × Region × Port) :=
  match Table.find s.teams tk with
  | none => none
  | some t => match t.region with
    | none => none
    | some r => match r.active.port k with
      | none => none
      | some p =>
        if r.live && r.fault.isNone && r.closing.isNone && !r.atnDone && !r.frozenCol 0 && !p.faulted && t.phase == .placed then some (t, r, p)
        else none


/-- The tag of an element: last under the mark (R86, R87). -/
def Port.elemTag (p : Port) : BitVec 2 := if p.mark && p.endsRun then 1 else 0

/-- The port with the read of its next element issued (R102). -/
def Port.issued (p : Port) (va : BitVec 64) : Port :=
  { p with pos := p.pos + 1, landing := p.landing ++ [{ va := va, tag := p.elemTag, value := none }] }

/-- An in port issues the read of its next element; it charges the power bucket (R100). -/
def State.issueElem (s : State) (tk : Nat) (t : Team) (p : Port) (va : BitVec 64) (f : Port → Port) : Option State :=
  (s.charge t.core 1).map fun s => s.modPlane tk fun q => q.modPort p.k fun p => f (p.issued va)

/-- The elements at the head of the landing buffer that have come, as tokens (R87). -/
def landed (l : List Landing) : List Token :=
  (l.takeWhile fun x => x.value.isSome).filterMap fun x => x.value.map fun v => { data := v, tag := x.tag }

/-- The port once the read at a place of its landing buffer has come: elements leave for its queue in pattern order. -/
def Port.arrived (p : Port) (k x : Nat) : Port :=
  let l := listModify p.landing k fun e => { e with value := some (BitVec.ofNat 32 x) }
  { p with queue := p.queue ++ landed l, landing := l.dropWhile fun e => e.value.isSome }

/-- An earlier read of a port that is under way goes to the same line of a peer: those of a line are made in pattern order (R220, R308). -/
def State.peerBefore (s : State) (t : Team) (p : Port) (l : Loc) (k : Nat) : Bool :=
  (p.landing.take k).any fun y => y.value.isNone && match s.checkPort t y.va p.width .read with
    | (.ok m, _) => l.samePeerLine m
    | (.error _, _) => false

/-- A read that an in port has issued is made: the newest bytes of the span buffer, else memory's (R87). Its address is translated anew, as it may
have stood in a plane for long (R102, R206); a fault is that of its own element. -/
def State.arriveElem (s : State) (tk : Nat) (t : Team) (r : Region) (p : Port) (k : Nat) : Option State :=
  match p.landing[k]? with
  | none => none
  | some x => match s.checkPort t x.va p.width .read with
    | (.error e, s) => some (s.portFault tk t.core p.k e x.va (p.pos - p.landing.length + k))
    | (.ok l, s) =>
      if s.peerBefore t p l k then none
      else (s.sampleTeam tk t l p.width).map fun got =>
        got.2.modPlane tk fun q => q.modPort p.k fun p => p.arrived k (ofLeBytes (r.overSpan (fun _ => true) l p.width got.1))

/-- A step of a port in indexed mode on its next token (R90): a translation token names the entry, a failure token faults the port, and
an offset reads the entry's page. A page whose entry was not made for reading raises PROT (DESIGN CHOICE, log 93). -/
def State.indexedRead (s : State) (tk : Nat) (t : Team) (r : Region) (p : Port) : Option State :=
  let drop := fun p : Port => { p with inq := p.inq.tail }
  let setPort := fun (f : Port → Port) => s.modPlane tk fun q => q.modPort p.k f
  match p.inq with
  | [] => none
  | x :: _ =>
    if x.tag == 3 then
      if x.data.getLsbD 31 then
        let kind := if x.data.toNat % 256 = 6 then TrapKind.prot else if x.data.toNat % 256 = 15 then .ecc else .page
        some (s.portFault tk t.core p.k kind 0 p.pos)
      else
        let n := x.data.toNat % 16
        let now := match listGetD r.xlat n none with
          | some e => e.stamp
          | none => 0
        some (setPort fun p => { drop p with xlat := some (n, if x.stamp = 0 then now else x.stamp) })
    else if x.tag == 2 || p.total ≤ p.pos then some (setPort drop)
    else
      match p.xlat with
      | none => some (s.failRegion tk SFault.guardFailure)
      | some (n, stamp) => match listGetD r.xlat n none with
        | none => some (s.failRegion tk SFault.guardFailure)
        | some e =>
          let off := x.data.toNat
          if e.stamp != stamp || e.cleared || e.size ≤ off then some (s.failRegion tk SFault.guardFailure)
          else
            let va := e.va + BitVec.ofNat 64 off
            if off % p.width != 0 then some (s.portFault tk t.core p.k .align va p.pos)
            else if !e.rd then some (s.portFault tk t.core p.k .prot va p.pos)
            else
              let l := Loc.phys (e.pa + off) e.txn
              if s.poisoned l then some (s.portFault tk t.core p.k .ecc va p.pos) else s.issueElem tk t p va drop

/-- What an in port does beside its reads under way: it issues the read of its next element, or sends its end token after the last element
(R87). -/
def State.portNext (s : State) (tk : Nat) (t : Team) (r : Region) (p : Port) : Option State :=
  if 64 ≤ p.queue.length + p.landing.length then none
  else if p.total ≤ p.pos then
    (if p.endSent || !p.landing.isEmpty then none
     else some (s.modPlane tk fun q => q.modPort p.k fun p => { p with endSent := true, queue := p.queue ++ [{ data := 0, tag := 2 }] }))
  else if p.indexed then s.indexedRead tk t r p
  else match s.checkPort t p.elemAddr p.width .read with
    | (.error k, s) => some (s.portFault tk t.core p.k k p.elemAddr p.pos)
    | (.ok _, s) => s.issueElem tk t p p.elemAddr id

/-- The places of the reads of a port that are under way. -/
def Port.awaited (p : Port) : List Nat := p.landing.zipIdx.filterMap fun x => if x.1.value.isNone then some x.2 else none

/-- stream port read (R87, R102): an in port makes one of the reads that it has issued, or goes on to its next element. -/
def execStreamPortRead (team port : Nat) (s : State) : Result :=
  due <|
    match s.activePort team port with
    | none => none
    | some (t, r, p) =>
      if p.out then none
      else
        let go := fun (o : Option Nat) (s : State) => match o with
          | some k => s.arriveElem team t r p k
          | none => s.portNext team t r p
        match (none :: p.awaited.map some).filter fun o => (go o s).isSome with
        | [] => none
        | o :: l => let (x, s') := s.pickFrom (o :: l) o; go x s'

/-- stream port write (R87): an out port takes its next token: an element goes into the span buffer, and end and control tokens and
those beyond the pattern are discarded. -/
def execStreamPortWrite (team port : Nat) (s : State) : Result :=
  due <|
    match s.activePort team port with
    | none => none
    | some (t, r, p) =>
      if !p.out then none
      else match p.queue with
        | [] => none
        | x :: _ =>
          let drop := fun p : Port => { p with queue := p.queue.tail }
          if decide (2 ≤ x.tag.toNat) || decide (p.total ≤ p.pos) then some (s.modPlane team fun q => q.modPort port drop)
          else match s.checkPort t p.elemAddr p.width .write with
            | (.error k, s) => some (s.portFault team t.core port k p.elemAddr p.pos)
            | (.ok l, s) => match s.charge t.core 1 with
              | none => none
              | some s => some ((s.modPlane team fun q => q.modPort port fun p => { drop p with pos := p.pos + 1 }).bufferSpan team t (.port port)
                  (if inWindow p.elemAddr then none else some p.elemAddr) l p.width (x.data.setWidth 64) r.epoch)

-- ## The starvation watch (R79)

/-- The threshold of a region's watch. -/
def Core.watchLimit (c : Core) (rid : Nat) : Nat := 2 ^ (min 14 (listGetD c.swcExp rid 0).toNat + 10)

/-- starvation watch event: a slot's count reaches the threshold; the agent is told, HIT is set and the count starts anew. -/
def execStarvationWatchEvent (team col row slot : Nat) (s : State) : Result :=
  due <|
    match Table.find s.teams team with
    | none => none
    | some t => match t.region with
      | none => none
      | some r =>
        let c := s.core t.core
        let k := watchKey col row slot
        if listGetD c.swcEn r.rid false && decide (c.watchLimit r.rid ≤ Table.getD r.starve k 0) then
          let s := s.agentEvent t.core (.diag r.rid col row slot s.cycle)
          let s := s.modCore t.core fun c => { c with swcHit := listModify c.swcHit r.rid fun _ => true }
          some (s.modRegion team fun r => { r with starve := Table.del r.starve k })
        else none

-- ## Spilled planes and a pending next (R107, R108)

/-- plane reload: a spilled plane comes back into the first shadow that is free (R107). -/
def execPlaneReload (team : Nat) (s : State) : Result :=
  due <|
    match Table.find s.teams team with
    | none => none
    | some t => match t.region with
      | none => none
      | some r => match r.spilled with
        | [] => none
        | p :: rest =>
          if r.shadows.length < 3 && t.phase == .placed && r.fault.isNone then
            some (s.modRegion team fun r => { r with shadows := r.shadows ++ [p], spilled := rest })
          else none

/-- next load: the pending region has drained; its plane is discarded and the new configuration loads (R108). Requests in the memory
interface stay and perform. -/
def execNextLoad (team : Nat) (s : State) : Result :=
  due <|
    match Table.find s.teams team with
    | none => none
    | some t => match t.region with
      | none => none
      | some r => match r.active.pendingNext with
        | none => none
        | some id =>
          if r.active.live != 0 || !r.fires || t.phase != .placed then none
          else some <| match s.loadPlane t r id (r.loads + 1) with
            | .error k => s.failRegion team (SFault.trap k 0)
            | .ok p => s.modRegion team fun r =>
                { r with active := { p with caller := r.active.caller }, loads := r.loads + 1, epoch := r.epoch + 1,
                         oldPlanes := (r.oldPlanes.filter fun o => o.chains.any fun c => !c.queue.isEmpty)
                           ++ [{ load := r.active.load, gate := r.active.gate, chains := r.active.chains.filter fun c => !c.queue.isEmpty }] }

-- ## The freeze wave (R111, R154, R385)

/-- freeze wave: a save sends it to a region; each further step passes one column, from the west. It is held back while an image or a
plane is being delivered, while a span is released, and for a rollback. -/
def execFreezeWave (team : Nat) (s : State) : Result :=
  due <|
    match Table.find s.teams team with
    | none => none
    | some t => match t.region with
      | none => none
      | some r =>
        if !s.saving (s.teamCtx t) || t.phase != .placed || r.fault.isSome then none
        else match r.frozen with
          | none =>
            if r.live && r.closing.isNone && (r.spilled.isEmpty || decide (3 ≤ r.shadows.length)) then
              some (s.modRegion team fun r => { r with frozen := some 0 })
            else none
          | some k => if k < r.w then some (s.modRegion team fun r => { r with frozen := some (k + 1) }) else none

/-- The region is frozen: the wave has passed its east column, and nothing in the memory interface can still perform. -/
def State.regionFrozen (s : State) (tk : Nat) (t : Team) (r : Region) : Bool :=
  (match r.frozen with
    | some k => decide (r.w ≤ k)
    | none => false) && !s.interfaceBusy tk t r

end Sys2Proof.Machine
end

