-- ==== Sys2Proof/Machine/Clocks.lean ====
section
/-! DEFINITION. The power bucket's own steps, the power controller, and the clock of a core (R280 to R282). -/

namespace Sys2Proof.Machine

-- ## The bucket (R280, R281)

/-- credit refill: RATE credits, up to CAP, once in a cycle. A gated core's bucket stands still. -/
def execCreditRefill (core : Nat) (s : State) : Result :=
  due <| if (s.core core).gated || !(s.core core).owed then none else some (s.modCore core Core.refilled)

/-- A charge of n can be made now. -/
def State.canCharge (s : State) (core n : Nat) : Bool := (s.charge core n).isSome

/-- power charge resume: a group that waits for credits issues its instruction again, which then charges; a port or tile that has waited for
a credit can take its next element or access. -/
def execPowerChargeResume (c : Charged) (s : State) : Result :=
  due <|
    match c with
    | .group r => match s.findGroup r with
      | none => none
      | some g => match g.state with
        | .waiting (.power core n) =>
          if s.running r && s.canCharge core n then some (s.modGroup r fun g => { g with state := .ready }) else none
        | _ => none
    | .port tk k => match Table.find s.teams tk with
      | none => none
      | some t => match t.region with
        | none => none
        | some r => if (r.active.ports.any fun p => p.k == k) && s.canCharge t.core 1 then some s else none
    | .tile core k => if ((s.core core).tileQ.any fun q => q.1 == k && q.2.answer.isNone) && s.canCharge core 1 then some s else none

/-- A write of PWR: 0 leaves RATE and CAP as they are, and a lower CAP lowers LEVEL at once (R280). -/
def Core.writePwr (c : Core) (v : BitVec 64) : Core :=
  let rate := if v.extractLsb' 17 11 == 0 then c.rate else v.extractLsb' 17 11
  let rateSet := if v.extractLsb' 17 11 == 0 then c.rateSet else v.extractLsb' 17 11
  let cap := if v.extractLsb' 0 17 == 0 then c.cap else v.extractLsb' 0 17
  { c with pwrEn := v.getLsbD 31, pwrGate := v.getLsbD 30, rate := rate, rateSet := rateSet, cap := cap,
           level := if cap.toNat ≤ c.level.toNat then cap else c.level }

/-- The controller's RATE of a core: never above the value last written, and never 0. -/
def Core.adjusted (rate : BitVec 11) (c : Core) : Core :=
  { c with rate := if rate.toNat ≤ c.rateSet.toNat then rate else c.rateSet }

/-- power controller adjust: one RATE for every core, as the measured module power asks (R281). -/
def execPowerControllerAdjust (rate : BitVec 11) (s : State) : Result :=
  due <| if rate == 0 then none else some { s with cores := Table.mapVals s.cores (Core.adjusted rate) }

-- ## A core's clock (R280, R282)

/-- core clock gate: a core with GATE set gates its clock after 65,536 cycles with no team placed. -/
def execCoreClockGate (core : Nat) (s : State) : Result :=
  due <|
    let c := s.core core
    if c.started && !c.gated && c.pwrGate && decide (65536 ≤ c.idle) && (s.placedOn core).isEmpty
    then some (s.modCore core fun c => { c with gated := true, owed := false }) else none

/-- A distributor chooses a core for a team: the next team's, or one that the teams of the gang grid that comes next take. -/
def State.chosenCore (s : State) (core : Nat) : Bool :=
  s.grids.any fun g =>
    (s.namedNext g.1 g.2 && match s.nextFit g.1 g.2 with
      | some f => f.1 == core
      | none => false)
    || (s.gangPlan g.1 g.2).any fun p => p.2.contains core

/-- The main-clock cycles of 2 µs. -/
def stepCycles : Nat := 1400

/-- A step of waking cores has room for one more now: it began in this cycle and has woken fewer than 8, or 2 µs have passed since the last began
(R282). -/
def State.wakeOpen (s : State) : Bool :=
  s.wakes == 0 || (s.wakeFrom == s.cycle && decide (s.wakes < 8)) || decide (stepCycles ≤ (s.cycle - s.wakeFrom).toNat)

/-- core wake: a gated core that is chosen for a team wakes with a full bucket; cores wake in steps of 8 in ascending number, 2 µs apart (R282). -/
def execCoreWake (core : Nat) (s : State) : Result :=
  due <|
    if (s.core core).gated && s.chosenCore core && s.wakeOpen && (List.range core).all (fun c => !((s.core c).gated && s.chosenCore c)) then
      some { (s.modCore core fun c => { c with gated := false, idle := 0, level := c.cap, owed := false }) with
        wakeFrom := s.cycle, wakes := if s.wakeFrom == s.cycle then s.wakes + 1 else 1 }
    else none

end Sys2Proof.Machine
end

