-- ==== Sys2Proof/Machine/Table.lean ====
section
/-! DEFINITION. The KV block table: ldbt and stbt, copies on write, the operations of BTOP and btop, sweeps and block moves (R208 to R216,
R268, R298, R299, R361, R405, R447). -/

namespace Sys2Proof.Machine

-- ## The table unit's reads (R208, R210)

/-- The context, the core and the versions through which the table unit works; src: the group for which it does, whose own stores it sees
(R220). -/
structure TableEnv where
  core : Nat
  ctx : Nat
  view : List (Nat × Nat)
  src : Option (GroupRef × Group) := none
deriving DecidableEq, Repr

/-- The bytes at a location as the table unit sees them. -/
def TableEnv.bytes (t : TableEnv) (s : State) (l : Loc) (n : Nat) : List Byte :=
  match t.src with
  | some (r, g) => s.readOwn r t.view g g.seq l n
  | none => s.readLoc t.view l n

/-- A read of n bytes of the table unit: PAGE or PROT at its address. It reads the launch's own shadow or committed data, and is not
tracked (R210). The window is never translated, so nothing of a table lies there (R201). -/
def TableEnv.read (t : TableEnv) (s : State) (va : BitVec 64) (n : Nat) : Except (BitVec 64 × TrapKind) (Nat × Loc) × State :=
  if inWindow va then (.error (va, .page), s)
  else match s.access t.core t.ctx va .read with
  | (.error k, s) => (.error (va, k), s)
  | (.ok x, s) =>
    let l := Loc.phys x.pa (x.txn && !t.view.isEmpty)
    if s.poisoned l then (.error (va, .ecc), s)
    else (.ok (ofLeBytes (t.bytes s l n), l), s.touchBytes (if x.txn then t.view else []) x.pa n)

/-- The table unit writes bytes at a location through the versions at hand, in one event of the group for which it works. -/
def TableEnv.write (t : TableEnv) (s : State) (l : Loc) (bs : List Byte) : State :=
  match t.src with
  | some (r, g) => s.perform r g.seq t.view l bs
  | none => s.perform hubRef 0 t.view l bs

/-- The launch's own read of n bytes at a location, as its group sees them, is tracked (R211). -/
def TableEnv.track (t : TableEnv) (s : State) (l : Loc) (n : Nat) : State :=
  match t.src with
  | some (r, g) => s.trackOwn r t.view g g.seq l n
  | none => s.trackLoc t.view l n

/-- The physical address of a location. -/
def Loc.addr (l : Loc) : Nat :=
  match l with
  | .phys pa _ => pa
  | .scratch off => off

/-- A table's descriptor. -/
structure Desc where
  va : BitVec 64
  loc : Loc
  entries : BitVec 64
  count : Nat
  m : Nat
  dir : BitVec 64
  seqs : Nat
  ring : BitVec 64
  cap : Nat
  head : Nat
  tail : Nat
deriving DecidableEq, Repr

/-- The physical ranges of n bytes from an address on, by the pages of 64 KiB in which they lie. -/
def State.rangePages (s : State) (ctx : Nat) (va : BitVec 64) (n : Nat) : List (Nat × Nat) :=
  let cut := fun i => min n (i * 65536 - va.toNat % 65536)
  (List.range (n / 65536 + 2)).filterMap fun i =>
    let a := va + BitVec.ofNat 64 (cut i)
    if cut i < cut (i + 1) then (s.walkCtx ctx a.toNat).map fun e => ((xlatOf e.1 e.2 a.toNat).pa, cut (i + 1) - cut i) else none

/-- What versions hold of the upper halves of entries is written directly, in commit order (R209). -/
def State.settleHigh (s : State) : State :=
  let upper := fun x : Shadow => x.bytes.filter fun e => s.highEntry e.1
  let order := fun x : Shadow => ((Table.find s.launches x.launch).map fun l => l.order).getD 0
  let writers := (s.shadows.filter fun x => !(upper x).isEmpty).foldr (fun x l => (l.takeWhile fun y => decide (order y < order x)) ++ x ::
    l.dropWhile fun y => decide (order y < order x)) []
  writers.foldl (fun t x => (upper x).foldl (fun t e => t.writeDirect e.1 e.2)
    { t with shadows := t.shadows.map fun y => if y.launch == x.launch && y.sub == x.sub then { y with bytes := y.bytes.filter fun e => !s.highEntry e.1 }
                                               else y }) s

/-- The table unit knows a table from the first use of its descriptor on, until the descriptor names another array: where its entries lie, by which
their words are told from other data (R209, R248, R250; log 92). -/
def State.knowTable (s : State) (ctx : Nat) (d : Desc) : State :=
  let t : KnownTable := { ctx := ctx, desc := d.va, pa := d.loc.addr, entries := d.entries, count := d.count,
                          pages := s.rangePages ctx d.entries (16 * min d.count (2 ^ 24)) }
  if s.tables.contains t then s
  else ({ s with tables := t :: s.tables.filter fun u => s.tableStands u && !(u.pa == t.pa && u.entries == t.entries && u.count == t.count) }).settleHigh

/-- Reads a descriptor (R208). -/
def TableEnv.desc (t : TableEnv) (s : State) (va : BitVec 64) : Except (BitVec 64 × TrapKind) Desc × State :=
  match t.read s va 64 with
  | (.error e, s) => (.error e, s)
  | (.ok (x, l), s) =>
    let f := fun off n => x / 2 ^ (8 * off) % 2 ^ (8 * n)
    let d : Desc := { va := va, loc := l, entries := BitVec.ofNat 64 (f 0 8), count := f 8 4, m := f 12 4, dir := BitVec.ofNat 64 (f 16 8),
                      seqs := f 24 4, ring := BitVec.ofNat 64 (f 32 8), cap := f 40 4, head := f 44 4, tail := f 48 4 }
    (.ok d, s.knowTable t.ctx d)

/-- A directory slot that names no entry. -/
def noEntry : Nat := 0xFFFFFFFF

/-- The address of the directory slot of a sequence and logical block. -/
def Desc.slot (d : Desc) (q k : Nat) : BitVec 64 := d.dir + BitVec.ofNat 64 ((q * d.m + k) * 4)

/-- The address of an entry. -/
def Desc.entry (d : Desc) (e : Nat) : BitVec 64 := d.entries + BitVec.ofNat 64 (16 * e)

/-- An entry's low word as it stands, and where it stands. -/
structure Entry where
  loc : Loc
  low : BitVec 64
deriving DecidableEq, Repr

def Entry.block (e : Entry) : Nat := (e.low.extractLsb' 0 36).toNat
def Entry.tier (e : Entry) : Nat := (e.low.extractLsb' 36 2).toNat
def Entry.ref (e : Entry) : BitVec 16 := e.low.extractLsb' 38 16
def Entry.val (e : Entry) : Bool := e.low.getLsbD 54
def Entry.cow (e : Entry) : Bool := e.low.getLsbD 55

/-- A store to the entry's block copies it (R211). -/
def Entry.copied (e : Entry) : Bool := e.cow && decide (1 < e.ref.toNat)

/-- A low word with its REF, VAL and COW set. -/
def Entry.with (e : Entry) (ref : BitVec 16) (val cow : Bool) : BitVec 64 :=
  (e.low.extractLsb' 56 8) ++ BitVec.ofBool cow ++ BitVec.ofBool val ++ ref ++ (e.low.extractLsb' 0 38)

/-- Reads an entry. -/
def TableEnv.entry (t : TableEnv) (s : State) (d : Desc) (e : Nat) : Except (BitVec 64 × TrapKind) Entry × State :=
  match t.read s (d.entry e) 8 with
  | (.error x, s) => (.error x, s)
  | (.ok (x, l), s) => (.ok { loc := l, low := BitVec.ofNat 64 x }, s)

/-- The high word of an entry, which is never transactional (R209): MOV, PIN and ACC are bits 48, 49 and 50. -/
def State.entryHigh (s : State) (e : Entry) : BitVec 64 := BitVec.ofNat 64 (s.committedNat (e.loc.addr + 8) 8)
def State.setEntryHigh (s : State) (e : Entry) (x : BitVec 64) : State := s.perform hubRef 0 [] (.phys (e.loc.addr + 8) false) (leBytes 8 x.toNat)

def movBit : BitVec 64 := 1#64 <<< 48
def pinBit : BitVec 64 := 1#64 <<< 49
def accBit : BitVec 64 := 1#64 <<< 50

/-- Sets or clears bits of an entry's high word directly. -/
def State.markEntry (s : State) (e : Entry) (bits : BitVec 64) (on : Bool) : State :=
  s.setEntryHigh e (if on then s.entryHigh e ||| bits else s.entryHigh e &&& ~~~bits)

/-- Writes an entry's low word through the versions at hand. -/
def TableEnv.putLow (t : TableEnv) (s : State) (e : Entry) (low : BitVec 64) : State := t.write s e.loc (leBytes 8 low.toNat)

/-- Writes an entry's low word with a new REF: the launch's read of REF is tracked (R211). -/
def TableEnv.setLow (t : TableEnv) (s : State) (e : Entry) (low : BitVec 64) : State := t.putLow (t.track s e.loc 8) e low

-- ## Resolution of a lane (R210, R405, R447)

/-- What a lane's offset resolves to: its slot, and its entry with the number; no entry where stbt appends. -/
structure Resolved where
  slot : Loc
  entry : Option (Nat × Entry)
deriving DecidableEq, Repr

/-- A block holds a poisoned line (R215). -/
def State.blockPoisoned (s : State) (blk : Nat) : Bool := s.poison.any fun line => line / 1024 == blk

/-- All of an entry's block exists (R196, R213). -/
def State.blockOk (s : State) (e : Entry) : Bool := s.physOk (e.block * 2 ^ 16) && s.physOk (e.block * 2 ^ 16 + 65535)

/-- A lane's access to the block that it resolves to finds its byte there (R196, R213); a copy on write finds the block whole. -/
def State.laneBlockOk (s : State) (e : Entry) (off : Nat) (copies : Bool) : Bool :=
  s.physOk (e.block * 2 ^ 16 + off % 2 ^ 16) && (!copies || !e.copied || s.blockOk e)

/-- Resolves a logical offset. A slot of 0xFFFFFFFF raises BOUNDS unless appends is set; a block that is absent raises PAGE (log 84). -/
def TableEnv.resolve (t : TableEnv) (s : State) (d : Desc) (q : Nat) (off : BitVec 64) (appends : Bool) :
    Except (BitVec 64 × TrapKind) Resolved × State :=
  let k := off.toNat / 2 ^ 16
  if off.msb || decide (d.seqs ≤ q) || decide (d.m ≤ k) then (.error (off, .bounds), s)
  else match t.read s (d.slot q k) 4 with
    | (.error x, s) => (.error x, s)
    | (.ok (n, l), s) =>
      if n = noEntry && appends then (.ok { slot := l, entry := none }, s)
      else if n = noEntry || d.count ≤ n then (.error (off, .bounds), s)
      else match t.entry s d n with
        | (.error x, s) => (.error x, s)
        | (.ok e, s) =>
          if !e.val || decide (1 < e.tier) then (.error (off, .bounds), s)
          else if !s.laneBlockOk e off.toNat appends then (.error (off, .page), s)
          else (.ok { slot := l, entry := some (n, e) }, s)

/-- The location of the data that an offset names in an entry's block; block accesses are transactional (R210). -/
def TableEnv.dataLoc (t : TableEnv) (e : Entry) (off : Nat) : Loc := .phys (e.block * 2 ^ 16 + off % 2 ^ 16) (!t.view.isEmpty)

/-- What the issuing group gives the table unit. -/
def Env.table (e : Env) (s : State) : TableEnv := { core := e.core, ctx := e.ctx, view := e.view s, src := some (e.gref, e.grp) }

/-- A lane's logical offset: index + imm (R210). -/
def Env.tableOff (e : Env) (w : MWord) (lane : Nat) : BitVec 64 := e.indexOf w lane + w.imm.signExtend 64

/-- The checks of a lane of ldbt or stbt, alignment first (R405, R447). A copy on write reads its whole block: a poisoned line there raises ECC (R215). -/
def Env.checkTable (e : Env) (w : MWord) (appends : Bool) (lane : Nat) (s : State) : Except (BitVec 64 × TrapKind) Resolved × State :=
  let off := e.tableOff w lane
  if off.toNat % widthBytes w.width != 0 then (.error (off, .align), s)
  else
    let t := e.table s
    match t.desc s (e.grp.readSPair w.base.toNat) with
    | (.error x, s) => (.error x, s)
    | (.ok d, s) => match t.resolve s d (e.grp.readS (w.base.toNat + 2)).toNat off appends with
      | (.error x, s) => (.error x, s)
      | (.ok r, s) =>
        (if appends && r.entry.any fun x => x.2.copied && s.blockPoisoned x.2.block then .error (off, .ecc) else .ok r, s)

/-- A lane of ldbt loads from a block: it has no virtual address of its own. -/
def Env.loadTable (e : Env) (w : MWord) (r : List (Nat × Loc) × Option LaneFault × State) : State :=
  let (ok, bad, s) := r
  let g := ok.foldl (e.addLaneLoad w fun _ _ => none) e.grp
  match bad with
  | some f => e.laneTrap s g f .read
  | none => e.finish g s

/-- ldbt (R405): every resolving entry gets ACC (R298). -/
def execLdbt (w : MWord) (s : State) : Result :=
  let n := widthBytes w.width
  native (memUses w (dataRegs w.d.toNat n) [w.base.toNat + 2]) s fun e => e.ordered s <|
    let (ok, bad, s) := checkLanes (fun lane s =>
      match e.checkTable w false lane s with
      | (.error x, s) => (.error x, s)
      | (.ok r, s) => match r.entry with
        | some (_, en) =>
          let l := (e.table s).dataLoc en (e.tableOff w lane).toNat
          (if s.poisoned l then .error (e.tableOff w lane, .ecc) else .ok (en, l), s)
        | none => (.error (0, .bounds), s)) (lanesOf (e.guard w.g)) s []
    let s := if bad.isSome && !e.vform then s else ok.foldl (fun s x => s.markEntry x.2.1 accBit true) s
    e.loadTable w (ok.map fun x => (x.1, x.2.2), bad, s)

-- ## stbt (R211, R447)

/-- The numbers of n free entries from a position of the ring on. A ring slot or an entry that cannot be read raises PAGE or PROT at its address,
and an entry whose block is absent PAGE at the entry's (log 84). -/
def TableEnv.ringEntries (t : TableEnv) (d : Desc) : Nat → Nat → State → Except (BitVec 64 × TrapKind) (List Nat) × State
  | 0, _, s => (.ok [], s)
  | n + 1, pos, s => match t.read s (d.ring + BitVec.ofNat 64 (4 * (pos % max 1 d.cap))) 4 with
    | (.error x, s) => (.error x, s)
    | (.ok (k, _), s) => match t.entry s d k with
      | (.error x, s) => (.error x, s)
      | (.ok e, s) =>
        if !s.blockOk e then (.error (d.entry k, .page), s)
        else match TableEnv.ringEntries t d n (pos + 1) s with
          | (.error x, s) => (.error x, s)
          | (.ok l, s) => (.ok (k :: l), s)

/-- Takes the next free entries of a table: their numbers, with head advanced past them. Head is read into the read set (R211). -/
def TableEnv.takeFree (t : TableEnv) (s : State) (d : Desc) (n : Nat) : Except (BitVec 64 × TrapKind) (List Nat) × State :=
  match t.ringEntries d n d.head s with
  | (.error x, s) => (.error x, s)
  | (.ok ids, s) =>
    let l := d.loc.plus 0x2C
    (.ok ids, t.write (t.track s l 4) l (leBytes 4 ((d.head + n) % 2 ^ 32)))

/-- The free entries that the ring holds. -/
def Desc.free (d : Desc) : Nat := (d.tail + 2 ^ 32 - d.head) % 2 ^ 32

/-- The table as the lanes of an instruction have left it in a count of what they need: by logical block the entry, and by entry REF and
COW. -/
structure Plan where
  slots : Table (Option Nat)
  refs : Table (Nat × Bool)
  needed : Nat
  first : Option Nat
deriving DecidableEq, Repr

/-- One lane of the count: an append or a copy on write takes one entry, which is numbered above every entry of the table. -/
def Plan.lane (p : Plan) (count k lane : Nat) (r : Resolved) : Plan :=
  let e := match Table.find p.slots k with
    | some x => x
    | none => r.entry.map fun e => e.1
  let take := fun (p : Plan) =>
    let n := count + p.needed
    { p with slots := Table.put p.slots k (some n), refs := Table.put p.refs n (1, false), needed := p.needed + 1,
             first := if p.first.isNone then some lane else p.first }
  match e with
  | none => take p
  | some n =>
    let (ref, cow) := match Table.find p.refs n, r.entry with
      | some x, _ => x
      | none, some (_, en) => (en.ref.toNat, en.cow)
      | none, none => (1, false)
    if cow && decide (1 < ref) then take { p with refs := Table.put p.refs n (ref - 1, cow) }
    else { p with refs := Table.put p.refs n (ref, false), slots := Table.put p.slots k (some n) }

/-- What acting on one lane comes to: it waits for a copy on write, it has acted, or a part of the table cannot be read. -/
inductive TableStep where
  | copies (s : State)
  | acted (s : State) (g : Group) (free : List Nat)
  | fails (s : State) (addr : BitVec 64) (kind : TrapKind)

/-- The group with a lane's store added. -/
def storeTable (t : TableEnv) (en : Entry) (w : CowWait) (x : TableLane) (r : GroupRef) (g : Group) : Group :=
  g.addStore { pubs := g.pubs r t.core w.op (if w.rel then some w.scope else none),
                seq := 0, op := w.op, after := [], lane := x.lane, rel := w.rel, scope := w.scope, level := 0, loose := false,
               loc := t.dataLoc en x.off, bytes := w.bytes, data := x.data, va := none }

/-- One lane of an stbt acts (R211): an append, a store, or a copy on write, which takes the copy engine's time unless it is given. A copy reads
what the group r, g has stored and what the launch's shadow or committed data hold; a poisoned line of the block raises ECC (R215). Both entries of a
copy get ACC (R298). -/
def TableEnv.act (t : TableEnv) (s : State) (d : Desc) (w : CowWait) (x : TableLane) (r : GroupRef) (g : Group) (copyDone : Bool) : TableStep :=
  match t.resolve s d w.q (BitVec.ofNat 64 x.off) true with
  | (.error f, s) => .fails s f.1 f.2
  | (.ok y, s) =>
    match y.entry, w.free with
    | none, n :: free =>
      match t.entry s d n with
      | (.error f, s) => .fails s f.1 f.2
      | (.ok en, s) =>
        let s := t.setLow s en (en.with 1 true false)
        let s := t.write s y.slot (leBytes 4 n)
        .acted ((s.markEntry en movBit false).markEntry en accBit true) (storeTable t en w x r g) free
    | none, [] => .fails s (d.va + 0x2C) .page
    | some (_, en), free =>
      let s := (s.markEntry en movBit false).markEntry en accBit true
      if en.copied then
        match copyDone, free with
        | false, _ => .copies s
        | true, [] => .fails s (d.va + 0x2C) .page
        | true, n :: free =>
          match t.entry s d n with
          | (.error f, s) => .fails s f.1 f.2
          | (.ok new, s) =>
            if s.blockPoisoned en.block then .fails s (BitVec.ofNat 64 x.off) .ecc else
            let s := t.write s (t.dataLoc new 0) (s.readOwn r t.view g g.seq (t.dataLoc en 0) 65536)
            let s := t.setLow s en (en.with (en.ref - 1) true true)
            let s := t.setLow s new (new.with 1 true false)
            let s := t.write s y.slot (leBytes 4 n)
            .acted (s.markEntry new accBit true) (storeTable t new w x r g) free
      else
        let s := if en.cow then t.putLow s en (en.with en.ref true false) else s
        .acted s (storeTable t en w x r g) free

/-- What the lanes of an stbt come to: all have acted, one waits for a copy on write, or one fails. -/
inductive TableEnd where
  | done
  | waits (w : CowWait)
  | fails (f : LaneFault)

/-- The lanes of an stbt act in ascending order, up to one that waits for a copy on write or fails. -/
def TableEnv.actAll (t : TableEnv) (d : Desc) (r : GroupRef) : Nat → State → CowWait → Group → Bool → TableEnd × State × Group
  | 0, s, _, g, _ => (.done, s, g)
  | fuel + 1, s, w, g, copyDone =>
    match w.lanes with
    | [] => (.done, s, g)
    | x :: rest =>
      match t.act s d w x r g copyDone with
      | .copies s => (.waits w, s, g)
      | .fails s a k => (.fails { lane := x.lane, addr := a, kind := k }, s, g)
      | .acted s g free => TableEnv.actAll t d r fuel s { w with lanes := rest, free := free } g false

/-- The writes that lead from one state to another would need a shadow line for which the overflow region has no room (R257). -/
def TableEnv.noRoom (t : TableEnv) (s u : State) : Bool :=
  match t.view with
  | [] => false
  | v :: _ => s.overflowFull t.ctx && (u.linesOf v).any fun line => !s.hasShadowLine v line

/-- How many of an stbt's lanes act, from one state on, before one finds no room in the shadow for what they write or store (R257); none where all act. s:
the state in which the room is looked for. -/
def TableEnv.fullAt (t : TableEnv) (s u : State) (d : Desc) (r : GroupRef) (w : CowWait) (g : Group) (copyDone : Bool) : Option Nat :=
  (List.range w.lanes.length).find? fun m =>
    let (_, v, h) := t.actAll d r (m + 2) u { w with lanes := w.lanes.take (m + 1) } g copyDone
    t.noRoom s v || h.stores.any fun x => decide (g.seq ≤ x.seq) && s.shadowBlocked t.ctx t.view x.loc

/-- The count of what the lanes that passed need. -/
def planOf (d : Desc) (ok : List (Nat × Nat × Resolved)) : Plan :=
  ok.foldl (fun p x => p.lane d.count (x.2.1 / 2 ^ 16) x.1 x.2.2) { slots := [], refs := [], needed := 0, first := none }

/-- stbt (R447). In V form a failing element leaves the elements below it stored; where the ring is short that is the lowest element that
needs an entry. -/
def execStbt (w : MWord) (s : State) : Result :=
  let n := widthBytes w.width
  native (memUses w (dataRegs w.d.toNat n) [w.base.toNat + 2]) s fun e => e.ordered s <|
    let (ok, bad, s) := checkLanes (fun l s =>
      match e.checkTable w true l s with
      | (.error x, s) => (.error x, s)
      | (.ok r, s) => (.ok ((e.tableOff w l).toNat, r), s)) (lanesOf (e.guard w.g)) s []
    let va := e.grp.readSPair w.base.toNat
    match bad, e.vform, (e.table s).desc s va with
    | some f, false, _ => e.laneTrap s e.grp f .write
    | _, _, (.error x, s) => match bad with
      | some f => e.laneTrap s e.grp f .write
      | none => if ok.isEmpty then e.finish e.grp s else e.laneTrap s e.grp { lane := 0, addr := x.1, kind := x.2 } .write
    | _, _, (.ok d, s) =>
      let t := e.table s
      let p := planOf d ok
      let taken := if p.needed = 0 then (.ok [], s) else t.takeFree s d p.needed
      let short : Option LaneFault :=
        if d.free < p.needed then p.first.map fun l => { lane := l, addr := va + 0x2C, kind := .page }
        else match taken.1 with
          | .error x => p.first.map fun l => { lane := l, addr := x.1, kind := x.2 }
          | .ok _ => none
      let bad := if short.isSome then short else bad
      match bad, e.vform with
      | some f, false => e.laneTrap s e.grp f .write
      | _, _ =>
        let ok := match short with
          | some f => ok.filter fun (x : Nat × Nat × Resolved) => decide (x.1 < f.lane)
          | none => ok
        let (free, u) := match short, taken with
          | none, (.ok l, u) => (l, u)
          | _, _ => ([], s)
        let job : CowWait :=
          { desc := va, q := (e.grp.readS (w.base.toNat + 2)).toNat, bytes := n, rel := w.order == 2, scope := w.scope.toNat, op := e.grp.seq,
            lanes := ok.map fun (x : Nat × Nat × Resolved) => { lane := x.1, off := x.2.1, data := BitVec.ofNat 64 (e.dataValue w.d.toNat n x.1) },
            free := free, bad := bad }
        let run := fun k => t.actAll d e.gref (k + 1) u { job with lanes := job.lanes.take k } e.grp false
        match t.fullAt s u d e.gref job e.grp false with
        | some m =>
          let (v, g) := if m = 0 then (s, e.grp) else ((run m).2.1, (run m).2.2)
          let x := listGetD job.lanes m { lane := 0, off := 0, data := 0 }
          e.onFullShadow s v g x.lane (BitVec.ofNat 64 x.off) .write
        | none =>
          let (left, u, g) := run job.lanes.length
          match left, bad with
          | .waits c, _ => { e with grp := g }.waitOn (.cow c) u
          | .fails f, _ => e.laneTrap u g f .write
          | .done, some f => e.laneTrap u g f .write
          | .done, none => e.finish g u

/-- A lane of an stbt that is under way fails: the group, whose lanes below have acted, is to take the trap (R42, R70). -/
def State.stbtFails (s : State) (r : GroupRef) (g : Group) (f : LaneFault) : State :=
  match (s.modGroup r fun _ => g).waitEnv r with
  | some e => e.laneOwed s e.grp f .write
  | none => s.modGroup r fun _ => g

/-- The group of an stbt once its last lane has acted: past the word, or with the trap of an element above them that had failed its checks (R70). -/
def State.stbtDone (s : State) (r : GroupRef) (g : Group) (bad : Option LaneFault) : State :=
  match bad with
  | some f => s.stbtFails r g f
  | none => (s.modGroup r fun _ => g.pastWord).stepEnd r

/-- copy on write complete: the block is copied, the lane's store and table updates proceed, and then the lanes after it (R211). A lane
that fails now, by a poisoned line of its block or where the table has become unreadable meanwhile, traps with the lanes below it done (R70, R215). A full
overflow region stalls the copy, or raises SHADOW (R257). -/
def execCopyOnWriteComplete (r : GroupRef) (s : State) : Result :=
  due <|
    match s.findGroup r, (if r.team = 0 then none else Table.find s.teams r.team) with
    | some g, some tm => match g.state, Table.find s.grids tm.grid with
      | .waiting (.cow w), some gr =>
        if !s.running r then none else
        let t : TableEnv := { core := tm.core, ctx := gr.ctx, view := s.viewOf tm.grid, src := some (r, g) }
        let lane := fun k => listGetD w.lanes k { lane := 0, off := 0, data := 0 }
        match t.desc s w.desc with
        | (.error x, s) => if g.hasTrap then none else some (s.stbtFails r g { lane := (lane 0).lane, addr := x.1, kind := x.2 })
        | (.ok d, s) =>
          let run := fun k => t.actAll d r (k + 1) s { w with lanes := w.lanes.take k } g true
          match t.fullAt s s d r w g true with
          | some m =>
            if s.isOldest gr.launch && !g.hasTrap then
              let (v, h) := if m = 0 then (s, g) else ((run m).2.1, (run m).2.2)
              some (v.stbtFails r h { lane := (lane m).lane, addr := BitVec.ofNat 64 (lane m).off, kind := .shadow })
            else none
          | none =>
            let (left, u, h) := run w.lanes.length
            match left with
            | .waits c => some (u.modGroup r fun _ => { h with state := .waiting (.cow c) })
            | .fails f => if g.hasTrap then none else some (u.stbtFails r h f)
            | .done => if w.bad.isSome && g.hasTrap then none else some (u.stbtDone r h w.bad)
      | _, _ => none
    | _, _ => none

-- ## FORK, RELEASE, PIN and UNPIN (R268)

/-- What an operation on a table comes to: done, or the trap kind and address that end it. -/
abbrev TableResult := Except (TrapKind × BitVec 64) Unit × State

/-- Applies a step to every k below m. -/
def eachBlock (f : Nat → State → Except (BitVec 64 × TrapKind) Unit × State) : Nat → Nat → State → Except (BitVec 64 × TrapKind) Unit × State
  | 0, _, s => (.ok (), s)
  | fuel + 1, k, s => match f k s with
    | (.ok _, s) => eachBlock f fuel (k + 1) s
    | (.error x, s) => (.error x, s)

/-- One k of an operation. -/
def TableEnv.opBlock (t : TableEnv) (d : Desc) (op q q2 : Nat) (pins : Bool) (k : Nat) (s : State) :
    Except (BitVec 64 × TrapKind) Unit × State :=
  match t.read s (d.slot q k) 4 with
  | (.error x, s) => (.error x, s)
  | (.ok (n, l), s) =>
    if n = noEntry then (.ok (), s)
    else match t.entry s d n with
      | (.error x, s) => (.error x, s)
      | (.ok e, s) =>
        match op with
        | 0 => match t.read s (d.slot q2 k) 4 with
          | (.error x, s) => (.error x, s)
          | (.ok (_, l2), s) => (.ok (), t.write (t.setLow s e (e.with (e.ref + 1) e.val true)) l2 (leBytes 4 n))
        | 1 =>
          let s := t.setLow s e (e.with (e.ref - 1) (e.val && e.ref != 1) e.cow)
          let s := t.write s l (leBytes 4 noEntry)
          if e.ref != 1 then (.ok (), s)
          else match t.desc s d.va with
            | (.error x, s) => (.error x, s)
            | (.ok d, s) => match t.read s (d.ring + BitVec.ofNat 64 (4 * (d.tail % max 1 d.cap))) 4 with
              | (.error x, s) => (.error x, s)
              | (.ok (_, rl), s) =>
                let tl := d.loc.plus 0x30
                (.ok (), t.write (t.track (t.write s rl (leBytes 4 n)) tl 4) tl (leBytes 4 ((d.tail + 1) % 2 ^ 32)))
        | _ => (.ok (), if pins then s.markEntry e pinBit (op == 2) else s)

/-- An operation of R268 on the table that a descriptor names: BOUNDS for its own refusals, PAGE or PROT where a table read fails. pins
says that PIN and UNPIN write now; within a BTOP they write when it commits. -/
def TableEnv.tableOp (t : TableEnv) (s : State) (va : BitVec 64) (op q q2 : Nat) (pins : Bool) :
    Except (BitVec 64 × TrapKind) Unit × State :=
  match t.desc s va with
  | (.error x, s) => (.error x, s)
  | (.ok d, s) =>
    if 3 < op || d.seqs ≤ q || d.seqs ≤ q2 then (.error (0, .bounds), s)
    else
      let held := op = 0 && (List.range d.m).any fun k => match t.read s (d.slot q2 k) 4 with
        | (.ok (n, _), _) => n != noEntry
        | (.error _, _) => false
      if held then (.error (0, .bounds), s) else eachBlock (t.opBlock d op q q2 pins) d.m 0 s

-- ## Sweeps and moves (R212, R216)

/-- The table of a context as its agents work on it. -/
def agentTable (ctx : Nat) : TableEnv := { core := 0, ctx := ctx, view := [] }

/-- The entries of a table with VAL set, as committed: number and entry. -/
def TableEnv.validEntries (t : TableEnv) (s : State) (d : Desc) : List (Nat × Entry) :=
  (List.range d.count).filterMap fun n => match t.entry s d n with
    | (.ok e, _) => if e.val then some (n, e) else none
    | (.error _, _) => none

/-- The shortest sweep interval, 1 ms, in cycles (R7, R216). -/
def sweepInterval : Nat := 700000

/-- A group of a core has a trap that its agent has yet to record and can record (R272, R286). -/
def State.trapsWaiting (s : State) (core : Nat) : Bool :=
  (s.placedOn core).any fun t => t.groups.any fun g => match g.trap with
    | some i => i.phase == .raised && (let c := s.context (s.teamCtx t); !c.trbEn || decide ((c.trw - c.trr).toNat < 64))
    | none => false

/-- A region of a core has a fault record that its agent has yet to act on (R91, R272). -/
def State.faultsWaiting (s : State) (core : Nat) : Bool :=
  (s.placedOn core).any fun t => match t.region with
    | some r => r.fault.any fun f => !f.guard
    | none => false

/-- The agents have turned to sweeps and demotions (R272): an agent of a started core has no trap, record or packet of its own to serve, and no packet
is pending that one could take. -/
def State.agentsFree (s : State) : Bool :=
  (s.cores.any fun c => c.2.started && c.2.agent.events.isEmpty && c.2.agent.handling.isNone && c.2.agent.drawn.isNone && !s.trapsWaiting c.1
      && !s.faultsWaiting c.1)
    && s.pending.all fun e => e.2.all fun q => (s.context (s.queue q).ctx.toNat).stopped

/-- block table sweep (R216): the agents clear ACC; a first-tier block that stayed clear through two sweeps is to be demoted unless it is
pinned, and a second-tier block found with ACC to be promoted. -/
def execBlockTableSweep (ctx : Nat) (desc : BitVec 64) (s : State) : Result :=
  due <|
    let last := s.sweeps.find? fun x => x.ctx == ctx && x.desc == desc
    let early := match last with
      | some x => decide ((s.cycle - x.at_).toNat < sweepInterval)
      | none => false
    if early || !s.agentsFree then none
    else match (agentTable ctx).desc s desc with
      | (.error _, _) => none
      | (.ok d, s) =>
        let es := (agentTable ctx).validEntries s d
        let acc := fun e : Entry => s.entryHigh e &&& accBit != 0
        let pin := fun e : Entry => s.entryHigh e &&& pinBit != 0
        let before := match last with
          | some x => x.clear
          | none => []
        let mark : Sweep :=
          { ctx := ctx, desc := desc, at_ := s.cycle,
            clear := (es.filter fun x => !acc x.2).map fun x => x.1,
            demote := (es.filter fun x => !acc x.2 && !pin x.2 && x.2.tier == 0 && before.contains x.1).map fun x => x.1,
            promote := (es.filter fun x => acc x.2 && x.2.tier == 1).map fun x => x.1 }
        let s := es.foldl (fun s x => s.markEntry x.2 accBit false) s
        some { s with sweeps := mark :: s.sweeps.filter fun x => !(x.ctx == ctx && x.desc == desc) }

/-- An uncommitted launch's write set holds a word. -/
def State.wordWritten (s : State) (pa : Nat) : Bool := s.launches.any fun l => l.2.uncommitted && s.wroteWord l.1 (pa / 8)

/-- The numbers of the uncommitted launches. -/
def State.uncommittedLaunches (s : State) : List Nat := (s.launches.filter fun l => l.2.uncommitted).map fun l => l.1

/-- A block's bytes as committed. -/
def State.blockBytes (s : State) (blk : Nat) : List Byte := s.committedBytes (blk * 2 ^ 16) 65536

/-- A block lies in a tier (R196), and no launch that was uncommitted when a swap freed it is still uncommitted (R212). -/
def State.blockFree (s : State) (dblk : BitVec 36) (dtier : BitVec 2) : Bool :=
  let pa := dblk.toNat * 2 ^ 16
  s.physOk pa && s.physOk (pa + 65535) && (if dtier == 0 then decide (pa < 2 ^ 39) else decide (2 ^ 46 ≤ pa) && decide (pa < 2 ^ 49))
    && !(s.oldBlocks.any fun b => b.block == dblk.toNat && b.after.any s.uncommittedLaunches.contains)

/-- demotion begin (R212): an agent sets the destination and MOV in an eligible entry and copies the block, all of which it can read (R213, R215). The
destination is any block of the tier (DESIGN CHOICE, log 93): the spec does not say how the agent finds one free. -/
def execDemotionBegin (ctx : Nat) (desc : BitVec 64) (entry : Nat) (dblk : BitVec 36) (dtier : BitVec 2) (s : State) : Result :=
  due <|
    match s.sweeps.find? fun x => x.ctx == ctx && x.desc == desc with
    | none => none
    | some x =>
      match (agentTable ctx).desc s desc with
      | (.error _, _) => none
      | (.ok d, s) => match (agentTable ctx).entry s d entry with
        | (.error _, _) => none
        | (.ok e, s) =>
          let hi := s.entryHigh e
          let wanted := if dtier == 1 then x.demote.contains entry && e.tier == 0
            else dtier == 0 && x.promote.contains entry && e.tier == 1
          if !wanted || !e.val || hi &&& pinBit != 0 || hi &&& movBit != 0 || s.wordWritten e.loc.addr || !s.blockFree dblk dtier
              || !s.agentsFree || !s.blockOk e || s.blockPoisoned e.block then none
          else
            let hi := (hi.extractLsb' 38 26 ++ dtier ++ dblk) ||| movBit
            let s := (s.setEntryHigh e hi).perform hubRef 0 [] (.phys (dblk.toNat * 2 ^ 16) false) (s.blockBytes e.block)
            some { s with moves := s.moves ++ [{ ctx := ctx, desc := desc, entry := entry, after := none }] }

/-- A swap that the hub performs (R212): the entry names the copy, MOV clears, and the old block rests. -/
def State.swapBlock (s : State) (e : Entry) : State :=
  let hi := s.entryHigh e
  let low := e.low.extractLsb' 38 26 ++ hi.extractLsb' 36 2 ++ hi.extractLsb' 0 36
  let s := (s.perform hubRef 0 [] (.phys e.loc.addr false) (leBytes 8 low.toNat)).markEntry e movBit false
  { s with oldBlocks := { block := e.block, after := s.uncommittedLaunches } :: s.oldBlocks.filter fun b => b.after.any s.uncommittedLaunches.contains }

/-- The swap may be performed: MOV still reads 1, no uncommitted launch holds the low word, and the copy still is the block. -/
def State.mayStillSwap (s : State) (e : Entry) : Bool :=
  let hi := s.entryHigh e
  hi &&& movBit != 0 && !s.wordWritten e.loc.addr && s.blockBytes (hi.extractLsb' 0 36).toNat == s.blockBytes e.block

/-- demotion swap (R212): an agent asks the hub, which orders the swap after every launch that is uncommitted then, and in a later step performs it
as one event; otherwise the agent abandons the move. -/
def execDemotionSwap (idx : Nat) (s : State) : Result :=
  due <|
    match s.moves[idx]? with
    | none => none
    | some m => match m.after with
      | none => some { s with moves := listModify s.moves idx fun m => { m with after := some s.uncommittedLaunches } }
      | some after =>
        if after.any s.uncommittedLaunches.contains then none
        else
          let s' := { s with moves := listDrop s.moves idx }
          match (agentTable m.ctx).desc s m.desc with
          | (.error _, _) => some s'
          | (.ok d, _) => match (agentTable m.ctx).entry s d m.entry with
            | (.error _, _) => some s'
            | (.ok e, _) => some (if s.mayStillSwap e then s'.swapBlock e else s'.markEntry e movBit false)

end Sys2Proof.Machine
end

