-- ==== Sys2Proof/Machine/Queues.lean ====
section
/-! DEFINITION. Queues and packets (R261 to R273), the launches that they start, launch from running work (R277, R401, R402), replays and
commits, and the notification ring (R305). -/

namespace Sys2Proof.Machine

-- ## Interrupt messages (R305)

/-- The physical address of a byte of host memory by its host physical address (R196). -/
def hostByte (a : Nat) : Nat := 2 ^ 49 + a % 2 ^ 49

/-- Sends an interrupt message of a kind that names a queue or a context, its entry in the notification ring first. -/
def State.notify (s : State) (kind who : Nat) : State :=
  let s := if !s.nrbEn then s
    else if 256 ≤ (s.nrw - s.nrr).toNat then { s with nrbOvf := true }
    else
      let a := hostByte (s.nrbBase.toNat * 4096 + 16 * (s.nrw.toNat % 256))
      { (s.perform hubRef 0 [] (.phys a false) (leBytes 4 kind ++ leBytes 4 who ++ leBytes 8 s.nrw.toNat)) with nrw := s.nrw + 1 }
  { s with interrupts := s.interrupts ++ [(kind, who)] }

-- ## Packets (R264, R265)

/-- The 64-bit word k of a packet. -/
def packetWord (bs : List Byte) (k : Nat) : Nat := bytesField bs (8 * k) 8
def packetAddr (bs : List Byte) (k : Nat) : BitVec 64 := BitVec.ofNat 64 (packetWord bs k)

/-- The type, the argument count and the header bits B, G, I and O. -/
def packetType (bs : List Byte) : Nat := natBits (packetWord bs 0) 7 0
def packetArgs (bs : List Byte) : Nat := natBits (packetWord bs 0) 20 16
def packetBit (bs : List Byte) (k : Nat) : Bool := (packetWord bs 0).testBit k

/-- The header bits that a type uses. -/
def headerMask (ty : Nat) : Nat :=
  match ty with
  | 1 => 0x1FF13FF
  | 3 => 0x5FF
  | _ => 0x1FF

/-- The words of a type that must be zero. -/
def zeroWords (ty : Nat) : List Nat :=
  match ty with
  | 1 => []
  | 2 => [7]
  | 3 => [3, 4, 5, 6, 7]
  | 4 => [6, 7]
  | 5 => [6, 7]
  | _ => [1, 2, 3, 4, 5, 6, 7]

/-- RESERVED (R270). -/
def packetReserved (bs : List Byte) : Bool :=
  let h := packetWord bs 0
  let ty := packetType bs
  Nat.land h (headerMask ty) != h || (zeroWords ty).any (fun k => packetWord bs k != 0)
    || (ty == 1 && decide (10 ≤ natBits h 24 21))
    || (ty == 4 && (packetWord bs 3 == 0 || decide (2 ^ 40 < packetWord bs 3)))
    || (ty == 5 && natBits (packetWord bs 3) 63 32 != 0)

/-- The words that hold signal addresses, and the word of the status record's address. -/
def signalWords (ty : Nat) : List Nat :=
  match ty with
  | 1 => [7]
  | 2 => [1, 3, 5]
  | 3 => [1]
  | 4 | 5 => [5]
  | _ => []
def statusWord (ty : Nat) : Option Nat :=
  match ty with
  | 1 => some 3
  | 4 | 5 => some 4
  | _ => none

/-- TEAMS (R270). -/
def packetTeams (bs : List Byte) : Nat := natBits (packetWord bs 5) 31 0
def workCounts (bs : List Byte) : Nat × Nat × Nat :=
  (natBits (packetWord bs 5) 63 32, natBits (packetWord bs 6) 31 0, natBits (packetWord bs 6) 63 32)
def teamsBad (bs : List Byte) : Bool :=
  let (x, y, z) := workCounts bs
  packetTeams bs == 0 || decide (16777216 < packetTeams bs) || decide (2 ^ 32 - 1 ≤ x * y * z)

/-- A fault that puts a queue in its error state: its code and detail (R270, R271). -/
structure PacketFault where
  code : Nat
  detail : BitVec 64
deriving DecidableEq, Repr

/-- A signal address is aligned, lies on a page that is not transactional, and its page has the rights (R270). -/
def State.signalOk (s : State) (ctx : Nat) (a : BitVec 64) (write : Bool) : Bool :=
  a == 0 || (a.toNat % 8 == 0 && match s.hubXlat ctx a (if write then .atomic else .read) with
    | some t => !t.txn
    | none => false)

/-- A status record's address is a multiple of 32 on a page with W. -/
def State.statusOk (s : State) (ctx : Nat) (a : BitVec 64) : Bool :=
  a == 0 || (a.toNat % 32 == 0 && (s.hubXlat ctx a .write).isSome)

/-- The first signal or status address of a packet that fails. -/
def State.badSignal (s : State) (ctx : Nat) (bs : List Byte) : Option (BitVec 64) :=
  let ty := packetType bs
  match ((signalWords ty).map (packetAddr bs)).find? fun a => !s.signalOk ctx a (ty != 2) with
  | some a => some a
  | none => match statusWord ty with
    | some k => if s.statusOk ctx (packetAddr bs k) then none else some (packetAddr bs k)
    | none => none

/-- What a checked packet gives: the bytes of its argument block and core mask, their locations, and its image. -/
structure Checked where
  args : List Byte
  mask : List Byte
  locs : List Loc
  image : Option Image
deriving DecidableEq, Repr

/-- The cores that a mask allows, 32 bytes or every core. -/
def maskBits (bs : List Byte) : BitVec 256 := if bs.isEmpty then BitVec.allOnes 256 else BitVec.ofNat 256 (ofLeBytes bs)

/-- The checks of a LAUNCH packet from ARGS to MASK (R270). rd reads the bytes at locations. -/
def State.checkLaunch (s : State) (view : List (Nat × Nat)) (grid : Option Nat) (ctx : Nat) (rd : List Loc → List Byte) (bs : List Byte) :
    Except PacketFault Checked :=
  let maskAt := packetAddr bs 4
  if 16 < packetArgs bs then .error ⟨6, 0⟩
  else if teamsBad bs then .error ⟨7, 0⟩
  else match s.hubLocs grid ctx (8 * packetArgs bs) (packetAddr bs 2), (if maskAt == 0 then .ok [] else s.hubLocs grid ctx 32 maskAt) with
    | .error a, _ => .error ⟨4, a⟩
    | .ok _, .error a => .error ⟨4, a⟩
    | .ok al, .ok ml => match s.readImage view grid ctx (packetAddr bs 1) with
      | none => .error ⟨5, 0⟩
      | some im =>
        let m := rd ml
        if (List.range 256).any fun c => (s.core c).enabled && (maskBits m).getLsbD c
        then .ok { args := rd al, mask := m, locs := al ++ ml, image := some im } else .error ⟨8, 0⟩

/-- The checks of a packet, in the order of R270. -/
def State.checkPacket (s : State) (view : List (Nat × Nat)) (grid : Option Nat) (ctx : Nat) (rd : List Loc → List Byte) (bs : List Byte) :
    Except PacketFault Checked :=
  let ty := packetType bs
  if (s.context ctx).level == 3 then .error ⟨11, 0⟩
  else if ty = 0 || 6 < ty then .error ⟨1, 0⟩
  else if packetReserved bs then .error ⟨2, 0⟩
  else match (if ty = 1 then s.checkLaunch view grid ctx rd bs else .ok { args := [], mask := [], locs := [], image := none }) with
    | .error e => .error e
    | .ok c => match s.badSignal ctx bs with
      | some a => .error ⟨10, a⟩
      | none => match c.image with
        | some im => if packetBit bs 9 && !s.gangFits im (maskBits c.mask) (packetTeams bs) then .error ⟨9, 0⟩ else .ok c
        | none => .ok c

/-- A packet at an address has been read, and for a launch its argument block, its core mask and its image: their lines are touched (R256). -/
def State.touchPacket (s : State) (view : List (Nat × Nat)) (grid : Option Nat) (ctx : Nat) (va : BitVec 64) (bs : List Byte) : State :=
  let s := s.hubTouch view grid ctx 64 va
  if packetType bs != 1 then s
  else
    let s := s.hubTouch view grid ctx (8 * packetArgs bs) (packetAddr bs 2)
    let s := if packetAddr bs 4 == 0 then s else s.hubTouch view grid ctx 32 (packetAddr bs 4)
    s.touchImage view grid ctx (packetAddr bs 1)

-- ## Queue registers (R261, R262, R270, R271)

/-- A queue whose head may no longer be taken leaves the pending lists: it joins again once its head's start conditions hold (R262, R273). -/
def State.unlist (s : State) (q : Nat) : State :=
  { s with pending := Table.mapVals s.pending fun l => l.filter fun k => k != q }.modQueue q fun x => { x with listed := false }

/-- A queue enters its error state: the record, with its fields, then the message. -/
def State.queueError (s : State) (q code ty : Nat) (detail : BitVec 64) : State :=
  let x := s.queue q
  let s := (s.unlist q).modQueue q fun x => { x with err := true }
  (s.hubWrite x.ctx.toNat x.qerra (leBytes 4 code ++ leBytes 4 ty ++ leBytes 8 x.qrd.toNat ++ leBytes 8 detail.toNat ++ leBytes 8 0)).notify 1 q

/-- A host write has no effect in recovery, where the register does not respond (R314). -/
def State.hostReg (s : State) (f : State → State) : State := if s.recov then s else f s

/-- A write to QCFG (R261). -/
def Queue.writeCfg (q : Queue) (v : BitVec 64) : Queue :=
  let size := v.extractLsb' 8 5
  let en := v.getLsbD 31
  { q with err := q.err && !v.getLsbD 30, prio := v.extractLsb' 16 5,
           size := if !q.en && decide (4 ≤ size.toNat) && decide (size.toNat ≤ 20) then size else q.size,
           ctx := if q.en then q.ctx else v.extractLsb' 0 8,
           en := en, wr := if en && !q.en then q.qrd else q.wr }

/-- The same of a queue of the device: one that does not run is on no pending list. -/
def State.writeQcfg (s : State) (q : Nat) (v : BitVec 64) : State :=
  let s := s.modQueue q fun x => x.writeCfg v
  if (s.queue q).en && !(s.queue q).err then s else s.unlist q

/-- A write to QRD, ignored while the queue runs. -/
def Queue.writeQrd (q : Queue) (v : BitVec 64) : Queue := if !q.en || q.err then { q with qrd := v } else q

/-- The device has 4,096 queues (R261); a register of another is at no offset, and a write to it is ignored (R304). -/
def State.queueReg (s : State) (q : Nat) (f : State → State) : State := if q < 4096 then s.hostReg f else s

/-- kick (R262). -/
def execKick (q : Nat) (k : BitVec 64) (s : State) : Result :=
  .next <| s.queueReg q fun s =>
    let x := s.queue q
    if k.toNat ≤ x.wr.toNat then s
    else if k.toNat ≤ x.qrd.toNat + 2 ^ x.size.toNat then s.modQueue q fun x => { x with wr := k }
    else s.queueError q 3 0 k

/-- qrd write (R261). -/
def execQrdWrite (q : Nat) (v : BitVec 64) (s : State) : Result := .next (s.queueReg q fun s => s.modQueue q fun x => x.writeQrd v)

/-- queue enable: a write to QCFG with EN = 1 of a queue that is not enabled (R261). -/
def execQueueEnable (q : Nat) (v : BitVec 64) (s : State) : Result :=
  due <| if v.getLsbD 31 && !(s.queue q).en then some (s.queueReg q fun s => s.writeQcfg q v) else none

/-- queue error clear: a write to QCFG with ERR = 1 of a queue in its error state (R271). -/
def execQueueErrorClear (q : Nat) (v : BitVec 64) (s : State) : Result :=
  due <| if v.getLsbD 30 && (s.queue q).err then some (s.queueReg q fun s => s.writeQcfg q v) else none

-- ## Pending lists and draws (R266, R269, R273)

/-- The address of the packet at a queue's read index. -/
def Queue.headAddr (q : Queue) : BitVec 64 := q.qbase + BitVec.ofNat 64 (64 * (q.qrd.toNat % 2 ^ q.size.toNat))

/-- The bytes of the packet at a queue's read index, or the address that cannot be read. -/
def State.headPacket (s : State) (q : Queue) : Except (BitVec 64) (List Byte) :=
  match s.hubLocs none q.ctx.toNat 64 q.headAddr with
  | .ok l => .ok (s.locBytes [] l)
  | .error a => .error a

/-- Every signal of a BARRIER has reached its target; an address that can be no signal counts as reached, so that the agent finds it
(R266, R270). -/
def State.signalsMet (s : State) (ctx : Nat) (bs : List Byte) : Bool :=
  [1, 3, 5].all fun k =>
    let a := packetAddr bs k
    a == 0 || !s.signalOk ctx a false || match s.hubXlat ctx a .read with
      | some t => decide (packetWord bs (k + 1) ≤ s.committedNat t.pa 8)
      | none => true

/-- No packet of a queue is running, and no agent holds one. -/
def State.queueIdle (s : State) (q : Nat) : Bool :=
  (s.queue q).running.isEmpty && !(s.cores.any fun c => match c.2.agent.drawn with
    | some d => d.q == q
    | none => false)

/-- The start conditions of a packet hold: B and SIGNAL wait for every earlier packet, BARRIER for its signals (R264, R266, R269). -/
def State.startsNow (s : State) (q ctx : Nat) (bs : List Byte) : Bool :=
  (!(packetBit bs 8 || packetType bs == 3) || s.queueIdle q) && (packetType bs != 2 || s.signalsMet ctx bs)

/-- The queue has an untaken packet. -/
def Queue.hasPacket (q : Queue) : Bool := q.en && !q.err && decide (q.qrd.toNat < q.wr.toNat)

/-- pending list join (R273). -/
def execPendingListJoin (q : Nat) (s : State) : Result :=
  due <|
    let x := s.queue q
    let starts := match s.headPacket x with
      | .ok bs => s.startsNow q x.ctx.toNat bs
      | .error _ => true
    if x.hasPacket && !x.listed && !(s.context x.ctx.toNat).stopped && starts then
      some ({ s with pending := Table.put s.pending x.prio.toNat (Table.getD s.pending x.prio.toNat [] ++ [q]) }.modQueue q
        fun x => { x with listed := true })
    else none

/-- The head of the highest nonempty pending list. -/
def highestPending : Table (List Nat) → Option (Nat × Nat)
  | [] => none
  | (p, l) :: r => match highestPending r with
    | some x => some x
    | none => l.head?.map fun q => (p, q)

/-- The agent of a core is idle: no packet in hand, and no trap or fault record to serve first (R272). -/
def State.agentIdle (s : State) (core : Nat) : Bool :=
  (s.core core).enabled && (s.core core).started && !(s.core core).gated && (s.core core).agent.drawn.isNone && !s.trapsWaiting core
    && !s.faultsWaiting core

/-- An agent takes the packet at a queue's read index: it copies and checks it, and QRD advances, or the queue enters its error state. -/
def State.takePacket (s : State) (core q : Nat) : State :=
  let x := s.queue q
  let ctx := x.ctx.toNat
  if !x.hasPacket then s
  else if (s.context ctx).level == 3 then s.queueError q 11 (packetType ((s.headPacket x).toOption.getD [])) 0
  else match s.headPacket x with
    | .error a => s.queueError q 4 0 a
    | .ok bs => match s.checkPacket [] none ctx (s.locBytes []) bs with
      | .error f => s.queueError q f.code (packetType bs) f.detail
      | .ok c =>
        let d : Drawn := { q := q, index := x.qrd, bytes := bs ++ c.args ++ c.mask, image := c.image }
        let s := (s.touchPacket [] none ctx x.headAddr bs).modQueue q fun x => { x with qrd := x.qrd + 1 }
        (s.modCore core fun k => { k with agent := { k.agent with drawn := some d } }).agentEvent core .packet

/-- The pending lists as an agent draws from them: without the queues of contexts whose packets the agents do not take (R288). -/
def State.drawable (s : State) : Table (List Nat) :=
  s.pending.map fun e => (e.1, e.2.filter fun q => !(s.context (s.queue q).ctx.toNat).stopped)

/-- packet draw: an idle agent draws a ticket, and takes the head of the highest nonempty list (R273). -/
def execPacketDraw (core : Nat) (s : State) : Result :=
  due <|
    if !s.agentIdle core then none
    else
      let s := { s with tickets := s.tickets + 1 }
      match highestPending s.drawable with
      | none => some s
      | some (p, q) =>
        let s := { s with pending := Table.put s.pending p ((Table.getD s.pending p []).erase q) }.modQueue q fun x => { x with listed := false }
        some (s.takePacket core q)

-- ## The packets act (R265 to R269)

/-- The packet that a core's agent holds, if it is of a type, with its queue. -/
def State.drawnOf (s : State) (core ty : Nat) : Option (Drawn × Queue) :=
  match (s.core core).agent.drawn with
  | some d => if packetType d.bytes = ty then some (d, s.queue d.q) else none
  | none => none

/-- The agent has acted on its packet. -/
def State.packetDone (s : State) (core : Nat) : State := s.modCore core fun c => { c with agent := { c.agent with drawn := none } }

/-- The packet runs until its launch ends. -/
def State.packetRuns (s : State) (d : Drawn) (l : Nat) : State :=
  s.modQueue d.q fun q => { q with running := q.running ++ [{ index := d.index, launch := some l }] }

/-- A new top-level launch from a packet. -/
def newLaunch (d : Drawn) (ctx : Nat) (kind : LaunchKind) (status signal : BitVec 64) : Launch :=
  { ctx := ctx, queue := d.q, index := d.index, kind := kind, phase := .waiting, tag := none, attempts := 0, serial := false,
    readWords := [], saw := [], missed := [], sig := 0, counted := 0, retry := 3, level := 0, status := status, signal := signal, subs := [],
    aborted := false, order := 0, ranSerial := false }

/-- The arguments and the core mask behind a packet's 64 bytes. -/
def packetArgList (bs : List Byte) : List (BitVec 64) := (List.range (packetArgs bs)).map fun k => packetAddr (bs.drop 64) k
def packetMask (bs : List Byte) : BitVec 256 := maskBits (bs.drop (64 + 8 * packetArgs bs))

/-- The lowest number that no grid of the device has (R52, log 85). -/
def State.freeNumber (s : State) : Nat :=
  ((List.range (s.grids.length + 1)).find? fun n => !(s.grids.any fun g => g.2.number == n)).getD 0

/-- The grid that a LAUNCH packet creates (R31, R264, R265). -/
def newGrid (bs : List Byte) (im : Image) (launch ctx : Nat) (parent : Option Nat) (depth sub prio : Nat) (die : Option Nat) (arrival number : Nat) :
    Grid :=
  let (x, y, z) := workCounts bs
  { number := number, launch := launch, ctx := ctx, parent := parent, depth := depth, sub := sub, image := im, args := packetArgList bs,
    teams := packetTeams bs, nextTeam := 0, retired := 0, prio := prio, gang := packetBit bs 9, admitted := false, mask := packetMask bs,
    wx := x, wy := y, wz := z, ordered := packetBit bs 12, counter := 0, sps := natBits (packetWord bs 0) 24 21,
    status := if parent.isNone then 0 else packetAddr bs 3, signal := if parent.isNone then 0 else packetAddr bs 7, die := die,
    arrival := arrival }

/-- No earlier packet of the same queue is still in an agent's hands (R269). -/
def State.inOrder (s : State) (d : Drawn) : Bool :=
  !(s.cores.any fun c => match c.2.agent.drawn with
    | some e => e.q == d.q && decide (e.index.toNat < d.index.toNat)
    | none => false)

/-- launch packet: the agent hands a grid to the distributors (R265, R269); the record reads PENDING (R253). -/
def execLaunchPacket (core : Nat) (s : State) : Result :=
  due <|
    match s.drawnOf core 1 with
    | none => none
    | some (d, q) => match d.image with
      | none => none
      | some im =>
        if !s.inOrder d then none
        else
          let l := s.nextId
          let ctx := q.ctx.toNat
          let s := s.writePending ctx (packetAddr d.bytes 3)
          let s := { s with nextId := l + 2,
                            launches := Table.put s.launches l (newLaunch d ctx (.grid (l + 1)) (packetAddr d.bytes 3) (packetAddr d.bytes 7)),
                            grids := Table.put s.grids (l + 1) (newGrid d.bytes im l ctx none 1 0 q.prio.toNat none l s.freeNumber) }
          some ((s.packetRuns d l).packetDone core)

/-- barrier packet (R266). -/
def execBarrierPacket (core : Nat) (s : State) : Result :=
  due <|
    match s.drawnOf core 2 with
    | some (d, q) => if s.signalsMet q.ctx.toNat d.bytes && s.inOrder d then some (s.packetDone core) else none
    | none => none

/-- signal packet (R266). -/
def execSignalPacket (core : Nat) (s : State) : Result :=
  due <|
    match s.drawnOf core 3 with
    | some (d, q) =>
      if !q.running.isEmpty || !s.inOrder d then none
      else
        let s := s.addSignal q.ctx.toNat (packetAddr d.bytes 1) (packetAddr d.bytes 2)
        some ((if packetBit d.bytes 10 then s.notify 2 d.q else s).packetDone core)
    | none => none

/-- nop packet (R266). -/
def execNopPacket (core : Nat) (s : State) : Result :=
  due <|
    match s.drawnOf core 6 with
    | some (d, _) => if s.inOrder d then some (s.packetDone core) else none
    | none => none

-- ## COPY and BTOP (R267, R268)

/-- A byte's translation with the trap that it raises. -/
def State.hubCheck (s : State) (ctx : Nat) (va : BitVec 64) (k : AccessKind) : Except TrapKind Loc :=
  if vaWide va then .error .prot
  else if inWindow va then .error .bounds
  else if s.walkPoisoned ctx va.toNat then .error .ecc
  else match s.walkCtx ctx va.toNat with
    | none => .error .page
    | some (e, level) =>
      let t := xlatOf e level va.toNat
      if !t.allows k then .error .prot else if !s.physOk t.pa then .error .page else .ok (.phys t.pa t.txn)

/-- The pieces of a copy of n bytes, none of which crosses a 64 KiB boundary on either side. -/
def copyPieces : Nat → BitVec 64 → BitVec 64 → Nat → List (BitVec 64 × BitVec 64 × Nat)
  | 0, _, _, _ => []
  | fuel + 1, src, dst, n =>
    if n = 0 then []
    else
      let k := min n (min (65536 - src.toNat % 65536) (65536 - dst.toNat % 65536))
      (src, dst, k) :: copyPieces fuel (src + BitVec.ofNat 64 k) (dst + BitVec.ofNat 64 k) (n - k)

/-- The failing address of a piece that is lower, with its trap. -/
def lowerFault (a b : Option (BitVec 64 × TrapKind)) : Option (BitVec 64 × TrapKind) :=
  match a, b with
  | some x, some y => if decide (y.1.toNat < x.1.toNat) then some y else some x
  | some x, none => some x
  | none, y => y

/-- The fault of an access of a piece of n bytes, which lies in one page: where a stack ends within it, or where a poisoned line starts that is read,
that byte's (R196, R215). -/
def State.pieceFault (s : State) (ctx : Nat) (va : BitVec 64) (n : Nat) (k : AccessKind) : Option (BitVec 64 × TrapKind) :=
  match s.hubCheck ctx va k with
  | .error e => some (va, e)
  | .ok l =>
    let hole := if s.physOk (l.addr + n - 1) then none
      else ((List.range n).find? fun i => !s.physOk (l.addr + i)).map fun i => (va + BitVec.ofNat 64 i, TrapKind.page)
    let bad := if k == .write then none
      else ((List.range n).find? fun i => s.poison.contains (lineOf (l.addr + i))).map fun i => (va + BitVec.ofNat 64 i, TrapKind.ecc)
    lowerFault hole bad

/-- The pieces whose two ends translate, as locations. -/
def State.pieceLocs (s : State) (ctx : Nat) (l : List (BitVec 64 × BitVec 64 × Nat)) : List (Loc × Loc × Nat) :=
  l.filterMap fun p => match s.hubCheck ctx p.1 .read, s.hubCheck ctx p.2.1 .write with
    | .ok a, .ok b => some (a, b, p.2.2)
    | _, _ => none

/-- The first bytes of a piece of a copy that can be moved: those before the byte at which its source or its destination fails. -/
def State.goodBytes (s : State) (ctx : Nat) (p : BitVec 64 × BitVec 64 × Nat) : Nat :=
  let upTo := fun (va : BitVec 64) (f : Option (BitVec 64 × TrapKind)) => match f with
    | some x => min p.2.2 (x.1 - va).toNat
    | none => p.2.2
  min (upTo p.1 (s.pieceFault ctx p.1 p.2.2 .read)) (upTo p.2.1 (s.pieceFault ctx p.2.1 p.2.2 .write))

/-- A copy that ends in a fault may have moved the first bytes of its pieces to pages that are not transactional: the hardware chooses how many (R254,
R267). -/
def State.strayPieces (s : State) (view : List (Nat × Nat)) : List (Loc × List Byte) → State
  | [] => s
  | (.phys pa false, bs) :: r =>
    let (k, s) := s.choose (bs.length + 1)
    State.strayPieces (s.perform hubRef 0 view (.phys pa false) (bs.take k)) view r
  | _ :: r => State.strayPieces s view r

/-- A launch's work ends in a state that is ready to commit. -/
def State.workDone (s : State) (l : Nat) : State := s.modLaunch l fun x => { x with phase := .done }

/-- The work of a COPY: the destination gets the bytes that the source holds when the copy begins; a fault ends it in ABORT_FAULT. -/
def State.runCopy (s : State) (l ctx : Nat) (src dst : BitVec 64) (n : Nat) : State :=
  let view := [(l, 0)]
  let ps := copyPieces (2 * (n / 65536) + 4) src dst n
  let fault := ps.foldl (fun f p => lowerFault f (lowerFault (s.pieceFault ctx p.1 p.2.2 .read) (s.pieceFault ctx p.2.1 p.2.2 .write))) none
  let locs := s.pieceLocs ctx ps
  let s := ps.foldl (fun s p => (s.touchWalk ctx p.1.toNat).touchWalk ctx p.2.1.toNat) s
  let bytes := fun l : List (Loc × Loc × Nat) => l.map fun p => (p.2.1, s.readLoc view p.1 p.2.2)
  match fault with
  | some (a, k) => (s.strayPieces view (bytes (s.pieceLocs ctx (ps.map fun p => (p.1, p.2.1, s.goodBytes ctx p))))).abortLaunch l (Ending.ofTrap k a)
  | none =>
    if s.overflowFull ctx && locs.any fun p => match p.2.1 with
      | .phys _ t => t
      | .scratch _ => false
    then s.abortLaunch l (Ending.ofTrap .shadow 0)
    else
      let s := locs.foldl (fun s p => s.trackLoc view p.1 p.2.2) s
      ((bytes locs).foldl (fun s p => s.perform hubRef 0 view p.1 p.2) s).workDone l

/-- The table unit that works for a BTOP. -/
def btopTable (l ctx : Nat) : TableEnv := { core := 0, ctx := ctx, view := [(l, 0)] }

/-- The work of a BTOP: its cases of R268 that end it abort the launch, and so does a full overflow region (R257). -/
def State.runBtop (s : State) (l ctx : Nat) (desc : BitVec 64) (op q q2 : Nat) : State :=
  match (btopTable l ctx).tableOp s desc op q q2 false with
  | (.ok _, t) => if (btopTable l ctx).noRoom s t then s.abortLaunch l (Ending.ofTrap .shadow 0) else t.workDone l
  | (.error (a, k), t) => t.abortLaunch l (Ending.ofTrap k a)

/-- A launch begins its attempt: a COPY or BTOP does its work, a grid's teams are pending. -/
def State.beginWork (s : State) (l : Nat) : State :=
  match Table.find s.launches l with
  | none => s
  | some x => match x.kind with
    | .grid _ => s
    | .copy src dst n => s.runCopy l x.ctx src dst n
    | .btop d op q q2 => s.runBtop l x.ctx d op q q2

/-- The work of a COPY or BTOP needs new shadow lines (R257): a copy to a transactional page, a FORK or RELEASE that writes an entry. -/
def State.workNeeds (s : State) (l ctx : Nat) (kind : LaunchKind) : Bool :=
  match kind with
  | .grid _ => false
  | .copy src dst n => (s.pieceLocs ctx (copyPieces (2 * (n / 65536) + 4) src dst n)).any fun p => match p.2.1 with
    | .phys _ t => t
    | .scratch _ => false
  | .btop desc op q q2 => (btopTable l ctx).noRoom s ((btopTable l ctx).tableOp s desc op q q2 false).2

/-- Its writes wait for the overflow region while an older launch is uncommitted (R257). -/
def State.workBlocked (s : State) (l ctx : Nat) (kind : LaunchKind) (oldest : Bool) : Bool := s.overflowFull ctx && !oldest && s.workNeeds l ctx kind

/-- A COPY or BTOP starts: it takes its version tag (R269). -/
def State.startWork (s : State) (core : Nat) (d : Drawn) (q : Queue) (kind : LaunchKind) : Option State :=
  let ctx := q.ctx.toNat
  let x := newLaunch d ctx kind (packetAddr d.bytes 4) (packetAddr d.bytes 5)
  let others := s.launches.any fun l => l.2.tag.isSome
  if !s.windowOpen || s.queueBefore x || (s.context ctx).stopped || s.workBlocked s.nextId ctx kind (!others) then none
  else
    let l := s.nextId
    let s := s.writePending ctx (packetAddr d.bytes 4)
    let s := { s with nextId := l + 1, launches := Table.put s.launches l x }
    some (((((s.packetRuns d l).packetDone core).startLaunch l 0).beginWork l).rouseAll)

/-- copy packet (R267). -/
def execCopyPacket (core : Nat) (s : State) : Result :=
  due <|
    match s.drawnOf core 4 with
    | some (d, q) => s.startWork core d q (.copy (packetAddr d.bytes 1) (packetAddr d.bytes 2) (packetWord d.bytes 3))
    | none => none

/-- btop packet (R268). -/
def execBtopPacket (core : Nat) (s : State) : Result :=
  due <|
    match s.drawnOf core 5 with
    | some (d, q) => s.startWork core d q (.btop (packetAddr d.bytes 1) (natBits (packetWord d.bytes 2) 31 0)
        (natBits (packetWord d.bytes 2) 63 32) (natBits (packetWord d.bytes 3) 31 0))
    | none => none

-- ## Replay and commit (R252, R254, R255)

/-- launch replay: a launch that a conflict aborted starts again, with the same arguments and tag. A serialised attempt waits until it is the
oldest, and then every later running launch aborts (R255); after it the others go on. -/
def execLaunchReplay (l : Nat) (s : State) : Result :=
  due <|
    match Table.find s.launches l with
    | none => none
    | some x =>
      let ctx := s.context x.ctx
      let held := ctx.stopped || s.launches.any fun y => y.2.serial && s.before y.1 l
      if x.phase != .replay || held || (x.serial && !s.isOldest l) || s.workBlocked l x.ctx x.kind (s.isOldest l) then none
      else
        let s := if x.aborted then s.stopLaunch l else s
        let s := if x.serial then s.abortLater l else s
        some ((s.modLaunch l fun x => { x with phase := .running, aborted := false, ranSerial := x.serial }).beginWork l)

/-- launch commit: the oldest launch, its work done, commits, unless it is to abort (R251, R306); a BTOP's pins are written then (R252, R268). -/
def execLaunchCommit (l : Nat) (s : State) : Result :=
  due <|
    match Table.find s.launches l with
    | none => none
    | some x => match x.tag with
      | none => none
      | some tag =>
        if x.phase != .done || x.doomed || !s.isOldest l then none
        else
          let s := s.commitLaunch l tag
          some (match x.kind with
            | .btop d op q q2 => if op = 2 || op = 3 then (TableEnv.tableOp { core := 0, ctx := x.ctx, view := [] } s d op q q2 true).2 else s
            | _ => s)

-- ## launch (R33, R401, R402)

/-- The bytes of a group's read of memory, under its own stores. -/
def Env.locBytes (e : Env) (s : State) (l : List Loc) : List Byte := l.flatMap fun x => s.readOwn e.gref (e.view s) e.grp e.grp.seq x 1

/-- The lowest free sub-version of a launch (R258). -/
def Launch.freeSub (l : Launch) : Option Nat := ((List.range 4095).map fun k => k + 1).find? fun k => !l.subs.contains k

/-- The packet of a launch instruction and what its checks give; none raises CONFIG. -/
def Env.launchPacket (e : Env) (s : State) (gid : Nat) (va : BitVec 64) : Option (List Byte × List Loc × Image) :=
  match s.hubLocs (some gid) e.ctx 64 va with
  | .error _ => none
  | .ok l =>
    let bs := e.locBytes s l
    match s.checkPacket (e.view s) (some gid) e.ctx (e.locBytes s) bs with
    | .error _ => none
    | .ok c => match c.image with
      | some im => if packetBit bs 8 || packetBit bs 10 then none else some (bs ++ c.args ++ c.mask, l ++ c.locs, im)
      | none => none

/-- The child grid is enqueued on the device queue of its team's die. -/
def Env.enqueue (e : Env) (s : State) (gid sub : Nat) (gr : Grid) (bs : List Byte) (im : Image) : State :=
  let die := e.core / 64
  let g := s.nextId
  let s := s.writePending e.ctx (packetAddr bs 3)
  let s := { s with nextId := g + 1, devQueues := Table.put s.devQueues die (Table.getD s.devQueues die [] ++ [g]),
                    grids := Table.put s.grids g (newGrid bs im gr.launch e.ctx (some gid) (gr.depth + 1) sub gr.prio (some die) g s.freeNumber) }
  s.modLaunch gr.launch fun l => { l with subs := sub :: l.subs }

/-- The last steps of a launch, once its packet has been read: it waits for room, for a sub-version and for its release, and enqueues the child.
While it waits the group holds what was read, and a later store does not change the child (R401, R402). -/
def Env.startChild (e : Env) (s : State) (gid : Nat) (gr : Grid) (bs : List Byte) (im : Image) : State :=
  let wait := fun w => ({ e with grp := { e.grp with child := some (bs, im) } } : Env).waitOn w s
  match (Table.find s.launches gr.launch).bind (·.freeSub) with
  | none => wait .deviceQueue
  | some sub =>
    if 256 ≤ (Table.getD s.devQueues (e.core / 64) []).length then wait .deviceQueue
    else if !s.releasable e.gref e.grp e.grp.know 0 e.grp.seq homeScope (.scratch 0)
        || !s.fencesClear e.gref e.grp e.grp.know e.grp.fence (.scratch 0) then wait .ordering
    else e.finish { e.grp with child := none } (e.enqueue s gid sub gr bs im)

/-- launch (R401): the checks and the one read of the packet, then what follows it. -/
def execLaunch (w : XWord) (s : State) : Result :=
  native { v := [], s := [w.r1.toNat, w.r1.toNat + 1] } s fun e =>
    match e.team, e.grid with
    | some t, some gr => match e.grp.child with
      | some (bs, im) => e.startChild s t.grid gr bs im
      | none =>
        let va := e.grp.readSPair w.r1.toNat
        if e.grp.num != 0 then e.trap s .illegal
        else if !(e.guard w.g).getLsbD 0 then e.finish e.grp s
        else if gr.depth = 10 then e.trap s .stack
        else if va.toNat % 64 != 0 then e.trapWith s e.grp .align AccessKind.read.code va wholeGroup false
        else match e.launchPacket s t.grid va with
          | none => e.trap s .config
          | some (bs, locs, im) =>
            let s := locs.foldl (fun s x => s.trackOwn e.gref (e.view s) e.grp e.grp.seq x 1) s
            e.startChild (s.touchPacket (e.view s) (some t.grid) e.ctx va bs) t.grid gr bs im
    | _, _ => e.trap s .illegal

end Sys2Proof.Machine
end

