-- ==== Sys2Proof/Machine/Engines.lean ====
section
/-! DEFINITION. The copy engine, work queries, collectives, waitf, and the agents' tlbinv and btop (R205, R206, R278, R309, R361, R369, R370,
R373, R374, R395, R396, R430, R431, R454, R459). -/

namespace Sys2Proof.Machine

-- ## Extents of virtual memory (R205)

/-- A stretch of bytes at a location. -/
abbrev Run := Loc × Nat

/-- The byte of a stretch at which a window address leaves its grid's ranges, memory ends (R196), or a poisoned line starts. -/
def Env.badByte (e : Env) (s : State) (ak : AccessKind) (l : Loc) (n : Nat) : Option (TrapKind × Nat) :=
  match l with
  | .scratch off => match e.team with
    | some t => ((List.range n).find? fun k => !s.windowByteOk t.grid (off + k)).map fun k => (.bounds, k)
    | none => some (.bounds, 0)
  | .phys pa _ =>
    if !s.physOk (pa + n - 1) then ((List.range n).find? fun k => !s.physOk (pa + k)).map fun k => (.page, k)
    else if ak == .write then none else ((List.range n).find? fun k => s.poison.contains (lineOf (pa + k))).map fun k => (.ecc, k)

/-- The stretches of n virtual bytes in ascending order, none of which crosses a page; the first failing address with its trap. -/
def Env.virtRuns (e : Env) (ak : AccessKind) : Nat → State → BitVec 64 → Nat → Except (TrapKind × BitVec 64) (List Run) × State
  | 0, s, _, _ => (.ok [], s)
  | fuel + 1, s, va, n =>
    if n = 0 then (.ok [], s)
    else
      let k := min n (65536 - va.toNat % 65536)
      let (here, s) : Except TrapKind Loc × State :=
        if inWindow va then (.ok (.scratch (va.toNat - windowBase)), s)
        else match s.access e.core e.ctx va ak with
          | (.error x, s) => (.error x, s)
          | (.ok t, s) => (.ok (.phys t.pa t.txn), s)
      match here with
      | .error x => (.error (x, va), s)
      | .ok l => match e.badByte s ak l k with
        | some (x, i) => (.error (x, va + BitVec.ofNat 64 i), s)
        | none => match Env.virtRuns e ak fuel s (va + BitVec.ofNat 64 k) (n - k) with
          | (.ok r, s) => (.ok ((l, k) :: r), s)
          | (.error x, s) => (.error x, s)

/-- The stretches of a number of virtual bytes. -/
def Env.virtual (e : Env) (ak : AccessKind) (s : State) (va : BitVec 64) (n : Nat) : Except (TrapKind × BitVec 64) (List Run) × State :=
  e.virtRuns ak (n / 65536 + 2) s va n

/-- The stretches of the rows of a virtual record, in ascending address order. -/
def Env.virtRows (e : Env) (ak : AccessKind) (r : Record) : Nat → Nat → State → Except (TrapKind × BitVec 64) (List Run) × State
  | 0, _, s => (.ok [], s)
  | fuel + 1, i, s =>
    match e.virtual ak s ((r.hi ++ r.lo) + BitVec.ofNat 64 (i * r.pitch)) r.rowBytes with
    | (.error x, s) => (.error x, s)
    | (.ok l, s) => match Env.virtRows e ak r fuel (i + 1) s with
      | (.ok m, s) => (.ok (l ++ m), s)
      | (.error x, s) => (.error x, s)

/-- The stretches of a scratchpad extent. -/
def Extent.runs (x : Extent) : List Run := (List.range x.rows).map fun i => (x.row i, x.rowBytes)

/-- Step 2 of R205 for one record: a scratchpad footprint and its pitch, or a virtual record's pitch. -/
def Env.recordOk (e : Env) (s : State) (virt : Bool) (r : Record) : Except (BitVec 64) Unit :=
  if virt then (if r.badPitch then .error (r.hi ++ r.lo) else .ok ())
  else match e.scratchExtent s r with
    | .ok _ => .ok ()
    | .error a => .error a

/-- The stretches of a record that has passed step 2. -/
def Env.recordRuns (e : Env) (s : State) (virt : Bool) (ak : AccessKind) (r : Record) : Except (TrapKind × BitVec 64) (List Run) × State :=
  if virt then e.virtRows ak r r.rows 0 s
  else match e.scratchExtent s r with
    | .ok x => (.ok x.runs, s)
    | .error a => (.error (.bounds, a), s)

/-- Two lists of stretches of the same bytes, cut alike. -/
def zipRuns : Nat → List Run → List Run → List (Loc × Loc × Nat)
  | 0, _, _ => []
  | fuel + 1, (a, n) :: r, (b, m) :: q =>
    let k := min n m
    let rest := fun (l : Loc) (n : Nat) (r : List Run) => if n = k then r else (l.plus k, n - k) :: r
    (a, b, k) :: zipRuns fuel (rest a n r) (rest b m q)
  | _, _, _ => []

-- ## copy and gather at issue (R373, R395)

/-- Copies that a core has in flight at most. -/
def copySlots : Nat := 64

/-- The virtual ranges of a record, row by row (R206). -/
def Record.ranges (r : Record) (virt : Bool) : List (BitVec 64 × Nat) :=
  if virt then (List.range r.rows).map fun i => ((r.hi ++ r.lo) + BitVec.ofNat 64 (i * r.pitch), r.rowBytes) else []

/-- The virtual address of byte k of a list of ranges; 0 past them. -/
def rangeByte : List (BitVec 64 × Nat) → Nat → BitVec 64
  | [], _ => 0
  | (a, n) :: r, k => if k < n then a + BitVec.ofNat 64 k else rangeByte r (k - n)

/-- A copy or gather whose checks have passed: it waits for its flag and for one of the 64 places, is counted and begins. src and dst are the
virtual ranges of its footprints. -/
def Env.startCopy (e : Env) (s : State) (w : XWord) (f : Nat) (isGather : Bool) (pairs : List (Loc × Loc × Nat)) (src dst : List (BitVec 64 × Nat)) :
    State :=
  if e.grp.flagFull f then e.waitOn .flagFull s
  else if copySlots ≤ (s.core e.core).copies.length then e.waitOn .copySlot s
  else
    let c : CopyCmd := { g := e.gref, flag := f, seq := e.grp.seq, after := e.grp.fence, acq := w.acq, rel := w.rel, scope := w.scope.toNat,
                         isGather := isGather, pairs := pairs, since := s.stamp, floor := e.commandFloor s w, know := e.commandKnow s w, pubs := e.pubs none,
                         vas := src, dvas := dst }
    e.counted (s.modCore e.core fun k => { k with copies := k.copies ++ [c] }) f

/-- copy (R373). -/
def execCopy (w : XWord) (s : State) : Result :=
  native (xUses (recordRegs w.r1.toNat ++ recordRegs w.r2.toNat)) s fun e => e.engine s w fun f =>
    let src := e.record w.r1.toNat
    let dst := e.record w.r2.toNat
    let vs := w.variant.getLsbD 0
    let vd := w.variant.getLsbD 1
    if src.rows != dst.rows || src.rowBytes != dst.rowBytes || src.rows = 0 || src.rowBytes = 0 then e.trap s .illegal
    else match e.recordOk s vs src, e.recordOk s vd dst with
      | .error a, _ => e.engineTrap s .bounds .read a
      | .ok _, .error a => e.engineTrap s .bounds .write a
      | .ok _, .ok _ => match e.recordRuns s vs .read src with
        | (.error (k, a), s) => e.engineTrap s k .read a
        | (.ok rs, s) => match e.recordRuns s vd .write dst with
          | (.error (k, a), s) => e.engineTrap s k .write a
          | (.ok rd, s) => e.startCopy s w f false (zipRuns (rs.length + rd.length) rs rd) (src.ranges vs) (dst.ranges vd)

/-- The elements of a gather in ascending order, each checked and as stretches (R395 step 5). -/
def Env.gatherRuns (e : Env) (base : BitVec 64) (n : Nat) : List Nat → State → Except (TrapKind × BitVec 64) (List Run) × State
  | [], s => (.ok [], s)
  | k :: r, s => match e.virtual .read s (base + BitVec.ofNat 64 (k * n)) n with
    | (.error x, s) => (.error x, s)
    | (.ok l, s) => match Env.gatherRuns e base n r s with
      | (.ok m, s) => (.ok (l ++ m), s)
      | (.error x, s) => (.error x, s)

/-- The destination elements of an extent, row by row. -/
def Extent.elements (x : Extent) (n : Nat) : List Run :=
  (List.range x.rows).flatMap fun i => (List.range (x.rowBytes / n)).map fun k => ((x.row i).plus (k * n), n)

/-- gather (R395). -/
def execGather (w : XWord) (s : State) : Result :=
  native (xUses (recordRegs w.r1.toNat ++ [w.r2.toNat, w.r2.toNat + 1] ++ recordRegs w.r3.toNat)) s fun e => e.engine s w fun f =>
    let n := 2 ^ (w.variant.extractLsb' 0 2).toNat
    let idx := e.record w.r1.toNat
    let dst := e.record w.r3.toNat
    let base := e.grp.readSPair w.r2.toNat
    let ni := idx.rows * idx.rowBytes / 4
    if idx.rowBytes % 4 != 0 || dst.rowBytes % n != 0 || ni != dst.rows * dst.rowBytes / n || ni = 0 then e.trap s .illegal
    else match e.scratchExtent s idx, e.scratchExtent s dst with
      | .error a, _ => e.engineTrap s .bounds .read a
      | .ok _, .error a => e.engineTrap s .bounds .write a
      | .ok xi, .ok xd =>
        if base.toNat % n != 0 then e.engineTrap s .align .read base
        else
          let indices := xi.runs.flatMap fun r => (List.range (r.2 / 4)).map fun k =>
            ofLeBytes (s.readOwn e.gref (e.view s) e.grp e.grp.seq (r.1.plus (4 * k)) 4)
          match e.gatherRuns base n indices s with
          | (.error (k, a), s) => e.engineTrap s k .read a
          | (.ok rs, s) => e.startCopy s w f true (zipRuns (2 * rs.length) rs (xd.elements n)) (indices.map fun k => (base + BitVec.ofNat 64 (k * n), n)) []

-- ## Their completion (R61, R374, R396)

/-- Two stretches of a copy share a byte between a source and a destination. -/
def pairsOverlap (l : List (Loc × Loc × Nat)) : Bool := l.any fun p => l.any fun q => p.1.overlaps p.2.2 q.2.1 q.2.2

/-- A byte of a copy: its source, its destination, and the value that the source had before (R374). -/
abbrev CopyByte := Loc × Loc × Byte

/-- The hardware's choice for each byte of a copy whose source byte the copy itself writes: whether it takes what the copy has written there. -/
def State.copyChoices (all : List CopyByte) : List CopyByte → State → List Bool × State
  | [], s => ([], s)
  | b :: r, s =>
    let (k, s) := if all.any fun d => d.2.1.overlaps 1 b.1 1 then s.choose 2 else (0, s)
    let (l, s) := State.copyChoices all r s
    ((k == 1) :: l, s)

/-- The value that byte i of a copy moves: its source byte's from before the copy, or by its choice the one that the copy has written there. A choice
that leads back to where it began finds the value from before. -/
def copyValue (all : List CopyByte) (new : List Bool) : Nat → Nat → Byte
  | 0, i => ((all[i]?).map fun b => b.2.2).getD 0
  | fuel + 1, i => match all[i]? with
    | none => 0
    | some b =>
      if listGetD new i false then match all.findIdx? fun d => d.2.1.overlaps 1 b.1 1 with
        | some j => copyValue all new fuel j
        | none => b.2.2
      else b.2.2

/-- The bytes that a command reads, by the time of its completion: byte by byte, or each element of a gather as a whole (R187, R396). -/
def State.copySeen (s : State) (c : CopyCmd) : List (List Byte) × State := State.sourceBytes (c.reader s) c.isGather (c.pairs.map fun p => (p.1, p.2.2)) s

/-- Every byte that a command moves. -/
def CopyCmd.bytes (c : CopyCmd) (seen : List (List Byte)) : List CopyByte :=
  (c.pairs.zip seen).flatMap fun d => (List.range d.1.2.2).map fun k => (d.1.1.plus k, d.1.2.1.plus k, listGetD d.2 k 0)

/-- The virtual address of byte k of a destination; none for one that no virtual range gives. -/
def rangeVa (l : List (BitVec 64 × Nat)) (k : Nat) : Option (BitVec 64) := if l.isEmpty then none else some (rangeByte l k)

/-- The pieces of a command's destination with their virtual addresses, from byte k on. -/
def CopyCmd.pieces (c : CopyCmd) : List ((Loc × Loc × Nat) × List Byte) → Nat → List Piece
  | [], _ => []
  | d :: r, k => (d.1.2.1, rangeVa c.dvas k, d.2) :: CopyCmd.pieces c r (k + d.1.2.2)

/-- How a copy or gather writes: each element of a gather whole (R396). -/
def CopyCmd.write (c : CopyCmd) : EngineWrite := { flag := c.flag, rel := c.rel, scope := c.scope, pubs := c.pubs, whole := c.isGather }

/-- Moves every byte of a command. Where its footprints meet, each byte moves what it had before or what the copy has written there, by the hardware's
choice, and the bytes are written in one order or the other (R374). -/
def State.moveBytes (s : State) (c : CopyCmd) : State :=
  let (seen, s) := s.copySeen c
  if !c.isGather && pairsOverlap c.pairs then
    let all := c.bytes seen
    let (o, s) := s.choose 2
    let all := if o = 0 then all else all.reverse
    let (new, s) := State.copyChoices all all s
    let at_ := fun i => rangeVa c.dvas (if o = 0 then i else all.length - 1 - i)
    s.engineWrite c.g c.write (all.zipIdx.map fun b => (b.1.2.1, at_ b.2, [copyValue all new all.length b.2]))
  else s.engineWrite c.g c.write (c.pieces (c.pairs.zip seen) 0)

/-- The context and the launch of a reference's group. -/
def State.refLaunch (s : State) (r : GroupRef) : Option (Nat × Nat × Nat) :=
  match s.teamOf r with
  | some t => some (s.teamCtx t, s.teamLaunch t, t.grid)
  | none => none

/-- A command's writes need a shadow line while the overflow region is full (R257). -/
def State.copyBlocked (s : State) (c : CopyCmd) : Bool :=
  match s.refLaunch c.g with
  | some (ctx, _, _) => c.pairs.any fun p => (List.range (p.2.2 / 64 + 2)).any fun k =>
      decide (64 * k < p.2.2 + 63) && s.shadowBlocked ctx (s.viewOfRef c.g) (p.2.1.plus (min (64 * k) (p.2.2 - 1)))
  | none => false

/-- The place in a command's source of the first byte that lies in a poisoned line (R215). -/
def State.badSource (s : State) : List (Loc × Nat) → Nat → Option Nat
  | [], _ => none
  | (.phys pa _, n) :: r, k => match (List.range n).find? fun i => s.poison.contains (lineOf (pa + i)) with
    | some i => some (k + i)
    | none => State.badSource s r (k + n)
  | (_, n) :: r, k => State.badSource s r (k + n)

/-- A command raises a trap of its group after its issue (log 86). It is held while the group has another. -/
def State.commandTrap (s : State) (r : GroupRef) (kind : TrapKind) (detail : BitVec 32) (addr : BitVec 64) : Option State :=
  match s.findGroup r with
  | some g => if g.hasTrap then none else some (s.asyncTrap r g kind detail addr wholeGroup)
  | none => none

/-- The completion of a command of a core's copy engine. A poisoned line that it reads raises ECC (R215). It stalls while its writes find the overflow
region full, unless its launch is the oldest, where it raises SHADOW (R257). -/
def copyStep (core idx : Nat) (isGather : Bool) (s : State) : Result :=
  due <|
    match (s.core core).copies[idx]? with
    | none => none
    | some c =>
      let ready := match s.findGroup c.g with
        | some g => g.acquiresDone c.acq c.seq
        | none => true
      if c.isGather != isGather || !ready || !(c.pairs.all fun p => s.engineMayWrite c.g c.seq c.after p.2.1 p.2.2) then none
      else match s.badSource (c.pairs.map fun p => (p.1, p.2.2)) 0 with
      | some k => s.commandTrap c.g .ecc 2 (rangeByte c.vas k)
      | none =>
        if s.copyBlocked c then match s.refLaunch c.g with
          | some (_, l, _) => if s.isOldest l then s.commandTrap c.g .shadow 0 0 else none
          | none => none
        else
          let s := (s.modCore core fun k => { k with copies := listDrop k.copies idx }).moveBytes c
          some ((s.flagDec c.g c.flag).rouseCore core)

/-- A copy or gather can go no further: its group has taken a trap for it, or its writes find no room in the shadow (R215, R257). A save does not wait for it
(R289). -/
def State.copyHeld (s : State) (c : CopyCmd) : Bool :=
  let trapped := (s.findGroup c.g).any fun g => g.trap.isSome
  let oldest := (s.refLaunch c.g).any fun x => s.isOldest x.2.1
  trapped && (s.badSource (c.pairs.map fun p => (p.1, p.2.2)) 0).isSome || s.copyBlocked c && (trapped || !oldest)

/-- copy completion (R374). -/
def execCopyCompletion (core idx : Nat) (s : State) : Result := copyStep core idx false s
/-- gather completion (R396). -/
def execGatherCompletion (core idx : Nat) (s : State) : Result := copyStep core idx true s

-- ## query (R278, R430, R431)

/-- query. -/
def execQuery (w : XWord) (s : State) : Result :=
  native (xUses [w.r1.toNat]) s fun e => e.engine s w fun f =>
    let off := e.grp.readS w.r1.toNat
    match e.team with
    | none => e.engineTrap s .bounds .write (off.setWidth 64)
    | some t =>
      if off.toNat % 16 != 0 then e.engineTrap s .align .write (off.setWidth 64)
      else if !s.teamOk t (off.setWidth 64) 16 then e.engineTrap s .bounds .write (BitVec.ofNat 64 (max off.toNat (s.teamRange t).2))
      else if e.grp.flagFull f then e.waitOn .flagFull s
      else
        let q : Query := { g := e.gref, flag := f, seq := e.grp.seq, after := e.grp.fence, acq := w.acq,
                           rel := w.rel, scope := w.scope.toNat, off := off.toNat, pubs := e.pubs none, answer := none }
        e.counted { s with queries := s.queries ++ [q] } f

/-- The item that the hub gives a team's query, none for the end-of-work token, with the grid's counter and the team's count after it. -/
def nextItem (g : Grid) (t : Team) : Option Nat × Nat × Nat :=
  let n := if g.ordered then t.num + t.queries * g.teams else g.counter
  (if t.ended || decide (g.wx * g.wy * g.wz ≤ n) then none else some n, g.counter + 1, t.queries + 1)

/-- The 16 bytes of an answer. -/
def answerBytes (g : Grid) (n : Option Nat) : List Byte :=
  match n with
  | none => List.replicate 16 0xFF
  | some n => leBytes 4 n ++ leBytes 4 (n % g.wx) ++ leBytes 4 (n / g.wx % g.wy) ++ leBytes 4 (n / (g.wx * g.wy))

/-- The hub gives a query its item: the answer is on its way (R61, R278). -/
def State.giveItem (s : State) (idx : Nat) (q : Query) (t : Team) (gr : Grid) : State :=
  let (n, c, k) := nextItem gr t
  let s := { s with queries := listModify s.queries idx fun q => { q with answer := some (answerBytes gr n) } }
  (s.modGrid t.grid fun g => { g with counter := c }).modTeam q.g.team fun t => { t with queries := k, ended := t.ended || n.isNone }

/-- query answer: the hub answers the queries of one group in program order, each after the acquires that its own waits for (R228, R278); in a later
step the answer reaches scratchpad, and the flag counts down (R431). -/
def execQueryAnswer (idx : Nat) (s : State) : Result :=
  due <|
    match s.queries[idx]? with
    | none => none
    | some q => match s.findGroup q.g, s.teamOf q.g with
      | some g, some t => match Table.find s.grids t.grid, q.answer with
        | none, _ => none
        | some gr, none =>
          if (s.queries.take idx).any (fun x => x.g == q.g && x.answer.isNone) || !g.acquiresDone q.acq q.seq then none
          else some (s.giveItem idx q t gr)
        | some _, some bs =>
          let l := s.teamLoc t q.off
          if !s.engineMayWrite q.g q.seq q.after l 16 then none
          else some ((({ s with queries := listDrop s.queries idx }).engineWrite q.g { flag := q.flag, rel := q.rel, scope := q.scope, pubs := q.pubs } [(l, none, bs)]).flagDec q.g q.flag)
      | _, _ => none

-- ## coll (R309, R369, R370)

/-- The element formats of a collective: f32, f16, bf16, i32 and n32. -/
def collFormat (c : Nat) : Bool := c = 0 || c = 1 || c = 2 || c = 12 || c = 13

/-- The fields of a collective's descriptor. -/
structure CollDesc where
  src : BitVec 64
  dst : BitVec 64
  n : Nat
  fmt : Nat
  red : Nat
  m : Nat
  rank : Nat
  id : BitVec 32
  number : BitVec 64
  peers : List Nat
  zero : Nat
deriving DecidableEq, Repr

/-- Reads a descriptor from its 64 bytes. -/
def readColl (b : List Byte) : CollDesc :=
  let f := bytesField b
  { src := BitVec.ofNat 64 (f 0 8), dst := BitVec.ofNat 64 (f 8 8), n := f 0x10 8, fmt := f 0x18 1, red := f 0x19 1, m := f 0x1A 1,
    rank := f 0x1B 1, id := BitVec.ofNat 32 (f 0x1C 4), number := BitVec.ofNat 64 (f 0x20 8),
    peers := (List.range 16).map fun k => f (0x28 + k) 1, zero := f 0x38 8 }

/-- CONFIG for a descriptor (R369 step 2). -/
def State.collBad (s : State) (op : Nat) (d : CollDesc) : Bool :=
  let ps := d.peers.take d.m
  d.n = 0 || decide (2 ^ 32 < d.n) || !collFormat d.fmt || 2 < d.red || (op = 1 && d.red != 0) || d.m = 0 || 16 < d.m
    || decide (d.m ≤ d.rank) || d.zero != 0 || ps.any (fun p => 15 < p) || !noneAgree (fun a b => a == b) ps
    || listGetD ps d.rank 16 != s.peer
    || ps.any (fun p => p != s.peer && (Table.find s.routes p).isNone)
    || s.colls.any fun c => c.id == d.id && c.number == d.number

/-- The bytes of an element, and the elements of source and destination (R370). -/
def CollDesc.elemBytes (d : CollDesc) : Nat := formatWidth d.fmt / 8
def CollDesc.srcBytes (d : CollDesc) (op : Nat) : Nat := d.n * d.elemBytes * if op = 2 then d.m else 1
def CollDesc.dstBytes (d : CollDesc) (op : Nat) : Nat := d.n * d.elemBytes * if op = 1 then d.m else 1

/-- The location of every byte of stretches. -/
def runBytes (l : List Run) : List Loc := l.flatMap fun r => (List.range r.2).map fun k => r.1.plus k

/-- A stretch lies on a transactional page. -/
def Loc.isTxn (l : Loc) : Bool := match l with
  | .phys _ t => t
  | .scratch _ => false

/-- coll (R369). -/
def execColl (w : XWord) (s : State) : Result :=
  native (xUses [w.r1.toNat, w.r1.toNat + 1]) s fun e => e.engine s w fun f =>
    let va := e.grp.readSPair w.r1.toNat
    let op := (w.variant.extractLsb' 0 2).toNat
    match e.checkVirtual s va 64 64 .read with
    | (.error k, s) => e.engineTrap s k .read va
    | (.ok l, s) =>
      let d := readColl (s.readOwn e.gref (e.view s) e.grp e.grp.seq l 64)
      if s.collBad op d then e.trap s .config
      else match e.virtual .read s d.src (d.srcBytes op) with
        | (.error (k, a), s) => e.engineTrap s k .read a
        | (.ok rs, s) => match e.virtual .write s d.dst (d.dstBytes op) with
          | (.error (k, a), s) => e.engineTrap s k .write a
          | (.ok rd, s) =>
            if (rs ++ rd).any fun r => r.1.isTxn then e.trap s .config
            else if e.grp.flagFull f then e.waitOn .flagFull s
            else
              let s := s.trackOwn e.gref (e.view s) e.grp e.grp.seq l 64
              let c : CollCmd :=
                { g := e.gref, flag := f, seq := e.grp.seq, after := e.grp.fence, acq := w.acq, rel := w.rel, scope := w.scope.toNat, op := op, src := runBytes rs, dst := runBytes rd,
                  n := d.n, fmt := d.fmt, red := d.red, members := d.m, rank := d.rank, id := d.id, number := d.number, level := e.level,
                  since := s.stamp, floor := e.commandFloor s w, know := e.commandKnow s w, pubs := e.pubs none, vas := [(d.src, d.srcBytes op)],
                  dvas := [(d.dst, d.dstBytes op)], answer := none }
              e.counted { s with colls := s.colls ++ [c] } f

/-- One step of a reduction (R309, R370): floating add rounds with rn, min and max follow fmin and fmax, integers wrap. -/
def reduceElem (fmt red level x y : Nat) : Nat :=
  if formatIsInt fmt then
    let n := formatWidth fmt
    let a := codeInt fmt x
    let b := codeInt fmt y
    match red with
    | 0 => (x + y) % 2 ^ n
    | 1 => if b < a then y else x
    | _ => if a < b then y else x
  else
    let f := codeFloat fmt
    let u := readFloat f level x
    let v := readFloat f level y
    let m : WriteMode := { mode := .rn, sat := false, level := level, conv := false, f32ToF16 := false }
    let pick := fun first : Bool => match u, v with
      | .nan b, .nan _ => writeFloat f m (.nan (some b))
      | .nan _, v => writeFloat f m v.toValue
      | u, .nan _ => writeFloat f m u.toValue
      | u, v => writeFloat f m (if first then u else v).toValue
    match red with
    | 0 => writeFloat f m (addValue .rn u v)
    | 1 => pick (!lessExact v u)
    | _ => pick (!lessExact u v)

/-- Element k of a contribution. -/
def elemOf (bytes k : Nat) (l : List Byte) : Nat := bytesField l (bytes * k) bytes

/-- The elements reduced over the ranks in ascending order. -/
def reduceAll (fmt red level bytes k : Nat) (l : List (List Byte)) : Nat :=
  match l with
  | [] => 0
  | c :: r => r.foldl (fun a d => reduceElem fmt red level a (elemOf bytes k d)) (elemOf bytes k c)

/-- The destination bytes of a member from every rank's source, in rank order (R370). -/
def CollCmd.result (c : CollCmd) (srcs : List (List Byte)) : List Byte :=
  let b := formatWidth c.fmt / 8
  match c.op with
  | 1 => srcs.flatten
  | 2 => (List.range c.n).flatMap fun k => leBytes b (reduceAll c.fmt c.red c.level b (c.rank * c.n + k) srcs)
  | _ => (List.range c.n).flatMap fun k => leBytes b (reduceAll c.fmt c.red c.level b k srcs)

/-- The collective engine reads a member's own source and computes its answer from every rank's (R309, R370). -/
def State.collAnswer (s : State) (idx : Nat) (c : CollCmd) (others : List (List Byte)) : State :=
  let (own, s) := State.sourceBytes (c.reader s) false (c.src.map fun l => (l, 1)) s
  let out := c.result (others.take c.rank ++ [own.flatten] ++ others.drop c.rank)
  { s with colls := listModify s.colls idx fun c => { c with answer := some out } }

/-- coll completion: every member has issued the collective; others are the sources of the other ranks, in rank order (R309). The answer reaches the
destination, and the flag counts down, in a later step (R61). A poisoned line of the source raises ECC (R215). -/
def execCollCompletion (idx : Nat) (others : List (List Byte)) (s : State) : Result :=
  due <|
    match s.colls[idx]? with
    | none => none
    | some c =>
      let ready := match s.findGroup c.g with
        | some g => g.acquiresDone c.acq c.seq
        | none => true
      match c.answer with
      | none =>
        if !ready || !s.running c.g || others.length + 1 != c.members || others.any (fun l => l.length != c.src.length) then none
        else match s.badSource (c.src.map fun l => (l, 1)) 0 with
          | some k => s.commandTrap c.g .ecc 2 (rangeByte c.vas k)
          | none => some (s.collAnswer idx c others)
      | some out =>
        if !(c.dst.all fun l => s.engineMayWrite c.g c.seq c.after l 1) then none
        else
          let pieces := (c.dst.zip out).zipIdx.map fun x => (x.1.1, rangeVa c.dvas x.2, [x.1.2])
          some ((({ s with colls := listDrop s.colls idx }).engineWrite c.g { flag := c.flag, rel := c.rel, scope := c.scope, pubs := c.pubs } pieces).flagDec c.g c.flag)

-- ## waitf (R459)

/-- waitf. -/
def execWaitf (w : XWord) (s : State) : Result :=
  native (xUses []) s fun e =>
    let f := (w.variant.extractLsb' 0 4).toNat
    if !e.acts w.g then e.finish e.grp s
    else if e.grp.flag f == 0 then e.finish (e.grp.sawFlags (1#12 <<< f)) s
    else e.waitOn .flags s

-- ## tlbinv (R206, R454)

/-- A page of a virtual range: length 0 names every address. -/
def pageInRange (va size : Nat) (start : BitVec 64) (len : Nat) : Bool :=
  len = 0 || (decide (va < start.toNat + len) && decide (start.toNat < va + size))

/-- tlbinv: a shootdown by the agent, which waits until it completes; an empty mask completes at once. -/
def execTlbinv (w : XWord) (s : State) : Result :=
  let m := w.r2.toNat
  native (xUses (recordRegs w.r1.toNat ++ (List.range 8).map fun k => m + k)) s fun e =>
    if e.acts w.g && e.grp.readS (w.r1.toNat + 3) != 0 then e.trap s .illegal
    else if e.ref.isSome then e.trap s .priv
    else if !e.acts w.g then e.finish e.grp s
    else
      let mask := BitVec.ofNat 256 ((List.range 8).foldl (fun n k => n + (e.grp.readS (m + k)).toNat * 2 ^ (32 * k)) 0)
      if mask = 0 then e.finish e.grp s
      else
        let x : Shootdown := { core := e.core, start := e.grp.readSPair w.r1.toNat, len := (e.grp.readS (w.r1.toNat + 2)).toNat, cores := mask }
        e.waitOn .hub { s with shootdowns := s.shootdowns ++ [x] }

/-- The sizes of the pages of a byte as a core's translations of some contexts have it: its cached entries and the walks now, the smallest page at
least. -/
def State.pageSizes (s : State) (core : Nat) (ctx : Nat → Bool) (va : Nat) : List Nat :=
  65536 :: (((s.core core).tlb ++ Table.getD s.dieTlb (dieOf core) []).filterMap fun t =>
      if ctx t.ctx && decide (t.va ≤ va) && decide (va < t.va + t.size) then some (max t.size (leafSize t.level t.pte)) else none)
    ++ s.contexts.filterMap fun c => if ctx c.1 then (s.walkCtx c.1 va).map fun e => leafSize e.2 e.1 else none

/-- A page in which bytes of a virtual range lie, of some contexts, overlaps a shootdown's: an access to them may have been translated through an entry
that it removes (R206, R454). -/
def Shootdown.meets (x : Shootdown) (s : State) (core : Nat) (ctx : Nat → Bool) (va : BitVec 64) (n : Nat) : Bool :=
  let last := va.toNat + n - 1
  pageInRange va.toNat n x.start x.len || [va.toNat, last].any fun a => (s.pageSizes core ctx a).any fun size =>
    decide (0 < size) && pageInRange (a / size * size) size x.start x.len

/-- An access of a group that a translation of the range led to is still to perform. -/
def Group.usesRange (g : Group) (meets : BitVec 64 → Nat → Bool) : Bool :=
  let at_ := fun (va : Option (BitVec 64)) n => va.any fun a => meets a n
  (g.loads.any fun l => l.known.isNone && at_ l.va l.bytes) || g.stores.any fun y => at_ y.va y.bytes

/-- An access or command of a core that was translated through an entry of the range is still to perform or complete (R206). -/
def State.usesRange (s : State) (core : Nat) (x : Shootdown) : Bool :=
  let meets := x.meets s core
  let ranges := fun l : List (BitVec 64 × Nat) => l.any fun r => meets (fun _ => true) r.1 r.2
  s.left.any (fun e => e.2.1 == core && e.2.2.any fun g => g.usesRange (meets fun _ => true))
    || (s.placedOn core).any (fun t => t.groups.any (fun g => g.usesRange (meets fun c => c == s.teamCtx t)) || match t.region with
      | some r => r.span.any fun y => y.va.any fun a => meets (fun c => c == s.teamCtx t) a y.bytes
      | none => false)
    || (s.core core).agent.grp.usesRange (meets fun _ => true)
    || (s.core core).copies.any (fun c => ranges c.vas || ranges c.dvas)
    || s.colls.any fun c => s.coreOf c.g == core && (ranges c.vas || ranges c.dvas)

/-- The cores of a shootdown: the selected enabled ones. -/
def State.shootCores (s : State) (x : Shootdown) : List Nat := (List.range 256).filter fun c => x.cores.getLsbD c && (s.core c).enabled

/-- A region's table without the entries of a range: they are cleared, and a use of one is a guard failure (R134, R454). -/
def Region.shoot (r : Region) (x : Shootdown) : Region :=
  { r with xlat := r.xlat.map fun e => e.map fun e => if pageInRange e.va.toNat e.size x.start x.len then { e with cleared := true } else e }

/-- A region of a saved team after a shootdown: besides, a store that its span buffer holds through an entry of the range is not made, as for a cleared
entry that is used: a guard failure once the team is restored (R134, log 92). -/
def Region.shootSaved (r : Region) (x : Shootdown) : Region :=
  let r := r.shoot x
  if r.span.any fun y => y.va.any fun a => pageInRange a.toNat y.bytes x.start x.len then r.fail SFault.guardFailure else r

/-- A cached entry maps a page that overlaps the range; an entry for a part of a page goes with its page (R200, R454). -/
def Shootdown.hits (x : Shootdown) (t : TlbEntry) : Bool :=
  let size := max t.size (leafSize t.level t.pte)
  pageInRange (t.va / size * size) size x.start x.len

/-- The loop buffers that a shootdown leaves: a body in the range, or in a page whose entry is removed, is captured no longer, and a group
that runs from it completes its pass (R73, R206). -/
def Shootdown.keptLoops (x : Shootdown) (c : Core) : List LoopBuf :=
  let gone := c.tlb.filter x.hits
  c.loops.filter fun b => !(pageInRange b.lo (b.hi + 8 - b.lo) x.start x.len
    || gone.any fun t => decide (t.va < b.hi + 8) && decide (b.lo < t.va + t.size))

/-- shootdown complete: no entry of the range is left, in a saved team's region either, and every access and command through one has performed (R206,
R454). -/
def execShootdownComplete (idx : Nat) (s : State) : Result :=
  due <|
    match s.shootdowns[idx]? with
    | none => none
    | some x =>
      let cs := s.shootCores x
      if cs.any fun c => s.usesRange c x then none
      else
        let s := { s with
          shootdowns := listDrop s.shootdowns idx,
          dieTlb := s.dieTlb.map fun (e : Nat × List TlbEntry) => if cs.any fun c => dieOf c == e.1 then (e.1, e.2.filter fun t => !x.hits t) else e,
          cores := s.cores.map fun (e : Nat × Core) => if cs.contains e.1 then
            (e.1, { e.2 with tlb := e.2.tlb.filter fun t => !x.hits t, loops := x.keptLoops e.2 }) else e,
          teams := s.teams.map fun (e : Nat × Team) =>
            if e.2.phase != TeamPhase.placed then (e.1, { e.2 with region := e.2.region.map (Region.shootSaved · x) })
            else if cs.contains e.2.core then (e.1, { e.2 with region := e.2.region.map (Region.shoot · x) }) else e }
        some (s.modGroup { team := 0, grp := x.core } fun (g : Group) => if g.state == GroupState.waiting .hub then g.pastWord else g)

-- ## btop (R268, R361)

/-- The words (8 bytes each) that an operation writes in committed data: RELEASE frees an entry that the sequence names as often as its REF says. -/
def TableEnv.opWords (t : TableEnv) (s : State) (d : Desc) (op q q2 : Nat) : List Nat :=
  let word := fun l : Loc => l.addr / 8
  let named := (List.range d.m).filterMap fun k => match t.read s (d.slot q k) 4 with
    | (.ok (n, l), s) => if n = noEntry then none else match t.entry s d n with
      | (.ok e, _) => some (k, l, e)
      | (.error _, _) => none
    | (.error _, _) => none
  let times := fun x : Nat × Loc × Entry => (named.filter fun y => y.2.2.loc == x.2.2.loc).length
  let freed := ((named.filter fun x => x.2.2.ref != 0 && decide (x.2.2.ref ≤ times x)).map fun x => x.2.2.loc).eraseDups.length
  match op with
  | 0 => named.flatMap fun x => word x.2.2.loc :: match t.read s (d.slot q2 x.1) 4 with
    | (.ok (_, l), _) => [word l]
    | (.error _, _) => []
  | 1 => (named.flatMap fun x => [word x.2.2.loc, word x.2.1])
    ++ (if freed = 0 then [] else word (d.loc.plus 0x30) :: (List.range freed).flatMap fun k =>
      match t.read s (d.ring + BitVec.ofNat 64 (4 * ((d.tail + k) % max 1 d.cap))) 4 with
      | (.ok (_, l), _) => [word l]
      | (.error _, _) => [])
  | _ => named.map fun x => word x.2.2.loc + 1

/-- A launch has read a word: by word in an entry array, else by its line, or as its signature reports. -/
def Launch.hasRead (s : State) (l : Launch) (word : Nat) : Bool :=
  l.readWords.any (fun w => w == word || !s.tableByte (8 * w) && w / 8 == word / 8) || (l.sig != 0 && signatureHas l.sig (word / 8))

/-- Every uncommitted launch whose read set holds one of the words aborts and replays (R251, R306). -/
def State.abortReaders (s : State) (words : List Nat) : State :=
  ((s.launches.filter fun l => l.2.active && words.any (l.2.hasRead s)).map fun l => l.1).foldl (fun s l => s.abortConflict l true) s

/-- btop: it waits until no uncommitted launch has written a word that it writes, then performs, and aborts the launches that have read
one. -/
def execBtop (w : XWord) (s : State) : Result :=
  native (xUses [w.r1.toNat, w.r1.toNat + 1, w.r2.toNat, w.r3.toNat, w.r3.toNat + 1]) s fun e =>
    if e.ref.isSome then e.trap s .priv
    else if !e.acts w.g then e.finish e.grp s
    else
      let t : TableEnv := { core := e.core, ctx := e.ctx, view := [] }
      let va := e.grp.readSPair w.r1.toNat
      let op := (e.grp.readS w.r2.toNat).toNat
      let q := (e.grp.readS w.r3.toNat).toNat
      let q2 := (e.grp.readS (w.r3.toNat + 1)).toNat
      match t.tableOp s va op q q2 true with
      | (.error (a, k), _) => e.trapWith s e.grp k (if k == .bounds then 0 else accessDetail k .read) a wholeGroup false
      | (.ok _, done) => match t.desc s va with
        | (.error (a, k), s) => e.trapWith s e.grp k (accessDetail k .read) a wholeGroup false
        | (.ok d, s) =>
          let words := t.opWords s d op q q2
          if s.launches.any fun l => l.2.uncommitted && words.any (s.wroteWord l.1) then e.waitOn .ordering s
          else e.finish e.grp (done.abortReaders words)

end Sys2Proof.Machine
end

