-- ==== Sys2Proof/Machine/Traps.lean ====
section
/-! DEFINITION. Where a trap goes (R284 to R287, R359): its record, the ring's host side, resuming a group, emulating bsync, and the end of a
launch by a trap. -/

namespace Sys2Proof.Machine

-- ## The trap record (R286)

/-- What gridid reads in the teams of a grid (R52). -/
def State.gridNumber (s : State) (gid : Nat) : Nat := match Table.find s.grids gid with
  | some g => g.number
  | none => 0

/-- The 64 bytes of the record of a group's trap. -/
def trapRecord (ctx grid : Nat) (t : Team) (g : Group) (kind : TrapKind) (i : TrapInfo) (n : BitVec 64) : List Byte :=
  leBytes 4 kind.number ++ leBytes 4 i.detail.toNat ++ leBytes 4 ctx ++ leBytes 4 grid ++ leBytes 4 t.num ++ leBytes 4 g.num
    ++ leBytes 8 i.pc.toNat ++ leBytes 8 i.addr.toNat ++ leBytes 4 i.lane.toNat ++ leBytes 4 g.eqlast.toNat ++ leBytes 4 g.tableSize
    ++ leBytes 4 0 ++ leBytes 8 n.toNat

/-- The ring of a context holds 64 unread records. -/
def Context.ringFull (c : Context) : Bool := (c.trw - c.trr).toNat == 64

/-- Writes a record into the ring of a context, counts it and sends the message; with EN = 0 nothing is written. -/
def State.writeTrap (s : State) (ctx : Nat) (record : BitVec 64 → List Byte) : State :=
  let c := s.context ctx
  if !c.trbEn then s
  else
    let s := s.perform hubRef 0 [] (.phys (c.trbBase.toNat * 4096 + 64 * (c.trw.toNat % 64)) false) (record c.trw)
    (s.modContext ctx fun c => { c with trw := c.trw + 1 }).notify 3 ctx

-- ## Save by a breakpoint (R289)

/-- A save of a context begins, as by a write of PREQ with MODE 001 and GO 1 (R288, R289). -/
def Context.startSave (c : Context) : Context := { c with go := true, mode := 1 }

/-- DBGC.STOP: a BKPT or SWTRAP also starts a save, while no request is under way (log 17). -/
def State.stopForDebug (s : State) (ctx : Nat) (kind : TrapKind) : State :=
  s.modContext ctx fun c =>
    if (kind == .bkpt || kind == .swtrap) && c.dbgStop && !c.go then c.startSave else c

-- ## Delivery (R284, R286)

/-- What comes of a recorded trap: the host may resolve it, the debug handler has it, or the grid aborts. -/
inductive TrapEnd where
  | toHost
  | toDebug
  | resolved
  | aborts
deriving DecidableEq, Repr

/-- Where a trap goes (R284): PAGE and PROT to the host through the agent, BKPT and SWTRAP to a registered debug handler, each only where
records are enabled. Without records the agent resolves a PAGE or PROT itself or does not, and its choice is free (R286). -/
def State.trapEnd (s : State) (ctx : Nat) (kind : TrapKind) : TrapEnd × State :=
  let c := s.context ctx
  if kind == .page || kind == .prot then
    if c.trbEn then (.toHost, s)
    else
      let (k, s) := s.choose 2
      (if k = 0 then .aborts else .resolved, s)
  else if (kind == .bkpt || kind == .swtrap) && c.trbEn && c.dbgEn then (.toDebug, s)
  else (.aborts, s)

/-- The phase of a group's trap. -/
def Group.trapAt (g : Group) (p : TrapPhase) : Group := { g with trap := g.trap.map fun i => { i with phase := p } }

/-- The agent serves a trap other than RETIRED: the record first, then what comes of it. -/
def State.deliver (s : State) (r : GroupRef) (t : Team) (g : Group) (i : TrapInfo) (kind : TrapKind) : State :=
  let ctx := s.teamCtx t
  let s := s.writeTrap ctx (trapRecord ctx (s.gridNumber t.grid) t g kind i)
  let s := s.stopForDebug ctx kind
  match s.trapEnd ctx kind with
  | (.toHost, s) => s.modGroup r fun g => g.trapAt .host
  | (.toDebug, s) => s.modGroup r fun g => g.trapAt .debug
  | (.resolved, s) => s.modGroup r Group.resume
  | (.aborts, s) => s.abortGrid t.grid (Ending.ofTrap kind i.addr)

/-- A group with a trap that its agent has not yet served, in a placed team. -/
def State.raisedTrap (s : State) (r : GroupRef) : Option (Team × Group × TrapInfo) :=
  match s.findGroup r, s.teamOf r with
  | some g, some t => match g.trap with
    | some i => if i.phase == .raised && t.phase == .placed then some (t, g, i) else none
    | none => none
  | _, _ => none

/-- trap delivery: a raised trap reaches the agent of the group's core. RETIRED is emulated without a record, and a group with several paths
then reports CONVERGE (R359); a full ring holds the trap until the host reads (R286). -/
def execTrapDelivery (r : GroupRef) (s : State) : Result :=
  due <|
    match s.raisedTrap r with
    | none => none
    | some (t, g, i) =>
      let kind := if i.kind == .retired then (if g.severalPaths then TrapKind.converge else .retired) else i.kind
      let c := s.context (s.teamCtx t)
      if kind == .retired then some ((s.modGroup r fun g => g.trapAt .sync).agentEvent t.core (.trap r))
      else if c.trbEn && c.ringFull then none
      else some ((s.agentEvent t.core (.trap r)).deliver r t g i kind)

-- ## bsync (R359)

/-- Every access of a group has performed within its team, as fence.full.team asks (R217, R221). -/
def Group.quiet (g : Group) : Bool := g.performed g.seq 1

/-- The agent emulates the bsync of a group of a team: every group that has not retired has issued as many, and the accesses of those that
wait have performed. -/
def Team.syncMet (t : Team) (g : Group) : Bool :=
  t.groups.all fun h => h.state == .retired || (decide (g.syncs ≤ h.syncs) && (h.syncs != g.syncs || h.quiet))

/-- A group waits in bsync with a count. -/
def Group.syncing (g : Group) (n : Nat) : Bool :=
  g.syncs == n && match g.trap with
    | some i => i.phase == .sync
    | none => false

-- ## Resuming and ending (R152, R199, R284)

/-- A trap that was passed to the host. -/
def State.hostTrap (s : State) (r : GroupRef) : Option (Team × TrapInfo) :=
  match s.findGroup r, s.teamOf r with
  | some g, some t => match g.trap with
    | some i => if i.phase == .host && t.phase == .placed then some (t, i) else none
    | none => none
  | _, _ => none

/-- group resume: the agent or the host has resolved a PAGE or PROT, and the group issues the instruction again (R152); or the agent's
emulation of a bsync resumes every group that waits at it, past the instruction (R359), where a single step ends (R293). -/
def execGroupResume (r : GroupRef) (s : State) : Result :=
  due <|
    match s.hostTrap r, s.findGroup r, s.teamOf r with
    | some _, _, _ => some (s.modGroup r Group.resume)
    | none, some g, some t =>
      if g.syncing g.syncs && t.phase == .placed && t.syncMet g then
        some (t.groups.zipIdx.foldl (fun s x =>
          if x.1.syncing g.syncs then let q : GroupRef := { team := r.team, grp := x.2 }; s.modGroup q Group.resume else s) s)
      else none
    | _, _, _ => none

/-- unresolved fault abort: a PAGE or PROT that neither the agent nor the host resolves ends the grid (R199). -/
def execUnresolvedFaultAbort (r : GroupRef) (s : State) : Result :=
  due <|
    match s.hostTrap r with
    | some (t, i) => some (s.abortGrid t.grid (Ending.ofTrap i.kind i.addr))
    | none => none

/-- A write of TRR: ignored above TRW or below the current value (R287). -/
def Context.writeTrr (c : Context) (v : BitVec 64) : Context :=
  if v.toNat ≤ c.trw.toNat && c.trr.toNat ≤ v.toNat then { c with trr := v } else c

/-- trr write: the host has read records, and trapped groups find room (R286, R287). -/
def execTrrWrite (ctx : Nat) (v : BitVec 64) (s : State) : Result :=
  .next (s.hostReg fun s => s.modContext ctx fun c => c.writeTrr v)

end Sys2Proof.Machine
end

