-- ==== Sys2Proof/Machine/Preempt.lean ====
section
/-! DEFINITION. Pre-emption (R42, R45, R111, R112, R136, R154, R194, R259, R279, R288 to R291): the requests of PREQ and their completion,
and saving a team. -/

namespace Sys2Proof.Machine

-- ## PREQ (R288)

/-- A write of PREQ while no request is under way. GO starts MODE; the drain limit is 2^(DLIM + 10) cycles. -/
def Context.writePreq (c : Context) (v : BitVec 64) : Context :=
  let dlim := v.extractLsb' 24 4
  { c with mode := v.extractLsb' 28 3, dlim := dlim, go := v.getLsbD 31, drainOver := false,
           drain := if v.getLsbD 31 && v.extractLsb' 28 3 == 0 then 2 ^ (dlim.toNat + 10) else c.drain }

/-- The MODE field of a write, none for 100 to 111, with which the write is ignored. -/
def preqMode (v : BitVec 64) : Option Nat :=
  let m := (v.extractLsb' 28 3).toNat
  if m ≤ 3 then some m else none

/-- A request completes: RES, GO = 0, and the message (R288). -/
def State.preqDone (s : State) (ctx : Nat) (res : BitVec 4) : State :=
  (s.modContext ctx fun c => { c with go := false, res := res, drain := 0, drainOver := false }).notify 4 ctx

/-- The teams of a context. -/
def State.contextTeams (s : State) (ctx : Nat) : List (Nat × Team) := s.teams.filter fun t => s.teamCtx t.2 == ctx

/-- The teams of the context that are placed. -/
def State.placedTeams (s : State) (ctx : Nat) : List (Nat × Team) := (s.contextTeams ctx).filter fun t => t.2.phase == .placed

-- ## Drain (R288)

/-- Every team and child of a context has retired. -/
def State.drained (s : State) (ctx : Nat) : Bool :=
  (s.contextTeams ctx).isEmpty && !(s.grids.any fun g => g.2.ctx == ctx && g.2.parent.isSome)

/-- preq drain: a write of PREQ with MODE 000, or the completion of a drain. A write with MODE 100 to 111 is ignored. -/
def execPreqDrain (ctx : Nat) (v : Option (BitVec 64)) (s : State) : Result :=
  match v with
  | some v => .next <| s.hostReg fun s =>
      s.modContext ctx fun c => if !c.go && preqMode v == some 0 then c.writePreq v else c
  | none => due <|
      let c := s.context ctx
      if c.go && c.mode == 0 && !c.drainOver && s.drained ctx then some (s.preqDone ctx 1) else none

/-- drain limit expiry: the limit has passed and teams still run; the request goes on as a save. MODE keeps what the host wrote. -/
def execDrainLimitExpiry (ctx : Nat) (s : State) : Result :=
  due <|
    let c := s.context ctx
    if c.go && c.mode == 0 && !c.drainOver && c.drain = 0 && !s.drained ctx then some (s.modContext ctx fun c => { c with drainOver := true })
      else none

-- ## Save (R289, R290)

/-- A group whose stbt waits for a copy on write that can still be made (R299): while the overflow region is full it cannot (R257). -/
def State.copiesBlock (s : State) (r : GroupRef) (g : Group) : Bool :=
  match g.state, execCopyOnWriteComplete r s with
  | .waiting (.cow _), .next _ => true
  | _, _ => false

/-- A command of another team names a team's range (R416). -/
def State.namedElsewhere (s : State) (tk : Nat) (t : Team) : Bool :=
  let (lo, n) := s.teamRange t
  s.cores.any fun c => (c.2.accepted ++ c.2.executing.toList).any fun x => x.g.team != tk && x.meets lo n

/-- A command of a matrix engine, a copy, a copy on write, a query or a collective that moves its data is still under way (R194, R279, R289,
R299), or one that names another team's range, or another team's that names its own (R416). -/
def State.teamBusy (s : State) (tk : Nat) (t : Team) : Bool :=
  (s.core t.core).executing.any (fun x => x.g.team == tk) || (s.core t.core).accepted.any (fun x => x.g.team == tk && s.remote x)
    || s.namedElsewhere tk t || (s.core t.core).copies.any (fun x => x.g.team == tk && !s.copyHeld x)
    || s.queries.any (fun q => q.g.team == tk) || s.colls.any (fun c => c.g.team == tk && c.answer.isSome)
    || t.groups.zipIdx.any fun x => s.copiesBlock { team := tk, grp := x.2 } x.1

/-- A team can be written to the save area: every access of its groups has performed or can go no further, no group owes a trap, its engine work has
ended or not begun, and its region is frozen (R111, R289). -/
def State.savable (s : State) (e : Nat × Team) : Bool :=
  let t := e.2
  (t.groups.zipIdx.all fun x => x.1.owed.isNone && (x.1.loads.isEmpty && x.1.stores.isEmpty || s.groupHeld { team := e.1, grp := x.2 } x.1))
    && !s.teamBusy e.1 t
    && match t.region with
      | none => true
      | some r => r.fault.isNone && s.regionFrozen e.1 t r

/-- The bytes of a range of scratchpad, by their place in it. -/
def State.rangeBytes (s : State) (lo n : Nat) : Sparse 8 :=
  let inside := fun a => decide (lo ≤ a) && decide (a < lo + n)
  let plain := (s.scratch.filter fun e => inside e.1).map fun e => (e.1 - lo, e.2)
  (s.blurs.filter fun b => b.scratch).foldl (fun m b => (List.range b.len).foldl (fun m k =>
    if inside (b.start + k) then Sparse.set m (b.start + k - lo) (s.scratchByte (b.start + k)) else m) m) plain

/-- The save area of a context's teams on a core holds an image whose layout is the device's own (R288, R290, log 82). -/
def State.blurSaveArea (s : State) (ctx core : Nat) : State := s.blur false ((s.context ctx).csaBase.toNat * 2 ^ 21 + core * 2 ^ 21) (2 ^ 21)

/-- Writes a team to the save area: its hop is cancelled, and its scratchpad, bound tiles and accepted commands go with it (R136, R290), and
the copies that can go no further. -/
def State.saveTeam (s : State) (tk : Nat) : State :=
  let s := s.cancelHop tk
  match Table.find s.teams tk with
  | none => s
  | some t =>
    let c := s.core t.core
    let (lo, n) := s.teamRange t
    let bytes := s.rangeBytes lo n
    let phys := t.tiles.map fun b => b.2.phys
    let s := s.modCore t.core fun c => { c with accepted := c.accepted.filter fun x => x.g.team != tk, copies := c.copies.filter fun x => x.g.team != tk }
    s.modTeam tk fun t => { t with
      phase := .saved, savedScratch := bytes, savedTiles := c.tiles.filter fun e => phys.contains (e.1 / 4096),
      savedCmds := c.accepted.filter fun x => x.g.team == tk, savedCopies := c.copies.filter fun x => x.g.team == tk }

/-- preq save: a write of PREQ with MODE 001, or the completion of a save: every team of the context has stopped, and all are written to the
save area. -/
def execPreqSave (ctx : Nat) (v : Option (BitVec 64)) (s : State) : Result :=
  match v with
  | some v => due <|
      if preqMode v == some 1 then some <| s.hostReg fun s =>
        s.modContext ctx fun c => if c.go then c else c.writePreq v
      else none
  | none => due <|
      let l := s.placedTeams ctx
      if s.saving ctx && l.all s.savable then
        let s := (l.map fun e => e.2.core).eraseDups.foldl (fun s c => s.blurSaveArea ctx c) s
        some (((l.foldl (fun s e => s.saveTeam e.1) s).preqDone ctx 2).rouseAll)
      else none

-- ## Kill (R45, R259)

/-- Every launch of a context aborts with ABORT_KILL, with its descendants and its teams, saved ones among them. -/
def State.killContext (s : State) (ctx : Nat) : State :=
  ((s.launches.filter fun l => l.2.ctx == ctx).map fun l => l.1).foldl (fun s l => s.abortLaunch l (Ending.plain .kill)) s

/-- preq kill: a write of PREQ with MODE 010. With GO it kills at once, and overrides a drain or a save under way (R288). -/
def execPreqKill (ctx : Nat) (v : BitVec 64) (s : State) : Result :=
  due <|
    if preqMode v != some 2 then none
    else some <| s.hostReg fun s =>
      let c := s.context ctx
      if c.go && (!v.getLsbD 31 || c.mode == 3) then s
      else
        let s := s.modContext ctx fun c => c.writePreq v
        if v.getLsbD 31 then ((s.killContext ctx).preqDone ctx 3).rouseAll else s

-- ## Restore (R291)

/-- The saved teams of a context are pending again. -/
def State.unsave (s : State) (ctx : Nat) : State :=
  (s.contextTeams ctx).foldl (fun s e => s.modTeam e.1 fun t => if t.phase == .saved then { t with phase := .restoring } else t) s

/-- preq restore: a write of PREQ with MODE 011, or the completion of a restore: every saved team is placed. -/
def execPreqRestore (ctx : Nat) (v : Option (BitVec 64)) (s : State) : Result :=
  match v with
  | some v => due <|
      if preqMode v == some 3 then some <| s.hostReg fun s =>
        if (s.context ctx).go then s
        else
          let s := s.modContext ctx fun c => c.writePreq v
          if v.getLsbD 31 then s.unsave ctx else s
      else none
  | none => due <|
      let c := s.context ctx
      if c.go && c.mode == 3 && s.restoreDone ctx then some ((s.preqDone ctx 4).rouseAll) else none

end Sys2Proof.Machine
end

