-- ==== Sys2Proof/Machine/Debug.lean ====
section
/-! DEFINITION. Breakpoint registers and the debug interface (R113, R131, R135, R292 to R294): the target group in T terms, the items, and the
commands of DCMD. -/

namespace Sys2Proof.Machine

-- ## Breakpoint registers (R135, R292)

/-- Arming a breakpoint inside the current span of a team: a guard failure at once, or after an atn the team leaves S at the span's eqpn. -/
def State.armedInSpan (s : State) (ctx : Nat) (e : Nat × Team) : State :=
  match e.2.region, Table.find s.grids e.2.grid with
  | some r, some g =>
    if !s.bpInSpan ctx g.image r.ep then s
    else s.modRegion e.1 fun r => if r.atnDone then { r with mustLeave := true } else r.fail SFault.guardFailure
  | _, _ => s

/-- bp write (R292). -/
def execBpWrite (ctx n : Nat) (v : BitVec 64) (s : State) : Result :=
  .next <| s.hostReg fun s =>
    let s := s.modContext ctx fun c =>
      { c with bpAddr := listModify c.bpAddr n fun _ => v.extractLsb' 3 54, bpEn := listModify c.bpEn n fun _ => v.getLsbD 0 }
    if !v.getLsbD 0 || 3 < n then s
    else
      let only := s.modContext ctx fun c => { c with bpEn := [false, false, false, false].set n true }
      let armed := (s.contextTeams ctx).foldl (fun s e => s.armedInSpan ctx e) only
      armed.modContext ctx fun c => { c with bpEn := (s.context ctx).bpEn }

-- ## The target (R293, R294)

/-- A target team and group: its grid, and the group if it exists. -/
structure Target where
  key : Nat
  team : Team
  grid : Grid
  num : Nat
  grp : Option Group
deriving DecidableEq, Repr

/-- The team and the group that DTGT names. -/
def State.debugTarget (s : State) (ctx : Nat) : Option Target :=
  let d := (s.context ctx).dtgt
  match (s.contextTeams ctx).find? fun e =>
      s.gridNumber e.2.grid % 2 ^ 32 == (d.extractLsb' 32 32).toNat && e.2.num == (d.extractLsb' 8 24).toNat with
  | none => none
  | some (k, t) => match Table.find s.grids t.grid with
    | none => none
    | some g => some { key := k, team := t, grid := g, num := (d.extractLsb' 4 4).toNat, grp := t.groups[(d.extractLsb' 4 4).toNat]? }

/-- The reference of the target group. -/
def Target.ref (t : Target) : GroupRef := { team := t.key, grp := t.num }

/-- The team is saved, or saved and pending again. -/
def Target.saved (t : Target) : Bool := t.team.phase != .placed

/-- The group is Trapped or saved, as every item but 0x10 to 0x12 asks. -/
def Target.held (t : Target) : Option Group :=
  match t.grp with
  | some g => if g.state == .trapped || t.saved then some g else none
  | none => none

/-- What the target's group would see as its issuer. -/
def Target.env (t : Target) (g : Group) : Env :=
  let p := g.paths.headD (PathEntry.at 0 0)
  { ref := some t.ref, core := t.team.core, ctx := t.grid.ctx, team := some t.team, grid := some t.grid, grp := g, sel := some 0, path := p,
    ring := t.grid.image.regs, level := 0 }

-- ## T terms (R293)

/-- The clause of a T address: its header, the words of the clause from the address on, and whether the address is the header's. -/
def Target.clauseAt (t : Target) (s : State) (g : Group) (pc : BitVec 64) : DWord × List DWord × Bool :=
  let e := t.env { g with vform := false, loop := none }
  let (h, ws) := e.clauseRest s (s.viewOf t.team.grid) pc (t.grid.image.tLen / 8 + 1) t.grid.image.tBase
  (h, ws, ws.length == 1 + (h.extractLsb' 32 4).toNat)

/-- A path of a group in V form in T terms: the T word of its word, and the rest of that word's clause. -/
def Target.pathToT (t : Target) (s : State) (g : Group) (p : PathEntry) : PathEntry :=
  let pc := t.grid.image.tOfV p.pc
  let (h, ws, atHeader) := t.clauseAt s g pc
  if atHeader then { p with pc := pc, words := [] }
  else { p with pc := pc, words := ws, fa := h.extractLsb' 40 4, fb := h.extractLsb' 36 4 }

/-- A group in T form: a move from V to T changes only the PC and the form (R70). -/
def Target.toT (t : Target) (s : State) (g : Group) : Group :=
  if g.vform then { g with vform := false, loop := none, paths := g.paths.map (t.pathToT s g) } else g

/-- The state with the scratchpad range of a saved team filled from its image. -/
def State.unpacked (s : State) (t : Team) : State :=
  let (lo, n) := s.teamRange t
  let s := s.zeroScratch lo n
  { s with scratch := t.savedScratch.foldl (fun (m : Sparse 8) (e : Nat × Byte) => Sparse.set m (lo + e.1) e.2) s.scratch }

/-- A team saved in S form, in T form at its span's starting E-point: the span and its region are discarded (R133). -/
def Target.leaveS (t : Target) (s : State) : State :=
  match t.team.region with
  | none => s
  | some r => match Table.find ((s.unpacked t.team).resumeT t.key r.ep r.latched true).teams t.key with
    | some tm => s.modTeam t.key fun _ => tm
    | none => s

/-- The target group as the debugger sees it, in T terms. -/
def Target.shown (t : Target) (s : State) : Option Group :=
  match t.held with
  | none => none
  | some g =>
    if t.team.region.isSome then (t.leaveS s).findGroup t.ref
    else some (t.toT s g)

-- ## Items (R294)

/-- The fields of DSEL. -/
def Context.dselKind (c : Context) : Nat := (c.dsel.extractLsb' 24 8).toNat
def Context.dselLane (c : Context) : Nat := (c.dsel.extractLsb' 16 6).toNat
def Context.dselIndex (c : Context) : Nat := (c.dsel.extractLsb' 0 16).toNat

/-- The state of R42 by its place in the table; a group of a saved team is Frozen. -/
def Target.stateCode (t : Target) (g : Group) : Nat :=
  match g.state with
  | .retired => 6
  | st => if t.saved then 5 else match st with
    | .ready => 0
    | .waiting _ => 2
    | .parkedYield | .parkedHop => 3
    | _ => 4

/-- CST (R131). -/
def Team.cst (t : Team) : BitVec 64 :=
  match t.region with
  | some r => BitVec.ofNat 64 (2 ^ 31 + r.rid % 4 * 2 ^ 29)
  | none => (t.groups.filter fun g => g.vform).foldl (fun b g => b ||| (1#64 <<< g.num)) 0

/-- A register item's LANE and INDEX are in range (R294). -/
def Target.inRange (t : Target) (g : Group) (kind lane index : Nat) : Bool :=
  (!t.grid.image.legacy || decide (lane ≤ 31)) &&
    match kind with
    | 0x01 => decide (index < t.grid.image.window) && decide (index ≤ 255) && g.present.getLsbD lane
    | 0x02 => decide (index ≤ 63)
    | 0x03 => decide (index ≤ 127)
    | 0x04 => decide (index ≤ 11)
    | 0x05 | 0x06 => decide (index ≤ 7)
    | 0x07 | 0x08 | 0x09 => index == 0
    | 0x0A => decide (index ≤ 3)
    | 0x0B => true
    | _ => false

/-- A path of the table; an entry beyond it reads 0. The serialising path is the last entry (R441). -/
def Group.pathItem (g : Group) (k : Nat) : Option PathEntry := (g.paths ++ (g.serl.map fun z => z.path).toList)[k]?

/-- The place in the scratchpad of a saved team that an offset of the window had when the team was last placed (log 89). -/
def Target.savedOff (t : Target) (s : State) (off : Nat) : Option Nat :=
  let (lo, n) := s.teamRange t.team
  if t.saved && decide (lo ≤ off) && decide (off < lo + n) then some (off - lo) else none

/-- The location of a byte for an access of the debugger, through the launch's translation; the scratchpad of a saved team stands where it was. -/
def Target.byteLoc (t : Target) (s : State) (k : AccessKind) (va : BitVec 64) : Option Loc :=
  if inWindow va then
    if (t.savedOff s (va.toNat - windowBase)).isSome then some (.scratch (va.toNat - windowBase)) else s.hubLoc (some t.team.grid) t.grid.ctx va
  else (s.hubXlat t.grid.ctx va k).map fun x => .phys x.pa x.txn

/-- The locations of the bytes of a memory item: an aligned access, every byte accessible. -/
def Target.memLocs (t : Target) (s : State) (k : AccessKind) (va : BitVec 64) (n : Nat) : Option (List Loc) :=
  let l := (List.range n).map fun i => t.byteLoc s k (va + BitVec.ofNat 64 i)
  if va.toNat % n == 0 && l.all Option.isSome then some (l.filterMap id) else none

/-- The stores of the target's team that are still to perform at their home, the target group's own last. -/
def Target.stores (t : Target) : List PendStore :=
  ((t.team.groups.zipIdx.filter fun x => x.2 != t.num).flatMap fun x => x.1.stores) ++ (t.grp.map fun g => g.stores).getD []

/-- The bytes at locations as the debugger reads them: those of a saved team's scratchpad in its image, under the stores that the target's lanes
have made (R151). -/
def Target.bytesAt (t : Target) (s : State) (l : List Loc) : List Byte :=
  let s := if t.saved then s.unpacked t.team else s
  l.flatMap fun x => overStores x 1 (s.readLoc (s.viewOf t.team.grid) x 1) t.stores

/-- A store with one byte in place of its own there. -/
def PendStore.patched (x : PendStore) (l : Loc) (b : Byte) : PendStore :=
  { x with data := BitVec.ofNat 64 (ofLeBytes (overlay x.loc x.bytes x.bytesOf l [b])) }

/-- The debugger writes a byte, as a store of the target's after all that its team has made: one of a saved team's scratchpad into its image. -/
def Target.putByte (t : Target) (s : State) (l : Loc) (b : Byte) : State :=
  match (match l with
    | .scratch off => t.savedOff s off
    | _ => none) with
  | some k => s.modTeam t.key fun x => { x with savedScratch := Sparse.set x.savedScratch k b }
  | none =>
    (s.perform t.ref 0 (s.viewOf t.team.grid) l [b]).modTeam t.key fun x =>
      { x with groups := x.groups.map fun g => { g with stores := g.stores.map fun y => y.patched l b } }

/-- The tiles that hold a team's contents: the core's, or the saved ones. -/
def Target.tileArray (t : Target) (s : State) : Sparse 32 := if t.saved then t.team.savedTiles else (s.core t.team.core).tiles

/-- What a read of an item gives; none refuses it. -/
def Target.read (t : Target) (s : State) (c : Context) : Option (BitVec 64) :=
  let k := c.dselIndex
  match c.dselKind with
  | 0x10 => if k = 0 then some t.team.cst else none
  | 0x11 => if k = 0 then some (t.team.chc.setWidth 64) else none
  | 0x12 => if k = 0 then some (t.team.cgc.setWidth 64) else none
  | kind => match t.held, t.shown s with
    | some own, some g =>
      if !t.inRange g kind c.dselLane k then none
      else match kind with
        | 0x01 => some ((g.readV t.grid.image.regs k c.dselLane).setWidth 64)
        | 0x02 => some ((g.readS k).setWidth 64)
        | 0x03 => some (g.readP k &&& g.present)
        | 0x04 => some ((g.flag k).setWidth 64)
        | 0x05 => some (match g.pathItem k with
          | some p => p.pc
          | none => 0)
        | 0x06 => some (match g.pathItem k with
          | some p => p.mask
          | none => 0)
        | 0x07 => some (match g.active, g.paths with
          | some (_, p), _ => p.pc
          | none, p :: _ => p.pc
          | none, [] => 0)
        | 0x08 => some (g.eqlast.setWidth 64)
        | 0x09 => some (BitVec.ofNat 64 (t.stateCode own))
        | 0x0A => (t.memLocs s .read c.dadr (2 ^ k)).map fun l => BitVec.ofNat 64 (ofLeBytes (t.bytesAt s l))
        | _ => (Table.find t.team.tiles (k / 4096)).map fun b => (Sparse.get (t.tileArray s) (tileKey b.phys (k % 4096))).setWidth 64
    | _, _ => none

/-- A write of a register item to a group in T terms; none refuses it. A PC is taken by a group with one path, and must be a header of its T
code; the path table becomes that one entry, at which the group resumes (R293). -/
def Target.writeReg (t : Target) (s : State) (c : Context) (g : Group) : Option Group :=
  let k := c.dselIndex
  if !t.inRange g c.dselKind c.dselLane k then none
  else match c.dselKind with
    | 0x01 => some (g.writeV t.grid.image.regs k c.dselLane (c.ddat.setWidth 32))
    | 0x02 => some (g.writeS k (c.ddat.setWidth 32))
    | 0x03 => some (g.writeP k g.present c.ddat)
    | 0x07 =>
      let off := (c.ddat - t.grid.image.tBase).toNat
      let isHeader := off % 8 == 0 && decide (off < t.grid.image.tLen) && (t.clauseAt s g c.ddat).2.2
      match g.paths with
      | [p] => if !isHeader || g.severalPaths then none
        else some { (if g.trap.any fun i => i.after then g.stepDone else g) with
                           vform := false, loop := none, paths := [PathEntry.at c.ddat p.mask], child := none,
                           trap := g.trap.map fun i => { i with after := false, detail := if i.kind == .bkpt then 4 else i.detail } }
      | _ => none
    | _ => none

/-- The state after a write of an item; none refuses it. -/
def Target.write (t : Target) (s : State) (c : Context) : Option State :=
  let k := c.dselIndex
  match t.held with
  | none => none
  | some own => match c.dselKind with
    | 0x0A =>
      if !t.inRange own 0x0A c.dselLane k then none
      else match t.memLocs s .write c.dadr (2 ^ k) with
        | none => none
        | some l =>
          let view := s.viewOf t.team.grid
          if l.any (s.shadowBlocked t.grid.ctx view) then none
          else some ((l.zip (leBytes (2 ^ k) c.ddat.toNat)).foldl (fun s x => t.putByte s x.1 x.2) s)
    | 0x0B => if !t.inRange own 0x0B c.dselLane k then none else match Table.find t.team.tiles (k / 4096) with
      | none => none
      | some b =>
        let put := fun m : Sparse 32 => Sparse.set m (tileKey b.phys (k % 4096)) (c.ddat.setWidth 32)
        some (if t.saved then s.modTeam t.key fun x => { x with savedTiles := put x.savedTiles }
          else s.modCore t.team.core fun x => { x with tiles := put x.tiles })
    | _ => match t.shown s with
      | none => none
      | some g => match t.writeReg s c g with
        | none => none
        | some _ =>
          let s := if t.team.region.isSome then t.leaveS s else s
          some (s.modGroup t.ref fun own => match t.writeReg s c (if c.dselKind = 0x07 then t.toT s own else own) with
            | some g => g
            | none => own)

-- ## Commands (R293, R294)

/-- A command of DCMD: refused, it sets REF and changes nothing else; one written while another is under way is ignored. -/
def debugCommand (ctx : Nat) (f : Target → State → Context → Option State) (s : State) : Result :=
  .next <| s.hostReg fun s =>
    let c := s.context ctx
    if c.dbusy then s
    else match (s.debugTarget ctx).bind fun t => f t s c with
      | some s => s.modContext ctx fun c => { c with dref := false }
      | none => s.modContext ctx fun c => { c with dref := true }

/-- A register item of a Trapped group waits for the register writes that are still to come: the debugger sees and writes what the group's accesses have
left (R153, R293, log 89). One that can go no further does not come. -/
def State.debugWaits (s : State) (ctx : Nat) : Bool :=
  let c := s.context ctx
  (c.dselKind == 0x01 || c.dselKind == 0x02) && (s.debugTarget ctx).any fun t =>
    !t.saved && t.held.any fun g => !g.loads.isEmpty && !s.groupHeld t.ref g

/-- debug read: the item into DDAT. -/
def execDebugRead (ctx : Nat) (s : State) : Result :=
  if s.debugWaits ctx then .fault .notDue else debugCommand ctx (fun t s c => (t.read s c).map fun x => s.modContext ctx fun c => { c with ddat := x }) s

/-- debug write: DDAT to the item. -/
def execDebugWrite (ctx : Nat) (s : State) : Result :=
  if s.debugWaits ctx then .fault .notDue else debugCommand ctx (fun t s c => t.write s c) s

/-- The trap of a group has been recorded, so that it can be resumed (R286). -/
def Group.resumable (g : Group) : Bool := match g.trap with
  | some i => i.phase != .raised
  | none => true

/-- debug resume: the group becomes Ready (R42); one that is saved goes on at the restore. -/
def execDebugResume (ctx : Nat) (s : State) : Result :=
  debugCommand ctx (fun t s _ => match t.held with
    | some g => if g.resumable && g.state != .retired then some (s.modGroup t.ref Group.resume) else none
    | none => none) s

/-- debug single step: the group resumes in T form for one instruction; Issue raises BKPT with detail 5 after it. -/
def execDebugSingleStep (ctx : Nat) (s : State) : Result :=
  debugCommand ctx (fun t s _ => match t.held with
    | some g =>
      if !g.resumable || g.state == .retired then none
      else some ((t.leaveS s).modGroup t.ref fun g => { (t.toT s g.resume) with singleStep := true, stepped := false })
    | none => none) s

end Sys2Proof.Machine
end

