-- ==== Sys2Proof/Machine/Errors.lean ====
section
/-! DEFINITION. Errors in data, links and ports (R213 to R215, R307). -/

namespace Sys2Proof.Machine

/-- ecc correctable: corrected, and counted in the error counters of a core's agent (R215). -/
def execEccCorrectable (core : Nat) (s : State) : Result := .next (s.modCore core fun c => { c with errors := c.errors + 1 })

/-- A load of a lane of a group has yet to complete. -/
def Group.reads (g : Group) (lane : Nat) : Bool := g.loads.any fun l => match l.dst with
  | .v _ k => k == lane
  | .s _ => true

/-- A load of a lane of a group reads a line of its launch's shadow. -/
def State.readsShadow (s : State) (r : GroupRef) (g : Group) (lane : Nat) : Bool :=
  g.loads.any fun l => l.ofLane lane && match l.loc with
    | .phys pa true => (s.viewOfRef r).any fun v => s.hasShadowLine v (lineOf pa)
    | _ => false

/-- A group meets an uncorrectable error in data that it reads: ECC, with detail 1 where its load reads a shadow line, else 0 (R215, R286). -/
def State.groupEcc (s : State) (r : GroupRef) (lane : Nat) (addr : BitVec 64) : Option State :=
  match s.findGroup r with
  | none => none
  | some g =>
    if !g.reads lane || g.hasTrap then none
    else some (s.asyncTrap r g .ecc (if s.readsShadow r g lane then 1 else 0) addr (BitVec.ofNat 32 lane))

/-- A stream port meets an uncorrectable error in the data of a read under way, by its place in the landing buffer: the port faults with ECC (R91,
R215). -/
def State.portEcc (s : State) (tk k place : Nat) : Option State :=
  match Table.find s.teams tk with
  | none => none
  | some t => match t.region.bind fun r => r.active.port k with
    | none => none
    | some p => match p.landing[place]? with
      | none => none
      | some x =>
        if p.faulted || x.value.isSome then none
        else some (s.portFault tk t.core k .ecc x.va (p.pos - p.landing.length + place))

/-- The groups of a launch whose engine commands are under way. -/
def State.engineGroups (s : State) (l : Nat) : List GroupRef :=
  let all := s.cores.flatMap (fun c => ((c.2.accepted ++ c.2.executing.toList).map fun x => x.g) ++ c.2.copies.map fun x => x.g)
    ++ s.colls.map fun c => c.g
  all.filter fun r => match s.refLaunch r with
    | some (_, x, _) => x == l
    | none => false

/-- The launch is a COPY whose engine works (R267). -/
def State.copyWorks (s : State) (l : Nat) : Bool :=
  match Table.find s.launches l with
  | some x => x.active && match x.kind with
    | .copy .. => true
    | _ => false
  | none => false

/-- The end of a launch by an uncorrectable error. -/
def eccEnding : Ending := Ending.ofTrap .ecc 0

/-- ecc uncorrectable (R215): in data that a group or a command of it reads it raises ECC, in data that a COPY reads and in a line of the shadow it
aborts the launch; in a committed line being written back, the line is poisoned. -/
def execEccUncorrectable (p : EccPlace) (s : State) : Result :=
  due <|
    match p with
    | .groupRead r lane addr => s.groupEcc r lane addr
    | .engineRead l => match s.engineGroups l with
      | [] => if s.copyWorks l then some (s.abortLaunch l eccEnding) else none
      | r :: rest =>
        let (k, s) := s.choose (rest.length + 1)
        s.commandTrap (listGetD (r :: rest) k r) .ecc 0 0
    | .portRead tk k place => s.portEcc tk k place
    | .shadowLine l => if s.shadows.any (fun x => x.launch == l && !x.bytes.isEmpty) then some (s.abortLaunch l eccEnding) else none
    | .writeBack line =>
      if s.committed.any (fun c => c.bytes.any fun e => e.1 / 64 == line) then some { s with poison := addNew s.poison line } else none

/-- link crc retry: the link sends the flit again, and its effects happen once; nothing is reported (R215, R308). -/
def execLinkCrcRetry (_link : Nat) (s : State) : Result := .next s

/-- port failure: the port's range raises PAGE that no one can resolve (R213, R307). -/
def execPortFailure (p : PortRef) (s : State) : Result :=
  .next <| match p with
    | .secondTier k => { s with tier2Failed := addNew s.tier2Failed k }
    | .link k => { s with failedLinks := addNew s.failedLinks k }

end Sys2Proof.Machine
end

