-- ==== Sys2Proof/Machine/Lane.lean ====
section
/-! DEFINITION. Immediates, special registers, and the instructions across lanes: movi, movh, mfsr, mtsr, shfl, bcast, vote, red and
scan; and the predicate instructions of format P. -/

namespace Sys2Proof.Machine

/-- The group after writing a value of a lane in every lane of a mask. -/
def Env.writeLanes (e : Env) (pair : Bool) (d : Nat) (m : LaneMask) (f : Nat → BitVec 64) : Group :=
  (lanesOf m).foldl (fun g l => if pair then g.writeVPair e.ring d l (f l) else g.writeV e.ring d l (loWord (f l))) e.grp

/-- The group after writing an s-register or pair. -/
def Env.writeSOut (e : Env) (pair : Bool) (d : Nat) (x : BitVec 64) : Group :=
  if pair then e.grp.writeSPair d x else e.grp.writeS d (loWord x)

-- ## movi and movh (R418)

/-- The value of a movi: the immediate extended by the type's signedness. -/
def moviValue (ty : Nat) (v : BitVec 24) : BitVec 64 := if intSigned ty then v.signExtend 64 else v.setWidth 64

/-- movi. -/
def execMovi (w : AWord) (s : State) : Result :=
  let pair := typeIs64 w.ty.toNat
  native { v := regs pair w.d.toNat, s := [] } s fun e =>
    e.finish (e.writeLanes pair w.d.toNat (e.guard w.g) fun _ => moviValue w.ty.toNat w.imm) s

/-- movh: imm24 << 8. -/
def execMovh (w : AWord) (s : State) : Result :=
  native { v := [w.d.toNat], s := [] } s fun e =>
    e.finish (e.writeLanes false w.d.toNat (e.guard w.g) fun _ => (w.imm.setWidth 64) <<< 8) s

-- ## Special registers (R52, R53, R331, R414, R420)

/-- The value of a special register in a lane (R331, R52, R53, R170, R1, R312). -/
def Env.special (e : Env) (s : State) (n lane : Nat) : BitVec 64 :=
  let grid := fun f : Grid → BitVec 64 => match e.grid with
    | some g => f g
    | none => 0
  match n with
  | 0 => BitVec.ofNat 64 lane
  | 1 => BitVec.ofNat 64 e.grp.num
  | 2 => match e.team with
    | some t => BitVec.ofNat 64 t.num
    | none => 0
  | 3 => grid fun g => BitVec.ofNat 64 g.image.lanes
  | 4 => grid fun g => BitVec.ofNat 64 g.number
  | 5 => grid fun g => BitVec.ofNat 64 g.teams
  | 6 => BitVec.ofNat 64 e.core
  | 7 => BitVec.ofNat 64 (e.core / 4)
  | 8 => BitVec.ofNat 64 (e.core / 64)
  | 9 => 0
  | 10 => e.grp.eqlast.setWidth 64
  | 11 => 4
  | 12 => BitVec.ofNat 64 e.level
  | 13 => (s.context e.ctx).retuse.setWidth 64
  | 14 => s.cycle
  | 15 => BitVec.ofNat 64 e.ctx
  | _ => grid fun g => BitVec.ofNat 64 g.prio

/-- mfsr (R414). -/
def execMfsr (w : AWord) (s : State) : Result :=
  let pair := w.ty == 3
  native { v := regs pair w.d.toNat, s := [] } s fun e =>
    e.finish (e.writeLanes pair w.d.toNat (e.guard w.g) fun l => e.special s w.imm.toNat l) s

/-- compat as its fields: FIX, and LEVEL unless the write holds 11 (R170). -/
def Context.writeCompat (c : Context) (v : BitVec 64) : Context :=
  { c with fix := v.getLsbD 2, level := if v.extractLsb' 0 2 == 3 then c.level else v.extractLsb' 0 2 }

/-- What an agent's mtsr writes (R331, R420). -/
def Context.writeSpecial (c : Context) (n : Nat) (v : Word) : Context :=
  match n with
  | 12 => c.writeCompat (v.setWidth 64)
  | 13 => { c with retuse := v }
  | _ => c

/-- mtsr: PRIV from user software; in the agent's slot it writes compat or retuse (R420). -/
def execMtsr (w : AWord) (s : State) : Result :=
  native { v := [], s := [w.a.toNat] } s fun e =>
    if e.ref.isSome then e.trap s .priv
    else
      let s := if e.acts w.g then s.modContext e.ctx fun c => c.writeSpecial w.imm.toNat (e.grp.readS w.a.toNat) else s
      e.finish e.grp s

-- ## shfl and bcast (R353, R442)

/-- Register a of a lane for shfl and bcast, by its scalar bit. -/
def Env.laneValue (e : Env) (w : AWord) (lane : Nat) : BitVec 64 :=
  let sa := match w.tail with
    | .reg _ _ ctl => ctl[3]
    | .imm _ => false
  e.operand sa (typeIs64 w.ty.toNat) w.a.toNat lane

/-- The lane index y of a lane, read as n32 (R442). -/
def Env.laneIndex (e : Env) (w : AWord) (lane : Nat) : Nat :=
  match w.tail with
  | .imm v => lowNat 32 (v.signExtend 64)
  | .reg b _ ctl => lowNat 32 (e.operand ctl[2] false b.toNat lane)

/-- The source lane of a shuffle: mode, width of the group, own lane, index (R442, R71). -/
def shuffleSource (mode : Nat) (legacy : Bool) (l y : Nat) : Nat :=
  let width := if legacy then 32 else 64
  match mode with
  | 0 => y % width
  | 3 => (l ^^^ y) % width
  | _ =>
    let j : Int := if mode = 1 then (l : Int) - y else (l : Int) + y
    if j < 0 || 63 < j then l
    else if legacy && 32 ≤ j then j.toNat % 32
    else j.toNat

/-- shfl (R442, R443). -/
def execShfl (w : AWord) (s : State) : Result :=
  let pair := typeIs64 w.ty.toNat
  let u := laneUses w
  native { u with v := u.v ++ regs pair w.d.toNat } s fun e =>
    e.finish (e.writeLanes pair w.d.toNat (e.guard w.g) fun l =>
      e.laneValue w (shuffleSource w.var.toNat e.legacy l (e.laneIndex w l))) s

/-- bcast (R353). -/
def execBcast (w : AWord) (s : State) : Result :=
  let pair := typeIs64 w.ty.toNat
  let u := laneUses w
  native { u with s := u.s ++ regs pair w.d.toNat } s fun e =>
    if e.acts w.g then
      e.finish (e.writeSOut pair w.d.toNat (e.laneValue w (e.laneIndex w 0 % (if e.legacy then 32 else 64)))) s
    else e.finish e.grp s

-- ## vote (R457)

/-- What a vote writes: the mode, the guarded lanes, the predicate. -/
def voteValue (mode : Nat) (g p : LaneMask) : BitVec 64 :=
  match mode with
  | 0 => boolWord (g &&& p != 0)
  | 1 => boolWord (g &&& p == g)
  | _ => g &&& p

/-- vote. -/
def execVote (w : AWord) (s : State) : Result :=
  let pair := w.var == 2
  native { v := [], s := regs pair w.d.toNat } s fun e =>
    if e.acts w.g then e.finish (e.writeSOut pair w.d.toNat (voteValue w.var.toNat (e.guard w.g) (e.grp.readP w.a.toNat))) s
    else e.finish e.grp s

-- ## red and scan (R432, R433, R438)

/-- An integer reduction of a list of operands, with the identity of the op for an empty list. -/
def intReduce (op ty : Nat) (vals : List (BitVec 64)) : BitVec 64 :=
  let a : AluIn := { ty := ty, sat := false, var := 0, codes := 0, pos := 0, level := 0, x := 0, y := 0, z := 0, old := 0 }
  let n := intWidth ty
  let least : Int := if intSigned ty then -((2 ^ (n - 1) : Nat) : Int) else 0
  let most : Int := if intSigned ty then (2 ^ (n - 1) : Nat) - 1 else (2 ^ n : Nat) - 1
  match op with
  | 0 => (a.wrap (vals.foldl (fun acc v => acc + a.int v) 0)).d
  | 1 => (a.wrap (vals.foldl (fun acc v => if a.int v < acc then a.int v else acc) most)).d
  | 2 => (a.wrap (vals.foldl (fun acc v => if acc < a.int v then a.int v else acc) least)).d
  | 3 => (bitOut a (vals.foldl (fun acc v => acc &&& v) (BitVec.allOnes 64))).d
  | 4 => (bitOut a (vals.foldl (fun acc v => acc ||| v) 0)).d
  | _ => (bitOut a (vals.foldl (fun acc v => acc ^^^ v) 0)).d

/-- The lesser or greater of two values under R392; of two NaNs the first. -/
def pickExact (least : Bool) (u v : Exact) : Exact :=
  match u, v with
  | .nan b, .nan _ => .nan b
  | .nan _, v => v
  | u, .nan _ => u
  | u, v => if least then (if lessExact v u then v else u) else (if lessExact u v then v else u)

/-- A floating reduction: the exact sum rounded once with rn, or the least or greatest value; the identity for an empty list. -/
def floatReduce (op ty level : Nat) (vals : List (BitVec 64)) : BitVec 64 :=
  let (fmt, _) := floatType ty
  let w : WriteMode := { mode := .rn, sat := false, level := level, conv := false, f32ToF16 := false }
  let xs := vals.map fun v => readFloat fmt level (elem fmt.width 0 v)
  let r : Value := match op with
    | 0 => match firstNan xs with
      | some b => .nan (some b)
      | none => if xs.isEmpty then .fin false 0 0 false else sumTerms .rn xs
    | _ => match xs with
      | [] => .inf (op == 2)
      | x :: r => (r.foldl (pickExact (op == 1)) x).toValue
  BitVec.ofNat 64 (writeFloat fmt w r)

/-- A reduction of the values of a list of lanes, by the class of the word. -/
def Env.reduce (e : Env) (w : AWord) (isFloat : Bool) (ls : List Nat) : BitVec 64 :=
  let pair := !isFloat && typeIs64 w.ty.toNat
  let vals := ls.map fun l => e.operand false pair w.a.toNat l
  if isFloat then floatReduce w.var.toNat w.ty.toNat e.level vals else intReduce w.var.toNat w.ty.toNat vals

/-- red. -/
def execRed (w : AWord) (s : State) : Result :=
  let isFloat : Bool := (reduceByte w).getLsbD 0
  let pair := !isFloat && typeIs64 w.ty.toNat
  native { v := regs pair w.a.toNat, s := regs pair w.d.toNat } s fun e =>
    if e.acts w.g then e.finish (e.writeSOut pair w.d.toNat (e.reduce w isFloat (lanesOf (e.guard w.g)))) s
    else e.finish e.grp s

/-- scan. -/
def execScan (w : AWord) (s : State) : Result :=
  let isFloat : Bool := (reduceByte w).getLsbD 0
  let excl : Bool := (reduceByte w).getLsbD 1
  let pair := !isFloat && typeIs64 w.ty.toNat
  native { v := regs pair w.a.toNat ++ regs pair w.d.toNat, s := [] } s fun e =>
    let m := e.guard w.g
    e.finish (e.writeLanes pair w.d.toNat m fun l =>
      e.reduce w isFloat (lanesOf (m &&& (if excl then lanesBelow l else lanesBelow l ||| laneBit l)))) s

-- ## Predicates (R327, R426)

/-- A P instruction: pd receives a function of (pa XOR na) and (pb XOR nb) in each guarded lane. -/
def predStep (w : PWord) (f : LaneMask → LaneMask → LaneMask) (s : State) : Result :=
  native { v := [], s := [] } s fun e =>
    let flip := fun (n : Bool) (m : LaneMask) => if n then ~~~m else m
    let a := flip w.na (e.grp.readP w.pa.toNat)
    let b := flip w.nb (e.grp.readP w.pb.toNat)
    e.finish (e.grp.writeP w.pd.toNat (e.guard w.g) (f a b)) s

/-- pand. -/
def execPand (w : PWord) (s : State) : Result := predStep w (fun a b => a &&& b) s
/-- por. -/
def execPor (w : PWord) (s : State) : Result := predStep w (fun a b => a ||| b) s
/-- pxor. -/
def execPxor (w : PWord) (s : State) : Result := predStep w (fun a b => a ^^^ b) s
/-- pnot. -/
def execPnot (w : PWord) (s : State) : Result := predStep w (fun a _ => ~~~a) s
/-- pmov. -/
def execPmov (w : PWord) (s : State) : Result := predStep w (fun a _ => a) s

end Sys2Proof.Machine
end

