-- ==== Sys2Proof/Machine/Sha512.lean ====
section
/-! DEFINITION. SHA-512, which the spec names and takes from elsewhere (R314, R315; log 11): the function of FIPS 180-4. -/

namespace Sys2Proof.Machine

/-- The largest r whose power is at most a target, found from bit k - 1 down. -/
def rootBits (power target : Nat) : Nat → Nat → Nat
  | 0, r => r
  | k + 1, r => rootBits power target k (if (r + 2 ^ k) ^ power ≤ target then r + 2 ^ k else r)

/-- The first 64 bits of the fraction of a root of a number. -/
def rootFraction (power p : Nat) : BitVec 64 := BitVec.ofNat 64 (rootBits power (p * 2 ^ (64 * power)) 70 0)

/-- The first 80 primes. -/
def shaPrimes : List Nat := (List.range 410).filter fun n => decide (2 ≤ n) && (List.range n).all fun d => decide (d < 2) || n % d != 0

/-- The round constants, and the initial value. -/
def shaRounds : List (BitVec 64) := shaPrimes.map (rootFraction 3)
def shaStart : List (BitVec 64) := (shaPrimes.take 8).map (rootFraction 2)

/-- The message with its padding: a 1 bit, zeros, and its length in bits as a 128-bit big-endian number. -/
def shaPadded (m : List Byte) : List Byte :=
  m ++ 0x80#8 :: List.replicate ((239 - m.length % 128) % 128) 0 ++ (leBytes 16 (8 * m.length)).reverse

/-- Word k of a block of 128 bytes, big-endian. -/
def shaWord (block : List Byte) (k : Nat) : BitVec 64 := BitVec.ofNat 64 (ofLeBytes ((block.drop (8 * k)).take 8).reverse)

/-- The message schedule, from its last 16 words, the newest first. -/
def shaSchedule : Nat → List (BitVec 64) → List (BitVec 64)
  | 0, w => w.reverse
  | n + 1, w =>
    let at_ := fun k => listGetD w k 0
    let s0 := fun x : BitVec 64 => x.rotateRight 1 ^^^ x.rotateRight 8 ^^^ (x >>> 7)
    let s1 := fun x : BitVec 64 => x.rotateRight 19 ^^^ x.rotateRight 61 ^^^ (x >>> 6)
    shaSchedule n ((s1 (at_ 1) + at_ 6 + s0 (at_ 14) + at_ 15) :: w)

/-- One round on the working variables a to h. -/
def shaRound (v : List (BitVec 64)) (k w : BitVec 64) : List (BitVec 64) :=
  match v with
  | [a, b, c, d, e, f, g, h] =>
    let t1 := h + (e.rotateRight 14 ^^^ e.rotateRight 18 ^^^ e.rotateRight 41) + ((e &&& f) ^^^ (~~~e &&& g)) + k + w
    let t2 := (a.rotateRight 28 ^^^ a.rotateRight 34 ^^^ a.rotateRight 39) + ((a &&& b) ^^^ (a &&& c) ^^^ (b &&& c))
    [t1 + t2, a, b, c, d + t1, e, f, g]
  | _ => v

/-- The hash value after a block. -/
def shaBlock (h : List (BitVec 64)) (block : List Byte) : List (BitVec 64) :=
  let w := shaSchedule 64 (((List.range 16).map (shaWord block)).reverse)
  List.zipWith (· + ·) h ((shaRounds.zip w).foldl (fun v x => shaRound v x.1 x.2) h)

/-- The hash of a message, as the 64 bytes that the standard gives in order. -/
def sha512 (m : List Byte) : List Byte :=
  let p := shaPadded m
  ((List.range (p.length / 128)).foldl (fun h k => shaBlock h ((p.drop (128 * k)).take 128)) shaStart).flatMap fun x => (leBytes 8 x.toNat).reverse

end Sys2Proof.Machine
end

