-- ==== Sys2Proof/Machine/Host.lean ====
section
/-! DEFINITION. The host and the peers (R303 to R308, R312), attestation (R315), bring-up and reset (R313, R314, R316), and the entry of an
agent's event (R272, R386). -/

namespace Sys2Proof.Machine

-- ## Writes of control registers (R304)

/-- A core of the device by a free choice among those that have started: the one whose agent carries a host write of a context's register. -/
def State.someAgent (s : State) : Option Nat × State :=
  match (s.cores.filter fun c => c.2.started).map fun c => c.1 with
  | [] => (none, s)
  | l => let (k, s) := s.choose l.length
         (l[k]?, s)

/-- The agent of a core carries out a host write (R304, R386). -/
def State.hostWriteTo (s : State) (core : Nat) : State := if (s.core core).started then s.agentEvent core .hostWrite else s

/-- An agent carries out a host write of a context's register. -/
def State.hostWriteBy (s : State) : State := match s.someAgent with
  | (some c, s) => s.agentEvent c .hostWrite
  | (none, s) => s

/-- TTB (R197). -/
def Context.writeTtb (c : Context) (v : BitVec 64) : Context := { c with ttbBase := v.extractLsb' 12 40, ttbEn := v.getLsbD 0 }
/-- CSC (R130). -/
def Context.writeCsc (c : Context) (v : BitVec 64) : Context := { c with csc := v.extractLsb' 0 32 &&& cscMask }
/-- TXC: OVF keeps its value where the write holds 0 or 7 to 15 (R260). -/
def Context.writeTxc (c : Context) (v : BitVec 64) : Context :=
  let ovf := v.extractLsb' 8 4
  { c with txcOvf := if ovf == 0 || 6 < ovf.toNat then c.txcOvf else ovf, txcRetry := v.extractLsb' 0 4 }
/-- TRB (R287). -/
def Context.writeTrb (c : Context) (v : BitVec 64) : Context := { c with trbBase := v.extractLsb' 12 40, trbEn := v.getLsbD 0 }
/-- DBGC (R289). -/
def Context.writeDbgc (c : Context) (v : BitVec 64) : Context := { c with dbgEn := v.getLsbD 31, dbgStop := v.getLsbD 30 }

/-- A team of the context is in its save area. -/
def State.hasSaved (s : State) (ctx : Nat) : Bool := (s.contextTeams ctx).any fun t => t.2.phase != .placed

/-- CSA, ignored while a request is under way or the context has saved teams (R288). -/
def State.writeCsa (s : State) (ctx : Nat) (v : BitVec 64) : State :=
  if (s.context ctx).go || s.hasSaved ctx then s else s.modContext ctx fun c => { c with csaBase := v.extractLsb' 21 31 }

/-- SWC of a region: EN, EXP, and HIT cleared by a 1 (R79). -/
def Core.writeSwc (c : Core) (r : Nat) (v : BitVec 64) : Core :=
  { c with swcEn := listModify c.swcEn r fun _ => v.getLsbD 31, swcExp := listModify c.swcExp r fun _ => v.extractLsb' 24 4,
           swcHit := listModify c.swcHit r fun h => h && !v.getLsbD 16 }

/-- NRB: OVF is cleared by a 1 (R304). -/
def State.writeNrb (s : State) (v : BitVec 64) : State :=
  { s with nrbBase := v.extractLsb' 12 40, nrbOvf := s.nrbOvf && !v.getLsbD 1, nrbEn := v.getLsbD 0 }

/-- NRR, ignored above NRW or below its value (R304). -/
def State.writeNrr (s : State) (v : BitVec 64) : State :=
  if v.toNat ≤ s.nrw.toNat && s.nrr.toNat ≤ v.toNat then { s with nrr := v } else s

/-- QBASE, aligned to 64 bytes, and QERRA, aligned to 32, ignored while the queue is enabled (R261). -/
def Queue.writeBase (q : Queue) (v : BitVec 64) : Queue := if q.en then q else { q with qbase := v &&& ~~~63#64 }
def Queue.writeErra (q : Queue) (v : BitVec 64) : Queue := if q.en then q else { q with qerra := v &&& ~~~31#64 }

/-- What a host write of a register does, outside recovery. -/
def State.writeReg (s : State) (r : CtlReg) (v : BitVec 64) : State :=
  match r with
  | .nrb => s.writeNrb v
  | .nrr => s.writeNrr v
  | .qbase q => s.queueReg q fun s => s.modQueue q fun x => x.writeBase v
  | .qerra q => s.queueReg q fun s => s.modQueue q fun x => x.writeErra v
  | .qcfg q => s.queueReg q fun s => s.writeQcfg q v
  | .ttb x => (s.modContext x fun c => c.writeTtb v).hostWriteBy
  | .csc x => (s.modContext x fun c => c.writeCsc v).hostWriteBy
  | .txc x => ((s.modContext x fun c => c.writeTxc v).applyOverflow x).hostWriteBy
  | .compat x => (s.modContext x fun c => c.writeCompat v).hostWriteBy
  | .csa x => s.writeCsa x v
  | .trb x => s.modContext x fun c => c.writeTrb v
  | .dbgc x => s.modContext x fun c => c.writeDbgc v
  | .dtgt x => s.modContext x fun c => { c with dtgt := v &&& ~~~0xF#64 }
  | .dsel x => s.modContext x fun c => { c with dsel := v &&& 0xFF3FFFFF#64 }
  | .dadr x => s.modContext x fun c => { c with dadr := v }
  | .ddat x => s.modContext x fun c => { c with ddat := v }
  | .swc c n => (s.modCore c fun c => c.writeSwc n v).hostWriteTo c
  | .nonce k => if k < 8 then { s with nonce := Sparse.set s.nonce k v } else s
  | .attestAddr => { s with attestAddr := v }
  | .upload _ => s
  | .record bs => { s with flash := { s.flash with records := s.flash.records ++ [bs] } }
  | .unlisted => s
  | .bar _ => s
  | .kickPage .. => s

/-- What a host write of a register does: in recovery only the firmware upload window takes writes (R314). -/
def State.hostWrite (s : State) (r : CtlReg) (v : BitVec 64) : State :=
  match s.recov, r with
  | true, .upload off => { s with upload := Sparse.set s.upload off v }
  | true, _ => s
  | false, r => s.writeReg r v

/-- ruc write: a 1 in bit 0 has the context's agent clear retuse (R312). -/
def execRucWrite (ctx : Nat) (v : BitVec 64) (s : State) : Result :=
  .next <| s.hostReg fun s => if v.getLsbD 0 then (s.modContext ctx fun c => { c with retuse := 0 }).hostWriteBy else s

/-- pwr write (R280, R304). -/
def execPwrWrite (core : Nat) (v : BitVec 64) (s : State) : Result :=
  .next <| s.hostReg fun s => (s.modCore core fun c => c.writePwr v).hostWriteTo core

-- ## Configuration records (R313)

/-- A configuration record whose signature is valid (R313). -/
structure FlashRec where
  kind : Nat
  version : Nat
  payload : List Byte
deriving DecidableEq, Repr

/-- Reads a configuration record: its magic, its zero fields, its length, and a valid signature over what precedes it (R313). -/
def readRecord (b : List Byte) : Option FlashRec :=
  let n := 32 + bytesField b 16 4
  if bytesField b 0 4 = 0x43525644 && bytesField b 6 2 = 0 && ((b.drop 20).take 12).all (· == 0) && decide (n + 132 ≤ b.length)
      && Config.signatureValid (b.take n) ((b.drop n).take 132) then
    some { kind := bytesField b 4 2, version := bytesField b 8 8, payload := (b.drop 32).take (n - 32) }
  else none

/-- The record of a kind that the device uses: a valid signature, the highest version, and no lower than the floor. -/
def Flash.usable (f : Flash) (kind : Nat) : Option FlashRec :=
  ((f.records.filterMap readRecord).filter fun r => r.kind == kind && decide (Table.getD f.floors kind 0 ≤ r.version)).foldl
    (fun best r => match best with
      | some b => if b.version < r.version then some r else some b
      | none => some r) none

/-- The version in use of a kind, 0 without one. -/
def Flash.versionOf (f : Flash) (kind : Nat) : Nat := match f.usable kind with
  | some r => r.version
  | none => 0

/-- The floors rise to the versions in use. -/
def Flash.raised (f : Flash) : Flash :=
  { f with floors := [1, 2, 3, 4, 5].foldl (fun l k => match f.usable k with
      | some r => Table.put l k r.version
      | none => l) f.floors }

/-- The cores that the record of kind 1 enables. -/
def enabledCores (payload : List Byte) : List Nat := (List.range 256).filter fun c => (listGetD payload (c / 8) 0).getLsbD (c % 8)

/-- Sizes in order, as far as they fit a total. -/
def fitSizes : Nat → List Nat → List Nat
  | _, [] => []
  | room, n :: r => min n room :: fitSizes (room - n) r

/-- The second tier's sizes by port, up to its 32,768 GB (R6, R196), and the peers' ports, of the eight there are, from the records of kinds 4 and 5
(log 16). -/
def portSizes (payload : List Byte) : List Nat := fitSizes (32768 * 10 ^ 9) ((List.range 8).map fun k => bytesField payload (8 * k) 8)
def peerPorts (payload : List Byte) : Table Nat :=
  (List.range 16).filterMap fun p => match payload[p]? with
    | some b => if b.toNat < 8 then some (p, b.toNat) else none
    | none => none

-- ## Bring-up (R313, R314, R316)

/-- Every register at its Reset value; what is no register of the device stays. -/
def State.registersReset (s : State) : State :=
  { State.reset with turns := s.turns, choices := s.choices, nextId := s.nextId, interrupts := s.interrupts, hostData := s.hostData,
                     flash := s.flash, mem := s.mem, blurs := s.blurs.filter fun b => !b.scratch, stamp := s.stamp, poison := s.poison,
                     upload := s.upload }

/-- The committed data written back to memory, oldest version first. -/
def State.flushed (s : State) : State :=
  { s with blurs := s.committed.foldl (fun l c => c.bytes.foldl (fun l e => cutBlurs l false e.1 1) l) s.blurs, mem := s.committed.reverse.foldl (fun m c => c.bytes.foldr (fun (e : Nat × Byte) (m : Sparse 8) => Sparse.set m e.1 e.2) m) s.mem,
           committed := [] }

/-- The configuration records are read: which cores are enabled, the peer number, the second tier and the routes (R313). Every core then stands at its
reset values, so that a host write of PWR or SWC before this is lost (DESIGN CHOICE, log 101). -/
def State.readRecords (s : State) : State :=
  let f := s.flash
  match f.usable 1, f.usable 3 with
  | some en, some ident => { s with
      flash := f.raised, peer := (listGetD ident.payload 0 0).toNat % 16, stage := 3,
      cores := (enabledCores en.payload).map fun c => (c, { Core.start with enabled := true }),
      tier2Sizes := match f.usable 4 with
        | some r => portSizes r.payload
        | none => [],
      routes := match f.usable 5 with
        | some r => peerPorts r.payload
        | none => [] }
  | _, _ => { s with flash := f.raised, recov := true, err := 3 }

/-- The action of one of the stages 1 to 3 ends: the next stage begins, or the check that fails decides ERR and bring-up stands (R313, R314, R316). -/
def State.nextStage (s : State) : State :=
  match s.stage.toNat with
  | 1 => if Config.imageSigned s.flash.bootImage then { s with stage := 2 } else { s with recov := true, err := 1 }
  | 2 => s.readRecords
  | _ => if s.flash.trainGood then { s with stage := 4 } else { s with err := 4 }

/-- warm reset: RST begins bring-up, discards every launch and every queue state, and keeps the first tier (R304, R316). -/
def execWarmReset (v : BitVec 64) (s : State) : Result :=
  .next (if v.getLsbD 31 then { s.flushed.registersReset with stage := 1 } else s)

/-- power-up: bring-up begins, with the first tier zeroed (R316). -/
def execPowerUp (s : State) : Result :=
  let r := s.flushed.registersReset
  .next { r with mem := r.mem.filter fun e => decide (2 ^ 39 ≤ e.1), blurs := cutBlurs r.blurs false 0 (2 ^ 39), poison := [], upload := [], stage := 1 }

/-- The next 8 enabled cores start, with full buckets; after the last the device is ready (R282, R316). -/
def State.startCores (s : State) : State :=
  let l := (s.cores.filter fun c => c.2.enabled).map fun c => c.1
  let s := ((l.drop s.nextStart).take 8).foldl (fun s c => s.modCore c fun c => { c with started := true, level := c.cap }) s
  let n := s.nextStart + 8
  { s with nextStart := n, ready := decide (l.length ≤ n), stage := if l.length ≤ n then 5 else 4, wakeFrom := s.cycle, wakes := 8 }

/-- core start step: bring-up goes on. The stages 1 to 3 end one after the other; in stage 4 the agent image is verified, and cores start in steps of
8, 2 µs (1,400 cycles) apart (R282, R314, R316). -/
def execCoreStartStep (s : State) : Result :=
  due <|
    if s.stage == 0 || 4 < s.stage.toNat || s.recov || s.err != 0 then none
    else if s.stage != 4 then some s.nextStage
    else if s.nextStart = 0 then some (if Config.imageSigned s.flash.agentImage then s.startCores else { s with recov := true, err := 2 })
    else if (s.cycle - s.wakeFrom).toNat < stepCycles then none
    else some s.startCores

-- ## Attestation (R315)

/-- DEVID (R304). -/
def deviceId : BitVec 32 := 0x5354#16 ++ 0x04#8 ++ Config.stepping

/-- The attestation report of a nonce, without and with its signature. -/
def State.reportBody (s : State) (nonce : Sparse 64) : List Byte :=
  ((List.range 8).flatMap fun k => leBytes 8 (Sparse.get nonce k).toNat) ++ sha512 s.flash.bootImage ++ sha512 s.flash.agentImage
    ++ ([1, 2, 3, 4, 5].flatMap fun k => leBytes 8 (s.flash.versionOf k)) ++ leBytes 8 deviceId.toNat
def State.report (s : State) (nonce : Sparse 64) : List Byte :=
  let sig := Config.attestationSignature (s.reportBody nonce)
  s.reportBody nonce ++ (List.range 132).map fun k => listGetD sig k 0

/-- Writes bytes to host memory from a host address on. -/
def State.putHost (s : State) (a : BitVec 64) (bs : List Byte) : State :=
  bs.zipIdx.foldl (fun (s : State) x => s.perform hubRef 0 [] (.phys (hostByte (a.toNat + x.2)) false) [x.1]) s

/-- attestation request: a request takes the nonce and the address that then stand, and one made while a report is due is ignored; the report
goes to that address, and the host is notified (log 91). -/
def execAttestationRequest (a : Attestation) (s : State) : Result :=
  match a with
  | .request v => .next <| s.hostReg fun s =>
      if v.getLsbD 0 && s.attesting.isNone then { s with attesting := some (s.nonce, s.attestAddr) } else s
  | .report => due <| s.attesting.map fun q => State.notify { s.putHost q.2 (s.report q.1) with attesting := none } 5 0

-- ## Offsets (R261, R262, R303, R304)

/-- Where a word of BAR0 stands. -/
inductive BarWord where
  | device (off : Nat)
  | queue (q off : Nat)
  | context (x off : Nat)
  | core (c off : Nat)
  | upload (off : Nat)
  | unlisted
deriving DecidableEq, Repr

/-- The place of an offset of BAR0 (R304); a word that is not aligned to 8 bytes is none (log 88). -/
def barWord (off : Nat) : BarWord :=
  if off % 8 != 0 then .unlisted
  else if off < 0x1000 then .device off
  else if off < 0x21000 then .queue ((off - 0x1000) / 32) (off % 32)
  else if 0x100000 ≤ off && off < 0x200000 then .context ((off - 0x100000) / 0x1000) (off % 0x1000)
  else if 0x200000 ≤ off && off < 0x210000 then .core ((off - 0x200000) / 0x100) (off % 0x100)
  else if 0x300000 ≤ off && off < 0x400000 then .upload (off - 0x300000)
  else .unlisted

/-- A write of PREQ, by its MODE (R288). -/
def execPreqWrite (x : Nat) (v : BitVec 64) (s : State) : Result :=
  match preqMode v with
  | some 0 => execPreqDrain x (some v) s
  | some 1 => execPreqSave x (some v) s
  | some 2 => execPreqKill x v s
  | some _ => execPreqRestore x (some v) s
  | none => .next s

/-- A write of DCMD (R294). -/
def execDcmdWrite (x : Nat) (v : BitVec 64) (s : State) : Result :=
  match (v.extractLsb' 0 4).toNat with
  | 1 => execDebugRead x s
  | 2 => execDebugWrite x s
  | 3 => execDebugResume x s
  | 4 => execDebugSingleStep x s
  | _ => .next s

/-- A host write of a word of BAR0: the step of the register at its offset; read-only registers and unlisted offsets ignore it (R5, R304). -/
def execBarWrite (off : Nat) (v : BitVec 64) (s : State) : Result :=
  let reg := fun r => .next (s.hostWrite r v)
  match barWord off with
  | .device 0x10 => execWarmReset v s
  | .device 0x18 => reg .nrb
  | .device 0x28 => reg .nrr
  | .device 0x140 => reg .attestAddr
  | .device 0x148 => execAttestationRequest (.request v) s
  | .device off => if 0x100 ≤ off && off < 0x140 then reg (.nonce ((off - 0x100) / 8)) else .next s
  | .queue q 0 => reg (.qbase q)
  | .queue q 8 => reg (.qerra q)
  | .queue q 16 => reg (.qcfg q)
  | .queue q _ => execQrdWrite q v s
  | .context x off => match off with
    | 0x00 => reg (.ttb x)
    | 0x08 => reg (.csc x)
    | 0x10 => reg (.txc x)
    | 0x18 => reg (.compat x)
    | 0x20 => execPreqWrite x v s
    | 0x28 => reg (.csa x)
    | 0x30 => reg (.trb x)
    | 0x40 => execTrrWrite x v s
    | 0x48 => reg (.dbgc x)
    | 0x50 => execBpWrite x 0 v s
    | 0x58 => execBpWrite x 1 v s
    | 0x60 => execBpWrite x 2 v s
    | 0x68 => execBpWrite x 3 v s
    | 0x70 => execRucWrite x v s
    | 0x80 => reg (.dtgt x)
    | 0x88 => reg (.dsel x)
    | 0x90 => reg (.dadr x)
    | 0x98 => reg (.ddat x)
    | 0xA0 => execDcmdWrite x v s
    | _ => .next s
  | .core c 0 => execPwrWrite c v s
  | .core c off => if 8 ≤ off && off ≤ 0x20 then reg (.swc c (off / 8 - 1)) else .next s
  | .upload off => reg (.upload off)
  | .unlisted => .next s

/-- A host write of a word of a kick page: the queue's kick register; words above 0x1FF ignore it (R262, R303). -/
def execKickPageWrite (page off : Nat) (v : BitVec 64) (s : State) : Result :=
  if off % 8 == 0 && off < 0x200 && page < 64 then execKick (64 * page + off / 8) v s else .next s

/-- register write (R304). -/
def execRegisterWrite (r : CtlReg) (v : BitVec 64) (s : State) : Result :=
  match r with
  | .bar off => execBarWrite off v s
  | .kickPage page off => execKickPageWrite page off v s
  | r => .next (s.hostWrite r v)

-- ## Reads of control registers (R5, R304)

/-- A bit at a place of a register. -/
def bitAt (b : Bool) (k : Nat) : Nat := if b then 2 ^ k else 0

/-- ENC: the enabled cores. -/
def State.enabledCount (s : State) : Nat := (s.cores.filter fun c => c.2.enabled).length

/-- What the device registers read; DEVCTL is write only, and the registers of an attestation request read 0 (log 88). -/
def State.readDevice (s : State) (off : Nat) : Nat :=
  match off with
  | 0x00 => deviceId.toNat
  | 0x08 => bitAt s.ready 31 + bitAt s.recov 30 + s.enabledCount * 2 ^ 16 + s.stage.toNat * 2 ^ 8 + s.err.toNat
  | 0x18 => s.nrbBase.toNat * 2 ^ 12 + bitAt s.nrbOvf 1 + bitAt s.nrbEn 0
  | 0x20 => s.nrw.toNat
  | 0x28 => s.nrr.toNat
  | _ => 0

/-- What a queue's registers read (R261). -/
def Queue.readReg (q : Queue) (off : Nat) : Nat :=
  match off with
  | 0 => q.qbase.toNat
  | 8 => q.qerra.toNat
  | 16 => bitAt q.en 31 + bitAt q.err 30 + q.prio.toNat * 2 ^ 16 + q.size.toNat * 2 ^ 8 + q.ctx.toNat
  | _ => q.qrd.toNat

/-- What a context's registers read (R130, R170, R197, R260, R287 to R289, R292, R294); RUC (R312) and DCMD are write only. -/
def Context.readReg (c : Context) (off : Nat) : Nat :=
  let bp := fun n => (listGetD c.bpAddr n 0).toNat * 2 ^ 3 + bitAt (listGetD c.bpEn n false) 0
  match off with
  | 0x00 => c.ttbBase.toNat * 2 ^ 12 + bitAt c.ttbEn 0
  | 0x08 => c.csc.toNat
  | 0x10 => c.txcOvf.toNat * 2 ^ 8 + c.txcRetry.toNat
  | 0x18 => bitAt c.fix 2 + c.level.toNat
  | 0x20 => bitAt c.go 31 + c.mode.toNat * 2 ^ 28 + c.dlim.toNat * 2 ^ 24 + c.res.toNat
  | 0x28 => c.csaBase.toNat * 2 ^ 21
  | 0x30 => c.trbBase.toNat * 2 ^ 12 + bitAt c.trbEn 0
  | 0x38 => c.trw.toNat
  | 0x40 => c.trr.toNat
  | 0x48 => bitAt c.dbgEn 31 + bitAt c.dbgStop 30
  | 0x50 => bp 0
  | 0x58 => bp 1
  | 0x60 => bp 2
  | 0x68 => bp 3
  | 0x80 => c.dtgt.toNat
  | 0x88 => c.dsel.toNat
  | 0x90 => c.dadr.toNat
  | 0x98 => c.ddat.toNat
  | 0xA8 => bitAt c.dref 1 + bitAt c.dbusy 0
  | _ => 0

/-- What a core's registers read (R79, R280). -/
def Core.readReg (c : Core) (off : Nat) : Nat :=
  let swc := fun n => bitAt (listGetD c.swcEn n false) 31 + (listGetD c.swcExp n 0).toNat * 2 ^ 24 + bitAt (listGetD c.swcHit n false) 16
  match off with
  | 0x00 => bitAt c.pwrEn 31 + bitAt c.pwrGate 30 + c.rate.toNat * 2 ^ 17 + c.cap.toNat
  | 0x08 => swc 0
  | 0x10 => swc 1
  | 0x18 => swc 2
  | 0x20 => swc 3
  | 0x28 => c.level.toNat
  | _ => 0

/-- What a read of a word of BAR0 returns: unlisted offsets give 0 (R304). In recovery only DEVID, DEVSTAT, DEVCTL and the upload window respond,
and what another word gives is free (R314). -/
def State.readBar (s : State) (off : Nat) : BitVec 64 :=
  match barWord off with
  | .upload k => if s.recov then Sparse.get s.upload k else 0
  | .device k => if s.recov && 0x10 < k then Config.unstatedWord 314 (BitVec.ofNat 64 off) else BitVec.ofNat 64 (s.readDevice k)
  | .unlisted => if s.recov then Config.unstatedWord 314 (BitVec.ofNat 64 off) else 0
  | b => if s.recov then Config.unstatedWord 314 (BitVec.ofNat 64 off) else BitVec.ofNat 64 (match b with
    | .queue q k => (s.queue q).readReg k
    | .context x k => (s.context x).readReg k
    | .core c k => (s.core c).readReg k
    | _ => 0)

/-- What a read of a word of a kick page returns: the queue's QRD; words above 0x1FF give 0 (R262, R303). In recovery no kick page responds, and what
it gives is free (R314). -/
def State.readKick (s : State) (page off : Nat) : BitVec 64 :=
  if s.recov then Config.unstatedWord 314 (BitVec.ofNat 64 (2 ^ 32 + 4096 * page + off))
  else if off % 8 == 0 && off < 0x200 && page < 64 then (s.queue (64 * page + off / 8)).qrd else 0

-- ## Memory accesses from outside (R303, R306, R308)

/-- An aligned word of the first tier that exists: what CXL.mem exposes to the host, and the Dravja link to peers. -/
def State.firstTierWord (s : State) (pa : Nat) : Bool := pa % 8 == 0 && decide (pa < 2 ^ 39) && s.physOk pa

/-- An aligned word of the host's own memory (TIER 10), and of a peer's own memory. -/
def hostWord (pa : Nat) : Bool := pa % 8 == 0 && decide (2 ^ 49 ≤ pa) && decide (pa < 2 ^ 50)
def State.peerWord (s : State) (pa : Nat) : Bool :=
  pa % 8 == 0 && decide (2 ^ 50 ≤ pa) && decide (pa < 2 ^ 50 + 2 ^ 49) && (pa - 2 ^ 50) / 2 ^ 45 != s.peer

/-- The bytes of a stack of the first tier (R2, R196). -/
def stackBytes : Nat := 64 * 10 ^ 9

/-- The physical address of an offset of the CXL.mem range: offset s x 64 GB + a reaches stack s at a (R303). -/
def cxlMem (off : Nat) : Nat := off / stackBytes * 2 ^ 36 + off % stackBytes

/-- A word written to committed data by the host or a peer: one event, and every uncommitted launch whose read set holds the line aborts and
replays (R306). -/
def State.outsideWrite (s : State) (pa : Nat) (data : BitVec 64) : State :=
  (s.perform outsideRef 0 [] (.phys pa false) (leBytes 8 data.toNat)).abortReaders ((List.range 8).map fun k => pa / 64 * 8 + k)

/-- A read from outside returns committed data only (R252, R306). -/
def State.outsideRead (s : State) (pa : Nat) : State := { (s.touchBytes [] pa 8) with hostData := BitVec.ofNat 64 (s.committedNat pa 8) }

/-- host memory write (R303, R306): through CXL.mem, or of the host's own memory, which the device reaches as TIER 10. BAR0 and the kick pages are
written as registers. -/
def execHostMemoryWrite (a : HostAddr) (data : BitVec 64) (s : State) : Result :=
  match a with
  | .mem off => due <| if s.ready && s.firstTierWord (cxlMem off) then some (s.outsideWrite (cxlMem off) data) else none
  | .own pa => due <| if hostWord pa then some (s.outsideWrite pa data) else none
  | .bar off => execBarWrite off data s
  | .kickPage page off => execKickPageWrite page off data s

/-- host memory read: committed data only (R252, R306), or what a register reads (R5, R262, R304). -/
def execHostMemoryRead (a : HostAddr) (s : State) : Result :=
  match a with
  | .mem off => due <| if s.ready && s.firstTierWord (cxlMem off) then some (s.outsideRead (cxlMem off)) else none
  | .own pa => due <| if hostWord pa then some (s.outsideRead pa) else none
  | .bar off => .next { s with hostData := s.readBar off }
  | .kickPage page off => .next { s with hostData := s.readKick page off }

/-- peer access: a peer's access over the Dravja link performs on this module's first tier (R308), or a peer changes its own memory. -/
def execPeerAccess (op : PeerOp) (s : State) : Result :=
  due <| match op with
    | .read pa => if s.ready && s.firstTierWord pa then some (s.outsideRead pa) else none
    | .write pa x => if s.ready && s.firstTierWord pa then some (s.outsideWrite pa x) else none
    | .atomAdd pa x =>
      if s.ready && s.firstTierWord pa then
        let old := BitVec.ofNat 64 (s.committedNat pa 8)
        some { (s.outsideWrite pa (old + x)) with hostData := old }
      else none
    | .own pa x => if s.peerWord pa then some (s.outsideWrite pa x) else none

-- ## An agent's event (R272, R386, R397)

/-- The class of an event, by which the agent image names its handler. -/
def AgentEvent.cls : AgentEvent → Nat
  | .trap _ => 0
  | .faultRecord _ => 1
  | .packet => 2
  | .hostWrite => 3
  | .diag .. => 4

/-- The event that an agent serves first: a trap or fault record, then a packet, then the others (R272). -/
def firstEvent (l : List AgentEvent) : Option AgentEvent :=
  match l.find? fun e => e.cls ≤ 1 with
  | some e => some e
  | none => match l.find? fun e => e.cls == 2 with
    | some e => some e
    | none => l.head?

/-- The slot can leave its word for a handler: it is at an instruction boundary, is parked by a yield, or waits at an instruction that it can issue
again. -/
def GroupState.canLeave : GroupState → Bool
  | .ready | .parkedYield => true
  | .waiting (.cow _) => false
  | .waiting _ => true
  | _ => false

/-- agent event entry: the agent's slot saves its PC, and leaves a serialisation for the time, and enters the handler that its image names (R386). -/
def execAgentEventEntry (core : Nat) (s : State) : Result :=
  due <|
    let c := s.core core
    let a := c.agent
    let at_ := match a.grp.serl with
      | some z => some z.path
      | none => a.grp.paths.head?
    match firstEvent a.events, at_ with
    | some v, some p =>
      if !c.started || c.gated || a.handling.isSome || !a.grp.state.canLeave then none
      else some (s.modCore core fun c => { c with agent := { c.agent with
        saved := p, savedSerl := c.agent.grp.serl, handling := some v, events := c.agent.events.erase v, halted := false,
        grp := { c.agent.grp with state := .ready, held := none, serl := none, paths := [PathEntry.at (Config.agentHandler v.cls) 1#64] } } })
    | _, _ => none

end Sys2Proof.Machine
end

