-- ==== Sys2Proof/Machine/Waits.lean ====
section
/-! DEFINITION. cwait and wait: lanes that hold their group until a word differs from a register (R227, R245, R376, R458). -/

namespace Sys2Proof.Machine

/-- One read of a waiting lane's word at a location: it is made where no older access of the group holds it back (R231) and the word can be read;
it says whether the word differs. acq: the scope at which the word is read, or none for a plain read. -/
def Env.readLane (e : Env) (s : State) (acq : Option Nat) (l : Loc) (x : WaitLane) : Bool × State :=
  if e.grp.overlapsLoad e.grp.seq l x.bytes || !s.readable e.gref (e.view s) e.grp e.grp.seq l x.bytes acq then (false, s)
  else
    let (bs, s) := s.sample e.gref (e.view s) e.grp e.grp.seq l x.bytes acq
    (ofLeBytes bs != x.value.toNat, s)

/-- The lanes whose word still holds the value they wait on. -/
def Env.readLanes (e : Env) (acq : Option Nat) : List WaitLane → State → List WaitLane × State
  | [], s => ([], s)
  | x :: l, s =>
    let (done, s) := e.readLane s acq x.loc x
    let (l, s) := Env.readLanes e acq l s
    (if done then l else x :: l, s)

/-- A later read of a waiting lane's word: it is translated and checked anew (R206). -/
def Env.pollLane (e : Env) (s : State) (acq : Option Nat) (x : WaitLane) : Except TrapKind Bool × State :=
  match (match x.va with
    | some a => e.checkVirtual s a x.bytes x.bytes .read
    | none => (.ok x.loc, s)) with
  | (.error k, s) => (.error k, s)
  | (.ok l, s) => let (done, s) := e.readLane s acq l x; (.ok done, s)

/-- Where the reads of a waiting lane are made: a wait reads the phase at the object's home (R458), a cwait as its order says (R376). -/
def readScope (isWait : Bool) (acq : Option Nat) : Option Nat := if isWait then some homeScope else acq

/-- A group that enters Waiting on wait cancels its team's armed hop (R127). -/
def State.enterWait (s : State) (r : GroupRef) (isWait : Bool) : State := if isWait then s.cancelHop r.team else s

/-- What a completed wait of a lane, at a scope, tells its group (R302): the word that it reads is the phase, 8 bytes into the object, and its value the
phase that has completed. -/
def State.waited (s : State) (r : GroupRef) (scope : Nat) (x : WaitLane) : State :=
  s.learnTiles r scope (match x.loc with
    | .phys pa t => .phys (pa - 8) t
    | .scratch off => .scratch (off - 8)) x.value.toNat

/-- What the completing reads of some lanes do: an acquire at the scope (R227, R376), and what a wait tells besides. -/
def State.waitsDone (s : State) (r : GroupRef) (acq : Option Nat) (isWait : Bool) (seq : Nat) (lanes : List WaitLane) : State :=
  match acq with
  | none => s
  | some k =>
    if lanes.isEmpty then s
    else
      let s := s.acquire r k seq
      if isWait then lanes.foldl (fun s x => s.waited r k x) s else s

/-- What becomes of a wait or cwait whose lanes have been read: it holds its group for the lanes that are left; with none left, it completes, or
traps for the element that has failed its checks: at once where it issues, else once the group issues again (R42). -/
def Env.waitRest (e : Env) (issues : Bool) (acq : Option Nat) (isWait : Bool) (bad : Option LaneFault) (left : List WaitLane) (s : State) : State :=
  let e := { e with grp := s.noted e.gref e.grp }
  if left.isEmpty then match bad with
    | some f => if issues then e.laneTrap s e.grp f .read else e.laneOwed s e.grp f .read
    | none => e.finish e.grp s
  else e.waitOn (.lanes acq isWait bad left) s

/-- A wait or cwait whose lanes have been checked: in T form, a failure traps with nothing read; in V form, the elements below the failing one
wait first (R70, R151, log 52). The lanes whose word differs complete at once, and the group waits for the others. -/
def Env.waitLanes (e : Env) (acq : Option Nat) (isWait : Bool) (lane : Nat → Loc → WaitLane)
    (r : List (Nat × Loc) × Option LaneFault × State) : State :=
  let (ok, bad, s) := r
  if bad.isSome && !e.vform then e.waitRest true acq isWait bad [] s
  else
    let all := ok.map fun x => lane x.1 x.2
    let (left, s) := e.readLanes (readScope isWait acq) all s
    let s := (e.waitRest true acq isWait bad left s).waitsDone e.gref acq isWait e.grp.seq (all.filter fun x => left.all fun y => y.lane != x.lane)
    if left.isEmpty then s else s.enterWait e.gref isWait

/-- The scope at which the order field of a cwait makes its completing reads acquires (R376). -/
def cwaitScope (w : MWord) : Option Nat := if w.order == 1 then some w.scope.toNat else none

/-- cwait (R376). -/
def execCwait (w : MWord) (s : State) : Result :=
  let n := widthBytes w.width
  native (memUses w (dataRegs w.d.toNat n) []) s fun e => e.ordered s <|
    e.waitLanes (cwaitScope w) false
      (fun l loc => { lane := l, loc := loc, bytes := n, value := BitVec.ofNat 64 (e.dataValue w.d.toNat n l), va := loc.virtualAt (e.memAddr w l) })
      (checkLanes (fun l s => let a := e.memAddr w l; atAddr a (e.checkVirtual s a n n .read)) (lanesOf (e.guard w.g)) s [])

/-- wait (R458): the phase field of the object is read, and the completing read is an acquire at the scope. -/
def execWait (w : MWord) (s : State) : Result :=
  native (memUses w [w.d.toNat] []) s fun e => e.ordered s <|
    e.waitLanes (some w.scope.toNat) true
      (fun l loc => { lane := l, loc := loc.plus 8, bytes := 4, value := (e.readV w.d.toNat l).setWidth 64,
                      va := loc.virtualAt (e.memAddr w l + 8) })
      (checkLanes (fun l s => e.checkBarrier s w .read l) (lanesOf (e.guard w.g)) s [])

/-- A waiting lane reads its word again: it completes once the value differs, and the instruction with its last lane. A read whose translation
fails gives the group a trap, which it takes once it issues (R42); in V form, the elements below it go on waiting first. -/
def pollStep (r : GroupRef) (lane : Nat) (isWait : Bool) (s : State) : Result :=
  due <|
    match s.findGroup r, s.waitEnv r with
    | some g, some e => match g.state with
      | .waiting (.lanes acq k bad l) =>
        match l.find? fun x => x.lane == lane with
        | none => none
        | some x =>
          if k != isWait || !s.running r then none
          else match e.pollLane s (readScope k acq) x with
            | (.ok false, s) => some s
            | (.ok true, s) =>
              let rest := l.filter fun y => y.lane != lane
              let s := (e.waitRest false acq k bad rest s).waitsDone r acq k e.grp.seq [x]
              some (if rest.isEmpty && bad.isNone then s.stepEnd r else s)
            | (.error f, s) =>
              some (e.waitRest false acq k (some { lane := lane, addr := x.va.getD 0, kind := f })
                (if e.vform then l.filter fun y => decide (y.lane < lane) else []) s)
      | _ => none
    | _, _ => none

/-- cwait poll (R376). -/
def execCwaitPoll (g : GroupRef) (lane : Nat) (s : State) : Result := pollStep g lane false s
/-- wait poll (R458). -/
def execWaitPoll (g : GroupRef) (lane : Nat) (s : State) : Result := pollStep g lane true s

end Sys2Proof.Machine
end

