-- ==== Sys2Proof/Machine/Dispatch.lean ====
section
/-! DEFINITION. The meaning of every instruction: one direct call for each constructor. -/

namespace Sys2Proof.Machine

def exec (i : Instr) (s : State) : Host.Outcome State Fault Refusal :=
  match i with
  | .abs w => Sys2Proof.Machine.execAbs w s
  | .accalloc w => Sys2Proof.Machine.execAccalloc w s
  | .accgrow w => Sys2Proof.Machine.execAccgrow w s
  | .accfree w => Sys2Proof.Machine.execAccfree w s
  | .accld w => Sys2Proof.Machine.execAccld w s
  | .accst w => Sys2Proof.Machine.execAccst w s
  | .add w => Sys2Proof.Machine.execAdd w s
  | .addc w => Sys2Proof.Machine.execAddc w s
  | .and w => Sys2Proof.Machine.execAnd w s
  | .andn w => Sys2Proof.Machine.execAndn w s
  | .arrive w => Sys2Proof.Machine.execArrive w s
  | .atn w => Sys2Proof.Machine.execAtn w s
  | .atom w => Sys2Proof.Machine.execAtom w s
  | .atoms w => Sys2Proof.Machine.execAtoms w s
  | .barinit w => Sys2Proof.Machine.execBarinit w s
  | .bcast w => Sys2Proof.Machine.execBcast w s
  | .bfi w => Sys2Proof.Machine.execBfi w s
  | .bfx w => Sys2Proof.Machine.execBfx w s
  | .bkpt => Sys2Proof.Machine.execBkpt s
  | .br w => Sys2Proof.Machine.execBr w s
  | .brev w => Sys2Proof.Machine.execBrev w s
  | .brx w => Sys2Proof.Machine.execBrx w s
  | .bsync => Sys2Proof.Machine.execBsync s
  | .btok w => Sys2Proof.Machine.execBtok w s
  | .btop w => Sys2Proof.Machine.execBtop w s
  | .call w => Sys2Proof.Machine.execCall w s
  | .calln w => Sys2Proof.Machine.execCalln w s
  | .cas w => Sys2Proof.Machine.execCas w s
  | .cass w => Sys2Proof.Machine.execCass w s
  | .clause w => Sys2Proof.Machine.execClause w s
  | .clz w => Sys2Proof.Machine.execClz w s
  | .cmp w => Sys2Proof.Machine.execCmp w s
  | .cnt w => Sys2Proof.Machine.execCnt w s
  | .coll w => Sys2Proof.Machine.execColl w s
  | .conv w => Sys2Proof.Machine.execConv w s
  | .copy w => Sys2Proof.Machine.execCopy w s
  | .cvt w => Sys2Proof.Machine.execCvt w s
  | .cwait w => Sys2Proof.Machine.execCwait w s
  | .cwaitPoll g lane => Sys2Proof.Machine.execCwaitPoll g lane s
  | .divi w => Sys2Proof.Machine.execDivi w s
  | .dot2 w => Sys2Proof.Machine.execDot2 w s
  | .dot4 w => Sys2Proof.Machine.execDot4 w s
  | .dot8 w => Sys2Proof.Machine.execDot8 w s
  | .emit w => Sys2Proof.Machine.execEmit w s
  | .eqp id => Sys2Proof.Machine.execEqp id s
  | .eqpn w => Sys2Proof.Machine.execEqpn w s
  | .eret => Sys2Proof.Machine.execEret s
  | .exit w => Sys2Proof.Machine.execExit w s
  | .fadd w => Sys2Proof.Machine.execFadd w s
  | .fbar => Sys2Proof.Machine.execFbar s
  | .fclass w => Sys2Proof.Machine.execFclass w s
  | .fcmp w => Sys2Proof.Machine.execFcmp w s
  | .fcos w => Sys2Proof.Machine.execFcos w s
  | .fdiv w => Sys2Proof.Machine.execFdiv w s
  | .fence w => Sys2Proof.Machine.execFence w s
  | .fexp2 w => Sys2Proof.Machine.execFexp2 w s
  | .ffma w => Sys2Proof.Machine.execFfma w s
  | .flog2 w => Sys2Proof.Machine.execFlog2 w s
  | .fmax w => Sys2Proof.Machine.execFmax w s
  | .fmin w => Sys2Proof.Machine.execFmin w s
  | .fmul w => Sys2Proof.Machine.execFmul w s
  | .frcp w => Sys2Proof.Machine.execFrcp w s
  | .frnd w => Sys2Proof.Machine.execFrnd w s
  | .frsq w => Sys2Proof.Machine.execFrsq w s
  | .fscale w => Sys2Proof.Machine.execFscale w s
  | .fsin w => Sys2Proof.Machine.execFsin w s
  | .fsqrt w => Sys2Proof.Machine.execFsqrt w s
  | .fsub w => Sys2Proof.Machine.execFsub w s
  | .ftanh w => Sys2Proof.Machine.execFtanh w s
  | .gather w => Sys2Proof.Machine.execGather w s
  | .halt => Sys2Proof.Machine.execHalt s
  | .hop g target => Sys2Proof.Machine.execHop g target s
  | .icinv => Sys2Proof.Machine.execIcinv s
  | .isect w => Sys2Proof.Machine.execIsect w s
  | .launch w => Sys2Proof.Machine.execLaunch w s
  | .ld w => Sys2Proof.Machine.execLd w s
  | .lds w => Sys2Proof.Machine.execLds w s
  | .ldv w => Sys2Proof.Machine.execLdv w s
  | .ldbt w => Sys2Proof.Machine.execLdbt w s
  | .ldc w => Sys2Proof.Machine.execLdc w s
  | .ldn w => Sys2Proof.Machine.execLdn w s
  | .lea w => Sys2Proof.Machine.execLea w s
  | .loop w => Sys2Proof.Machine.execLoop w s
  | .mad w => Sys2Proof.Machine.execMad w s
  | .max w => Sys2Proof.Machine.execMax w s
  | .min w => Sys2Proof.Machine.execMin w s
  | .merge w => Sys2Proof.Machine.execMerge w s
  | .mfsr w => Sys2Proof.Machine.execMfsr w s
  | .mma w => Sys2Proof.Machine.execMma w s
  | .mov w => Sys2Proof.Machine.execMov w s
  | .movh w => Sys2Proof.Machine.execMovh w s
  | .movi w => Sys2Proof.Machine.execMovi w s
  | .mport w => Sys2Proof.Machine.execMport w s
  | .mtsr w => Sys2Proof.Machine.execMtsr w s
  | .mul w => Sys2Proof.Machine.execMul w s
  | .mulh w => Sys2Proof.Machine.execMulh w s
  | .next w => Sys2Proof.Machine.execNext w s
  | .nop => Sys2Proof.Machine.execNop s
  | .not w => Sys2Proof.Machine.execNot w s
  | .or w => Sys2Proof.Machine.execOr w s
  | .popc w => Sys2Proof.Machine.execPopc w s
  | .pack w => Sys2Proof.Machine.execPack w s
  | .pand w => Sys2Proof.Machine.execPand w s
  | .por w => Sys2Proof.Machine.execPor w s
  | .pxor w => Sys2Proof.Machine.execPxor w s
  | .pnot w => Sys2Proof.Machine.execPnot w s
  | .pmov w => Sys2Proof.Machine.execPmov w s
  | .pent w => Sys2Proof.Machine.execPent w s
  | .pexit w => Sys2Proof.Machine.execPexit w s
  | .prf w => Sys2Proof.Machine.execPrf w s
  | .query w => Sys2Proof.Machine.execQuery w s
  | .red w => Sys2Proof.Machine.execRed w s
  | .remi w => Sys2Proof.Machine.execRemi w s
  | .ret w => Sys2Proof.Machine.execRet w s
  | .retn w => Sys2Proof.Machine.execRetn w s
  | .rot w => Sys2Proof.Machine.execRot w s
  | .sar w => Sys2Proof.Machine.execSar w s
  | .shl w => Sys2Proof.Machine.execShl w s
  | .shr w => Sys2Proof.Machine.execShr w s
  | .scan w => Sys2Proof.Machine.execScan w s
  | .sel w => Sys2Proof.Machine.execSel w s
  | .serl => Sys2Proof.Machine.execSerl s
  | .sere => Sys2Proof.Machine.execSere s
  | .shfl w => Sys2Proof.Machine.execShfl w s
  | .sink w => Sys2Proof.Machine.execSink w s
  | .st w => Sys2Proof.Machine.execSt w s
  | .sts w => Sys2Proof.Machine.execSts w s
  | .stv w => Sys2Proof.Machine.execStv w s
  | .stbt w => Sys2Proof.Machine.execStbt w s
  | .steer w => Sys2Proof.Machine.execSteer w s
  | .stn w => Sys2Proof.Machine.execStn w s
  | .sub w => Sys2Proof.Machine.execSub w s
  | .subb w => Sys2Proof.Machine.execSubb w s
  | .swait w => Sys2Proof.Machine.execSwait w s
  | .tlbinv w => Sys2Proof.Machine.execTlbinv w s
  | .trap g imm => Sys2Proof.Machine.execTrap g imm s
  | .unpack w => Sys2Proof.Machine.execUnpack w s
  | .vote w => Sys2Proof.Machine.execVote w s
  | .wait w => Sys2Proof.Machine.execWait w s
  | .waitPoll g lane => Sys2Proof.Machine.execWaitPoll g lane s
  | .waitf w => Sys2Proof.Machine.execWaitf w s
  | .xlat w => Sys2Proof.Machine.execXlat w s
  | .xor w => Sys2Proof.Machine.execXor w s
  | .yield w => Sys2Proof.Machine.execYield w s
  | .loadCompletion g idx => Sys2Proof.Machine.execLoadCompletion g idx s
  | .instructionFetchComplete g path => Sys2Proof.Machine.execInstructionFetchComplete g path s
  | .starvationBoost g => Sys2Proof.Machine.execStarvationBoost g s
  | .teamPlacement grid => Sys2Proof.Machine.execTeamPlacement grid s
  | .gangAdmission grid => Sys2Proof.Machine.execGangAdmission grid s
  | .teamRetire team => Sys2Proof.Machine.execTeamRetire team s
  | .callistoSample core => Sys2Proof.Machine.execCallistoSample core s
  | .sEntry team => Sys2Proof.Machine.execSEntry team s
  | .hopTimeout team => Sys2Proof.Machine.execHopTimeout team s
  | .sRollback team => Sys2Proof.Machine.execSRollback team s
  | .regionConfigure team => Sys2Proof.Machine.execRegionConfigure team s
  | .tokenTransfer team col row entry => Sys2Proof.Machine.execTokenTransfer team col row entry s
  | .streamPortRead team port => Sys2Proof.Machine.execStreamPortRead team port s
  | .streamPortWrite team port => Sys2Proof.Machine.execStreamPortWrite team port s
  | .memoryChainRequest team chain => Sys2Proof.Machine.execMemoryChainRequest team chain s
  | .memoryTileAccess core tile => Sys2Proof.Machine.execMemoryTileAccess core tile s
  | .starvationWatchEvent team col row slot => Sys2Proof.Machine.execStarvationWatchEvent team col row slot s
  | .converterReconfigure team change => Sys2Proof.Machine.execConverterReconfigure team change s
  | .planeReload team => Sys2Proof.Machine.execPlaneReload team s
  | .nextLoad team => Sys2Proof.Machine.execNextLoad team s
  | .freezeWave team => Sys2Proof.Machine.execFreezeWave team s
  | .mmaExecute core => Sys2Proof.Machine.execMmaExecute core s
  | .mmaCompletion core => Sys2Proof.Machine.execMmaCompletion core s
  | .accCopyCompletion core => Sys2Proof.Machine.execAccCopyCompletion core s
  | .copyCompletion core idx => Sys2Proof.Machine.execCopyCompletion core idx s
  | .gatherCompletion core idx => Sys2Proof.Machine.execGatherCompletion core idx s
  | .queryAnswer idx => Sys2Proof.Machine.execQueryAnswer idx s
  | .collCompletion idx others => Sys2Proof.Machine.execCollCompletion idx others s
  | .accfreeUnbind g => Sys2Proof.Machine.execAccfreeUnbind g s
  | .shootdownComplete idx => Sys2Proof.Machine.execShootdownComplete idx s
  | .blockTableSweep ctx desc => Sys2Proof.Machine.execBlockTableSweep ctx desc s
  | .demotionBegin ctx desc entry dblk dtier => Sys2Proof.Machine.execDemotionBegin ctx desc entry dblk dtier s
  | .demotionSwap idx => Sys2Proof.Machine.execDemotionSwap idx s
  | .eccCorrectable core => Sys2Proof.Machine.execEccCorrectable core s
  | .eccUncorrectable p => Sys2Proof.Machine.execEccUncorrectable p s
  | .linkCrcRetry link => Sys2Proof.Machine.execLinkCrcRetry link s
  | .portFailure p => Sys2Proof.Machine.execPortFailure p s
  | .conflictAbort launch => Sys2Proof.Machine.execConflictAbort launch s
  | .launchReplay launch => Sys2Proof.Machine.execLaunchReplay launch s
  | .launchCommit launch => Sys2Proof.Machine.execLaunchCommit launch s
  | .shadowWriteback line => Sys2Proof.Machine.execShadowWriteback line s
  | .shadowEvict launch line => Sys2Proof.Machine.execShadowEvict launch line s
  | .shadowStoreResume g => Sys2Proof.Machine.execShadowStoreResume g s
  | .kick q k => Sys2Proof.Machine.execKick q k s
  | .qrdWrite q v => Sys2Proof.Machine.execQrdWrite q v s
  | .queueEnable q v => Sys2Proof.Machine.execQueueEnable q v s
  | .queueErrorClear q v => Sys2Proof.Machine.execQueueErrorClear q v s
  | .pendingListJoin q => Sys2Proof.Machine.execPendingListJoin q s
  | .packetDraw core => Sys2Proof.Machine.execPacketDraw core s
  | .launchPacket core => Sys2Proof.Machine.execLaunchPacket core s
  | .barrierPacket core => Sys2Proof.Machine.execBarrierPacket core s
  | .signalPacket core => Sys2Proof.Machine.execSignalPacket core s
  | .copyPacket core => Sys2Proof.Machine.execCopyPacket core s
  | .btopPacket core => Sys2Proof.Machine.execBtopPacket core s
  | .nopPacket core => Sys2Proof.Machine.execNopPacket core s
  | .powerChargeResume c => Sys2Proof.Machine.execPowerChargeResume c s
  | .powerControllerAdjust rate => Sys2Proof.Machine.execPowerControllerAdjust rate s
  | .pwrWrite core v => Sys2Proof.Machine.execPwrWrite core v s
  | .coreClockGate core => Sys2Proof.Machine.execCoreClockGate core s
  | .coreWake core => Sys2Proof.Machine.execCoreWake core s
  | .trapDelivery g => Sys2Proof.Machine.execTrapDelivery g s
  | .groupResume g => Sys2Proof.Machine.execGroupResume g s
  | .trrWrite ctx v => Sys2Proof.Machine.execTrrWrite ctx v s
  | .preqDrain ctx v => Sys2Proof.Machine.execPreqDrain ctx v s
  | .drainLimitExpiry ctx => Sys2Proof.Machine.execDrainLimitExpiry ctx s
  | .preqSave ctx v => Sys2Proof.Machine.execPreqSave ctx v s
  | .preqKill ctx v => Sys2Proof.Machine.execPreqKill ctx v s
  | .preqRestore ctx v => Sys2Proof.Machine.execPreqRestore ctx v s
  | .bpWrite ctx n v => Sys2Proof.Machine.execBpWrite ctx n v s
  | .debugRead ctx => Sys2Proof.Machine.execDebugRead ctx s
  | .debugWrite ctx => Sys2Proof.Machine.execDebugWrite ctx s
  | .debugResume ctx => Sys2Proof.Machine.execDebugResume ctx s
  | .debugSingleStep ctx => Sys2Proof.Machine.execDebugSingleStep ctx s
  | .rucWrite ctx v => Sys2Proof.Machine.execRucWrite ctx v s
  | .hostMemoryWrite a data => Sys2Proof.Machine.execHostMemoryWrite a data s
  | .hostMemoryRead a => Sys2Proof.Machine.execHostMemoryRead a s
  | .peerAccess op => Sys2Proof.Machine.execPeerAccess op s
  | .attestationRequest a => Sys2Proof.Machine.execAttestationRequest a s
  | .warmReset v => Sys2Proof.Machine.execWarmReset v s
  | .powerUp => Sys2Proof.Machine.execPowerUp s
  | .coreStartStep => Sys2Proof.Machine.execCoreStartStep s
  | .agentEventEntry core => Sys2Proof.Machine.execAgentEventEntry core s
  | .registerWrite r v => Sys2Proof.Machine.execRegisterWrite r v s
  | .storeAcknowledge g idx => Sys2Proof.Machine.execStoreAcknowledge g idx s
  | .creditRefill core => Sys2Proof.Machine.execCreditRefill core s
  | .copyOnWriteComplete g => Sys2Proof.Machine.execCopyOnWriteComplete g s
  | .unresolvedFaultAbort g => Sys2Proof.Machine.execUnresolvedFaultAbort g s

end Sys2Proof.Machine
end

