-- ==== Sys2Proof/Machine/Place.lean ====
section
/-! DEFINITION. A state in which a given word is the next to issue: it stands for the placing of a program from outside (log 15). -/

namespace Sys2Proof.Machine

/-- The image of a program that is placed from outside: 64 lanes, 256 registers, T code and V code of 16 words. -/
def placedImage : Image :=
  { addr := 0, profile := 4, legacy := false, lanes := 64, regs := 256, window := 256, scratch := 0, acc := 0, mapOff := 0,
    mapSize := 0, tBase := 0x10000, tLen := 128, vBase := 0x20000, vLen := 128, configs := [], epoints := [], maps := [], corr := [],
    spans := [] }

/-- The grid of one team that runs the placed program. -/
def placedGrid (launch : Nat) : Grid :=
  { number := launch, launch := launch, ctx := 0, parent := none, depth := 1, sub := 0, image := placedImage, args := [], teams := 1, nextTeam := 1,
    retired := 0, prio := 16, gang := false, admitted := true, mask := BitVec.allOnes 256, wx := 0, wy := 0, wz := 0,
    ordered := false, counter := 0, sps := 0, status := 0, signal := 0, die := some 0, arrival := 0 }

/-- The launch of that grid. -/
def placedLaunch (grid : Nat) : Launch :=
  { ctx := 0, queue := 0, index := 0, kind := .grid grid, phase := .running, tag := some 1, attempts := 1, serial := false,
    readWords := [], saw := [], missed := [], sig := 0, counted := 0, retry := 3, level := 0, status := 0, signal := 0, subs := [],
    aborted := false, order := grid, ranSerial := false }

/-- Its team, with given groups and region. -/
def placedTeam (grid : Nat) (groups : List Group) (region : Option Region) : Team :=
  { grid := grid, num := 0, phase := .placed, core := 0, scratch := 0, reserved := 0, tiles := [], groups := groups, region := region,
    armed := none, hopLate := false, hopS := false, know := Know.none, queries := 0, ended := false, chc := 0, cgc := 0, perf := Perf.start, savedScratch := [],
    savedTiles := [], savedCmds := [], savedCopies := [] }

/-- The state with a team placed under a new number, whose turn comes next. -/
def placeTeam (s : State) (groups : List Group) (region : Option Region) (turn : Nat → Turn) : State :=
  let n := s.nextId
  { s with nextId := n + 1, launches := Table.put s.launches n (placedLaunch n), grids := Table.put s.grids n (placedGrid n),
           teams := Table.put s.teams n (placedTeam n groups region), turns := [turn n] }

/-- A group of 64 lanes in its start state, whose ageing boost lets it issue next, in T or V form, on a path. -/
def placedGroup (vform : Bool) (p : PathEntry) (loop : Option LoopBuf) : Group :=
  { Group.start 0 0 0 (BitVec.allOnes 64) with vform := vform, paths := [p], loop := loop, boosted := true }

/-- An instruction word stands next in its clause; a header stands at its address with a clause of zero words behind it. ldv and stv
run in V form. -/
def placeNative (s : State) (w : DWord) : State :=
  let op := w.extractLsb' 56 8
  let v := op == 0x74 || op == 0x75
  let pc : BitVec 64 := if v then 0x20000 else 0x10000
  if op == 0xF0 then
    let ws := (w :: List.replicate 15 0#64).zipIdx.map fun x => (pc.toNat + 8 * x.2, x.1)
    placeTeam s
      [placedGroup v (PathEntry.at pc (BitVec.allOnes 64))
        (some { quad := 0, ctx := 0, view := [], lo := pc.toNat, hi := pc.toNat + 120, words := ws })]
      none fun n => .issue { team := n, grp := 0 }
  else
    placeTeam s [placedGroup v { PathEntry.at (pc + 8) (BitVec.allOnes 64) with words := [w] } none] none
      fun n => .issue { team := n, grp := 0 }

/-- A configuration's word stands in slot 0 of the PE of a region of one cell. -/
def placeSlot (s : State) (w : BitVec 96) : State :=
  let cell := { Cell.empty 0 0 with slots := (decode (.slot w)).toOption :: List.replicate 15 none }
  let plane : Plane := { cfg := 0, load := 1, cells := [cell], ports := [], convs := [], chains := [], gate := 0, caller := none,
                         pendingNext := none }
  let region : Region :=
    { rid := 0, col := 0, row := 0, w := 1, h := 1, depth := 4, ep := 0, live := true, active := plane, shadows := [], spilled := [],
      oldPlanes := [], span := [], epoch := 0, loads := 1, released := 0, releasedBy := [], xlat := List.replicate 16 none,
      xlatNext := 0, stamps := 0, fault := none, atnDone := false, closing := none, frozen := none, starve := [], mustLeave := false,
      latched := [], fired := false }
  placeTeam s [{ Group.start 0 0 0 (BitVec.allOnes 64) with state := .parkedHop, paths := [PathEntry.at 0x10000 (BitVec.allOnes 64)] }]
    (some region) fun n => .pe n 0 0

/-- The state in which the next step runs the instruction of a table word of nbits bits. -/
def placeWord (s : State) (nbits w : Nat) : State :=
  if nbits ≤ 64 then placeNative s (BitVec.ofNat 64 w) else placeSlot s (BitVec.ofNat 96 w)

end Sys2Proof.Machine
end

