-- ==== Sys2Proof/Machine/Step.lean ====
section
/-! DEFINITION. One step of the machine: the next turn, and the instruction that it executes. -/

namespace Sys2Proof.Machine

/-- A step of the hardware is due: its meaning gives a next state. -/
def eventDue (s : State) (i : Instr) : Bool :=
  match exec i { s with cur := .device } with
  | .next _ => true
  | _ => false

/-- One step: the next turn of the list, or one of the turns that the machine can take, and the instruction it executes (log 1). -/
def step (s : State) : Host.Outcome State Fault Refusal :=
  match s.nextTurn (eventDue s) with
  | .done t => .next t
  | .run i t => concludeTurn t i (exec i t)

/-- The state in which the next step fetches and runs exactly the instruction of a table word. -/
def State.withFetchWord (s : State) (nbits w : Nat) : State := placeWord s nbits w

end Sys2Proof.Machine
end

