-- ==== Sys2Proof/Safety.lean ====
section
/-! DEFINITION. What counts as a safe state and a safe run: the data of the state keep their canonical form. -/

namespace Sys2Proof

/-- Physical memory and scratchpad keep their canonical form: equal contents are equal data. -/
abbrev Machine.State.wf (s : Machine.State) : Prop := Machine.Memory.wf s.mem = true ∧ Machine.Memory.wf s.scratch = true

/-- The machine runs n steps from a state without a fault or a refusal. -/
def Machine.State.runs (n : Nat) (s t : Machine.State) : Prop :=
  match n with
  | 0 => s = t
  | k + 1 => ∃ u, Machine.step s = .next u ∧ Machine.State.runs k u t

end Sys2Proof
end

