-- ==== Sys2Proof/Certificates/Slice0/Obligations.lean ====
section
/-! DEFINITION. The statements: what each instruction and each step of the machine does, in the words of the spec's rules, for every state and
operands. The helper definitions of namespace Sys2Proof.Claims are the vocabulary they share. -/

namespace Sys2Proof.Claims

open Sys2Proof.Machine

-- ## Vocabulary

/-- exec answers a next state for which P holds. -/
def Answers (i : Instr) (s : State) (P : State → Prop) : Prop := ∃ t, exec i s = .next t ∧ P t

/-- e issues in state s, and no pending write of the registers u holds it back (R42, R62). -/
def Issues (s : State) (e : Env) (u : Uses) : Prop := s.env = some e ∧ e.hazard u = false

/-- The v-registers after an instruction that writes register d, or the pair at d, in the lanes of m: lane l of d holds f l, and every
other register of every lane is as before. A pair occupies two slots of a ring of more than one. -/
def LanesWritten (e : Env) (m : LaneMask) (pair : Bool) (d : Nat) (v : Sparse 32) (f : Nat → BitVec 64) : Prop :=
  let g : Group := { e.grp with v := v }
  (∀ l, l < 64 → m.getLsbD l = true → e.grp.present.getLsbD l = true →
    if pair then e.ring ≠ 1 → g.readVPair e.ring d l = f l else g.readV e.ring d l = loWord (f l))
  ∧ (∀ key, (∀ l, l < 64 → m.getLsbD l = true → key ≠ vKey (e.grp.vSlot e.ring d) l ∧
      (pair = true → key ≠ vKey (e.grp.vSlot e.ring (d + 1)) l)) → Sparse.get v key = Sparse.get e.grp.v key)

-- ## The register operations

/-- The operations of formats A and I that write a register in each lane, with what they compute. -/
def registerOps : List ((Alu → Instr) × (AluIn → AluOut)) :=
  [(.abs, absOp), (.add, addOp), (.and, andOp), (.andn, andnOp), (.bfi, bfiOp), (.bfx, bfxOp), (.brev, brevOp), (.clz, clzOp),
   (.lea, leaOp), (.mad, madOp), (.max, maxOp), (.min, minOp), (.mul, mulOp), (.mulh, mulhOp), (.not, notOp), (.or, orOp)]
  ++ [(.popc, popcOp), (.rot, rotOp), (.sar, sarOp), (.shl, shlOp), (.shr, shrOp), (.sel, selOp), (.sub, subOp), (.xor, xorOp),
   (.mov, movOp), (.fadd, faddOp), (.fclass, fclassOp), (.fcos, fcosOp), (.fexp2, fexp2Op), (.ffma, ffmaOp), (.flog2, flog2Op)]
  ++ [(.fmax, fmaxOp), (.fmin, fminOp), (.fmul, fmulOp), (.frcp, frcpOp), (.frnd, frndOp), (.frsq, frsqOp), (.fscale, fscaleOp),
   (.fsin, fsinOp), (.fsqrt, fsqrtOp), (.fsub, fsubOp), (.ftanh, ftanhOp), (.cvt, cvtOp), (.pack, packOp), (.unpack, unpackOp)]

/-- The operations with a carry or borrow in and out. -/
def carryOps : List ((Alu → Instr) × (AluIn → AluOut)) := [(.addc, addcOp), (.subb, subbOp)]

/-- The comparisons, which write a predicate. -/
def compareOps : List ((Alu → Instr) × (AluIn → AluOut)) := [(.cmp, cmpOp), (.fcmp, fcmpOp)]

/-- The dot products. -/
def dotOps : List ((Alu → Instr) × (AluIn → AluOut)) := [(.dot2, dot2Op), (.dot4, dot4Op), (.dot8, dot8Op)]

/-- The microcoded operations. -/
def microOps : List ((AWord → Instr) × (AluIn → AluOut)) := [(.divi, diviOp), (.remi, remiOp), (.fdiv, fdivOp)]

/-- The predicate operations, with what they compute from pa and pb. -/
def predicateOps : List ((PWord → Instr) × (LaneMask → LaneMask → LaneMask)) :=
  [(.pand, fun a b => a &&& b), (.por, fun a b => a ||| b), (.pxor, fun a b => a ^^^ b), (.pnot, fun a _ => ~~~a), (.pmov, fun a _ => a)]

end Sys2Proof.Claims

open Sys2Proof Sys2Proof.Machine Sys2Proof.Claims

-- ## T and V form: registers

/-- A register operation completes, writes its result in every guarded lane and nothing else, and the group goes on at the next word (R340,
R377, R17). -/
def Obligations.RegisterOperationWritesGuardedLanes : Prop :=
  ∀ p ∈ registerOps, ∀ (w : AWord) (r : AluRow) (s : State) (e : Env),
    (p.1 (.native w)).aluRow = some (r, .native w) → Issues s e (aluUses (p.1 (.native w)) r w) →
    ∃ v, exec (p.1 (.native w)) s = .next (e.finish { e.grp with v := v } s)
      ∧ LanesWritten e (e.guard w.g) (rowPair r (p.1 (.native w)) w) w.d.toNat v fun l => (p.2 (e.aluIn (p.1 (.native w)) r w l)).d

/-- addc and subb write in every guarded lane the sum or difference, a pair for a 64-bit type, to d, and last the carry or borrow to the one
register that c names; no other register of any lane changes (R345, R452). -/
def Obligations.CarryOperationWritesResultAndCarry : Prop :=
  ∀ p ∈ carryOps, ∀ (w : AWord) (b c ctl : BitVec 8) (r : AluRow) (s : State) (e : Env),
    w.tail = .reg b c ctl → (p.1 (.native w)).aluRow = some (r, .native w) → Issues s e (aluUses (p.1 (.native w)) r w) →
    let slot := e.grp.vSlot e.ring
    let lo := slot w.d.toNat
    let hi := slot (w.d.toNat + 1)
    let k := slot c.toNat
    let pair := rowWide r w
    ∃ v, exec (p.1 (.native w)) s = .next (e.finish { e.grp with v := v } s)
      ∧ let g : Group := { e.grp with v := v }
        (∀ l, l < 64 → (e.guard w.g).getLsbD l = true → e.grp.present.getLsbD l = true →
          let o := p.2 (e.aluIn (p.1 (.native w)) r w l)
          g.readV e.ring c.toNat l = o.carry
            ∧ (lo ≠ k → (pair = true → lo ≠ hi) → g.readV e.ring w.d.toNat l = loWord o.d)
            ∧ (pair = true → hi ≠ k → g.readV e.ring (w.d.toNat + 1) l = hiWord o.d))
        ∧ ∀ key, (∀ l, l < 64 → (e.guard w.g).getLsbD l = true →
            key ≠ vKey lo l ∧ key ≠ vKey k l ∧ (pair = true → key ≠ vKey hi l)) → Sparse.get v key = Sparse.get e.grp.v key

/-- A comparison writes its truth to the guarded lanes of the predicate d, leaves the other lanes and predicates, and p0 stays true (R55,
R367, R390). -/
def Sys2Proof.Claims.ComparisonWritesPredicate : Prop :=
  ∀ p ∈ compareOps, ∀ (w : AWord) (r : AluRow) (s : State) (e : Env),
    (p.1 (.native w)).aluRow = some (r, .native w) → Issues s e (aluUses (p.1 (.native w)) r w) →
    ∃ q, exec (p.1 (.native w)) s = .next (e.finish { e.grp with p := q } s)
      ∧ let g : Group := { e.grp with p := q }
        g.readP 0 = BitVec.allOnes 64
        ∧ (∀ n, n ≠ w.d.toNat → g.readP n = e.grp.readP n)
        ∧ ∀ l, l < 64 → w.d.toNat ≠ 0 → (g.readP w.d.toNat).getLsbD l =
            if (e.guard w.g).getLsbD l && e.grp.present.getLsbD l then (p.2 (e.aluIn (p.1 (.native w)) r w l)).d != 0
            else (e.grp.readP w.d.toNat).getLsbD l

/-- A dot product charges its core's power bucket with 16 and completes as a register operation where the bucket allows the charge; else it
waits for the bucket and writes nothing (R281, R381). -/
def Sys2Proof.Claims.DotProductChargesAndCompletes : Prop :=
  ∀ p ∈ dotOps, ∀ (w : AWord) (r : AluRow) (s : State) (e : Env),
    (p.1 (.native w)).aluRow = some (r, .native w) → Issues s e (aluUses (p.1 (.native w)) r w) →
    match (s.core e.core).charge 16 with
    | some c => ∃ v, exec (p.1 (.native w)) s = .next (e.finish { e.grp with v := v } (s.modCore e.core fun _ => c))
        ∧ LanesWritten e (e.guard w.g) (rowPair r (p.1 (.native w)) w) w.d.toNat v fun l => (p.2 (e.aluIn (p.1 (.native w)) r w l)).d
    | none => exec (p.1 (.native w)) s = .next (e.waitOn (.power e.core 16) s)

/-- divi, remi and fdiv complete as register operations, and each issue with Guard in at least one lane adds 1 to retuse (R311, R312). -/
def Sys2Proof.Claims.MicrocodedOperationCountsInRetuse : Prop :=
  ∀ p ∈ microOps, ∀ (w : AWord) (r : AluRow) (s : State) (e : Env),
    (p.1 w).aluRow = some (r, .native w) → Issues s e (aluUses (p.1 w) r w) →
    ∃ v, exec (p.1 w) s = .next (e.finish { e.grp with v := v } (if e.guard w.g = 0 then s else s.countRetuse e.ctx))
      ∧ LanesWritten e (e.guard w.g) (rowPair r (p.1 w) w) w.d.toNat v fun l => (p.2 (e.aluIn (p.1 w) r w l)).d

/-- movi, movh, mfsr, shfl and scan complete and write their value in every guarded lane of d and nothing else (R414, R418, R438, R442). -/
def Sys2Proof.Claims.LaneInstructionWritesGuardedLanes : Prop :=
  ∀ (w : AWord) (s : State) (e : Env), s.env = some e →
    (e.hazard { v := regs (typeIs64 w.ty.toNat) w.d.toNat, s := [] } = false →
      ∃ v, exec (.movi w) s = .next (e.finish { e.grp with v := v } s)
        ∧ LanesWritten e (e.guard w.g) (typeIs64 w.ty.toNat) w.d.toNat v fun _ =>
            if intSigned w.ty.toNat then w.imm.signExtend 64 else w.imm.setWidth 64)
    ∧ (e.hazard { v := [w.d.toNat], s := [] } = false →
      ∃ v, exec (.movh w) s = .next (e.finish { e.grp with v := v } s)
        ∧ LanesWritten e (e.guard w.g) false w.d.toNat v fun _ => (w.imm.setWidth 64) <<< 8)
    ∧ (e.hazard { v := regs (w.ty == 3) w.d.toNat, s := [] } = false →
      ∃ v, exec (.mfsr w) s = .next (e.finish { e.grp with v := v } s)
        ∧ LanesWritten e (e.guard w.g) (w.ty == 3) w.d.toNat v fun l => e.special s w.imm.toNat l)
    ∧ (e.hazard { laneUses w with v := (laneUses w).v ++ regs (typeIs64 w.ty.toNat) w.d.toNat } = false →
      ∃ v, exec (.shfl w) s = .next (e.finish { e.grp with v := v } s)
        ∧ LanesWritten e (e.guard w.g) (typeIs64 w.ty.toNat) w.d.toNat v fun l =>
            e.laneValue w (shuffleSource w.var.toNat e.legacy l (e.laneIndex w l)))
    ∧ (let float : Bool := (reduceByte w).getLsbD 0
       let pair : Bool := !float && typeIs64 w.ty.toNat
       e.hazard { v := regs pair w.a.toNat ++ regs pair w.d.toNat, s := [] } = false →
      ∃ v, exec (.scan w) s = .next (e.finish { e.grp with v := v } s)
        ∧ LanesWritten e (e.guard w.g) pair w.d.toNat v fun l => e.reduce w float (lanesOf (e.guard w.g &&&
            if (reduceByte w).getLsbD 1 then lanesBelow l else lanesBelow l ||| laneBit l)))

/-- bcast, vote and red complete; with Guard in some lane they write their value to the s-register or pair d, and with none they write
nothing; every other s-register is as before (R353, R432, R457). -/
def Sys2Proof.Claims.GroupInstructionWritesScalar : Prop :=
  ∀ (w : AWord) (s : State) (e : Env), s.env = some e →
    let written := fun (pair : Bool) (x : BitVec 64) (q : Sparse 32) =>
      let g : Group := { e.grp with s := q }
      (∀ n, n ≠ w.d.toNat → (pair = true → n ≠ w.d.toNat + 1) → g.readS n = e.grp.readS n)
      ∧ (e.guard w.g = 0 → q = e.grp.s)
      ∧ (e.guard w.g ≠ 0 → if pair then g.readSPair w.d.toNat = x else g.readS w.d.toNat = loWord x)
    (e.hazard { laneUses w with s := (laneUses w).s ++ regs (typeIs64 w.ty.toNat) w.d.toNat } = false →
      ∃ q, exec (.bcast w) s = .next (e.finish { e.grp with s := q } s)
        ∧ written (typeIs64 w.ty.toNat) (e.laneValue w (e.laneIndex w 0 % if e.legacy then 32 else 64)) q)
    ∧ (e.hazard { v := [], s := regs (w.var == 2) w.d.toNat } = false →
      ∃ q, exec (.vote w) s = .next (e.finish { e.grp with s := q } s)
        ∧ written (w.var == 2) (voteValue w.var.toNat (e.guard w.g) (e.grp.readP w.a.toNat)) q)
    ∧ (let float : Bool := (reduceByte w).getLsbD 0
       let pair : Bool := !float && typeIs64 w.ty.toNat
       e.hazard { v := regs pair w.a.toNat, s := regs pair w.d.toNat } = false →
      ∃ q, exec (.red w) s = .next (e.finish { e.grp with s := q } s)
        ∧ written pair (e.reduce w float (lanesOf (e.guard w.g))) q)

/-- pand, por, pxor, pnot and pmov write their function of the two predicates, each complemented where its bit says so, in the guarded lanes
of pd; p0 stays true (R327, R426). -/
def Sys2Proof.Claims.PredicateOperationWritesGuardedLanes : Prop :=
  ∀ p ∈ predicateOps, ∀ (w : PWord) (s : State) (e : Env), Issues s e { v := [], s := [] } →
    ∃ q, exec (p.1 w) s = .next (e.finish { e.grp with p := q } s)
      ∧ let g : Group := { e.grp with p := q }
        let a := if w.na then ~~~(e.grp.readP w.pa.toNat) else e.grp.readP w.pa.toNat
        let b := if w.nb then ~~~(e.grp.readP w.pb.toNat) else e.grp.readP w.pb.toNat
        g.readP 0 = BitVec.allOnes 64
        ∧ (∀ n, n ≠ w.pd.toNat → g.readP n = e.grp.readP n)
        ∧ ∀ l, l < 64 → w.pd.toNat ≠ 0 → (g.readP w.pd.toNat).getLsbD l =
            if (e.guard w.g).getLsbD l && e.grp.present.getLsbD l then (p.2 a b).getLsbD l else (e.grp.readP w.pd.toNat).getLsbD l

/-- mtsr of user software raises PRIV; in an agent's slot it completes, and with Guard writes compat or retuse of the agent's context
(R331, R420). -/
def Sys2Proof.Claims.MtsrIsPrivileged : Prop :=
  ∀ (w : AWord) (s : State) (e : Env), Issues s e { v := [], s := [w.a.toNat] } →
    (e.ref.isSome = true → exec (.mtsr w) s = .next (e.trap s .priv))
    ∧ (e.ref = none → exec (.mtsr w) s = .next (e.finish e.grp (if e.guard w.g = 0 then s else
        s.modContext e.ctx fun c => c.writeSpecial w.imm.toNat (e.grp.readS w.a.toNat))))

namespace Sys2Proof.Claims

-- ## S form

/-- The slot of the processing element e fires in state s: its trigger holds, and what its op needs beside it (R77). -/
def Fires (s : State) (e : PeEnv) (i : Instr) (w : SWord) : Prop :=
  s.peEnv = some e ∧ e.cell.eligible i w = true ∧ e.extra i = true

/-- The token that a firing sends: its result, under a tag, with the making of the translation token that the result is, or 0 (R77, R90). -/
def resultOf (x : Word) (tag : BitVec 2) (stamp : Nat) : OutEntry := .tok { data := x, tag := tag, stamp := stamp }

/-- From cell c to cell d the inputs of mask m have lost their heads, and the outputs of mask n have gained entry x. -/
def Moved (c d : Cell) (m n : BitVec 4) (x : OutEntry) : Prop :=
  (∀ k, k < 4 → d.inq k = if m.getLsbD k then (c.inq k).tail else c.inq k)
  ∧ (∀ k, k < 4 → d.outq k = if n.getLsbD k then c.outq k ++ [x] else c.outq k)

/-- What a firing leaves of a cell: its place, its slots, its routes, its link slots and its marks of late results. -/
def SameCell (c d : Cell) : Prop :=
  d.col = c.col ∧ d.row = c.row ∧ d.slots = c.slots ∧ d.routes = c.routes ∧ d.links = c.links ∧ d.lBusy = c.lBusy ∧ d.bBusy = c.bBusy

/-- From cell c to cell d the heads of in0 and in1 have left, each where its mark says so, and out0 and out1 have gained the tokens of a pair, or
nothing (R97). -/
def Intersected (c d : Cell) (a b : Bool) (x : Option (Token × Token)) : Prop :=
  d.inq 0 = (if a then (c.inq 0).tail else c.inq 0) ∧ d.inq 1 = (if b then (c.inq 1).tail else c.inq 1)
  ∧ d.outq 0 = c.outq 0 ++ (x.map fun p => OutEntry.tok p.1).toList ∧ d.outq 1 = c.outq 1 ++ (x.map fun p => OutEntry.tok p.2).toList

/-- The predicate bits after a firing with a result (R77). -/
def PredicateBits (c d : Cell) (w : SWord) (x : Word) : Prop :=
  ∀ k, k < 8 → d.b.getLsbD k = if w.pkind = 0 ∨ k ≠ w.pbit.toNat then c.b.getLsbD k
    else if w.pkind = 1 then x != 0 else w.pkind == 2

end Sys2Proof.Claims

-- ## S form: the processing element

/-- An integer, logic, floating, conversion or dot operation in a slot that fires: it dequeues, sends its result with the output tag to each
output of its mask, writes l[ldest] with lwe (addc and subb write their carry or borrow there instead), and sets its predicate bit (R77, R330,
R345, R452). -/
def Obligations.SlotOperationFires : Prop :=
  ∀ p ∈ registerOps ++ compareOps ++ dotOps ++ carryOps, ∀ (w : SWord) (r : AluRow) (s : State) (e : PeEnv),
    (p.1 (.slot w)).aluRow = some (r, .slot w) → Fires s e (p.1 (.slot w)) w →
    let o := p.2 (e.aluIn (p.1 (.slot w)) w (s.teamLevel e.team))
    ∃ c, exec (p.1 (.slot w)) s = .next (e.put s c)
      ∧ Moved e.cell c w.deq w.out (resultOf (loWord o.d) (e.cell.outTag w) (e.aluStamp (p.1 (.slot w)) w (loWord o.d)))
      ∧ SameCell e.cell c ∧ PredicateBits e.cell c w (loWord o.d)
      ∧ ∀ n, Sparse.get c.l n = if n ≠ w.ldest.toNat then Sparse.get e.cell.l n
          else if r.third = .carry then o.carry else if w.lwe then loWord o.d else Sparse.get e.cell.l n

/-- A slot whose trigger or own condition does not hold does nothing in the cycle (R77). -/
def Sys2Proof.Claims.SlotWithoutTriggerDoesNothing : Prop :=
  ∀ (i : Instr) (w : SWord) (s : State) (e : PeEnv), slotWord i = some w → s.peEnv = some e →
    (∀ v, i ≠ .conv v) → e.cell.eligible i w = false ∨ e.extra i = false → exec i s = .next s

/-- steer, merge, cnt, emit, sink, swait, pent and pexit fire as R448, R413, R368, R382, R444, R88, R98 say: which heads leave, and which token
each output gains. -/
def Sys2Proof.Claims.RoutingNodeFires : Prop :=
  ∀ (w : SWord) (s : State) (e : PeEnv),
    (Fires s e (.steer w) w → ∃ c, exec (.steer w) s = .next (e.put s c) ∧ SameCell e.cell c ∧ c.l = e.cell.l ∧ c.b = e.cell.b
      ∧ let k : Nat := if (e.cell.head 1).data.getLsbD 0 then 1 else 0
        c.inq 0 = (e.cell.inq 0).tail ∧ c.inq 1 = (e.cell.inq 1).tail ∧ c.inq 2 = e.cell.inq 2 ∧ c.inq 3 = e.cell.inq 3
        ∧ c.outq k = e.cell.outq k ++ [.tok (e.cell.head 0)]
        ∧ c.outq (1 - k) = (if w.imm.getLsbD 0 then e.cell.outq (1 - k) ++ [.tok { data := 0, tag := 3 }] else e.cell.outq (1 - k))
        ∧ c.outq 2 = e.cell.outq 2 ∧ c.outq 3 = e.cell.outq 3)
    ∧ (Fires s e (.merge w) w → ∃ c x, exec (.merge w) s = .next (e.put s c) ∧ SameCell e.cell c
      ∧ let k : Nat := if (e.cell.head 0).data.getLsbD 0 then 2 else 1
        x.data = (e.cell.head k).data ∧ x.tag = (if w.otag = 1 then (e.cell.head k).tag else e.cell.outTag w)
        ∧ Moved e.cell c (if k = 2 then 5 else 3) w.out (.tok x) ∧ PredicateBits e.cell c w (e.cell.head k).data)
    ∧ (Fires s e (.cnt w) w → ∃ c, exec (.cnt w) s = .next (e.put s c) ∧ SameCell e.cell c
      ∧ let a := e.cell.source w w.srcA
        let b := e.cell.source w w.srcB
        let k := e.cell.third w
        let le := fun x y : Word => if w.ty = 0 then x.toInt ≤ y.toInt else x.toNat ≤ y.toNat
        let done : Prop := if b.msb then le (k + b) a else le a (k + b)
        (done → Moved e.cell c w.deq w.out (.tok { data := k, tag := 1 }) ∧ Sparse.get c.l w.ldest.toNat = 0)
        ∧ (¬ done → Moved e.cell c w.deq w.out (.tok { data := k, tag := e.cell.outTag w }) ∧ Sparse.get c.l w.ldest.toNat = k + b)
        ∧ ∀ n, n ≠ w.ldest.toNat → Sparse.get c.l n = Sparse.get e.cell.l n)
    ∧ (Fires s e (.emit w) w → ∃ c, exec (.emit w) s = .next (e.put s c) ∧ SameCell e.cell c
      ∧ Moved e.cell c w.deq w.out (resultOf (e.cell.source w w.srcA) ((e.cell.source w w.srcB).extractLsb' 0 2) (e.cell.sourceStamp w.srcA)))
    ∧ (Fires s e (.sink w) w → ∃ c, exec (.sink w) s = .next (e.put s c) ∧ SameCell e.cell c
      ∧ Moved e.cell c w.deq w.out (resultOf (e.cell.source w w.srcA) (e.cell.outTag w) (e.cell.sourceStamp w.srcA)))
    ∧ (∀ q, e.region.active.port (w.imm.toNat % 8) = some q → Fires s e (.swait w) w →
      q.completed = true ∧ ∃ c, exec (.swait w) s = .next (e.put s c) ∧ SameCell e.cell c
      ∧ Moved e.cell c w.deq w.out (resultOf (BitVec.ofNat 32 q.pos) (e.cell.outTag w) 0))
    ∧ (Fires s e (.pent w) w → ∃ c, exec (.pent w) s = .next (e.put s c) ∧ SameCell e.cell c
      ∧ Moved e.cell c w.deq w.out (.tok (e.cell.head 0)))
    ∧ (Fires s e (.pexit w) w → ∃ c, exec (.pexit w) s = .next (e.put s c) ∧ SameCell e.cell c
      ∧ (∀ k, k < 4 → c.inq k = if w.deq.getLsbD k then (e.cell.inq k).tail else e.cell.inq k)
      ∧ ∀ k, k < 4 → c.outq k = (if w.out.getLsbD k then e.cell.outq k ++ [.tok (e.cell.head 0)] else e.cell.outq k)
          ++ if k = 1 then [.tok { data := 0, tag := 3 }] else [])

/-- isect fires by the tags and the coordinates of its two heads, row by row of R97's table: two data tokens of equal coordinates leave by out0 and
out1 and the lesser of two is dropped; data against last or end is dropped; two last tokens or two ends give one on each output, and an end against a
last outlives it; a control token is dequeued without effect. No other queue changes. -/
def Sys2Proof.Claims.IntersectionFires : Prop :=
  ∀ (w : SWord) (s : State) (e : PeEnv), Fires s e (.isect w) w →
    let a := e.cell.head 0
    let b := e.cell.head 1
    let x := (a.data.extractLsb' 16 16).toNat
    let y := (b.data.extractLsb' 16 16).toNat
    ∃ c, exec (.isect w) s = .next (e.put s c) ∧ SameCell e.cell c ∧ c.l = e.cell.l ∧ c.b = e.cell.b
      ∧ (∀ k, 2 ≤ k → k < 4 → c.inq k = e.cell.inq k ∧ c.outq k = e.cell.outq k)
      ∧ (a.tag = 0 → b.tag = 0 → x = y → Intersected e.cell c true true (some ({ data := a.data, tag := 0 }, { data := b.data, tag := 0 })))
      ∧ (a.tag = 0 → b.tag = 0 → x < y → Intersected e.cell c true false none)
      ∧ (a.tag = 0 → b.tag = 0 → y < x → Intersected e.cell c false true none)
      ∧ (a.tag = 0 → b.tag = 1 ∨ b.tag = 2 → Intersected e.cell c true false none)
      ∧ (a.tag = 1 ∨ a.tag = 2 → b.tag = 0 → Intersected e.cell c false true none)
      ∧ (a.tag = b.tag → a.tag = 1 ∨ a.tag = 2 →
          Intersected e.cell c true true (some ({ data := 0, tag := a.tag }, { data := 0, tag := a.tag })))
      ∧ (a.tag = 2 → b.tag = 1 → Intersected e.cell c false true none)
      ∧ (a.tag = 1 → b.tag = 2 → Intersected e.cell c true false none)
      ∧ (a.tag = 3 ∨ b.tag = 3 → Intersected e.cell c (a.tag == 3) (b.tag == 3) none)

/-- ldn, stn, atn and btok fire: the inputs are dequeued, each output keeps a place for the response, and the request joins its chain's queue
(R77, R92, R93). -/
def Obligations.MemoryNodeFires : Prop :=
  ∀ i ∈ [Instr.ldn, .stn, .atn, .btok], ∀ (w : SWord) (s : State) (e : PeEnv), Fires s e (i w) w →
    ∃ c q, exec (i w) s = .next ((e.put s c).modRegion e.tk fun r => r.modChain w.chain.toNat fun k => { k with queue := k.queue ++ [q] })
      ∧ Moved e.cell c w.deq w.out (.pend e.slot)
      ∧ c.l = e.cell.l ∧ c.b = e.cell.b ∧ c.slots = e.cell.slots ∧ c.routes = e.cell.routes ∧ c.links = e.cell.links
      ∧ q.col = e.cell.col ∧ q.row = e.cell.row ∧ q.slot = e.slot ∧ q.node = i w ∧ q.seq = w.seqNo.toNat
      ∧ q.addr = e.cell.source w w.srcA ∧ q.tag = e.cell.outTag w
      ∧ (i w ≠ .btok w → q.data = e.cell.source w w.srcB)
      ∧ q.skip = (decide (w.srcA.toNat < 4) && (e.cell.head w.srcA.toNat).tag == 3)

/-- xlat fires: a walk that fails, or a right that its page lacks, sends a failure token with bit 31 and the trap kind; otherwise the
translation enters the region's table in turn, in place of the entry there, whose tokens stay known as its own, and a translation token with its
number leaves (R89, R90, R460). -/
def Obligations.TranslationNodeFires : Prop :=
  ∀ (w : SWord) (s : State) (e : PeEnv), Fires s e (.xlat w) w →
    let va := pairOf (e.cell.source w w.srcA) (e.cell.source w w.srcB)
    match s.xlatLookup e.team.core (s.teamCtx e.team) va (w.var.getLsbD 0) (w.var.getLsbD 1) with
    | (.error k, t) => ∃ c, exec (.xlat w) s = .next (e.put t c)
        ∧ Moved e.cell c w.deq w.out (resultOf (BitVec.ofNat 32 (2 ^ 31 + k.code)) 3 0)
    | (.ok x, t) => ∃ c y, exec (.xlat w) s = .next ((e.put t c).modRegion e.tk fun r =>
          { (r.retireEntry (e.region.xlatNext % 16)) with
            xlat := listModify r.xlat (e.region.xlatNext % 16) fun _ => some y, xlatNext := (e.region.xlatNext % 16 + 1) % 16,
            stamps := e.region.stamps + 1 })
        ∧ y.pa = x.pa / x.size * x.size ∧ y.size = x.size ∧ y.txn = x.txn ∧ y.rd = w.var.getLsbD 0 ∧ y.w = w.var.getLsbD 1
        ∧ Moved e.cell c w.deq w.out (.tok { data := BitVec.ofNat 32 (e.region.xlatNext % 16), tag := 3, stamp := e.region.stamps + 1 })

/-- calln enters the callee: with room in the region's depth and a callee that can be configured, the caller's plane moves one place deeper and
the callee's becomes active with the argument in in0 of its PE (0, 0), and a fifth plane leaves the bytes of the spill area free; beyond the depth it
raises STACK, and a callee that cannot be configured raises its trap (R104, R106). -/
def Sys2Proof.Claims.CallEntersCallee : Prop :=
  ∀ (w : SWord) (s : State) (e : PeEnv), Fires s e (.calln w) w →
    (e.region.depth < e.region.shadows.length + e.region.spilled.length + 2 →
      exec (.calln w) s = .next (s.failRegion e.tk (SFault.trap .stack 0)))
    ∧ (∀ p, e.region.shadows.length + e.region.spilled.length + 2 ≤ e.region.depth →
        s.loadPlane e.team e.region (w.imm.toNat % 4) (e.region.loads + 1) = .ok p →
        ∃ q : Plane,
          (let u := (e.put s (e.cell.dequeue w.deq)).modRegion e.tk fun r =>
            { r with active := q, shadows := (r.active :: r.shadows).take 3, spilled := (r.active :: r.shadows).drop 3 ++ r.spilled,
                     oldPlanes := [], loads := r.loads + 1, epoch := r.epoch + 1 }
           exec (.calln w) s = .next (if e.region.shadows.length < 3 then u else u.blurSpan e.team true))
          ∧ q.cfg = p.cfg ∧ q.caller = some (e.cell.col, e.cell.row, e.slot)
          ∧ ∀ c, p.cell 0 0 = some c → q.cell 0 0 = some { c with ins := listModify c.ins 0 fun l =>
              l ++ [{ data := e.cell.source w w.srcA, tag := 0, stamp := e.cell.sourceStamp w.srcA }] })
    ∧ ∀ k, e.region.shadows.length + e.region.spilled.length + 2 ≤ e.region.depth →
        s.loadPlane e.team e.region (w.imm.toNat % 4) (e.region.loads + 1) = .error k →
        exec (.calln w) s = .next (s.failRegion e.tk (SFault.trap k 0))

/-- retn gives the caller its value and thaws its plane; with no call outstanding it raises STACK (R107). -/
def Sys2Proof.Claims.ReturnThawsCaller : Prop :=
  ∀ (w : SWord) (s : State) (e : PeEnv), Fires s e (.retn w) w →
    (∀ p rest col row slot, e.region.shadows = p :: rest → e.region.active.caller = some (col, row, slot) →
      exec (.retn w) s = .next (s.modRegion e.tk fun r =>
        { r with active := p.returned col row slot (e.cell.source w w.srcA) (e.cell.sourceStamp w.srcA), shadows := rest, oldPlanes := [], epoch := r.epoch + 1,
                 fired := true }))
    ∧ (e.region.shadows = [] → exec (.retn w) s = .next (s.failRegion e.tk (SFault.trap .stack 0)))

/-- next records the configuration that the region takes once it has drained; a second one while the first is pending raises CONFIG, and so does
one whose mport would not stand beside the matrix port (R108, R193). -/
def Sys2Proof.Claims.NextIsPendingOnce : Prop :=
  ∀ (w : SWord) (s : State) (e : PeEnv), Fires s e (.next w) w →
    (e.region.active.pendingNext = none → s.mportAstray e.team e.region (w.imm.toNat % 4) = false → ∃ c, exec (.next w) s = .next ((e.put s c).modPlane e.tk fun p =>
          { p with pendingNext := some (w.imm.toNat % 4) })
        ∧ Moved e.cell c w.deq 0 (.pend 0))
    ∧ (e.region.active.pendingNext.isSome = true ∨ s.mportAstray e.team e.region (w.imm.toNat % 4) = true → exec (.next w) s = .next (s.failRegion e.tk (SFault.trap .config 0)))

/-- mport: every firing takes the heads of in0 and in1. A pair of data tokens adds its product to the sum; a pair of last tokens appends the sum
to the span buffer for the element that B names, starts a new sum and sends the index, and raises ACCLIMIT where its tile is not bound; a pair of
end tokens sends an end token; of other pairs nothing is done (R193, R419). -/
def Obligations.MatrixPortAccumulates : Prop :=
  ∀ (w : SWord) (s : State) (e : PeEnv), Fires s e (.mport w) w →
    ((e.cell.head 0).tag = 0 → (e.cell.head 1).tag = 0 → ∃ c, exec (.mport w) s = .next (e.put s c)
        ∧ Moved e.cell c (w.deq ||| 3) 0 (.pend 0) ∧ SameCell e.cell c
        ∧ c.sum = Value.exact (fmaValue .rn
            (readFloat (if w.ty = 1 then .f16 else .bf16) (s.teamLevel e.team) ((e.cell.head 0).data.toNat % 2 ^ 16))
            (readFloat (if w.ty = 1 then .f16 else .bf16) (s.teamLevel e.team) ((e.cell.head 1).data.toNat % 2 ^ 16)) e.cell.sum))
    ∧ ((e.cell.head 0).tag = 1 → (e.cell.head 1).tag = 1 → (Table.find e.team.tiles (w.imm.toNat % 16)).isSome = true →
        let sum := writeFloat .f32 { mode := .rn, sat := false, level := s.teamLevel e.team, conv := false, f32ToF16 := false }
          (Exact.toValue e.cell.sum)
        ∃ c, exec (.mport w) s = .next ((e.put s c).bufferSpan e.tk e.team (.mport (w.imm.toNat % 16)) none (.scratch 0) 0
          (BitVec.ofNat 64 ((e.cell.source w w.srcB).toNat % 4096 * 2 ^ 32 + sum)) e.region.epoch)
        ∧ c.sum = .fin false 0 0
        ∧ Moved e.cell c (w.deq ||| 3) w.out (.tok { data := BitVec.ofNat 32 ((e.cell.source w w.srcB).toNat % 4096), tag := e.cell.outTag w }))
    ∧ ((e.cell.head 0).tag = 2 → (e.cell.head 1).tag = 2 → ∃ c, exec (.mport w) s = .next (e.put s c) ∧ c.sum = e.cell.sum
        ∧ Moved e.cell c (w.deq ||| 3) w.out (.tok { data := 0, tag := 2 }))
    ∧ ((e.cell.head 0).tag = 3 ∨ (e.cell.head 1).tag = 3 ∨ (e.cell.head 0).tag ≠ (e.cell.head 1).tag →
        ∃ c, exec (.mport w) s = .next (e.put s c) ∧ c.sum = e.cell.sum ∧ Moved e.cell c (w.deq ||| 3) 0 (.pend 0))
    ∧ ((e.cell.head 0).tag = 1 → (e.cell.head 1).tag = 1 → Table.find e.team.tiles (w.imm.toNat % 16) = none →
        exec (.mport w) s = .next (s.failRegion e.tk (SFault.trap .acclimit 0)))

/-- eqpn fires and ends the span: no cell acts on its token before the span's entries have performed (R385). -/
def Sys2Proof.Claims.EpointNodeEndsSpan : Prop :=
  ∀ (w : SWord) (s : State) (e : PeEnv), Fires s e (.eqpn w) w →
    ∃ c, exec (.eqpn w) s = .next (((e.put s c).modRegion e.tk fun r =>
        { r with closing := some (e.cell.col, e.cell.row, e.slot), atnDone := false }).closeSpan e.tk)
      ∧ Moved e.cell c w.deq w.out (resultOf (e.cell.source w w.srcA) (e.cell.outTag w) (e.cell.sourceStamp w.srcA))

/-- conv takes one action of its converter node: the head of its input queue is converted, packed or unpacked, unless two results wait
(R371, R372). -/
def Sys2Proof.Claims.ConverterActs : Prop :=
  ∀ (w : SWord) (s : State) (tk : Nat) (t : Team) (v : Conv), s.convEnv = some (tk, t, v) →
    exec (.conv w) s = .next (s.modPlane tk fun p => p.modConv v.k fun v => { v with word := w }.step (s.teamLevel t))
    ∧ (∀ x rest, v.inq = x :: rest → v.outq.length < 2 → w.imm.extractLsb' 14 2 = 0 → (x.tag = 0 ∨ x.tag = 1) →
        ({ v with word := w }.step (s.teamLevel t)).inq = rest
        ∧ ({ v with word := w }.step (s.teamLevel t)).outq =
            v.outq ++ [{ data := BitVec.ofNat 32 (convWord w (s.teamLevel t) x.data.toNat), tag := x.tag }])
    ∧ (2 ≤ v.outq.length → ({ v with word := w }.step (s.teamLevel t)) = { v with word := w })

namespace Sys2Proof.Claims

-- ## Memory

/-- The checks of the guarded lanes of an access of n bytes at virtual addresses, in ascending order (R151). -/
def virtualLanes (e : Env) (g : Guard) (n : Nat) (k : AccessKind) (addr : Nat → BitVec 64) (s : State) :
    List (Nat × Loc) × Option LaneFault × State :=
  checkLanes (fun l s => atAddr (addr l) (e.checkVirtual s (addr l) n n k)) (lanesOf (e.guard g)) s []

/-- The checks of the guarded lanes of an access of n bytes at offsets into the team's scratchpad range (R201). -/
def teamLanes (e : Env) (g : Guard) (n : Nat) (addr : Nat → BitVec 64) (s : State) : List (Nat × Loc) × Option LaneFault × State :=
  checkLanes (fun l s => atAddr (addr l) (e.checkTeam s (addr l) n n, s)) (lanesOf (e.guard g)) s []

/-- The pending register writes of a load of n bytes into register d of each lane of a list, 128 bits as two halves. -/
def pendingWrites (e : Env) (d n : Nat) (acq : Bool) (ok : List (Nat × Loc)) :
    List (RegDst × Option RegDst × Loc × Nat × Option (BitVec 64) × Bool) :=
  ok.flatMap fun x =>
    let r := fun k => RegDst.v (e.grp.vSlot e.ring (d + k)) x.1
    if n = 16 then [(r 0, some (r 1), x.2, 8, none, acq), (r 2, some (r 3), x.2.plus 8, 8, none, acq)]
    else if n = 8 then [(r 0, some (r 1), x.2, 8, none, acq)] else [(r 0, none, x.2, n, none, acq)]

/-- The stores of n bytes of register d of each lane of a list, 128 bits as two halves. -/
def pendingStores (e : Env) (d n : Nat) (rel : Bool) (ok : List (Nat × Loc)) : List (Nat × Bool × Loc × Nat × BitVec 64) :=
  ok.flatMap fun x =>
    if n = 16 then [(x.1, rel, x.2, 8, e.readVPair d x.1), (x.1, rel, x.2.plus 8, 8, e.readVPair (d + 2) x.1)]
    else if n = 8 then [(x.1, rel, x.2, 8, e.readVPair d x.1)] else [(x.1, rel, x.2, n, (e.readV d x.1).setWidth 64)]

/-- A load of n bytes into register d of the lanes ok goes on from state t: its register writes are pending behind those of e, and no
register and no byte of memory has changed. -/
def LoadIssued (i : Instr) (s : State) (e : Env) (d n : Nat) (acq : Bool) (ok : List (Nat × Loc)) (t : State) : Prop :=
  ∃ l k, exec i s = .next (e.finish { e.grp with loads := e.grp.loads ++ l, seq := k } t)
    ∧ l.map (fun x => (x.dst, x.pair, x.loc, x.bytes, x.known, x.acq)) = pendingWrites e d n acq ok

/-- A store of n bytes of register d of the lanes ok goes on from state t: its stores wait behind those of e, ordered after its fences. -/
def StoreIssued (i : Instr) (s : State) (e : Env) (d n : Nat) (rel : Bool) (ok : List (Nat × Loc)) (t : State) : Prop :=
  ∃ l k, exec i s = .next (e.finish { e.grp with stores := e.grp.stores ++ l, seq := k } t)
    ∧ l.map (fun x => (x.lane, x.rel, x.loc, x.bytes, x.data)) = pendingStores e d n rel ok
    ∧ ∀ x ∈ l, x.after = e.grp.fence

/-- A memory trap of a lane in T form: nothing is done (R151, R286). -/
def LaneTrapped (i : Instr) (s : State) (e : Env) (k : AccessKind) (f : LaneFault) (t : State) : Prop :=
  exec i s = .next (e.trapWith t e.grp f.kind (accessDetail f.kind k) f.addr (BitVec.ofNat 32 f.lane) false)

/-- A memory trap of an element in V form: the group, with the effect on the elements below in it, stands in T form as two paths (R70). -/
def ElementTrapped (i : Instr) (s : State) (e : Env) (k : AccessKind) (f : LaneFault) (t : State) (below : Group → Prop) : Prop :=
  ∃ g, below g ∧ exec i s = .next (e.trapWith t (e.divergeAt t g f.lane) f.kind (accessDetail f.kind k) f.addr (BitVec.ofNat 32 f.lane) false)

/-- One byte at a location, as a view reads it. -/
def byteAt (s : State) (view : List (Nat × Nat)) (l : Loc) : List Byte := s.readLoc view l 1

end Sys2Proof.Claims

-- ## Memory instructions

/-- ld, lds and ldv whose guarded lanes pass their checks complete: each lane's register write is pending for the bytes at its address, and
nothing else changes (R62, R403, R404, R408). -/
def Sys2Proof.Claims.LoadIssuesPendingWrites : Prop :=
  ∀ (w : MWord) (s : State) (e : Env) (ok : List (Nat × Loc)) (t : State), s.env = some e → e.grp.acquiring = false →
    let n := widthBytes w.width
    (e.hazard (memUses w (dataRegs w.d.toNat n) []) = false → virtualLanes e w.g n .read (e.memAddr w) s = (ok, none, t) →
      LoadIssued (.ld w) s e w.d.toNat n (w.order == 1) ok t)
    ∧ (e.hazard (memUses w (dataRegs w.d.toNat n) []) = false → teamLanes e w.g n (e.memAddr w) s = (ok, none, t) →
      LoadIssued (.lds w) s e w.d.toNat n (w.order == 1) ok t)
    ∧ (e.hazard (vectorUses w (dataRegs w.d.toNat n)) = false → virtualLanes e w.g n .read (e.vectorAddr w) s = (ok, none, t) →
      LoadIssued (.ldv w) s e w.d.toNat n (w.order == 1) ok t)

/-- ldc loads once for its group, where Guard holds in some lane: the write of its s-register or pair is pending; prf completes and changes
nothing but the path (R406, R429). -/
def Sys2Proof.Claims.UniformLoadAndPrefetch : Prop :=
  ∀ (w : MWord) (s : State) (e : Env), s.env = some e →
    let n := widthBytes w.width
    let a := e.grp.readSPair w.base.toNat + w.imm.signExtend 64
    (e.hazard { v := [], s := [w.base.toNat, w.base.toNat + 1] ++ dataRegs w.d.toNat n } = false → e.grp.acquiring = false →
      (e.guard w.g = 0 → exec (.ldc w) s = .next (e.finish e.grp s))
      ∧ (∀ l t, e.guard w.g ≠ 0 → e.checkVirtual s a n n .read = (.ok l, t) →
          ∃ x k, exec (.ldc w) s = .next (e.finish { e.grp with loads := e.grp.loads ++ [x], seq := k } t)
            ∧ x.dst = .s w.d.toNat ∧ x.pair = (if n = 8 then some (.s (w.d.toNat + 1)) else none) ∧ x.loc = l ∧ x.bytes = n ∧ x.known = none))
    ∧ (e.hazard (memUses w [] []) = false → exec (.prf w) s = .next (e.finish e.grp s))

/-- st, sts and stv whose guarded lanes pass their checks complete: each lane's store waits to perform at its address, and no register and no
byte of memory has changed yet (R222, R445, R450). -/
def Sys2Proof.Claims.StoreIssuesPendingStores : Prop :=
  ∀ (w : MWord) (s : State) (e : Env) (ok : List (Nat × Loc)) (t : State), s.env = some e → e.grp.acquiring = false →
    e.firstFull t ok = none →
    let n := widthBytes w.width
    (e.hazard (memUses w (dataRegs w.d.toNat n) []) = false → virtualLanes e w.g n .write (e.memAddr w) s = (ok, none, t) →
      StoreIssued (.st w) s e w.d.toNat n (w.order == 2) ok t)
    ∧ (e.hazard (memUses w (dataRegs w.d.toNat n) []) = false → teamLanes e w.g n (e.memAddr w) s = (ok, none, t) →
      StoreIssued (.sts w) s e w.d.toNat n (w.order == 2) ok t)
    ∧ (e.hazard (vectorUses w (dataRegs w.d.toNat n)) = false → virtualLanes e w.g n .write (e.vectorAddr w) s = (ok, none, t) →
      StoreIssued (.stv w) s e w.d.toNat n (w.order == 2) ok t)

/-- A load, store or atomic with a lane that fails a check traps with the failing check of the lowest such lane, its address and its number. In T
form nothing is done in any lane. In V form a load or store is done for the elements below, and the group stands in T form as two paths, those
elements past the word and the others at it (R70, R151, R286). -/
def Obligations.FailingLaneTrapsWithoutEffect : Prop :=
  ∀ (w : MWord) (s : State) (e : Env) (ok : List (Nat × Loc)) (f : LaneFault) (t : State), s.env = some e → e.grp.acquiring = false →
    let n := widthBytes w.width
    (e.vform = false →
      (e.hazard (memUses w (dataRegs w.d.toNat n) []) = false →
        (virtualLanes e w.g n .read (e.memAddr w) s = (ok, some f, t) → LaneTrapped (.ld w) s e .read f t)
        ∧ (virtualLanes e w.g n .write (e.memAddr w) s = (ok, some f, t) → LaneTrapped (.st w) s e .write f t)
        ∧ (teamLanes e w.g n (e.memAddr w) s = (ok, some f, t) → LaneTrapped (.lds w) s e .read f t ∧ LaneTrapped (.sts w) s e .write f t))
      ∧ (e.hazard (atomUses w (dataRegs w.data.toNat n)) = false →
        (virtualLanes e w.g n .atomic (e.atomAddr w) s = (ok, some f, t) → LaneTrapped (.atom w) s e .atomic f t)
        ∧ (teamLanes e w.g n (e.atomAddr w) s = (ok, some f, t) → LaneTrapped (.atoms w) s e .atomic f t)))
    ∧ (e.vform = true → e.hazard (memUses w (dataRegs w.d.toNat n) []) = false →
        (virtualLanes e w.g n .read (e.memAddr w) s = (ok, some f, t) → ElementTrapped (.ld w) s e .read f t fun g => ∃ l k,
            g = { e.grp with loads := e.grp.loads ++ l, seq := k }
            ∧ l.map (fun x => (x.dst, x.pair, x.loc, x.bytes, x.known, x.acq)) = pendingWrites e w.d.toNat n (w.order == 1) ok)
        ∧ (virtualLanes e w.g n .write (e.memAddr w) s = (ok, some f, t) → e.firstFull t ok = none →
          ElementTrapped (.st w) s e .write f t fun g => ∃ l k, g = { e.grp with stores := e.grp.stores ++ l, seq := k }
            ∧ l.map (fun x => (x.lane, x.rel, x.loc, x.bytes, x.data)) = pendingStores e w.d.toNat n (w.order == 2) ok))

/-- A load, store or wait of a group with an acquire that has not performed waits (R221). -/
def Sys2Proof.Claims.AcquireHoldsBackLaterAccesses : Prop :=
  ∀ i ∈ [Instr.ld, .lds, .ldv, .ldc, .st, .sts, .stv, .atom, .atoms, .cas, .cass, .barinit, .arrive, .cwait, .wait],
    ∀ (w : MWord) (s : State) (e : Env), s.env = some e → e.grp.acquiring = true →
      exec (i w) s = .next (e.waitOn .scoreboard s) ∨ exec (i w) s = .next (e.waitOn .ordering s)

/-- load completion: a load that may take its value takes it and writes its register or pair with it. Every other register, the window base, the
frames and return records, the flags, stores and paths of the group stay, and so do every other group and all of memory. The value is that of the
newest of the stores to its bytes that the read shows, which are all that it must show (its group's own earlier ones, and those that the group has seen
or been told of), and for an acquire at dev or wider all that the group can see; with none to show it is memory's, as it stands or as it stood before an
event that the group need not have seen, where no engine is writing there. A read of a poisoned line raises ECC and writes nothing (R62, R215, R220,
R222, R224).
The choices of the model that it rests on: log 50, 51, 86. -/
def Obligations.LoadCompletionWritesRegister : Prop :=
  (∀ (r : GroupRef) (idx : Nat) (s : State) (g : Group) (l : PendLoad), s.findGroup r = some g → g.loads[idx]? = some l →
    s.loadMayRun r g l = true →
    let bad := l.known = none ∧ s.poisoned l.loc = true ∧ wholeStore l.loc l.bytes (s.mustShow r (s.viewOfRef r) g l.seq l.loc l.bytes) = none
    let x : BitVec 64 := match l.known with
      | some x => x
      | none => BitVec.ofNat 64 (ofLeBytes (s.sample r (s.viewOfRef r) g l.seq l.loc l.bytes l.acquireScope).1)
    (bad → g.hasTrap = false → exec (.loadCompletion r idx) s = .next (s.asyncTrap r g .ecc 2 (l.va.getD 0) l.dst.trapLane))
    ∧ (¬ bad → ∃ t h, exec (.loadCompletion r idx) s = .next t ∧ t.findGroup r = some h
      ∧ h.loads = listDrop g.loads idx ∧ h.p = g.p ∧ h.flags = g.flags ∧ h.stores = g.stores ∧ h.paths = g.paths
      ∧ h.base = g.base ∧ h.frames = g.frames ∧ h.rets = g.rets
      ∧ (∀ q, q ≠ r → t.findGroup q = s.findGroup q)
      ∧ (∀ slot lane, l.dst = .v slot lane → l.pair = none → h.s = g.s
          ∧ (g.present.getLsbD lane = true → Sparse.get h.v (vKey slot lane) = loWord x)
          ∧ ∀ k, k ≠ vKey slot lane → Sparse.get h.v k = Sparse.get g.v k)
      ∧ (∀ slot next lane, l.dst = .v slot lane → l.pair = some (.v next lane) → slot ≠ next → lane < 64 → h.s = g.s
          ∧ (g.present.getLsbD lane = true → Sparse.get h.v (vKey slot lane) = loWord x ∧ Sparse.get h.v (vKey next lane) = hiWord x)
          ∧ ∀ k, k ≠ vKey slot lane → k ≠ vKey next lane → Sparse.get h.v k = Sparse.get g.v k)
      ∧ (∀ n, l.dst = .s n → l.pair = none → h.v = g.v ∧ h.readS n = loWord x ∧ ∀ k, k ≠ n → h.readS k = g.readS k)
      ∧ (∀ n m, l.dst = .s n → l.pair = some (.s m) → n ≠ m → h.v = g.v ∧ h.readS n = loWord x ∧ h.readS m = hiWord x
          ∧ ∀ k, k ≠ n → k ≠ m → h.readS k = g.readS k)
      ∧ ∀ view m, byteAt t view m = byteAt s view m))
  ∧ ∀ (r : GroupRef) (s : State) (view : List (Nat × Nat)) (g : Group) (seq : Nat) (l : Loc) (n : Nat) (acq : Option Nat),
      s.readable r view g seq l n acq = true →
      let zs := s.overlying r view g seq l n
      let value := (s.sample r view g seq l n acq).1
      ∃ k, k ≤ zs.length ∧ (s.mustShow r view g seq l n).length ≤ k ∧ (∀ c, acq = some c → homeScope ≤ c → k = zs.length)
        ∧ (∀ x, (zs.take k).getLast? = some x → (∀ y ∈ zs, y.2.loose = false) → value = overlay l n (List.replicate n 0) x.2.loc x.2.bytesOf)
        ∧ (k = 0 → (∀ j, j < n → s.inflightByte view (l.plus j) = none) →
            value = s.readLoc view l n ∨ (∀ c, acq = some c → c < 2) ∧ ∃ m ∈ s.staleStamps r view l n, value = s.readLocAt (m - 1) view l n)

/-- store acknowledge: a store that may perform at the next wider scope does, behind those that have arrived there, and in the end at its home, a
peer's memory at once: its bytes then stand at its location, every other byte is as before, and the group holds the store no longer. Before that, memory
is as before. Groups that wait for the order of accesses, and spans, go on then where they can. Where its shadow finds no room, a store of the oldest
uncommitted launch raises SHADOW (R217, R222, R257, R308).
The choices of the model that it rests on: log 50, 86. -/
def Sys2Proof.Claims.StorePerformsAtItsLocation : Prop :=
  ∀ (r : GroupRef) (idx : Nat) (s : State) (g : Group) (x : PendStore), s.findGroup r = some g → g.stores[idx]? = some x →
    s.storeMayRun r g x = true →
    (x.level < 3 → x.loc.atPeer = false → ∃ t : State, exec (.storeAcknowledge r idx) s = .next t.reorder.closeSpans
      ∧ t.mem = s.mem ∧ t.scratch = s.scratch ∧ t.shadows = s.shadows ∧ t.arrivals = s.arrivals + 1
      ∧ ∃ h, t.findGroup r = some h ∧ h.stores = listModify g.stores idx (fun y => { y with level := x.level + 1, arr := s.arrivals + 1 })
        ∧ h.v = g.v ∧ h.s = g.s ∧ h.p = g.p ∧ h.loads = g.loads ∧ h.paths = g.paths)
    ∧ (3 ≤ x.level ∨ x.loc.atPeer = true → s.storeBlocked r x.loc = none →
      ∃ t : State, exec (.storeAcknowledge r idx) s = .next t.reorder.sweepLeft.closeSpans
      ∧ t.readLoc (s.viewOfRef r) x.loc x.bytes = leBytes x.bytes x.data.toNat
      ∧ (∀ m, x.loc.overlaps x.bytes m 1 = false → byteAt t (s.viewOfRef r) m = byteAt s (s.viewOfRef r) m)
      ∧ ∃ h, t.findGroup r = some h ∧ h.stores = listDrop g.stores idx ∧ h.v = g.v ∧ h.s = g.s ∧ h.p = g.p ∧ h.loads = g.loads
        ∧ h.paths = g.paths)
    ∧ (3 ≤ x.level ∨ x.loc.atPeer = true → s.storeBlocked r x.loc = some true → g.hasTrap = false →
        exec (.storeAcknowledge r idx) s = .next (s.asyncTrap r g .shadow 0 (x.va.getD 0) (BitVec.ofNat 32 x.lane)))

/-- A write puts its bytes at its location and leaves every other byte, as the view that wrote it reads memory (R249).
The choices of the model that it rests on: log 4. -/
def Sys2Proof.Claims.WriteThenReadMemory : Prop :=
  ∀ (s : State) (view : List (Nat × Nat)) (l : Loc) (bs : List Byte),
    (s.writeLoc view l bs).readLoc view l bs.length = bs
    ∧ ∀ m, l.overlaps bs.length m 1 = false → byteAt (s.writeLoc view l bs) view m = byteAt s view m

/-- atom, atoms, cas, cass and arrive whose lanes pass their checks and have nothing to wait for complete: the lanes perform one after the other,
in ascending order, each as one event. The event of a lane replaces the value at its address by the operation's result (cas and cass only where
the old value is the expected one), returns the old value (arrive: the phase) as the pending write of d, and leaves every other byte and register
(R225, R348, R351, R364). Only a lane that writes needs the release of its order and room in the shadow, and each lane at a memory tile charges that
tile's core 1 (R100). An acquire at the scope has then performed, and a release arrival tells its objects of the bindings made before it (R302).
The choices of the model that it rests on: log 50, 51. -/
def Sys2Proof.Claims.AtomicUpdatesItsAddress : Prop :=
  (∀ (w : MWord) (s : State) (e : Env) (ok : List (Nat × Loc)) (t : State), s.env = some e → e.grp.acquiring = false →
    let n := widthBytes w.width
    let value := fun l => e.dataValue w.data.toNat n l
    let atomOf := fun l old => some (atomResult w.aop.toNat n e.level old (value l))
    let casOf := fun l (old : Nat) => if old = value l then some (e.dataValue (w.data.toNat + n / 4) n l) else none
    let done := fun (i : Instr) (f : Nat → Nat → Option Nat) => ∀ a g ws u,
      e.atomLanes w.d n (e.pubs (releaseScope w)) f ok t e.grp [] = (a, g, ws) →
      (∀ x ∈ ok, e.mustWait t n x = false) → (∀ x ∈ ws, e.mustRelease t (releaseScope w) x = false) → e.firstFull t ws = none →
      a.chargeAll (tileCharges ok) = .ok u → exec i s = .next (e.acquired (acquireScope w) (e.finish (u.noted e.gref g) u))
    (e.hazard (atomUses w (dataRegs w.data.toNat n)) = false →
      (virtualLanes e w.g n .atomic (e.atomAddr w) s = (ok, none, t) → done (.atom w) atomOf)
      ∧ (teamLanes e w.g n (e.atomAddr w) s = (ok, none, t) → done (.atoms w) atomOf))
    ∧ (e.hazard (atomUses w (dataRegs w.data.toNat (2 * n))) = false →
      (virtualLanes e w.g n .atomic (e.atomAddr w) s = (ok, none, t) → done (.cas w) casOf)
      ∧ (teamLanes e w.g n (e.atomAddr w) s = (ok, none, t) → done (.cass w) casOf))
    ∧ (e.hazard (memUses w (if w.d == 0xFF then [] else [w.d.toNat]) []) = false →
      checkLanes (fun l s => e.checkBarrier s w .atomic l) (lanesOf (e.guard w.g)) s [] = (ok, none, t) →
      (∀ x ∈ ok, e.mustWait t 16 x = false) → (∀ x ∈ ok, e.mustRelease t (arriveScope w) x = false) → e.firstFull t ok = none →
      ∀ u a g ps, t.chargeAll (tileCharges ok) = .ok u → e.arriveLanes w.d (e.pubs (arriveScope w)) ok u e.grp [] = (a, g, ps) →
      let b := match arriveScope w with
        | some k => a.tellTiles e.gref k ps
        | none => a
      exec (.arrive w) s = .next (e.finish (b.noted e.gref g) b)))
  ∧ ∀ (e : Env) (d : BitVec 8) (n : Nat) (pubs : List Pub) (f : Nat → Nat → Option Nat) (x : Nat × Loc) (rest ws : List (Nat × Loc))
      (ps : List (Loc × Nat)) (s : State) (g : Group),
      (∀ k, k < 16 → s.inflightByte (e.view s) (x.2.plus k) = none) →
      let event := fun (n : Nat) (new : Nat → Option Nat) (ret : Nat → Nat) (pair : Bool) (u : State) (h : Group) =>
        let old := ofLeBytes (s.readLoc (e.view s) x.2 n)
        (u.readLoc (e.view s) x.2 n = match new old with
            | some v => leBytes n v
            | none => s.readLoc (e.view s) x.2 n)
        ∧ (∀ m, x.2.overlaps n m 1 = false → byteAt u (e.view s) m = byteAt s (e.view s) m)
        ∧ h.v = g.v ∧ h.s = g.s ∧ h.p = g.p ∧ h.stores = g.stores
        ∧ h.loads.map (fun y => (y.dst, y.pair, y.known)) = g.loads.map (fun y => (y.dst, y.pair, y.known)) ++ if d = 0xFF then [] else
            [(RegDst.v (e.grp.vSlot e.ring d.toNat) x.1, if pair then some (RegDst.v (e.grp.vSlot e.ring (d.toNat + 1)) x.1) else none,
              some (BitVec.ofNat 64 (ret old)))]
      (n ≤ 16 → ∃ u h, event n (f x.1) id (n == 8) u h ∧ e.atomLanes d n pubs f (x :: rest) s g ws = e.atomLanes d n pubs f rest u h
          (if (f x.1 (ofLeBytes (s.readLoc (e.view s) x.2 n))).isSome then ws ++ [x] else ws))
      ∧ ∃ u h, e.arriveLanes d pubs (x :: rest) s g ps = e.arriveLanes d pubs rest u h
            (ps ++ [(x.2, natBits (ofLeBytes (s.readLoc (e.view s) x.2 16)) 95 64)])
          ∧ event 16 (fun o => some (arriveResult o)) (fun o => natBits o 95 64) false u h

/-- barinit stores a whole barrier object of 16 bytes, expected and pending counts at the register's value, 0 counting as 1 (R352). -/
def Sys2Proof.Claims.BarrierInitStoresObject : Prop :=
  ∀ (w : MWord) (s : State) (e : Env) (ok : List (Nat × Loc)) (t : State), Issues s e (memUses w [w.d.toNat] []) → e.grp.acquiring = false →
    checkLanes (fun l s => e.checkBarrier s w .write l) (lanesOf (e.guard w.g)) s [] = (ok, none, t) → e.firstFull t ok = none →
    ∃ l k, exec (.barinit w) s = .next (e.finish { e.grp with stores := e.grp.stores ++ l, seq := k } t)
      ∧ l.map (fun x => (x.lane, x.loc, x.bytes, x.data)) = ok.map fun x =>
          let c : Word := if e.readV w.d.toNat x.1 = 0 then 1 else e.readV w.d.toNat x.1
          (x.1, x.2, 16, pairOf c c)

/-- arrive counts: the last pending arrival starts the next phase with the expected count, every other one lowers the pending count (R348). -/
def Sys2Proof.Claims.ArrivalCountsDown : Prop :=
  ∀ o : Nat, o < 2 ^ 128 →
    let expected := o % 2 ^ 32
    let pending := o / 2 ^ 32 % 2 ^ 32
    let phase := o / 2 ^ 64 % 2 ^ 32
    let new := arriveResult o
    new % 2 ^ 32 = expected ∧ new / 2 ^ 96 % 2 ^ 32 = o / 2 ^ 96 % 2 ^ 32
    ∧ (2 ≤ pending → pending ≤ expected → new / 2 ^ 32 % 2 ^ 32 = pending - 1 ∧ new / 2 ^ 64 % 2 ^ 32 = phase)
    ∧ (pending = 1 → 1 ≤ expected → new / 2 ^ 32 % 2 ^ 32 = expected ∧ new / 2 ^ 64 % 2 ^ 32 = (phase + 1) % 2 ^ 32)

/-- cwait and wait read the word of every lane: with no lane left whose word is equal to its register they complete, else the group waits for
those lanes, and wait then cancels its team's armed hop. A lane whose word differs has performed its read as an acquire where the order says so, and
of wait its group has learnt from the object and the completed phase which tiles are bound. The word of a wait is read at the home of its object (R127,
R302, R376, R458).
The choices of the model that it rests on: log 52, 97. -/
def Sys2Proof.Claims.WaitCompletesOnChange : Prop :=
  ∀ (w : MWord) (s : State) (e : Env) (ok : List (Nat × Loc)) (t : State), s.env = some e → e.grp.acquiring = false →
    let n := widthBytes w.width
    let reads := fun (i : Instr) (acq : Option Nat) (isWait : Bool) (lane : Nat → Loc → WaitLane) =>
      let l := ok.map fun x => lane x.1 x.2
      let left := (e.readLanes (readScope isWait acq) l t).1
      let u := (e.readLanes (readScope isWait acq) l t).2
      let h : Env := { e with grp := u.noted e.gref e.grp }
      let done := l.filter fun x => left.all fun y => y.lane != x.lane
      let seen := fun s : State => match acq with
        | some k => if done = [] then s
            else if isWait then done.foldl (fun s x => s.waited e.gref k x) (s.acquire e.gref k e.grp.seq) else s.acquire e.gref k e.grp.seq
        | none => s
      (left = [] → exec i s = .next (seen (h.finish h.grp u)))
      ∧ (left ≠ [] → exec i s = .next ((seen (h.waitOn (.lanes acq isWait none left) u)).enterWait e.gref isWait))
    (e.hazard (memUses w (dataRegs w.d.toNat n) []) = false → virtualLanes e w.g n .read (e.memAddr w) s = (ok, none, t) →
      reads (.cwait w) (cwaitScope w) false fun l loc =>
        { lane := l, loc := loc, bytes := n, value := BitVec.ofNat 64 (e.dataValue w.d.toNat n l), va := loc.virtualAt (e.memAddr w l) })
    ∧ (e.hazard (memUses w [w.d.toNat] []) = false →
      checkLanes (fun l s => e.checkBarrier s w .read l) (lanesOf (e.guard w.g)) s [] = (ok, none, t) →
      reads (.wait w) (some w.scope.toNat) true fun l loc =>
        { lane := l, loc := loc.plus 8, bytes := 4, value := (e.readV w.d.toNat l).setWidth 64, va := loc.virtualAt (e.memAddr w l + 8) })

/-- The read of a waiting lane's word ends its wait if the word can be read, no older load of the group stands before it, and it differs from the
lane's value (R231, R376). -/
def Sys2Proof.Claims.WaitingLaneReadsItsWord : Prop :=
  ∀ (e : Env) (s : State) (acq : Option Nat) (l : Loc) (x : WaitLane),
    let may := !e.grp.overlapsLoad e.grp.seq l x.bytes && s.readable e.gref (e.view s) e.grp e.grp.seq l x.bytes acq
    (may = false → e.readLane s acq l x = (false, s))
    ∧ (may = true → e.readLane s acq l x =
        (ofLeBytes (s.sample e.gref (e.view s) e.grp e.grp.seq l x.bytes acq).1 != x.value.toNat,
         (s.sample e.gref (e.view s) e.grp e.grp.seq l x.bytes acq).2))

/-- cwait poll and wait poll of a waiting lane: while its read does not end its wait, nothing else happens; a read that does leaves the group
waiting for the other lanes, and the last lane's completes the instruction. Where an element failed its checks, or where a read's translation has been
taken away, the group then is Ready and owes the trap, which it takes once it issues: in V form only once the elements below have gone on waiting to their
end (R42, R70, R206, R302, R376, R458). -/
def Sys2Proof.Claims.PollEndsWaitOnChange : Prop :=
  ∀ (isWait : Bool) (r : GroupRef) (lane : Nat) (s u : State) (g : Group) (e : Env) (acq : Option Nat) (bad : Option LaneFault)
    (l : List WaitLane) (x : WaitLane),
    s.findGroup r = some g → s.running r = true → g.state = .waiting (.lanes acq isWait bad l) → s.waitEnv r = some e →
    (l.find? fun y => y.lane == lane) = some x →
    let i := if isWait then Instr.waitPoll r lane else .cwaitPoll r lane
    let rest := l.filter fun y => y.lane != lane
    let h : Env := { e with grp := u.noted e.gref e.grp }
    let seen := fun s : State => match acq with
      | some k => if isWait then (s.acquire r k e.grp.seq).waited r k x else s.acquire r k e.grp.seq
      | none => s
    (e.pollLane s (readScope isWait acq) x = (.ok false, u) → exec i s = .next u)
    ∧ (e.pollLane s (readScope isWait acq) x = (.ok true, u) → rest ≠ [] → exec i s = .next (seen (h.waitOn (.lanes acq isWait bad rest) u)))
    ∧ (e.pollLane s (readScope isWait acq) x = (.ok true, u) → rest = [] → bad = none → exec i s = .next ((seen (h.finish h.grp u)).stepEnd r))
    ∧ (∀ f, e.pollLane s (readScope isWait acq) x = (.ok true, u) → rest = [] → bad = some f → exec i s = .next (seen (h.laneOwed u h.grp f .read)))
    ∧ ∀ k, e.pollLane s (readScope isWait acq) x = (.error k, u) →
        let f : LaneFault := { lane := lane, addr := x.va.getD 0, kind := k }
        let below := l.filter fun y => decide (y.lane < lane)
        (e.vform = false ∨ below = [] → exec i s = .next (h.laneOwed u h.grp f .read))
        ∧ (e.vform = true → below ≠ [] → exec i s = .next (h.waitOn (.lanes acq isWait (some f) below) u))

/-- fence completes without Guard; acq waits for the earlier loads, rel puts every earlier access before the later stores at its scope, and full
waits until every earlier access has performed at its scope, with the stores of others that the group knows, and puts them before the later stores.
acq and full are then acquires at the scope (R221, R391). -/
def Sys2Proof.Claims.FenceOrdersAccesses : Prop :=
  ∀ (w : MWord) (s : State) (e : Env), Issues s e { v := [], s := [] } →
    let k := w.scope.toNat
    let acquired := fun s : State => s.fenceAcquire e.gref k e.grp.seq
    (e.guard w.g = 0 → exec (.fence w) s = .next (e.finish e.grp s))
    ∧ (e.guard w.g ≠ 0 → w.order = 1 →
        (e.grp.loadsDone (fun _ => true) e.grp.seq = true → exec (.fence w) s = .next (acquired (e.finish e.grp s)))
        ∧ (e.grp.loadsDone (fun _ => true) e.grp.seq = false → exec (.fence w) s = .next (e.waitOn .ordering s)))
    ∧ (e.guard w.g ≠ 0 → w.order = 2 → ∃ f, exec (.fence w) s = .next (e.finish { e.grp with fence := f } s) ∧ (e.grp.seq, k) ∈ f
        ∧ ∀ x ∈ e.grp.fence, x ∈ f ∨ e.grp.performed x.1 x.2 = true ∧ x.2 ≤ k)
    ∧ (e.guard w.g ≠ 0 → w.order = 3 →
        (e.grp.performed e.grp.seq k = true → s.nearClear e.gref e.grp.know k = true →
          ∃ f, exec (.fence w) s = .next (acquired (e.finish { e.grp with fence := f } s)) ∧ (e.grp.seq, k) ∈ f)
        ∧ (e.grp.performed e.grp.seq k = false ∨ s.nearClear e.gref e.grp.know k = false → exec (.fence w) s = .next (e.waitOn .ordering s)))

namespace Sys2Proof.Claims

-- ## Control flow

/-- Lane l of a group stands at pc: in an entry of the path table, in a spilled entry, or in the pass of a serialising path. -/
def Standing (g : Group) (l : Nat) (pc : BitVec 64) : Prop :=
  (∃ p ∈ g.paths ++ g.spilledPaths, p.mask.getLsbD l = true ∧ p.pc = pc)
  ∨ ∃ z, g.serl = some z ∧ z.path.mask.getLsbD l = true ∧ z.path.pc = pc

/-- Lane l of the issuing group stands at pc in another entry than the active path. -/
def StandingElse (e : Env) (l : Nat) (pc : BitVec 64) : Prop :=
  match e.sel with
  | some k => Standing { e.grp with paths := listDrop e.grp.paths k } l pc
  | none => Standing { e.grp with serl := none } l pc

/-- Group h has the registers, predicates, flags, return records and pending accesses of group g. -/
def SameRegisters (g h : Group) : Prop :=
  h.v = g.v ∧ h.s = g.s ∧ h.p = g.p ∧ h.flags = g.flags ∧ h.rets = g.rets ∧ h.frames = g.frames ∧ h.base = g.base
  ∧ h.loads = g.loads ∧ h.stores = g.stores

/-- State u is state s but for the loop buffers of a core. -/
def OnlyLoops (core : Nat) (s u : State) : Prop := u = s ∨ ∃ l, u = s.modCore core fun c => { c with loops := l }

/-- The lanes of a mask leave the active path for a target, where they wait for flags; the path's other lanes go on at the next word, the lanes
of other paths stay where they are, and nothing else of the group, which is g otherwise, changes. -/
def Jumps (e : Env) (s : State) (g : Group) (taken : LaneMask) (target : BitVec 64) (waits : BitVec 12) (t : State) : Prop :=
  ∃ h u, t = e.setGroup h u ∧ OnlyLoops e.core s u ∧ SameRegisters g h
    ∧ (∀ l pc, l < 64 → (Standing h l pc ↔ (taken.getLsbD l = true ∧ pc = target)
        ∨ (e.path.mask.getLsbD l = true ∧ taken.getLsbD l = false ∧ pc = e.path.pc + 8) ∨ StandingElse e l pc))
    ∧ (waits ≠ 0 → ∃ p ∈ h.paths ++ h.spilledPaths, p.mask = taken ∧ p.pc = target ∧ p.waits = waits)

/-- The issuing group can take a branch: its guard is even where V form asks for that, the target may be entered from a serialising path, and
the spill stack has room for what the split may spill. -/
def MayJump (e : Env) (s : State) (g : Group) (taken : LaneMask) (target : BitVec 64) : Prop :=
  taken ≠ 0 ∧ e.unevenV taken = false ∧ e.targetOk s target = true ∧ g.spillBytes + 48 ≤ e.spillLimit

end Sys2Proof.Claims

/-- br, brx, loop and yield send the lanes in which Guard holds to their target and let the others go on; without Guard they do nothing. loop
first counts its s-register down and leaves at 0; yield's lanes wait at the target for its flags, or have seen them at 0. A partial guard in V form, a target outside an
open serl body and a yield inside one are ILLEGAL (R63, R64, R66, R67, R69, R356, R358, R410, R462). No memory is written, for what a split spills
stands in the group's record.
The choices of the model that it rests on: log 81, 90, 94. -/
def Obligations.BranchMovesGuardedLanes : Prop :=
  ∀ (w : BWord) (s : State) (e : Env),
    let m := e.guard w.g
    let n := w.aux.toNat
    let t := e.target w.disp
    (Issues s e { v := [], s := [] } →
      (m = 0 → exec (.br w) s = .next (e.finish e.grp s))
      ∧ (MayJump e s e.grp m t → Answers (.br w) s (Jumps e s e.grp m t 0))
      ∧ (m ≠ 0 → e.unevenV m = true ∨ e.targetOk s t = false → exec (.br w) s = .next (e.trap s .illegal)))
    ∧ (Issues s e { v := [], s := [n, n + 1] } →
      let t := e.grp.readSPair n
      (m = 0 → exec (.brx w) s = .next (e.finish e.grp s))
      ∧ (t.extractLsb' 0 3 = 0 → MayJump e s e.grp m t → Answers (.brx w) s (Jumps e s e.grp m t 0))
      ∧ (m ≠ 0 → e.unevenV m = true ∨ (t.extractLsb' 0 3 = 0 ∧ e.targetOk s t = false) → exec (.brx w) s = .next (e.trap s .illegal))
      ∧ (m ≠ 0 → e.unevenV m = false → t.extractLsb' 0 3 ≠ 0 →
          exec (.brx w) s = .next (e.trapWith s e.grp .align AccessKind.fetch.code t wholeGroup false)))
    ∧ (Issues s e { v := [], s := [n] } →
      let g := e.grp.writeS n (e.grp.readS n - 1)
      (m = 0 → exec (.loop w) s = .next (e.finish e.grp s))
      ∧ (m ≠ 0 → e.unevenV m = true ∨ (e.grp.readS n ≠ 1 ∧ e.targetOk s t = false) → exec (.loop w) s = .next (e.trap s .illegal))
      ∧ (m ≠ 0 → e.unevenV m = false → e.grp.readS n = 1 → exec (.loop w) s = .next (e.finish g s))
      ∧ (e.grp.readS n ≠ 1 → MayJump e s g m t → Answers (.loop w) s (Jumps e s g m t 0)))
    ∧ (Issues s e { v := [], s := [] } → e.sel = none → exec (.yield w) s = .next (e.trap s .illegal))
    ∧ (Issues s e { v := [], s := [] } → e.sel.isSome = true →
      (m = 0 → exec (.yield w) s = .next (e.finish e.grp s))
      ∧ (m ≠ 0 → e.unevenV m = true → exec (.yield w) s = .next (e.trap s .illegal))
      ∧ (e.grp.flagsClear (yieldFlags w) = true → MayJump e s e.grp m t →
          Answers (.yield w) s (Jumps e s (e.grp.sawFlags (yieldFlags w)) m t 0))
      ∧ (e.grp.flagsClear (yieldFlags w) = false → MayJump e s e.grp m t → Answers (.yield w) s (Jumps e s e.grp m t (yieldFlags w))))

/-- call pushes the next word's address and the frame's size, moves the register window up by the size and goes to the target; ret pops
them and goes back. Each needs its guard in every active lane and a single path, and does nothing without Guard (R57, R362, R435).
The choices of the model that it rests on: log 90. -/
def Sys2Proof.Claims.CallAndReturn : Prop :=
  ∀ (w : BWord) (s : State) (e : Env), Issues s e { v := [], s := [] } → e.sel.isSome = true →
    let m := e.guard w.g
    (e.path.words.length = 1 → e.ref.isSome = true →
      (m = 0 → exec (.call w) s = .next (e.finish e.grp s))
      ∧ (m ≠ 0 → m ≠ e.path.mask → exec (.call w) s = .next (e.trap s (if e.vform then .illegal else .converge)))
      ∧ (m ≠ 0 → m = e.path.mask → e.grp.severalPaths = true → exec (.call w) s = .next (e.trap s .converge))
      ∧ (m = e.path.mask → e.grp.severalPaths = false → e.spillBusy (e.pushed w.aux.toNat) = false →
          MayJump e s (e.pushed w.aux.toNat) m (e.target w.disp) →
          Answers (.call w) s (Jumps e s (e.pushed w.aux.toNat) m (e.target w.disp) 0)
          ∧ let g := e.pushed w.aux.toNat
            g.rets = { clause := e.path.pc + 8, size := w.aux.toNat } :: e.grp.rets
            ∧ g.base = e.grp.base + w.aux.toNat ∧ g.frames.map (fun f => f.size) = e.grp.frames.map (fun f => f.size) ++ [w.aux.toNat]
            ∧ g.v = e.grp.v ∧ g.s = e.grp.s ∧ g.p = e.grp.p))
    ∧ (m = 0 → exec (.ret w) s = .next (e.finish e.grp s))
    ∧ (m ≠ 0 → m ≠ e.path.mask → exec (.ret w) s = .next (e.trap s (if e.vform then .illegal else .converge)))
    ∧ (m ≠ 0 → m = e.path.mask → e.grp.severalPaths = true → exec (.ret w) s = .next (e.trap s .converge))
    ∧ (m ≠ 0 → m = e.path.mask → e.grp.severalPaths = false → e.grp.rets = [] → exec (.ret w) s = .next (e.trap s .stack))
    ∧ ∀ r rest fs f, m = e.path.mask → e.grp.severalPaths = false → e.grp.rets = r :: rest → e.grp.frames = fs ++ [f] →
        let g := { e.grp with rets := rest, frames := fs, base := e.grp.base - r.size }
        (f.spilled = none → MayJump e s g m r.clause → Answers (.ret w) s (Jumps e s g m r.clause 0))
        ∧ ∀ q, f.spilled = some q → e.grp.busyRange e.ring g.base f.size = false →
            MayJump e s (g.loadFrame e.ring g.base f.size q) m r.clause →
            Answers (.ret w) s (Jumps e s (g.loadFrame e.ring g.base f.size q) m r.clause 0)

/-- exit ends the lanes in which Guard holds, and the group retires with its last lane; inside a body it ends the pass. serl begins the pass of the
lowest lane, and waits while another path of its group serialises; sere begins that of the next one, and after the last pass all the lanes go on
behind the body as one path (R67, R387, R440).
The choices of the model that it rests on: log 54. -/
def Sys2Proof.Claims.ExitAndSerialBody : Prop :=
  ∀ (w : BWord) (s : State) (e : Env), Issues s e { v := [], s := [] } →
    let m := e.guard w.g
    (m = 0 → exec (.exit w) s = .next (e.finish e.grp s))
    ∧ (m ≠ 0 → e.unevenV m = false → e.sel.isSome = true →
        ∃ h, exec (.exit w) s = .next (e.setGroup h s) ∧ h.v = e.grp.v ∧ h.s = e.grp.s ∧ h.p = e.grp.p ∧ h.flags = e.grp.flags
          ∧ (∀ l pc, l < 64 → (Standing h l pc ↔ (e.path.mask.getLsbD l = true ∧ m.getLsbD l = false ∧ pc = e.path.pc + 8)
              ∨ StandingElse e l pc))
          ∧ (h.paths = [] → h.spilledPaths = [] → h.serl = none → h.state = .retired))
    ∧ (∀ z, m ≠ 0 → e.unevenV m = false → e.sel = none → e.grp.serl = some z →
        let y := { z with m := z.m &&& ~~~m }
        (∀ l, (lanesOf y.m).find? (fun l => decide (z.lane < l)) = some l →
          exec (.exit w) s = .next (e.setGroup { e.grp with serl := some { y with lane := l, path := PathEntry.at z.body (laneBit l) } } s))
        ∧ ∀ a, (lanesOf y.m).find? (fun l => decide (z.lane < l)) = none → y.m ≠ 0 → e.afterBody s y = some (.ok a) →
          ∃ h, exec (.exit w) s = .next (e.setGroup h s) ∧ h.serl = none ∧ SameRegisters e.grp h
            ∧ ∀ l pc, l < 64 → (Standing h l pc ↔ (y.m.getLsbD l = true ∧ pc = a) ∨ StandingElse e l pc))
    ∧ (∀ k, e.sel = some k → e.path.words.length = 1 → e.vform = false → e.grp.serl.isSome = true →
        exec .serl s = .next (e.setGroup { e.grp with state := .waiting .ordering } s))
    ∧ (e.path.words.length ≠ 1 ∨ e.vform = true ∨ e.sel = none → exec .serl s = .next (e.trap s .illegal))
    ∧ (∀ k l rest, e.sel = some k → e.path.words.length = 1 → e.vform = false → e.grp.serl = none →
        lanesOf e.path.mask = l :: rest →
        exec .serl s = .next (e.setGroup { e.grp with
          paths := listDrop e.grp.paths k,
          serl := some { m := e.path.mask, lane := l, body := e.path.pc + 8, path := PathEntry.at (e.path.pc + 8) (laneBit l) } } s))
    ∧ (∀ z, e.sel = none → e.grp.serl = some z → e.path.words.length = 1 →
        (∀ l, (lanesOf z.m).find? (fun l => decide (z.lane < l)) = some l →
          exec .sere s = .next (e.setGroup { e.grp with serl := some { z with lane := l, path := PathEntry.at z.body (laneBit l) } } s))
        ∧ ((lanesOf z.m).find? (fun l => decide (z.lane < l)) = none →
          ∃ h, exec .sere s = .next (e.setGroup h s) ∧ h.serl = none ∧ SameRegisters e.grp h
            ∧ ∀ l pc, l < 64 → (Standing h l pc ↔ (z.m.getLsbD l = true ∧ pc = e.path.pc + 8) ∨ StandingElse e l pc)))

/-- nop, eqp, hop, fbar and icinv go on at the next word: eqp at its E-point records the id, hop asks for a form while CSC.HINT is 1 and PIN is
00, fbar fetches the next header from memory, icinv drops the core's instruction cache and loop buffers, and what the core fetches from memory from then on
shows the stores that the group knows, and its own before its fences; an eqp that does not stand first at its
E-point is ILLEGAL (R73, R123, R132, R383, R388, R399, R423).
The choices of the model that it rests on: log 77. -/
def Obligations.SystemInstructionsComplete : Prop :=
  ∀ (s : State) (e : Env), Issues s e { v := [], s := [] } →
    exec .nop s = .next (e.finish e.grp s)
    ∧ exec .fbar s = .next (e.finish { e.grp with fbar := true } s)
    ∧ exec .icinv s = .next (e.finish e.grp (s.modCore e.core fun c => { c with
        icache := [], loops := [], codeKnow := c.codeKnow.join (e.grp.fence.foldl (fun k f => k.told e.gref f.1) e.grp.know) }))
    ∧ (∀ (id : BitVec 12) gr p, e.grid = some gr → p ∈ gr.image.epoints → p.id = id.toNat → e.atEpoint p = true → e.path.fresh = true →
        exec (.eqp id) s = .next (e.finish
          { e.grp with eqlast := id.setWidth 32, perf := { e.grp.perf with passes := e.grp.perf.passes + 1 } } s))
    ∧ (∀ (id : BitVec 12), e.path.fresh = false ∨ (∀ gr, e.grid = some gr → ∀ p ∈ gr.image.epoints, p.id = id.toNat → e.atEpoint p = false) →
        exec (.eqp id) s = .next (e.trap s .illegal))
    ∧ ∀ (g : Guard) (target : BitVec 2),
        let asks := e.acts g = true ∧ (s.context e.ctx).cscHint = true ∧ (s.context e.ctx).cscPin = 0
        (∀ r, e.ref = some r → asks → target = 2 →
          exec (.hop g target) s = .next (e.finish { e.grp with hopTarget := none } (s.modTeam r.team fun t => { t with hopS := true })))
        ∧ (∀ r, e.ref = some r → asks → target ≠ 2 → exec (.hop g target) s =
          .next (e.finish { e.grp with hopTarget := some target.toNat } (s.modTeam r.team fun t => { t with hopS := false })))
        ∧ (e.ref = none ∨ ¬ asks → exec (.hop g target) s = .next (e.finish e.grp s))

/-- eret and halt are privileged: user software that issues one traps with PRIV; in an agent's slot eret ends the handling of the event and goes
back to the address that the entry saved, to the pass of a serl body where it came there, where it waits on if it waited there for flags; and halt goes on and stops the slot unless an event waits
(R386, R397). -/
def Sys2Proof.Claims.AgentInstructionsArePrivileged : Prop :=
  ∀ (s : State) (e : Env), Issues s e { v := [], s := [] } →
    (e.ref.isSome = true → exec .eret s = .next (e.trap s .priv) ∧ exec .halt s = .next (e.trap s .priv))
    ∧ (e.ref = none → (s.core e.core).agent.handling.isSome = true →
        let a := (s.core e.core).agent
        exec .eret s = .next (s.modCore e.core fun c => { c with agent := { c.agent with
          handling := none, savedSerl := none,
          grp := (Group.park { c.agent.grp with paths := if a.savedSerl.isSome then [] else [a.saved], serl := a.savedSerl }).wake } }))
    ∧ (e.ref = none → ∃ t, exec .halt s = .next t ∧ t.mem = s.mem ∧ t.teams = s.teams
        ∧ ((s.core e.core).agent.events = [] → (t.core e.core).agent.halted = true)
        ∧ ((s.core e.core).agent.events ≠ [] → (t.core e.core).agent.halted = (s.core e.core).agent.halted)
        ∧ (t.core e.core).agent.grp = e.past e.grp)

/-- Taking a trap stops the group at its word: it is Trapped, the trap holds the kind, the detail, the T address of the word, the faulting
address and the lane, and waits for its core's agent; an armed hop of its team is cancelled, and no register and no memory changes (R127, R284,
R286). -/
def Sys2Proof.Claims.TrapStopsGroup : Prop :=
  ∀ (s : State) (e : Env) (g : Group) (kind : TrapKind) (detail : BitVec 32) (addr : BitVec 64) (lane : BitVec 32) (after : Bool),
    s.env = some e →
    let t := e.trapWith s g kind detail addr lane after
    t.mem = s.mem ∧ t.scratch = s.scratch ∧ t.contexts = s.contexts
    ∧ (∀ r, e.ref = some r →
        (∃ held, t.findGroup r = some { g with
          state := .trapped, held := held, child := none,
          trap := some { kind := kind, detail := detail, pc := e.tPc, addr := addr, lane := e.trapLane lane, after := after, phase := .raised } }
          ∧ (e.vform = g.vform → held = some e.sel))
        ∧ ∃ tm, Table.find t.teams r.team = some tm ∧ tm.armed = none)

/-- trap, bkpt and bsync take their trap: SWTRAP with the immediate as the detail, BKPT with detail 4, and RETIRED, counted in retuse; a trap
without Guard does nothing (R355, R359, R455). -/
def Sys2Proof.Claims.TrapInstructionsTrap : Prop :=
  ∀ (s : State) (e : Env), Issues s e { v := [], s := [] } →
    exec .bkpt s = .next (e.trapWith s e.grp .bkpt 4 0 wholeGroup true)
    ∧ exec .bsync s = .next (e.trapWith (s.countRetuse e.ctx) { e.grp with syncs := e.grp.syncs + 1 } .retired 0 0 wholeGroup true)
    ∧ ∀ (g : Guard) (imm : BitVec 24),
        (e.acts g = true → exec (.trap g imm) s = .next (e.trapWith s e.grp .swtrap (imm.setWidth 32) 0 wholeGroup true))
        ∧ (e.acts g = false → exec (.trap g imm) s = .next (e.finish e.grp s))

/-- A header is issued where a clause begins: it waits for the flags of its mask, then the words of its clause stand at hand, as many as its count,
all of them as one fetch found them: those of the loop buffer, or of memory where the cache agrees with it. Each lane of the path then stands at the
first word, and no other lane has moved. Where cache and memory differ, the fetch finds the words or misses. Inside a clause a header raises ILLEGAL
(R59, R60, R72). The arrival of a clause's lines puts the word at the path's address into the core's instruction cache and lets the path be active
again, once the stores to them that an icinv of the core stands behind have performed (R65, R73).
The choices of the model that it rests on: log 2, 77. -/
def Obligations.ClauseAndItsFetch : Prop :=
  (∀ (h : HWord) (s : State) (e : Env), Issues s e { v := [], s := [] } →
    (e.path.words ≠ [] → exec (.clause h) s = .next (e.trap s .illegal))
    ∧ (e.path.words = [] → e.grp.flagsClear h.wait = false → exec (.clause h) s = .next (e.waitOn .flags s))
    ∧ ∀ ws t, e.path.words = [] → e.grp.flagsClear h.wait = true →
        e.fetchWords h.count.toNat s (e.path.pc + 8) [] = (.ok ws, t) →
        let a := fun k : Nat => e.path.pc + 8 + BitVec.ofNat 64 (8 * k)
        let entered := fun u : State => ∃ g, exec (.clause h) s = .next (e.setGroup g u) ∧ SameRegisters (e.grp.sawFlags h.wait) g
          ∧ (∀ l pc, l < 64 → (Standing g l pc ↔ (e.path.mask.getLsbD l = true ∧ pc = e.path.pc + 8) ∨ StandingElse e l pc))
          ∧ ((∀ q ∈ e.grp.paths ++ e.grp.spilledPaths, q.pc ≠ e.path.pc + 8) → e.path.mask ≠ 0 →
              ∃ p, (p ∈ g.paths ++ g.spilledPaths ∨ ∃ z, g.serl = some z ∧ z.path = p) ∧ p.pc = e.path.pc + 8 ∧ p.mask = e.path.mask
                ∧ p.words = ws ∧ p.fa = h.flagA ∧ p.fb = h.flagB ∧ p.fresh = true)
        ws.length = h.count.toNat
        ∧ (e.staleClause t ws = true →
            let u := { t with choices := t.choices + 1 }
            exec (.clause h) s = .next (e.missed u) ∨ entered u)
        ∧ (e.staleClause t ws = false → entered t
          ∧ ∀ k w, ws[k]? = some w → e.bufferedWord t (a k) = none → ∀ pa u, e.fetchAddr t (a k) = (.ok pa, u) → u.memWord (e.view t) pa = w))
  ∧ ∀ (r : GroupRef) (k : Nat) (s : State) (g : Group) (p : PathEntry), s.findGroup r = some g →
      (r.team = 0 → (s.core r.grp).agent.halted = false) →
      (r.team ≠ 0 → ∃ tm gr, Table.find s.teams r.team = some tm ∧ tm.phase = .placed ∧ Table.find s.grids tm.grid = some gr) →
      p.miss = true →
      let probe : Group := { g with state := .ready, paths := [{ p with miss := false, waits := 0 }], serl := none, held := none }
      (∀ e, ({ (s.modGroup r fun _ => probe) with cur := if r.team = 0 then .agent r.grp else .group r } : State).env = some e →
        e.wordsReady (e.clauseWords s (e.view s) p.pc) s p.pc = true) →
      let brought := fun t : State => ∃ e, ({ (s.modGroup r fun _ => probe) with cur := if r.team = 0 then .agent r.grp else .group r } : State).env = some e
        ∧ ∀ pa u, pa % 8 = 0 → e.fetchAddr s p.pc = (.ok pa, u) → (t.core e.core).cachedWord (e.view s) pa = some (s.memWord (e.view s) pa)
      (g.paths[k]? = some p →
        ∃ t h, exec (.instructionFetchComplete r k) s = .next t ∧ t.findGroup r = some h ∧ SameRegisters g h
          ∧ h.paths = listModify g.paths k (fun p => { p with miss := false }) ∧ t.mem = s.mem ∧ t.scratch = s.scratch ∧ brought t)
      ∧ ∀ z, g.paths.length ≤ k → g.serl = some z → z.path = p →
        ∃ t h, exec (.instructionFetchComplete r k) s = .next t ∧ t.findGroup r = some h ∧ SameRegisters g h
          ∧ h.paths = g.paths ∧ h.serl = some { z with path := { z.path with miss := false } } ∧ t.mem = s.mem ∧ t.scratch = s.scratch
          ∧ brought t

namespace Sys2Proof.Claims

-- ## Engines

/-- An engine command is counted in its flag and the group goes on at the next word, from state t (R60). -/
def Commanded (i : Instr) (s : State) (e : Env) (f : Nat) (t : State) : Prop := exec i s = .next (e.finish (e.grp.flagInc f) t)

/-- An engine instruction whose guard holds in some lane: it selects flag f, which takes one more command. -/
def Selects (e : Env) (w : XWord) (f : Nat) : Prop := e.path.flagOf w.fsel = some f ∧ e.acts w.g = true ∧ e.grp.flagFull f = false

/-- Flag f of the group that a command names counts one command less in t than in s, and no register of it differs (R61). -/
def FlagDown (s t : State) (r : GroupRef) (f : Nat) : Prop :=
  ∀ g, s.findGroup r = some g → ∃ h, t.findGroup r = some h ∧ h.flag f = g.flag f - 1 ∧ h.v = g.v ∧ h.s = g.s ∧ h.p = g.p
    ∧ (∀ k, k ≠ f → h.flag k = g.flag k) ∧ h.loads = g.loads

/-- The command that a matrix instruction hands to its engine, with the bounds of what it may read. -/
def commandOf (w : XWord) (e : Env) (f p : Nat) (u : State) (op : MatrixOp) : MatrixCmd :=
  { g := e.gref, flag := f, seq := e.grp.seq, after := e.grp.fence, phys := p, acq := w.acq, rel := w.rel, scope := w.scope.toNat, op := op,
    since := u.stamp, floor := e.commandFloor u w, know := e.commandKnow u w, pubs := e.pubs none }

/-- What a command has seen of its sources: each byte is one that the command may read there, by itself or with its stretch, or what another engine has
in flight for it; an element read whole is one that it may read as a whole. Where its launch has already read what no one value agrees with, so that it is to abort (R251),
the command reads memory as it stands (R61, R187, R188, R396). -/
def Picked (s : State) (x : Reader) (whole : Bool) (l : List (Loc × Nat)) (seen : List (List Byte)) : Prop :=
  seen.length = l.length ∧ ∀ i (h : i < l.length), let p := l[i]
    let b := listGetD seen i []
    let inFlight := fun k => (s.inflightByte (s.viewOfRef x.g) (p.1.plus k)).map fun y => y.2
    let mayRead := fun (l : Loc) n (v : List Byte) => (∃ y ∈ s.readerValues x l n, y.bytes = v)
      ∨ (s.readerStores x l n = [] ∧ v = s.readLoc (s.viewOfRef x.g) l n)
    b.length = p.2
    ∧ (whole = true → (∀ k, k < p.2 → inFlight k = none) → mayRead p.1 p.2 b)
    ∧ (whole = false → ∀ k, k < p.2 → mayRead (p.1.plus k) 1 [listGetD b k 0]
        ∨ (∃ y ∈ s.readerValues x p.1 p.2, listGetD y.bytes k 0 = listGetD b k 0) ∨ inFlight k = some (listGetD b k 0))

/-- An engine has written pieces for a group. With rel at a scope of dev or wider, and to a peer's memory with any rel, they stand in memory, and every
other byte is as before. The others are stores of the group, after those it had, which have performed at the scope of rel, or for the group alone: byte by
byte, and a piece that is written whole as one. Where the flag's fall lets a path go on, the group has seen the flag at 0 (R61, R224, R228, R301, R308,
R396). -/
def EngineWrote (s t : State) (r : GroupRef) (w : EngineWrite) (pieces : List Piece) : Prop :=
  let view := s.viewOfRef r
  let atHome := fun p : Piece => w.rel = true ∧ (homeScope ≤ w.scope ∨ p.1.atPeer = true)
  let home := pieces.filter fun p => decide (atHome p)
  let bare := fun l : List PendStore => l.map fun x => { x with flag := none }
  ∀ g, s.findGroup r = some g → ∃ h, t.findGroup r = some h
    ∧ (∀ m, (∀ p ∈ home, p.1.overlaps p.2.2.length m 1 = false) → byteAt t view m = byteAt s view m)
    ∧ (home.Pairwise (fun p q => p.1.overlaps p.2.2.length q.1 q.2.2.length = false) → ∀ p ∈ home, t.readLoc view p.1 p.2.2.length = p.2.2)
    ∧ (home = [] → t.mem = s.mem ∧ t.scratch = s.scratch ∧ t.shadows = s.shadows)
    ∧ ∃ xs, bare h.stores = bare (g.stores ++ xs)
      ∧ xs.map (fun x => (x.loc, x.bytes, x.data, x.level, x.loose, x.flag)) = (pieces.filter fun p => !decide (atHome p)).flatMap fun p =>
          let level := if w.rel then w.scope else 0
          let flag := if w.rel then some w.flag else none
          if w.whole then [(p.1.plus 0, p.2.2.length, BitVec.ofNat 64 (ofLeBytes p.2.2), level, true, flag)]
          else p.2.2.zipIdx.map fun b => (p.1.plus b.2, 1, b.1.setWidth 64, level, true, flag)

/-- Group r has bound name n of its team to the physical tile k in state t, which no team of the core had bound in s; its 4,096 elements are +0 and
every other element of the core is as before. The group alone is sure to find the name (R189, R190, R302). -/
def Bound (s t : State) (r : GroupRef) (core n k : Nat) (grown : Bool) : Prop :=
  k < 16 ∧ k ∉ s.boundTiles core
  ∧ (∃ tm, Table.find t.teams r.team = some tm ∧ Table.find tm.tiles n = some { phys := k, grown := grown, knows := [r.grp], sent := [] })
  ∧ (∀ j, j < 4096 → Sparse.get (t.core core).tiles (k * 4096 + j) = 0)
  ∧ (∀ key, key / 4096 ≠ k → Sparse.get (t.core core).tiles key = Sparse.get (s.core core).tiles key)
  ∧ t.mem = s.mem ∧ t.scratch = s.scratch

end Sys2Proof.Claims

/-- accalloc binds a free tile for a reserved name, waits while every reserved tile is bound, and raises ACCLIMIT without a reservation or for a
bound name; accgrow never waits and answers 1 or 0; accfree unbinds its name once no accepted command of its team names the tile (R189, R190,
R342). -/
def Sys2Proof.Claims.TileNamesBindAndUnbind : Prop :=
  ∀ (w : XWord) (s : State) (e : Env) (r : GroupRef) (t : Team), s.env = some e → e.ref = some r → e.team = some t → e.acts w.g = true →
    let n := tileName w
    (e.hazard (xUses []) = false →
      (t.reserved = 0 ∨ (Table.find t.tiles n).isSome = true → exec (.accalloc w) s = .next (e.trap s .acclimit))
      ∧ (t.reserved ≠ 0 → Table.find t.tiles n = none → t.reserved ≤ t.ownBound → exec (.accalloc w) s = .next (e.waitOn .tile s))
      ∧ (t.ownBound < t.reserved → Table.find t.tiles n = none → (∃ k, k < 16 ∧ k ∉ s.boundTiles e.core) →
          ∃ u k, exec (.accalloc w) s = .next (e.finish e.grp u) ∧ Bound s u r e.core n k false)
      ∧ (Table.find t.tiles n = none → exec (.accfree w) s = .next (e.trap s .acclimit))
      ∧ ∀ b, Table.find t.tiles n = some b →
          (s.tileInUse r.team e.core b.phys = true → exec (.accfree w) s = .next (e.waitOn (.unbind n) s))
          ∧ (s.tileInUse r.team e.core b.phys = false →
              exec (.accfree w) s = .next (e.finish e.grp
                ((s.modTeam r.team fun t => { t with tiles := Table.del t.tiles n }).rouseCore e.core))))
    ∧ (e.hazard (xUses [w.d.toNat]) = false →
      ((Table.find t.tiles n).isSome = true → exec (.accgrow w) s = .next (e.trap s .acclimit))
      ∧ (Table.find t.tiles n = none → s.unreserved e.core = 0 → exec (.accgrow w) s = .next (e.finish (e.grp.writeS w.d.toNat 0) s))
      ∧ (Table.find t.tiles n = none → s.unreserved e.core ≠ 0 → (∃ k, k < 16 ∧ k ∉ s.boundTiles e.core) →
          ∃ u k, exec (.accgrow w) s = .next (e.finish (e.grp.writeS w.d.toNat 1) u) ∧ Bound s u r e.core n k true))

/-- accfree unbind: the waiting accfree of a group of a placed team unbinds its name once the commands that name the tile have completed, and
the group goes on (R342). -/
def Sys2Proof.Claims.WaitingAccfreeUnbinds : Prop :=
  ∀ (r : GroupRef) (s : State) (g : Group) (t : Team) (n : Nat) (b : Tile), r.team ≠ 0 → s.findGroup r = some g →
    Table.find s.teams r.team = some t → g.state = .waiting (.unbind n) → Table.find t.tiles n = some b →
    (s.tileInUse r.team t.core b.phys = true → exec (.accfreeUnbind r) s = .fault .notDue)
    ∧ (s.tileInUse r.team t.core b.phys = false → t.phase = .placed → g.singleStep = false →
        ∃ u, exec (.accfreeUnbind r) s = .next u
          ∧ (∃ tm, Table.find u.teams r.team = some tm ∧ Table.find tm.tiles n = none ∧ ∀ k, k ≠ n → Table.find tm.tiles k = Table.find t.tiles k)
          ∧ u.findGroup r = some g.pastWord ∧ u.mem = s.mem ∧ u.scratch = s.scratch ∧ (u.core t.core).tiles = (s.core t.core).tiles)

/-- mma of a group with one path whose lanes all have Guard passes its checks, charges the bucket 256 credits for each of its engine cycles and
takes its quadrant's port; accld and accst take it without a charge. A full port or a bucket that is short holds it (R60, R177, R178, R186,
R281, R343). A group that has made the binding, or learned of it, finds its tile; another finds the tile or finds no binding, and a command that
finds none raises ACCLIMIT (R302).
The choices of the model that it rests on: log 78, 97. -/
def Sys2Proof.Claims.MatrixCommandsAreAccepted : Prop :=
  (∀ (w : XWord) (s : State) (e : Env) (f : Nat), s.env = some e → Selects e w f →
    (e.binding w = none → e.findTile s w = (none, s))
    ∧ (∀ b, e.binding w = some b → (e.gref.grp ∈ b.knows → e.findTile s w = (some b.phys, s))
        ∧ (e.gref.grp ∉ b.knows → ∃ x, (x = some b.phys ∨ x = none) ∧ e.findTile s w = (x, { s with choices := s.choices + 1 })))
    ∧ ∀ u, e.findTile s w = (none, u) →
        (e.hazard (xUses (recordRegs w.r1.toNat)) = false →
          exec (.accld w) s = .next (e.trap u .acclimit) ∧ exec (.accst w) s = .next (e.trap u .acclimit))
        ∧ (e.hazard (xUses (recordRegs w.r1.toNat ++ recordRegs w.r2.toNat ++ [w.r3.toNat])) = false → e.grp.severalPaths = false →
            e.grp.serl = none → e.path.mask = e.grp.present → e.guard w.g = e.grp.present → exec (.mma w) s = .next (e.trap u .acclimit)))
  ∧ ∀ (w : XWord) (s t : State) (e : Env) (f p : Nat), s.env = some e → Selects e w f → e.findTile s w = (some p, t) →
    let taken := fun (u : State) op => u.modCore e.core fun k => { k with accepted := k.accepted ++ [commandOf w e f p u op] }
    (∀ a b fa fb k, e.hazard (xUses (recordRegs w.r1.toNat ++ recordRegs w.r2.toNat ++ [w.r3.toNat])) = false →
      e.grp.severalPaths = false → e.grp.serl = none → e.path.mask = e.grp.present → e.guard w.g = e.grp.present →
      e.mmaChecks t w = .ok (a, b, fa, fb, k) →
      (t.portFull e.core e.grp.quad = true → exec (.mma w) s = .next (e.waitOn .port t))
      ∧ (t.portFull e.core e.grp.quad = false →
        match t.charge e.core (256 * mmaCycles (formatWidth fa.efmt) k) with
        | some u => Commanded (.mma w) s e f (taken u (.mma (tileName w) (w.variant.getLsbD 0) a b fa fb k))
        | none => exec (.mma w) s = .next (e.waitOn (.power e.core (256 * mmaCycles (formatWidth fa.efmt) k)) t)))
    ∧ (∀ x, e.hazard (xUses (recordRegs w.r1.toNat)) = false → t.portFull e.core e.grp.quad = false →
      (e.record w.r1.toNat).rows = 64 → (e.record w.r1.toNat).rowBytes = 256 → e.scratchExtent t (e.record w.r1.toNat) = .ok x →
      Commanded (.accld w) s e f (taken t (.accld (tileName w) x)) ∧ Commanded (.accst w) s e f (taken t (.accst (tileName w) x)))

/-- mma execute: an idle engine takes the oldest accepted command, whose acquires have performed and whose context is not being saved, unless a
command of that context that names another team's range is among those accepted. Every group of the core that waits for its port is Ready again, to issue its word
anew; one that waits for nothing is as before (R42, R177, R194, R416). A command whose acquire is yet to come performs it now, before its first
read (R188). -/
def Sys2Proof.Claims.EngineTakesOldestCommand : Prop :=
  ∀ (c : Nat) (s : State) (x : MatrixCmd) (rest : List MatrixCmd) (g : Group) (t : Team) (gr : Grid),
    (s.core c).executing = none → (s.core c).accepted = x :: rest → s.findGroup x.g = some g → x.g.team ≠ 0 →
    Table.find s.teams x.g.team = some t → Table.find s.grids t.grid = some gr → (s.saving gr.ctx = false ∨ (∃ y ∈ (s.core c).accepted, s.remote y = true ∧
      ∃ v h, s.teamOf y.g = some v ∧ Table.find s.grids v.grid = some h ∧ h.ctx = gr.ctx)) →
    g.acquiresDone x.acq x.seq = true →
    ∃ u, exec (.mmaExecute c) s = .next u ∧ (u.core c).accepted = rest
      ∧ (u.core c).executing = some (if x.floor = none then { x with floor := some s.stamp, know := { x.know with met := s.nearIds x.g x.scope ++ x.know.met } } else x)
      ∧ (u.core c).tiles = (s.core c).tiles ∧ u.mem = s.mem ∧ u.scratch = s.scratch
      ∧ ∀ r h tm, r.team ≠ 0 → Table.find s.teams r.team = some tm → s.findGroup r = some h →
          (tm.core = c → h.state = .waiting .port → u.findGroup r = some { h with state := .ready })
          ∧ ((∀ y, h.state ≠ .waiting y) → u.findGroup r = some h)
          ∧ (tm.core ≠ c → u.findGroup r = some h)

/-- mma completion: element (i, j) of the tile is the chunked sum over row i of A and row j of B, from the tile's value or from -0; no other
element changes, the engine is free and the flag counts down. Each byte of A, B and their scale arrays is one that the command may read (R184,
R186, R187, R188).
The choices of the model that it rests on: log 78. -/
def Sys2Proof.Claims.MmaCompletionWritesTile : Prop :=
  ∀ (c : Nat) (s : State) (x : MatrixCmd) (n : Nat) (z : Bool) (a b : Extent) (fa fb : FmtBlock) (k : Nat) (t : Team),
    (s.core c).executing = some x → x.op = .mma n z a b fa fb k → s.teamOf x.g = some t →
    let level := s.teamLevel t
    let seen := (s.seenBytes x).1
    let rowsA := operandRows (seen.take 64) (listGetD seen 128 []) fa level k
    let rowsB := operandRows ((seen.drop 64).take 64) (listGetD seen 129 []) fb level k
    Picked s (x.reader s) false (x.op.sources (s.ownBase x.g)) seen
    ∧ ∃ u, exec (.mmaCompletion c) s = .next u ∧ (u.core c).executing = none ∧ FlagDown s u x.g x.flag ∧ u.mem = s.mem ∧ u.scratch = s.scratch
      ∧ (∀ i j, i < 64 → j < 64 → Sparse.get (u.core c).tiles (x.phys * 4096 + (i * 64 + j)) =
          mmaElement level k (formatWidth fa.efmt) (if z then 0x80000000 else Sparse.get (s.core c).tiles (x.phys * 4096 + (i * 64 + j)))
            (listGetD rowsA i []) (listGetD rowsB j []))
      ∧ ∀ key, key / 4096 ≠ x.phys → Sparse.get (u.core c).tiles key = Sparse.get (s.core c).tiles key

/-- acc copy completion: accld has filled the tile from its 64 rows, each byte one that it may read, and accst has written the tile to its rows,
behind what the engine wrote there before; nothing else changes, the engine is free, and the flag counts down (R187, R188, R191, R343). -/
def Sys2Proof.Claims.TileCopiesComplete : Prop :=
  ∀ (c : Nat) (s : State) (x : MatrixCmd) (n : Nat) (e : Extent), (s.core c).executing = some x →
    (x.op = .accld n e → Picked s (x.reader s) false (x.op.sources (s.ownBase x.g)) (s.seenBytes x).1
      ∧ ∃ u, exec (.accCopyCompletion c) s = .next u ∧ (u.core c).executing = none ∧ u.mem = s.mem ∧ u.scratch = s.scratch
      ∧ FlagDown s u x.g x.flag
      ∧ (∀ i j, i < 64 → j < 64 → Sparse.get (u.core c).tiles (x.phys * 4096 + (i * 64 + j)) =
          BitVec.ofNat 32 (bytesField (listGetD (s.seenBytes x).1 i []) (4 * j) 4))
      ∧ ∀ key, key / 4096 ≠ x.phys → Sparse.get (u.core c).tiles key = Sparse.get (s.core c).tiles key)
    ∧ (x.op = .accst n e → (∀ i, i < 64 → s.engineMayWrite x.g x.seq x.after (e.row i) 256 = true ∧ s.turnClear (e.row i) 256 = true) →
      ∃ u, exec (.accCopyCompletion c) s = .next u ∧ (u.core c).executing = none ∧ FlagDown s u x.g x.flag ∧ u.mem = s.mem
        ∧ (u.core c).tiles = (s.core c).tiles
        ∧ EngineWrote s u x.g x.write ((List.range 64).map fun i => (e.row i, none, (List.range 64).flatMap fun j =>
            leBytes 4 (Sparse.get (s.core c).tiles (x.phys * 4096 + i * 64 + j)).toNat)))

/-- copy and gather whose checks pass join their core's copy engine and are counted; a full engine holds them; extents of different shapes
are ILLEGAL (R205, R373, R395). -/
def Sys2Proof.Claims.CopiesAreIssued : Prop :=
  ∀ (w : XWord) (s : State) (e : Env) (f : Nat), s.env = some e → Selects e w f →
    let r1 := e.record w.r1.toNat
    let r2 := e.record w.r2.toNat
    let r3 := e.record w.r3.toNat
    let started := fun (i : Instr) (isGather : Bool) (u : State) pairs vas dvas =>
      (copySlots ≤ (u.core e.core).copies.length → exec i s = .next (e.waitOn .copySlot u))
      ∧ ((u.core e.core).copies.length < copySlots → Commanded i s e f (u.modCore e.core fun k => { k with copies := k.copies ++
          [{ g := e.gref, flag := f, seq := e.grp.seq, after := e.grp.fence, acq := w.acq, rel := w.rel, scope := w.scope.toNat,
             isGather := isGather, pairs := pairs, since := u.stamp, floor := e.commandFloor u w, know := e.commandKnow u w, pubs := e.pubs none,
             vas := vas, dvas := dvas }] }))
    (e.hazard (xUses (recordRegs w.r1.toNat ++ recordRegs w.r2.toNat)) = false →
      (r1.rows ≠ r2.rows ∨ r1.rowBytes ≠ r2.rowBytes ∨ r1.rows = 0 ∨ r1.rowBytes = 0 → exec (.copy w) s = .next (e.trap s .illegal))
      ∧ ∀ rs rd t u, r1.rows = r2.rows → r1.rowBytes = r2.rowBytes → r1.rows ≠ 0 → r1.rowBytes ≠ 0 →
          e.recordOk s (w.variant.getLsbD 0) r1 = .ok () → e.recordOk s (w.variant.getLsbD 1) r2 = .ok () →
          e.recordRuns s (w.variant.getLsbD 0) .read r1 = (.ok rs, t) → e.recordRuns t (w.variant.getLsbD 1) .write r2 = (.ok rd, u) →
          started (.copy w) false u (zipRuns (rs.length + rd.length) rs rd) (r1.ranges (w.variant.getLsbD 0)) (r2.ranges (w.variant.getLsbD 1)))
    ∧ (e.hazard (xUses (recordRegs w.r1.toNat ++ [w.r2.toNat, w.r2.toNat + 1] ++ recordRegs w.r3.toNat)) = false →
      let n := 2 ^ (w.variant.extractLsb' 0 2).toNat
      let base := e.grp.readSPair w.r2.toNat
      ∀ xi xd rs u, r1.rowBytes % 4 = 0 → r3.rowBytes % n = 0 → r1.rows * r1.rowBytes / 4 = r3.rows * r3.rowBytes / n →
        r1.rows * r1.rowBytes / 4 ≠ 0 → e.scratchExtent s r1 = .ok xi → e.scratchExtent s r3 = .ok xd → base.toNat % n = 0 →
        let indices := xi.runs.flatMap fun r => (List.range (r.2 / 4)).map fun k =>
          ofLeBytes (s.readOwn e.gref (e.view s) e.grp e.grp.seq (r.1.plus (4 * k)) 4)
        e.gatherRuns base n indices s = (.ok rs, u) →
        started (.gather w) true u (zipRuns (2 * rs.length) rs (xd.elements n)) (indices.map fun k => (base + BitVec.ofNat 64 (k * n), n)) [])

/-- copy completion and gather completion: once the command's order allows its writes, it leaves the engine, its flag counts down, and every byte of
a gather, and of a copy whose footprints do not meet, has a value of its source that the command may read; bytes outside the destination are as
before. A poisoned line of the source raises ECC, and a write of the oldest uncommitted launch that finds no room SHADOW (R61, R205, R215, R257,
R374, R396). Of such a trap the PC, the lane and the address are the model's.
The choices of the model that it rests on: log 63, 86. -/
def Sys2Proof.Claims.CopiesComplete : Prop :=
  ∀ (core idx : Nat) (s : State) (c : CopyCmd) (g : Group), (s.core core).copies[idx]? = some c →
    s.findGroup c.g = some g → g.acquiresDone c.acq c.seq = true →
    (∀ p ∈ c.pairs, s.engineMayWrite c.g c.seq c.after p.2.1 p.2.2 = true) →
    let i := if c.isGather then Instr.gatherCompletion core idx else .copyCompletion core idx
    let source := c.pairs.map fun p => (p.1, p.2.2)
    let left := s.modCore core fun k => { k with copies := listDrop k.copies idx }
    (s.badSource source 0 = none → s.copyBlocked c = false → ∃ u, exec i s = .next u ∧ FlagDown s u c.g c.flag
      ∧ (u.core core).copies = listDrop (s.core core).copies idx
      ∧ (∀ m, (∀ p ∈ c.pairs, p.2.1.overlaps p.2.2 m 1 = false) → byteAt u (s.viewOfRef c.g) m = byteAt s (s.viewOfRef c.g) m)
      ∧ (c.isGather = true ∨ pairsOverlap c.pairs = false →
          Picked left (c.reader s) c.isGather source (left.copySeen c).1
          ∧ EngineWrote s u c.g c.write (c.pieces (c.pairs.zip (left.copySeen c).1) 0)))
    ∧ (∀ k, s.badSource source 0 = some k → g.hasTrap = false →
        exec i s = .next (s.asyncTrap c.g g .ecc 2 (rangeByte c.vas k) wholeGroup))
    ∧ (∀ x, s.badSource source 0 = none → s.copyBlocked c = true → s.refLaunch c.g = some x → s.isOldest x.2.1 = true → g.hasTrap = false →
        exec i s = .next (s.asyncTrap c.g g .shadow 0 0 wholeGroup))

/-- query joins the hub's queue and is counted; the hub gives it the grid's next work item, or the end of work, the queries of a group in program
order; the answer then stands as 16 bytes at its offset, and its flag counts down (R61, R278, R430, R431).
The choices of the model that it rests on: log 78. -/
def Obligations.QueriesAreAnswered : Prop :=
  (∀ (w : XWord) (s : State) (e : Env) (f : Nat) (t : Team), Issues s e (xUses [w.r1.toNat]) → Selects e w f → e.team = some t →
    let off := e.grp.readS w.r1.toNat
    (off.toNat % 16 ≠ 0 → exec (.query w) s = .next (e.engineTrap s .align .write (off.setWidth 64)))
    ∧ (off.toNat % 16 = 0 → s.teamOk t (off.setWidth 64) 16 = false →
        exec (.query w) s = .next (e.engineTrap s .bounds .write (BitVec.ofNat 64 (max off.toNat (s.teamRange t).2))))
    ∧ (off.toNat % 16 = 0 → s.teamOk t (off.setWidth 64) 16 = true → Commanded (.query w) s e f { s with queries := s.queries ++
        [{ g := e.gref, flag := f, seq := e.grp.seq, after := e.grp.fence, acq := w.acq, rel := w.rel, scope := w.scope.toNat, off := off.toNat,
           pubs := e.pubs none, answer := none }] }))
  ∧ ∀ (idx : Nat) (s : State) (q : Query) (g : Group) (t : Team) (gr : Grid), s.queries[idx]? = some q → s.findGroup q.g = some g →
      s.teamOf q.g = some t → Table.find s.grids t.grid = some gr →
      (q.answer = none → (∀ x ∈ s.queries.take idx, x.g = q.g → x.answer ≠ none) → g.acquiresDone q.acq q.seq = true →
        let n := if gr.ordered then t.num + t.queries * gr.teams else gr.counter
        let items := gr.wx * gr.wy * gr.wz
        let item : List Byte := if t.ended = true ∨ items ≤ n then List.replicate 16 0xFF
          else leBytes 4 n ++ leBytes 4 (n % gr.wx) ++ leBytes 4 (n / gr.wx % gr.wy) ++ leBytes 4 (n / (gr.wx * gr.wy))
        ∃ u, exec (.queryAnswer idx) s = .next u ∧ u.mem = s.mem ∧ u.scratch = s.scratch ∧ u.findGroup q.g = some g
          ∧ u.queries = listModify s.queries idx (fun q => { q with answer := some item })
          ∧ (∃ g', Table.find u.grids t.grid = some g' ∧ g'.counter = gr.counter + 1)
          ∧ ∃ t', Table.find u.teams q.g.team = some t' ∧ t'.queries = t.queries + 1 ∧ t'.ended = (t.ended || decide (items ≤ n)))
      ∧ ∀ bs, q.answer = some bs → s.engineMayWrite q.g q.seq q.after (s.teamLoc t q.off) 16 = true →
          ∃ u, exec (.queryAnswer idx) s = .next u ∧ u.queries = listDrop s.queries idx ∧ u.mem = s.mem ∧ FlagDown s u q.g q.flag
            ∧ EngineWrote s u q.g { flag := q.flag, rel := q.rel, scope := q.scope, pubs := q.pubs } [(s.teamLoc t q.off, none, bs)]

/-- coll whose descriptor is in order joins the hub's collectives and is counted; when every member has issued it, the member's answer is the result
over the ranks' sources, and then it is written to the destination and the command's flag counts down. A poisoned line of the source raises ECC.
waitf waits while its flag is not 0, and has then seen it at 0 (R61, R215, R301, R309, R369, R370, R459). Of the trap the PC, the lane and the address
are the model's.
The choices of the model that it rests on: log 64, 72, 86. -/
def Obligations.CollectivesAndWaitf : Prop :=
  (∀ (w : XWord) (s t u v : State) (e : Env) (f : Nat) (l : Loc) (rs rd : List Run), Issues s e (xUses [w.r1.toNat, w.r1.toNat + 1]) →
    Selects e w f →
    let op := (w.variant.extractLsb' 0 2).toNat
    e.checkVirtual s (e.grp.readSPair w.r1.toNat) 64 64 .read = (.ok l, t) →
    let d := readColl (t.readOwn e.gref (e.view t) e.grp e.grp.seq l 64)
    (t.collBad op d = true → exec (.coll w) s = .next (e.trap t .config))
    ∧ (t.collBad op d = false → e.virtual .read t d.src (d.srcBytes op) = (.ok rs, u) → e.virtual .write u d.dst (d.dstBytes op) = (.ok rd, v) →
        (∀ r ∈ rs ++ rd, r.1.isTxn = false) →
        let read := v.trackOwn e.gref (e.view v) e.grp e.grp.seq l 64
        ∃ x, Commanded (.coll w) s e f { read with colls := read.colls ++ [x] }
          ∧ x.g = e.gref ∧ x.flag = f ∧ x.op = op ∧ x.src = runBytes rs ∧ x.dst = runBytes rd ∧ x.n = d.n ∧ x.members = d.m
          ∧ x.rank = d.rank ∧ x.id = d.id ∧ x.number = d.number))
  ∧ (∀ (idx : Nat) (others : List (List Byte)) (s : State) (c : CollCmd) (g : Group), s.colls[idx]? = some c → s.findGroup c.g = some g →
      (c.answer = none → g.acquiresDone c.acq c.seq = true → s.running c.g = true → others.length + 1 = c.members →
        (∀ l ∈ others, l.length = c.src.length) →
        let source := c.src.map fun l => (l, 1)
        (s.badSource source 0 = none →
          ∃ u own, exec (.collCompletion idx others) s = .next u ∧ Picked s (c.reader s) false source own
            ∧ u.mem = s.mem ∧ u.scratch = s.scratch ∧ u.shadows = s.shadows
            ∧ u.colls = listModify s.colls idx fun c => { c with answer := some (c.result (others.take c.rank ++ [own.flatten] ++ others.drop c.rank)) })
        ∧ ∀ k, s.badSource source 0 = some k → g.hasTrap = false →
            exec (.collCompletion idx others) s = .next (s.asyncTrap c.g g .ecc 2 (rangeByte c.vas k) wholeGroup))
      ∧ ∀ out, c.answer = some out → (∀ l ∈ c.dst, s.engineMayWrite c.g c.seq c.after l 1 = true) →
          ∃ u, exec (.collCompletion idx others) s = .next u ∧ u.colls = listDrop s.colls idx ∧ FlagDown s u c.g c.flag
            ∧ EngineWrote s u c.g { flag := c.flag, rel := c.rel, scope := c.scope, pubs := c.pubs } ((c.dst.zip out).zipIdx.map fun x => (x.1.1, rangeVa c.dvas x.2, [x.1.2])))
  ∧ ∀ (w : XWord) (s : State) (e : Env), Issues s e (xUses []) →
      let f := (w.variant.extractLsb' 0 4).toNat
      (e.acts w.g = false → exec (.waitf w) s = .next (e.finish e.grp s))
      ∧ (e.acts w.g = true → e.grp.flag f = 0 → exec (.waitf w) s = .next (e.finish (e.grp.sawFlags (1#12 <<< f)) s))
      ∧ (e.acts w.g = true → e.grp.flag f ≠ 0 → exec (.waitf w) s = .next (e.waitOn .flags s))

namespace Sys2Proof.Claims

-- ## The block table

/-- A lane of ldbt: its entry and the location of its data (R210, R405). -/
def ldbtLane (e : Env) (w : MWord) (lane : Nat) (s : State) : Except (BitVec 64 × TrapKind) (Entry × Loc) × State :=
  match e.checkTable w false lane s with
  | (.error x, s) => (.error x, s)
  | (.ok r, s) => match r.entry with
    | some (_, en) =>
      let l := (e.table s).dataLoc en (e.tableOff w lane).toNat
      (if s.poisoned l then .error (e.tableOff w lane, .ecc) else .ok (en, l), s)
    | none => (.error (0, .bounds), s)

/-- A lane of stbt: its offset, with the slot and entry to which it resolves (R447). -/
def stbtLane (e : Env) (w : MWord) (lane : Nat) (s : State) : Except (BitVec 64 × TrapKind) (Nat × Resolved) × State :=
  match e.checkTable w true lane s with
  | (.error x, s) => (.error x, s)
  | (.ok r, s) => (.ok ((e.tableOff w lane).toNat, r), s)

/-- What an stbt hands to the table unit: its lanes' stores, the free entries that it has taken, and in V form the element that failed its checks. -/
def stbtJob (e : Env) (w : MWord) (ok : List (Nat × Nat × Resolved)) (free : List Nat) (bad : Option LaneFault) : CowWait :=
  { desc := e.grp.readSPair w.base.toNat, q := (e.grp.readS (w.base.toNat + 2)).toNat, bytes := widthBytes w.width, rel := w.order == 2,
    scope := w.scope.toNat, op := e.grp.seq, free := free, bad := bad,
    lanes := ok.map fun x => { lane := x.1, off := x.2.1, data := BitVec.ofNat 64 (e.dataValue w.d.toNat (widthBytes w.width) x.1) } }

/-- ldbt loads each guarded lane's bytes from the block that its offset resolves to, and sets ACC in every entry that it used; a failing lane
traps, and in T form nothing is done (R151, R210, R298, R405). -/
def BlockTableLoads : Prop :=
  ∀ (w : MWord) (s : State) (e : Env), s.env = some e → e.grp.acquiring = false →
    let n := widthBytes w.width
    e.hazard (memUses w (dataRegs w.d.toNat n) [w.base.toNat + 2]) = false →
    (∀ ok t, checkLanes (ldbtLane e w) (lanesOf (e.guard w.g)) s [] = (ok, none, t) →
      LoadIssued (.ldbt w) s e w.d.toNat n (w.order == 1) (ok.map fun x => (x.1, x.2.2))
        (ok.foldl (fun s x => s.markEntry x.2.1 accBit true) t))
    ∧ (∀ ok f t, e.vform = false → checkLanes (ldbtLane e w) (lanesOf (e.guard w.g)) s [] = (ok, some f, t) → LaneTrapped (.ldbt w) s e .read f t)
    ∧ ∀ lane u v en l, ldbtLane e w lane u = (.ok (en, l), v) →
        en.val = true ∧ en.tier ≤ 1 ∧ ∃ txn, l = .phys (en.block * 2 ^ 16 + (e.tableOff w lane).toNat % 2 ^ 16) txn

/-- stbt whose lanes pass their checks, and for whose writes the shadow has room: where the ring holds the free entries that it needs, it takes them and
its lanes act in ascending order, up to one that waits for the copy of its block, or traps; where the ring is short, it traps with PAGE at the descriptor's head. In V form an element that fails
its checks traps once those below it have acted (R70, R211, R447). -/
def BlockTableStores : Prop :=
  ∀ (w : MWord) (s t u : State) (e : Env) (ok : List (Nat × Nat × Resolved)) (bad : Option LaneFault) (d : Desc), s.env = some e →
    e.grp.acquiring = false → (bad = none ∨ e.vform = true) →
    let va := e.grp.readSPair w.base.toNat
    let tb := e.table u
    let needed := (planOf d ok).needed
    e.hazard (memUses w (dataRegs w.d.toNat (widthBytes w.width)) [w.base.toNat + 2]) = false →
    checkLanes (stbtLane e w) (lanesOf (e.guard w.g)) s [] = (ok, bad, t) → (e.table t).desc t va = (.ok d, u) →
    (∀ free x left y g, needed ≤ d.free → (needed = 0 → free = [] ∧ x = u) → (needed ≠ 0 → tb.takeFree u d needed = (.ok free, x)) →
      tb.actAll d e.gref (ok.length + 1) x (stbtJob e w ok free bad) e.grp false = (left, y, g) →
      tb.fullAt u x d e.gref (stbtJob e w ok free bad) e.grp false = none →
      (left = .done → bad = none → exec (.stbt w) s = .next (e.finish g y))
      ∧ (∀ f, left = .done → bad = some f → exec (.stbt w) s = .next (e.laneTrap y g f .write))
      ∧ (∀ f, left = .fails f → exec (.stbt w) s = .next (e.laneTrap y g f .write))
      ∧ (∀ c, left = .waits c → exec (.stbt w) s = .next ({ e with grp := g }.waitOn (.cow c) y)))
    ∧ ∀ l, d.free < needed → (planOf d ok).first = some l → e.vform = false →
        exec (.stbt w) s = .next (e.laneTrap u e.grp { lane := l, addr := va + 0x2C, kind := .page } .write)

/-- What the table unit does for a lane of an stbt (it writes through the versions at hand): it stores into the entry that its slot names, clearing MOV and setting ACC and ending a COW that
nobody shares; it appends a free entry with REF 1 where the slot names none; and a shared entry under COW has its block copied: the new entry
holds the copy with REF 1, the old one counts a reference less, the slot names the new one, and the store goes there; a poisoned line of the block
makes the lane fail with ECC (R211, R215, R298). The offset as the trap's address is the model's choice (log 86). -/
def TableUnitStores : Prop :=
  ∀ (tb : TableEnv) (s v : State) (d : Desc) (w : CowWait) (x : TableLane) (r : GroupRef) (g : Group) (slot : Loc),
    let marked := fun (s : State) (en : Entry) => (s.markEntry en movBit false).markEntry en accBit true
    (∀ k en, tb.resolve s d w.q (BitVec.ofNat 64 x.off) true = (.ok { slot := slot, entry := some (k, en) }, v) →
      (en.cow = false → tb.act s d w x r g false = .acted (marked v en) (storeTable tb en w x r g) w.free)
      ∧ (en.cow = true → en.ref.toNat ≤ 1 → tb.act s d w x r g false =
          .acted (tb.putLow (marked v en) en (en.with en.ref true false)) (storeTable tb en w x r g) w.free)
      ∧ (en.cow = true → 1 < en.ref.toNat → tb.act s d w x r g false = .copies (marked v en)
          ∧ ∀ f free new y, w.free = f :: free → tb.entry (marked v en) d f = (.ok new, y) →
              (y.blockPoisoned en.block = true → tb.act s d w x r g true = .fails y (BitVec.ofNat 64 x.off) .ecc)
              ∧ (y.blockPoisoned en.block = false →
              let bs := y.readOwn r tb.view g g.seq (tb.dataLoc en 0) 65536
              let z := tb.setLow (tb.setLow (tb.write y (tb.dataLoc new 0) bs) en (en.with (en.ref - 1) true true)) new (new.with 1 true false)
              tb.act s d w x r g true =
                .acted ((tb.write z slot (leBytes 4 f)).markEntry new accBit true) (storeTable tb new w x r g) free)))
    ∧ ∀ f free en y, tb.resolve s d w.q (BitVec.ofNat 64 x.off) true = (.ok { slot := slot, entry := none }, v) → w.free = f :: free →
        tb.entry v d f = (.ok en, y) → tb.act s d w x r g false =
          .acted (marked (tb.write (tb.setLow y en (en.with 1 true false)) slot (leBytes 4 f)) en) (storeTable tb en w x r g) free

/-- copy on write complete: the lane that waited acts, and the lanes after it up to the next that waits; with none left the instruction completes.
Where a lane fails now, as by a poisoned line of its block, or where an element above them had failed its checks, the group, with the lanes below done, is
Ready and owes the trap, which it takes once it issues. A lane that finds the overflow region full raises SHADOW so in the oldest launch (R42, R70, R211,
R215, R257). The offset as the trap's address is the model's choice (log 86). -/
def CopiedBlockTakesTheStore : Prop :=
  ∀ (r : GroupRef) (s t u : State) (g h : Group) (tm : Team) (gr : Grid) (w : CowWait) (d : Desc) (left : TableEnd), r.team ≠ 0 →
    s.findGroup r = some g → Table.find s.teams r.team = some tm → Table.find s.grids tm.grid = some gr → tm.phase = .placed →
    g.state = .waiting (.cow w) →
    let tb : TableEnv := { core := tm.core, ctx := gr.ctx, view := s.viewOf tm.grid, src := some (r, g) }
    tb.desc s w.desc = (.ok d, t) → tb.actAll d r (w.lanes.length + 1) t w g true = (left, u, h) →
    (tb.fullAt t t d r w g true = none →
      (left = .done → w.bad = none → exec (.copyOnWriteComplete r) s = .next ((u.modGroup r fun _ => h.pastWord).stepEnd r))
      ∧ (∀ f e, left = .fails f ∨ left = .done ∧ w.bad = some f → g.hasTrap = false → (u.modGroup r fun _ => h).waitEnv r = some e →
          exec (.copyOnWriteComplete r) s = .next (e.laneOwed u e.grp f .write))
      ∧ ∀ c, left = .waits c → exec (.copyOnWriteComplete r) s = .next (u.modGroup r fun _ => { h with state := .waiting (.cow c) }))
    ∧ ∀ m e, tb.fullAt t t d r w g true = some m → t.isOldest gr.launch = true → g.hasTrap = false →
        let below := tb.actAll d r (m + 1) t { w with lanes := w.lanes.take m } g true
        let v := if m = 0 then t else below.2.1
        let x := listGetD w.lanes m { lane := 0, off := 0, data := 0 }
        (v.modGroup r fun _ => if m = 0 then g else below.2.2).waitEnv r = some e →
          exec (.copyOnWriteComplete r) s = .next (e.laneOwed v e.grp { lane := x.lane, addr := BitVec.ofNat 64 x.off, kind := .shadow } .write)

end Sys2Proof.Claims

/-- The block table's accesses: ldbt, stbt and the copy on write that an stbt waits for (R70, R210, R211, R215, R257, R298, R405, R447). The choices of
the model that it rests on: log 86. -/
def Obligations.BlockTableAccesses : Prop := BlockTableLoads ∧ BlockTableStores ∧ TableUnitStores ∧ CopiedBlockTakesTheStore

/-- block table sweep: once 1 ms has passed since the table's last sweep and the agents have turned to it, every valid entry's ACC is cleared, and
the first-tier blocks that stayed clear through two sweeps without PIN are to be demoted, the second-tier blocks found with ACC to be promoted.
demotion begin sets MOV and the destination in such an entry and copies its block, all of which it can read, into a block of the tier. demotion swap first puts the swap after every
launch that is uncommitted, and then points the entry at the copy if MOV still reads 1, no uncommitted launch has written the entry and the copy
still is the block, and else only clears MOV; the old block rests until the launches that were uncommitted at the swap have ended (R212, R213, R215,
R216). That a swap also asks for equal bytes is the model's choice (log 98).
The choices of the model that it rests on: log 37, 93, 98. -/
def Obligations.BlocksMoveBetweenTiers : Prop :=
  ∀ (ctx : Nat) (s t : State) (desc : BitVec 64) (d : Desc), (agentTable ctx).desc s desc = (.ok d, t) →
    (let es := (agentTable ctx).validEntries t d
     let acc := fun x : Nat × Entry => t.entryHigh x.2 &&& accBit ≠ 0
     (∀ x ∈ s.sweeps, x.ctx = ctx → x.desc = desc → 700000 ≤ (s.cycle - x.at_).toNat) → s.agentsFree = true →
      ∃ m, exec (.blockTableSweep ctx desc) s = .next
          { (es.foldl (fun s x => s.markEntry x.2 accBit false) t) with
            sweeps := m :: t.sweeps.filter fun x => !(x.ctx == ctx && x.desc == desc) }
        ∧ m.ctx = ctx ∧ m.desc = desc ∧ m.at_ = t.cycle
        ∧ (∀ k, k ∈ m.clear ↔ ∃ x ∈ es, x.1 = k ∧ ¬ acc x)
        ∧ (∀ k, k ∈ m.promote ↔ ∃ x ∈ es, x.1 = k ∧ acc x ∧ x.2.tier = 1)
        ∧ ∀ k, k ∈ m.demote ↔ (∃ x ∈ es, x.1 = k ∧ ¬ acc x ∧ x.2.tier = 0 ∧ t.entryHigh x.2 &&& pinBit = 0)
            ∧ ∃ old, (s.sweeps.find? fun x => x.ctx == ctx && x.desc == desc) = some old ∧ k ∈ old.clear)
    ∧ (∀ entry dblk (dtier : BitVec 2) e u x, (s.sweeps.find? fun x => x.ctx == ctx && x.desc == desc) = some x →
        (agentTable ctx).entry t d entry = (.ok e, u) → e.val = true →
        (dtier = 1 ∧ entry ∈ x.demote ∧ e.tier = 0) ∨ (dtier = 0 ∧ entry ∈ x.promote ∧ e.tier = 1) →
        u.entryHigh e &&& pinBit = 0 → u.entryHigh e &&& movBit = 0 → u.wordWritten e.loc.addr = false → u.blockFree dblk dtier = true →
        u.agentsFree = true → u.blockOk e = true → u.blockPoisoned e.block = false →
        ∃ v, exec (.demotionBegin ctx desc entry dblk dtier) s = .next v
          ∧ v.moves = u.moves ++ [{ ctx := ctx, desc := desc, entry := entry, after := none }]
          ∧ v.mem = ((u.setEntryHigh e (((u.entryHigh e).extractLsb' 38 26 ++ dtier ++ dblk) ||| movBit)).writeDirectBytes
              (dblk.toNat * 2 ^ 16) (u.blockBytes e.block)).mem)
    ∧ (∀ idx m, s.moves[idx]? = some m → m.after = none → exec (.demotionSwap idx) s =
        .next { s with moves := listModify s.moves idx fun m => { m with after := some s.uncommittedLaunches } })
    ∧ ∀ idx m after e u, s.moves[idx]? = some m → m.ctx = ctx → m.desc = desc → m.after = some after →
        (∀ l ∈ after, l ∉ s.uncommittedLaunches) → (agentTable ctx).entry s d m.entry = (.ok e, u) →
        let left := { s with moves := listDrop s.moves idx }
        let hi := s.entryHigh e
        let moved := hi &&& movBit ≠ 0 ∧ s.wordWritten e.loc.addr = false ∧ s.blockBytes (hi.extractLsb' 0 36).toNat = s.blockBytes e.block
        (moved → ∃ v, exec (.demotionSwap idx) s = .next v
          ∧ v.oldBlocks.head? = some { block := e.block, after := s.uncommittedLaunches }
          ∧ v.moves = left.moves ∧ v.mem = ((left.writeDirectBytes e.loc.addr
            (leBytes 8 (e.low.extractLsb' 38 26 ++ hi.extractLsb' 36 2 ++ hi.extractLsb' 0 36).toNat)).markEntry e movBit false).mem)
        ∧ (¬ moved → exec (.demotionSwap idx) s = .next (left.markEntry e movBit false))

/-- btop and tlbinv of an agent's slot: btop waits until no uncommitted launch has written a word that it writes, then performs and aborts the
launches that have read one, and an operation that the table refuses traps; tlbinv hands its range and cores to the hub and waits, until shootdown
complete has removed every translation of a page in the range from its cores and their dies, has cleared the range's entries in the regions of its
cores' teams and of saved teams, and lets the agent go on; a nonzero fourth word is ILLEGAL (R134, R206, R268, R361, R454). User software that issues one raises PRIV.
The choices of the model that it rests on: log 8, 65, 66, 77, 92. -/
def Obligations.AgentTableOperationsAndShootdowns : Prop :=
  ∀ (w : XWord) (s : State) (e : Env), s.env = some e →
    (let uses := xUses [w.r1.toNat, w.r1.toNat + 1, w.r2.toNat, w.r3.toNat, w.r3.toNat + 1]
     let va := e.grp.readSPair w.r1.toNat
     let op := (e.grp.readS w.r2.toNat).toNat
     let q := (e.grp.readS w.r3.toNat).toNat
     let q2 := (e.grp.readS (w.r3.toNat + 1)).toNat
     let t : TableEnv := { core := e.core, ctx := e.ctx, view := [] }
     e.hazard uses = false →
      (e.ref.isSome = true → exec (.btop w) s = .next (e.trap s .priv))
      ∧ (e.ref = none → e.acts w.g = false → exec (.btop w) s = .next (e.finish e.grp s))
      ∧ (∀ a k x, e.ref = none → e.acts w.g = true → t.tableOp s va op q q2 true = (.error (a, k), x) →
          exec (.btop w) s = .next (e.trapWith s e.grp k (if k = .bounds then 0 else accessDetail k .read) a wholeGroup false))
      ∧ ∀ done d u, e.ref = none → e.acts w.g = true → t.tableOp s va op q q2 true = (.ok (), done) → t.desc s va = (.ok d, u) →
          let words := t.opWords u d op q q2
          let blocked := u.launches.any fun l => l.2.uncommitted && words.any (u.wroteWord l.1)
          (blocked = true → exec (.btop w) s = .next (e.waitOn .ordering u))
          ∧ (blocked = false → exec (.btop w) s = .next (e.finish e.grp (done.abortReaders words))))
    ∧ (e.hazard (xUses (recordRegs w.r1.toNat ++ (List.range 8).map fun k => w.r2.toNat + k)) = false →
      let mask := BitVec.ofNat 256 ((List.range 8).foldl (fun n k => n + (e.grp.readS (w.r2.toNat + k)).toNat * 2 ^ (32 * k)) 0)
      let reserved := e.acts w.g = true ∧ e.grp.readS (w.r1.toNat + 3) ≠ 0
      (reserved → exec (.tlbinv w) s = .next (e.trap s .illegal))
      ∧ (¬ reserved → e.ref.isSome = true → exec (.tlbinv w) s = .next (e.trap s .priv))
      ∧ (e.ref = none → e.acts w.g = false → exec (.tlbinv w) s = .next (e.finish e.grp s))
      ∧ (¬ reserved → e.ref = none → e.acts w.g = true →
          (mask = 0 → exec (.tlbinv w) s = .next (e.finish e.grp s))
          ∧ (mask ≠ 0 → exec (.tlbinv w) s = .next (e.waitOn .hub { s with shootdowns := s.shootdowns ++
              [{ core := e.core, start := e.grp.readSPair w.r1.toNat, len := (e.grp.readS (w.r1.toNat + 2)).toNat, cores := mask }] }))))
    ∧ ∀ (idx : Nat) (u : State) (x : Shootdown), u.shootdowns[idx]? = some x → (∀ c ∈ u.shootCores x, u.usesRange c x = false) →
        ∃ v, exec (.shootdownComplete idx) u = .next v ∧ v.mem = u.mem ∧ v.shootdowns = listDrop u.shootdowns idx
          ∧ (let gone := fun t : TlbEntry =>
               let size := max t.size (leafSize t.level t.pte)
               pageInRange (t.va / size * size) size x.start x.len = false
             ∀ c ∈ u.shootCores x, (∀ t ∈ (v.core c).tlb, gone t) ∧ ∀ t ∈ Table.getD v.dieTlb (dieOf c) [], gone t)
          ∧ (∀ y ∈ v.teams, y.2.phase ≠ .placed ∨ y.2.core ∈ u.shootCores x → ∀ r, y.2.region = some r → ∀ a, some a ∈ r.xlat →
              pageInRange a.va.toNat a.size x.start x.len = true → a.cleared = true)
          ∧ ((u.core x.core).agent.grp.state = .waiting .hub → (v.core x.core).agent.grp = (u.core x.core).agent.grp.pastWord)

namespace Sys2Proof.Claims

-- ## Regions

/-- Team tk is placed and has region r. -/
def HasRegion (s : State) (tk : Nat) (t : Team) (r : Region) : Prop :=
  Table.find s.teams tk = some t ∧ t.phase = .placed ∧ t.region = some r

/-- region configure: a configuration that passes its checks becomes the active plane with the latched locals in its cells; one that does not
raises its trap (R78, R84, R127). -/
def RegionIsConfigured : Prop :=
  ∀ (tk : Nat) (s : State) (t : Team) (r : Region), HasRegion s tk t r → r.live = false → r.fault = none →
    (∀ p, s.loadPlane t r r.active.cfg r.active.load = .ok p →
      exec (.regionConfigure tk) s = .next (s.modRegion tk fun r => { r with live := true, active := p.withLocals r.latched }))
    ∧ ∀ k, s.loadPlane t r r.active.cfg r.active.load = .error k →
      exec (.regionConfigure tk) s = .next (s.failRegion tk (SFault.trap k 0))

/-- s entry: when every group of the team that has not retired is parked and quiet, the team takes its region, which waits to be configured, and
counts a hop; where the region does not fit, the hop is cancelled (R127, R135). -/
def TeamEntersS : Prop :=
  ∀ (tk : Nat) (s : State) (t : Team) (gr : Grid) (id since : Nat) (p : EPoint) (c : ConfigImg), Table.find s.teams tk = some t →
    t.phase = .placed → Table.find s.grids t.grid = some gr → t.armed = some (id, since) → t.hopLate = false → s.saving gr.ctx = false → (gr.image.epoints.find? fun p => p.id == id) = some p →
    gr.image.config p.cfg = some c → t.groups.filter Group.lives ≠ [] →
    (∀ g ∈ t.groups, g.lives = true → g.state = .parkedHop ∧ g.loads = [] ∧ g.stores = []) →
    (s.regionFits t gr p = false → exec (.sEntry tk) s = .next (s.cancelHop tk))
    ∧ (s.regionFits t gr p = true → ∃ u tm r, exec (.sEntry tk) s = .next u ∧ Table.find u.teams tk = some tm ∧ tm.region = some r
        ∧ tm.armed = none ∧ tm.chc = t.chc + 1 ∧ tm.groups = t.groups ∧ r.live = false ∧ r.ep = id ∧ r.active.cfg = c.id
        ∧ r.col = c.col ∧ r.row = c.row ∧ r.w = c.w ∧ r.h = c.h ∧ r.depth = c.depth ∧ r.span = [] ∧ u.mem = s.mem)

/-- s rollback: the region and its span are discarded, and every group that has not retired resumes in T form, on one path over its present
lanes, at the span's starting E-point; a guard failure counts in CGC and keeps S from being a target for 4 samples (R133, R134). -/
def SpanRollsBack : Prop :=
  ∀ (tk : Nat) (s : State) (t : Team) (r : Region) (f : SFault) (gr : Grid), HasRegion s tk t r → r.fault = some f →
    Table.find s.grids t.grid = some gr →
    let pc := match gr.image.epoints.find? fun p => p.id == r.ep with
      | some p => gr.image.tBase + BitVec.ofNat 64 p.tpos
      | none => gr.image.tBase
    ∃ u tm, exec (.sRollback tk) s = .next u ∧ Table.find u.teams tk = some tm ∧ tm.region = none ∧ tm.chc = t.chc + 1
      ∧ u.mem = s.mem ∧ u.scratch = s.scratch
      ∧ (f.guard = true → tm.cgc = t.cgc + 1 ∧ tm.perf.coolS = 4) ∧ (f.guard = false → tm.cgc = t.cgc)
      ∧ tm.groups.length = t.groups.length
      ∧ ∀ (k : Nat) (g h : Group), t.groups[k]? = some g → tm.groups[k]? = some h → g.lives = true →
          h.state = .ready ∧ h.vform = false ∧ h.paths = [{ PathEntry.at pc g.present with decided := true }] ∧ h.loads = g.loads

/-- hop timeout cancels an armed hop after 4,096 cycles, and callisto sample records a core's measures every 4,096 cycles (R127, R129). -/
def CallistoKeepsTime : Prop :=
  (∀ (tk : Nat) (s : State) (t : Team) (id since : Nat), Table.find s.teams tk = some t → t.armed = some (id, since) →
    (∃ g ∈ t.groups, g.lives = true ∧ g.state ≠ .parkedHop) →
    (4096 ≤ (s.cycle - BitVec.ofNat 64 since).toNat ∨ t.hopLate = true → exec (.hopTimeout tk) s = .next (s.cancelHop tk))
    ∧ (t.hopLate = false → (s.cycle - BitVec.ofNat 64 since).toNat < 4096 → exec (.hopTimeout tk) s = .fault .notDue))
  ∧ ∀ (c : Nat) (s : State),
      (4096 ≤ (s.cycle - (s.core c).sampledAt).toNat → ∃ u, exec (.callistoSample c) s = .next u
        ∧ (u.core c).sampledAt = (s.core c).sampledAt + 4096 ∧ u.mem = s.mem
        ∧ ∀ tk t, Table.find s.teams tk = some t →
            Table.find u.teams tk = some (if t.core = c ∧ t.phase = .placed then t.sampled else t))
      ∧ ((s.cycle - (s.core c).sampledAt).toNat < 4096 → exec (.callistoSample c) s = .fault .notDue)

/-- A region's own steps: next load, plane reload, freeze wave, starvation watch event and converter reconfigure, both the part that arrives and the word's taking effect (R79, R96, R107, R108, R111). -/
def RegionStepsOn : Prop :=
  ∀ (tk : Nat) (s : State) (t : Team) (r : Region), HasRegion s tk t r →
    (∀ id p, r.active.pendingNext = some id → r.active.live = 0 → r.fires = true → s.loadPlane t r id (r.loads + 1) = .ok p →
      exec (.nextLoad tk) s = .next (s.modRegion tk fun r =>
        { r with active := { p with caller := r.active.caller }, loads := r.loads + 1, epoch := r.epoch + 1,
                 oldPlanes := (r.oldPlanes.filter fun o => o.chains.any fun c => !c.queue.isEmpty)
                   ++ [{ load := r.active.load, gate := r.active.gate, chains := r.active.chains.filter fun c => !c.queue.isEmpty }] }))
    ∧ (∀ p rest, r.spilled = p :: rest → r.shadows.length < 3 → r.fault = none →
        exec (.planeReload tk) s = .next (s.modRegion tk fun r => { r with shadows := r.shadows ++ [p], spilled := rest }))
    ∧ (s.saving (s.teamCtx t) = true → r.fault = none →
        (r.frozen = none → r.live = true → r.closing = none → r.spilled = [] →
          exec (.freezeWave tk) s = .next (s.modRegion tk fun r => { r with frozen := some 0 }))
        ∧ ∀ k, r.frozen = some k → k < r.w → exec (.freezeWave tk) s = .next (s.modRegion tk fun r => { r with frozen := some (k + 1) }))
    ∧ (∀ col row slot, let k := watchKey col row slot
        let c := s.core t.core
        listGetD c.swcEn r.rid false = true → 2 ^ (min 14 (listGetD c.swcExp r.rid 0).toNat + 10) ≤ Table.getD r.starve k 0 →
        ∃ u, exec (.starvationWatchEvent tk col row slot) s = .next u
          ∧ (u.core t.core).swcHit = listModify c.swcHit r.rid (fun _ => true)
          ∧ (u.core t.core).agent.events = c.agent.events ++ [.diag r.rid col row slot s.cycle]
          ∧ ∃ tm q, Table.find u.teams tk = some tm ∧ tm.region = some q ∧ Table.getD q.starve k 0 = 0)
    ∧ ∀ node v, (r.active.convs.find? fun v => v.k == node) = some v →
        (∀ w, v.newWord = some w → v.inq = [] → v.outq = [] → v.part = [] →
          exec (.converterReconfigure tk (.take node)) s =
            .next (s.modPlane tk fun p => p.modConv node fun v => { v with word := w, newWord := none }))
        ∧ ∀ x, r.live = true → r.fault = none →
          (∀ w, decodeConverter x = .ok w →
            exec (.converterReconfigure tk (.part node x)) s = .next (s.modPlane tk fun p => p.modConv node fun v => { v with newWord := some w }))
          ∧ ∀ m, decodeConverter x = .error m →
            exec (.converterReconfigure tk (.part node x)) s = .next (s.failRegion tk (SFault.trap .config 0))

/-- The port may move an element of its team: its region runs, and it has neither faulted nor ended. -/
def PortRuns (s : State) (tk k : Nat) (t : Team) (r : Region) (p : Port) : Prop :=
  HasRegion s tk t r ∧ r.active.port k = some p ∧ r.live = true ∧ r.fault = none ∧ r.closing = none ∧ r.atnDone = false
  ∧ r.frozenCol 0 = false ∧ p.faulted = false

/-- stream port read and stream port write: an in port issues the read of its next element, for one credit, makes the reads issued, each with
the newest bytes of the span buffer over memory, those of one line of a peer in pattern order, and sends its end token after the last; an out port takes its next token: an element joins the
span buffer for one credit, and other tokens are dropped. A failing check faults the port, at its own element (R86, R87, R91, R100, R102, R124, R220, R308). That a
read is translated anew when it is made, and counts toward the port's 64 elements, is the model's choice (log 87). -/
def PortsMoveElements : Prop :=
  ∀ (tk k : Nat) (s : State) (t : Team) (r : Region) (p : Port), PortRuns s tk k t r p →
    (p.out = false → p.awaited = [] → p.queue.length + p.landing.length < 64 →
      (p.total ≤ p.pos → p.endSent = false → p.landing = [] → exec (.streamPortRead tk k) s = .next (s.modPlane tk fun q => q.modPort p.k fun p =>
          { p with endSent := true, queue := p.queue ++ [{ data := 0, tag := 2 }] }))
      ∧ (p.pos < p.total → p.indexed = false →
          (∀ l u v, s.checkPort t p.elemAddr p.width .read = (.ok l, u) → u.charge t.core 1 = some v →
            exec (.streamPortRead tk k) s = .next (v.modPlane tk fun q => q.modPort p.k fun p' => p'.issued p.elemAddr))
          ∧ ∀ e u, s.checkPort t p.elemAddr p.width .read = (.error e, u) →
              exec (.streamPortRead tk k) s = .next (u.portFault tk t.core p.k e p.elemAddr p.pos))
      ∧ ∀ x rest n stamp e v, p.pos < p.total → p.indexed = true → p.inq = x :: rest → x.tag.toNat < 2 → p.xlat = some (n, stamp) →
          listGetD r.xlat n none = some e → e.stamp = stamp → e.cleared = false → x.data.toNat < e.size → x.data.toNat % p.width = 0 →
          e.rd = true → s.poisoned (.phys (e.pa + x.data.toNat) e.txn) = false → s.charge t.core 1 = some v →
          exec (.streamPortRead tk k) s = .next (v.modPlane tk fun q =>
            q.modPort p.k fun p' => { (p'.issued (e.va + BitVec.ofNat 64 x.data.toNat)) with inq := p'.inq.tail }))
    ∧ (p.out = false → (∃ j ∈ p.awaited, (s.arriveElem tk t r p j).isSome = true) → 64 ≤ p.queue.length + p.landing.length →
        ∃ (j : Nat) (x : Landing) (s' : State), p.landing[j]? = some x ∧ x.value = none ∧ (s.arriveElem tk t r p j).isSome = true
          ∧ (s' = s ∨ s' = { s with choices := s.choices + 1 })
          ∧ (∀ l u bs v, s'.checkPort t x.va p.width .read = (.ok l, u) → u.peerBefore t p l j = false → u.sampleTeam tk t l p.width = some (bs, v) →
              exec (.streamPortRead tk k) s =
                .next (v.modPlane tk fun q => q.modPort p.k fun p => p.arrived j (ofLeBytes (r.overSpan (fun _ => true) l p.width bs))))
          ∧ ∀ e u, s'.checkPort t x.va p.width .read = (.error e, u) →
              exec (.streamPortRead tk k) s = .next (u.portFault tk t.core p.k e x.va (p.pos - p.landing.length + j)))
    ∧ (p.out = true → ∀ x rest, p.queue = x :: rest →
      (2 ≤ x.tag.toNat ∨ p.total ≤ p.pos →
        exec (.streamPortWrite tk k) s = .next (s.modPlane tk fun q => q.modPort k fun p => { p with queue := p.queue.tail }))
      ∧ (x.tag.toNat < 2 → p.pos < p.total →
          (∀ l u v, s.checkPort t p.elemAddr p.width .write = (.ok l, u) → u.charge t.core 1 = some v →
            exec (.streamPortWrite tk k) s =
              .next ((v.modPlane tk fun q => q.modPort k fun p => { p with queue := p.queue.tail, pos := p.pos + 1 }).bufferSpan tk t (.port k)
                (if inWindow p.elemAddr then none else some p.elemAddr) l p.width (x.data.setWidth 64) r.epoch))
          ∧ ∀ e u, s.checkPort t p.elemAddr p.width .write = (.error e, u) →
              exec (.streamPortWrite tk k) s = .next (u.portFault tk t.core k e p.elemAddr p.pos)))

/-- memory chain request performs the expected request of a chain, and the chain expects the next number: a skip answers, btok releases its bank,
stn joins the span buffer for one credit, ldn and atn go to their memory tile, ldn with the bytes that it shows of the span buffer: those of its
own chain and of earlier epochs, and as many of the others' as the hardware chooses. An answer leaves at once, or stands behind the earlier
requests of its chain. The token of a skip is the model's choice (log 12). An offset that is misaligned or out of the team's range raises its trap, and an atn of a span with entries is a guard
failure (R92 to R95, R100, R109, R110, R124, R125). -/
def ChainsPerformInOrder : Prop :=
  ∀ (tk n : Nat) (s : State) (t : Team) (r : Region) (load : Nat) (gate : BitVec 32) (c : Chain) (q : MemReq), HasRegion s tk t r →
    r.live = true → r.fault = none → r.chainAt n = some (load, gate, c) → r.nextRequest n (s.tileReqs tk t.core) = some q →
    q.seq = c.e
    ∧ (∀ u, s.runRequest tk t r n load c q = some u → exec (.memoryChainRequest tk n) s = .next (u.closeSpan tk))
    ∧ let on := fun (f : Region → Region) => s.modRegion tk fun r => f ((r.openGate n q).modChain n fun c => c.advance q)
      let sent := fun (u : State) (x : TileReq) => u.modCore t.core fun k => { k with tileQ := k.tileQ ++ [(bankOf q.addr.toNat / 2, x)] }
      (∀ (u : State) tok, u.answer tk t load c q tok =
        if (u.tileReqs tk t.core).any fun x => x.load == load && x.chain == c.id then
          u.modCore t.core fun k => { k with tileQ := k.tileQ ++ [(16, { team := tk, load := load, chain := c.id, req := q, fwd := [], answer := some tok })] }
        else u.modRegion tk fun r => r.respond load q tok)
      ∧ (q.skip = true → s.runRequest tk t r n load c q = some ((on id).answer tk t load c q (skipToken q)))
      ∧ (q.skip = false →
          (∀ w, q.node = .btok w → s.runRequest tk t r n load c q = some ((on fun r =>
            { r with released := r.released ||| (1#32 <<< (q.data.toNat % 32)), releasedBy := (q.data.toNat % 32, load) :: r.releasedBy }).answer
              tk t load c q { data := BitVec.ofNat 32 (q.data.toNat % 32), tag := q.tag }))
          ∧ (∀ w f, q.node = .ldn w ∨ q.node = .stn w ∨ q.node = .atn w → s.nodeFault t q (nodeBytes w) = some f →
              s.runRequest tk t r n load c q = some (s.failRegion tk f))
          ∧ (r.ownRelease load q = false →
            (∀ w u, q.node = .stn w → s.nodeFault t q (nodeBytes w) = none → (on id).charge t.core 1 = some u →
              s.runRequest tk t r n load c q = some ((u.bufferSpan tk t (.chain load c.id) none (s.teamLoc t q.addr.toNat) (nodeBytes w)
                (q.data.setWidth 64) q.epoch).answer tk t load c q { data := q.addr, tag := q.tag }))
            ∧ (∀ w, q.node = .ldn w → s.nodeFault t q (nodeBytes w) = none →
              let l := s.teamLoc t q.addr.toNat
              ∃ (m : Nat) (x : TileReq) (u : State), s.runRequest tk t r n load c q = some (sent u x)
                ∧ x.team = tk ∧ x.load = load ∧ x.chain = c.id ∧ x.req = q ∧ x.answer = none
                ∧ x.fwd = (r.showTo load c.id ((r.offered load c.id q.epoch l (nodeBytes w)).take m)).spanBytes load c.id q.epoch l (nodeBytes w)
                ∧ u.mem = s.mem ∧ u.scratch = s.scratch ∧ u.shadows = s.shadows)
            ∧ ∀ w, q.node = .atn w → s.nodeFault t q (nodeBytes w) = none →
              (r.span = [] → s.runRequest tk t r n load c q = some (sent (on fun r => { r with atnDone := true })
                { team := tk, load := load, chain := c.id, req := q, fwd := [], answer := none }))
              ∧ (r.span ≠ [] → s.runRequest tk t r n load c q = some (s.failRegion tk SFault.guardFailure))))

/-- memory tile access: the first request of a tile that stands first of its chain performs for one credit: ldn answers the bytes that its team's
read takes, those of the span buffer over them, widened by its type, and atn updates its word and answers the old one; answers that stood
behind it leave with it (R92, R95, R100, R349). -/
def TilesAnswer : Prop :=
  ∀ (core tile k n : Nat) (s u : State) (x : TileReq) (t : Team) (r : Region), (s.core core).tileNext tile = some k →
    (s.core core).tileQ[k]? = some (n, x) → Table.find s.teams x.team = some t → t.region = some r →
    (s.modCore core fun c => { c with tileQ := listDrop c.tileQ k }).charge core 1 = some u →
    (∀ v tok, u.tileAccess t x = some (v, tok) → exec (.memoryTileAccess core tile) s = .next
      (((v.modRegion x.team fun r => r.respond x.load x.req tok).flushChain core x (s.core core).tileQ.length).closeSpan x.team))
    ∧ (∀ w bs v, x.req.node = .ldn w → u.sampleTeam x.team t (.scratch ((u.teamRange t).1 + x.req.addr.toNat)) (nodeBytes w) = some (bs, v) →
        let shown := bs.zipIdx.map fun b => ((x.fwd.find? fun e => e.1 == b.2).map Prod.snd).getD b.1
        u.tileAccess t x = some (v, { data := widened w.ty.toNat (ofLeBytes shown), tag := x.req.tag }))
    ∧ ∀ w, x.req.node = .atn w →
        let off := (u.teamRange t).1 + x.req.addr.toNat
        u.othersHome (t.spanRef x.team) t.know (.scratch off) 4 = true →
        (∀ k, k < 4 → u.inflightByte (u.viewOfTeam t) ((Loc.scratch off).plus k) = none) →
        let old := ofLeBytes (u.scratchBytes off 4)
        ∃ v, u.tileAccess t x = some (v, { data := BitVec.ofNat 32 old, tag := x.req.tag })
          ∧ v.scratchBytes off 4 = leBytes 4 (atnResult w (u.teamLevel t) old x.req.data.toNat)
          ∧ ∀ m, (Loc.scratch off).overlaps 4 m 1 = false → byteAt v (u.viewOfTeam t) m = byteAt u (u.viewOfTeam t) m

/-- token transfer moves one token along a route entry: what the source gives goes where the entry leads; a token that starts on its channel
needs a credit of the queue at its end and an unfrozen cell, and a port that has faulted neither gives nor takes one. While a span is released no port
does (R81, R82, R91, R111, R385). -/
def TokensTravel : Prop :=
  ∀ (tk col row n : Nat) (s : State) (t : Team) (r : Region) (c : Cell) (q : Route) (starts : Bool) (tok : Token) (p p' : Plane),
    HasRegion s tk t r → r.live = true → r.active.cell col row = some c → c.routes[n]? = some q →
    r.closing = none ∨ r.active.meetsPort r.w r.h c q = false → r.active.take r.w r.h c q = some (starts, tok, p) →
    (starts = true → ∃ e, r.active.chanEnd r.w r.h r.active.fuel c q = some e ∧ r.credit e = true ∧ r.frozenCol col = false) →
    p.give r.w r.h c q tok = some p' → exec (.tokenTransfer tk col row n) s = .next (s.modPlane tk fun _ => p')
      ∧ ∀ k v, r.active.port k = some v → v.faulted = true →
          (q.loc = false → neighbour r.w r.h col row q.src = none → r.active.edge r.w col row q.src ≠ some (.port k))
          ∧ (q.dlv = false → neighbour r.w r.h col row q.dst = none → p.edge r.w col row q.dst ≠ some (.port k))

end Sys2Proof.Claims

/-- How a region begins, steps and ends: entry, configuration, rollback, Callisto's times, and its own steps (R78, R79, R84, R96, R107, R108,
R111, R127, R129, R133, R134).
The choices of the model that it rests on: log 36, 47, 56, 61, 87 (the event that a starvation watch gives, and the planes that a next load keeps). -/
def Obligations.RegionsBeginStepAndEnd : Prop :=
  RegionIsConfigured ∧ TeamEntersS ∧ SpanRollsBack ∧ CallistoKeepsTime ∧ RegionStepsOn

/-- How data moves in a region: tokens on their channels, stream ports, chains of requests and memory tiles (R81, R82, R86, R87, R92 to R95, R100,
R109, R124, R385).
The choices of the model that it rests on: log 2, 12 (a skip's token), 55, 62, 87 (what a port has offered, its faults, and its reads under way). -/
def Obligations.RegionsMoveData : Prop := TokensTravel ∧ PortsMoveElements ∧ ChainsPerformInOrder ∧ TilesAnswer

namespace Sys2Proof.Claims

-- ## Teams and launches

/-- Group number k of a grid's new team stands in the start state of R41 (R28, R31, R32): its registers 0 but for p0 and the launch arguments, one path
at the kernel's entry over its present lanes, an empty spill stack, and T form unless CSC pins V form and the entry has a V position. -/
def Started (s : State) (g : Grid) (k : Nat) (h : Group) : Prop :=
  let im := g.image
  let lanes := if im.legacy then 32 else 64
  let c := s.context g.ctx
  let v := if c.cscEn && c.cscPin = 2 && !im.legacy then im.epoints.find? fun p => p.vok && p.tpos == 0 else none
  h.num = k ∧ h.state = .ready ∧ h.trap = none ∧ (∀ l, l < 64 → h.present.getLsbD l = decide (l < min lanes (im.lanes - lanes * k)))
    ∧ (∀ ring n l, h.readV ring n l = 0) ∧ h.base = 0
    ∧ (∀ a x, g.args[a]? = some x → h.readS (2 * a) = x.extractLsb' 0 32 ∧ h.readS (2 * a + 1) = x.extractLsb' 32 32)
    ∧ (∀ n, 2 * g.args.length ≤ n → h.readS n = 0) ∧ (∀ n, h.readP n = if n = 0 then BitVec.allOnes 64 else 0) ∧ (∀ f, h.flag f = 0)
    ∧ h.frames = [] ∧ h.rets = [] ∧ h.spilledPaths = [] ∧ h.serl = none ∧ h.loads = [] ∧ h.stores = []
    ∧ (∃ p, h.paths = [p] ∧ p.mask = h.present ∧ p.pc = match v with
        | some q => im.vBase + BitVec.ofNat 64 q.vpos
        | none => im.tBase)
    ∧ h.vform = v.isSome

/-- team placement: the grid that R275 names next gets its next team on the first core in rotation on which it fits: a new team stands in its
start state under a new number, its scratchpad range zeroed and its groups at the kernel's entry, and a saved one goes on there (R39, R41, R274,
R275, R291). -/
def TeamIsPlaced : Prop :=
  ∀ (gid core off : Nat) (quads : List Nat) (s : State) (g : Grid), Table.find s.grids gid = some g → s.namedNext gid g = true →
    s.nextFit gid g = some (core, quads, off) →
    ((s.core core).gated = true → exec (.teamPlacement gid) s = .fault .notDue)
    ∧ ((s.core core).gated = false →
        exec (.teamPlacement gid) s = .next (((s.noteSource g).putTeam gid (core, quads, off)).noteUsed core)
        ∧ (s.restoring gid = [] → ∃ u t, exec (.teamPlacement gid) s = .next u ∧ Table.find u.teams s.nextId = some t ∧ u.mem = s.mem
            ∧ t.grid = gid ∧ t.num = g.nextTeam ∧ t.phase = .placed ∧ t.core = core ∧ t.tiles = [] ∧ t.region = none
            ∧ t.groups.length = quads.length ∧ (∀ k h, t.groups[k]? = some h → Started s g k h ∧ h.quad = listGetD quads k 0) ∧ u.nextId = s.nextId + 1
            ∧ (∀ k, core * sliceSize + off ≤ k → k < core * sliceSize + off + g.image.scratch → u.scratchByte k = 0)
            ∧ ∀ k, k < core * sliceSize + off ∨ core * sliceSize + off + g.image.scratch ≤ k → u.scratchByte k = s.scratchByte k)
        ∧ ∀ tk t rest, s.restoring gid = (tk, t) :: rest → Table.find s.teams tk = some t → ∃ u tm, exec (.teamPlacement gid) s = .next u ∧ Table.find u.teams tk = some tm
            ∧ tm.phase = .placed ∧ tm.core = core ∧ tm.scratch = off ∧ tm.num = t.num ∧ tm.grid = t.grid ∧ u.mem = s.mem)

/-- gang admission: the waiting gang grid of highest priority and earliest arrival, with no placeable grid above it, is placed whole, once every core
that it takes is awake (R49, R50, R282). -/
def GangIsAdmittedWhole : Prop :=
  ∀ (gid : Nat) (s u : State) (cores : List Nat) (g : Grid), Table.find s.grids gid = some g → s.gangWaits gid g = true →
    (∀ x ∈ s.grids, x.1 ≠ gid → s.gangWaits x.1 x.2 = true → x.2.prio < g.prio ∨ (x.2.prio = g.prio ∧ g.arrival < x.2.arrival)) →
    (∀ x ∈ s.grids, g.prio < x.2.prio → s.placeable x.1 x.2 = false) →
    s.placeAll gid ((s.restoring gid).length + if (s.context g.ctx).stopped then 0 else g.teams - g.nextTeam) = some (u, cores) →
    ((∀ c ∈ cores, (s.core c).gated = false) →
      exec (.gangAdmission gid) s = .next (u.modGrid gid fun g => { g with admitted := true }))
    ∧ ((∃ c ∈ cores, (s.core c).gated = true) → exec (.gangAdmission gid) s = .fault .notDue)

/-- team retire: a team all of whose groups have retired, and whose asynchronous work has completed, leaves the machine; its grid counts it and
may retire with it, and the core takes the next team (R34, R43, R276). -/
def TeamRetires : Prop :=
  ∀ (tk : Nat) (s : State) (t : Team), Table.find s.teams tk = some t → t.phase = .placed → (∀ g ∈ t.groups, g.state = .retired) →
    s.teamQuiet tk t = true →
    exec (.teamRetire tk) s = .next
      ((State.gridDone 11 ((s.dropTeam tk).modGrid t.grid fun g => { g with retired := g.retired + 1 }) t.grid).refill t.core)
    ∧ Table.find (s.dropTeam tk).teams tk = none

/-- The bytes of a status record in memory at an address (R253). -/
def statusRecord (code attempts flags : Nat) (tag : BitVec 16) (sub kind : Nat) (addr seq : BitVec 64) : List Byte :=
  leBytes 4 code ++ leBytes 2 attempts ++ leBytes 2 flags ++ leBytes 2 tag.toNat ++ leBytes 2 sub ++ leBytes 4 kind ++ leBytes 8 addr.toNat
    ++ leBytes 8 seq.toNat

/-- Bytes stand in t at an address of a context that names them, where the tables of s let each of them be written (R253). -/
def Recorded (s t : State) (ctx : Nat) (addr : BitVec 64) (bytes : List Byte) : Prop :=
  addr ≠ 0 → ∀ pas : List Nat, pas.length = bytes.length →
    (∀ k, k < bytes.length → ∃ x, s.hubXlat ctx (addr + BitVec.ofNat 64 k) .write = some x ∧ x.pa = listGetD pas k 0) →
    ∀ k, k < bytes.length → t.committedAt (listGetD pas k 0) = listGetD bytes k 0

/-- Launch l, which stood as x, has aborted by conflict in t: it is to start again, with the same tag, its read set is empty, it has one attempt more, and
its shadow is discarded (R251, R254). -/
def AbortedToReplay (t : State) (l : Nat) (x : Launch) : Prop :=
  (∃ y, Table.find t.launches l = some y ∧ y.phase = .replay ∧ x.attempts < y.attempts ∧ y.tag = x.tag ∧ y.kind = x.kind
    ∧ y.readWords = [] ∧ y.sig = 0)
  ∧ ∀ v ∈ t.shadows, v.launch = l → v.sub ≠ 0

/-- The transaction steps of launches: a launch that read what an earlier uncommitted launch wrote, or data as it stood before a commit or a host's write
changed it, aborts: its record reads ABORT_CONFLICT, its shadow is discarded, its teams leave, and where its next attempt is to run serialised every later
running launch aborts too. An aborted one starts again, alone where it is serialised. The oldest commits: the later ones that conflict with it abort, the
bytes of its shadow become committed data, and its record reads COMMITTED with the commit sequence (R251 to R255). -/
def LaunchesAbortReplayAndCommit : Prop :=
  ∀ (l : Nat) (s : State) (x : Launch), Table.find s.launches l = some x →
    (∀ k t r, Table.find s.teams k = some t → t.region = some r → r.closing = none) →
    (let alone := ∀ g, x.kind = .grid g → s.descendants g = []
     let serial := x.serial || decide (x.retry ≤ x.counted + 1)
     (x.missed ≠ [] ∨ ∃ e ∈ s.launches, e.2.active = true ∧ s.before e.1 l = true ∧ s.conflicts e.1 l = true) → x.active = true →
      ∃ u, exec (.conflictAbort l) s = .next u ∧ AbortedToReplay u l x
        ∧ (∃ y, Table.find u.launches l = some y ∧ y.attempts = x.attempts + 1 ∧ y.counted = x.counted + 1 ∧ y.serial = serial)
        ∧ (∀ g, x.kind = .grid g → s.launchSaved l = false → ∀ e ∈ u.teams, e.2.grid ≠ g)
        ∧ (serial = true → ∀ k y, k ≠ l → Table.find s.launches k = some y → y.active = true → s.before l k = true → AbortedToReplay u k y)
        ∧ (serial = false → alone → (∀ k, k ≠ l → Table.find u.launches k = Table.find s.launches k)
            ∧ Recorded s u x.ctx x.status (statusRecord 2 (x.attempts + 1) (if x.ranSerial then 1 else 0) (x.tag.getD 0) 0 0 0 0)))
    ∧ (x.phase = .replay → (s.context x.ctx).stopped = false →
        (∀ y ∈ s.launches, y.2.serial = true → s.before y.1 l = false) → s.workBlocked l x.ctx x.kind (s.isOldest l) = false →
        let go := fun s : State => (s.modLaunch l fun x => { x with phase := .running, aborted := false, ranSerial := x.serial }).beginWork l
        let clean := if x.aborted then s.stopLaunch l else s
        (x.serial = false → exec (.launchReplay l) s = .next (go clean))
        ∧ (x.serial = true → s.isOldest l = true → exec (.launchReplay l) s = .next (go (clean.abortLater l)))
        ∧ ∀ g, x.kind = .grid g → x.serial = false ∨ s.isOldest l = true →
            ∃ u, exec (.launchReplay l) s = .next u
              ∧ (∃ y, Table.find u.launches l = some y ∧ y.phase = .running ∧ y.tag = x.tag ∧ y.attempts = x.attempts ∧ y.ranSerial = x.serial)
              ∧ (x.serial = true → ∀ k y, k ≠ l → Table.find s.launches k = some y → y.active = true → s.before l k = true → AbortedToReplay u k y))
    ∧ (∀ tag, x.tag = some tag → x.phase = .done → x.missed = [] → s.isOldest l = true →
        (let u := s.commitLaunch l tag
         let v := s.commitVersion l tag
         let clear := ∀ e ∈ s.launches, e.2.active = true → s.before l e.1 = true → s.conflicts l e.1 = false
         Table.find u.launches l = none ∧ u.commits = s.commits + 1 ∧ (∀ y ∈ u.shadows, y.launch = l → y.sub ≠ 0)
          ∧ (∀ k y, Table.find s.launches k = some y → y.active = true → s.before l k = true → s.conflicts l k = true → AbortedToReplay u k y)
          ∧ (clear → x.status = 0 → x.signal = 0 → ∀ pa, u.committedAt pa = (shadowByte s.shadows (l, 0) pa).getD (s.committedAt pa))
          ∧ (clear → x.signal = 0 → Recorded v u x.ctx x.status
              (statusRecord 1 x.attempts (if x.ranSerial then 1 else 0) tag 0 0 0 (s.commits + 1)))) ∧
        (∀ g, x.kind = .grid g → exec (.launchCommit l) s = .next (s.commitLaunch l tag))
        ∧ (∀ a b n, x.kind = .copy a b n → exec (.launchCommit l) s = .next (s.commitLaunch l tag))
        ∧ ∀ d op q q2, x.kind = .btop d op q q2 →
            exec (.launchCommit l) s = .next (if op = 2 ∨ op = 3 then
              (TableEnv.tableOp { core := 0, ctx := x.ctx, view := [] } (s.commitLaunch l tag) d op q q2 true).2 else s.commitLaunch l tag))
    ∧ (∀ tag, x.tag = some tag → x.missed ≠ [] → exec (.launchCommit l) s = .fault .notDue)

/-- The shadow's lines: a write-back brings the oldest committed version of a line home and changes no byte that a reader of committed data sees;
an eviction of a line moves one version of it that is in the LLC, of a launch or a committed one, to the overflow region of its context where that has
space, or a launch's read of the line or of its words to the signature; a store that waited for the region issues again when there is space (R250, R252,
R256, R257). -/
def ShadowLinesMove : Prop :=
  (∀ (line : Nat) (s : State), (∃ c ∈ s.committed, ∃ e ∈ c.bytes, e.1 / 64 = line) →
    (∀ k t r, Table.find s.teams k = some t → t.region = some r → r.closing = none) →
    ∃ u k, exec (.shadowWriteback line) s = .next u ∧ (∀ pa, u.committedAt pa = s.committedAt pa)
      ∧ (∀ pa, pa / 64 ≠ line → u.memByte pa = s.memByte pa)
      ∧ u.committed = ((listModify s.committed k fun c => { c with bytes := c.bytes.filter fun e => e.1 / 64 != line }).filter fun c => !c.bytes.isEmpty)
      ∧ (∃ c, s.committed[k]? = some c ∧ ∃ e ∈ c.bytes, e.1 / 64 = line)
      ∧ ∀ j c, k < j → s.committed[j]? = some c → ∀ e ∈ c.bytes, e.1 / 64 ≠ line)
  ∧ (∀ (l line : Nat) (s : State) (x : Launch), Table.find s.launches l = some x →
      x.readsLine line = true ∨ (s.llcVersions l line ≠ [] ∧ s.overflowFull x.ctx = false) →
      ∃ u, exec (.shadowEvict l line) s = .next u ∧ u.mem = s.mem ∧ u.shadows = s.shadows ∧ u.committed = s.committed
        ∧ ((∃ k ∈ s.llcVersions l line, s.overflowFull x.ctx = false ∧ (u.context x.ctx).overflow = (k, line) :: (s.context x.ctx).overflow
              ∧ u.launches = s.launches)
          ∨ (∃ y, x.readsLine line = true ∧ Table.find u.launches l = some y ∧ y.sig = x.sig ||| signatureBits line ∧ y.readsLine line = false
              ∧ (∀ w, w ∈ y.readWords ↔ w ∈ x.readWords ∧ w / 8 ≠ line) ∧ u.contexts = s.contexts)))
  ∧ (∀ (line : Nat) (s : State), Table.find s.launches 0 = none → (∃ x ∈ s.llcCommitted line, s.overflowFull x.1 = false) →
      ∃ u, exec (.shadowEvict 0 line) s = .next u ∧ u.mem = s.mem ∧ u.shadows = s.shadows ∧ u.committed = s.committed ∧ u.launches = s.launches
        ∧ ∃ x ∈ s.llcCommitted line, s.overflowFull x.1 = false ∧ (u.context x.1).overflow = (x.2, line) :: (s.context x.1).overflow)
  ∧ (∀ (l line : Nat) (s : State) (x : Launch), Table.find s.launches l = some x → x.readsLine line = false →
      s.llcVersions l line = [] ∨ s.overflowFull x.ctx = true → exec (.shadowEvict l line) s = .fault .notDue)
  ∧ ∀ (r : GroupRef) (s : State) (g : Group) (t : Team), s.findGroup r = some g → Table.find s.teams r.team = some t →
      g.state = .waiting .shadow → (s.overflowFull (s.teamCtx t) = false ∨ s.isOldest (s.teamLaunch t) = true) →
      exec (.shadowStoreResume r) s = .next (s.modGroup r fun g => { g with state := .ready })

end Sys2Proof.Claims

/-- Teams are placed, admitted in gangs and retired as the distributors' rules say (R34, R39, R41, R43, R49, R50, R274 to R276).
The choices of the model that it rests on: log 68. -/
def Obligations.TeamsArePlacedAndRetired : Prop := TeamIsPlaced ∧ GangIsAdmittedWhole ∧ TeamRetires

/-- Launch transactions abort, replay and commit, and the lines of their shadows move (R250 to R257, R306).
The choices of the model that it rests on: log 67. -/
def Obligations.LaunchTransactions : Prop := LaunchesAbortReplayAndCommit ∧ ShadowLinesMove

namespace Sys2Proof.Claims

-- ## Queues

/-- A kick above the write index moves it, within the queue's size; a kick beyond that is an error; a lower one is ignored. The read index is
written only while the queue does not run, and QCFG enables a queue and clears its error. A queue that a write of QCFG leaves stopped stands on no pending
list, so that its head joins anew (R273). In recovery no write has effect, and no queue has a number above 4,095 (R261, R262, R271, R273, R314). -/
def QueueRegistersAreWritten : Prop :=
  ∀ (q : Nat) (v : BitVec 64) (s : State),
    let x := s.queue q
    (s.recov = true ∨ 4096 ≤ q → exec (.kick q v) s = .next s ∧ exec (.qrdWrite q v) s = .next s
      ∧ (v.getLsbD 31 = true → x.en = false → exec (.queueEnable q v) s = .next s)
      ∧ (v.getLsbD 30 = true → x.err = true → exec (.queueErrorClear q v) s = .next s))
    ∧ (s.recov = false → q < 4096 →
      (v.toNat ≤ x.wr.toNat → exec (.kick q v) s = .next s)
      ∧ (x.wr.toNat < v.toNat → v.toNat ≤ x.qrd.toNat + 2 ^ x.size.toNat →
          exec (.kick q v) s = .next (s.modQueue q fun x => { x with wr := v }))
      ∧ (x.wr.toNat < v.toNat → x.qrd.toNat + 2 ^ x.size.toNat < v.toNat → exec (.kick q v) s = .next (s.queueError q 3 0 v))
      ∧ (x.en = true → x.err = false → exec (.qrdWrite q v) s = .next (s.modQueue q fun x => x))
      ∧ (x.en = false ∨ x.err = true → exec (.qrdWrite q v) s = .next (s.modQueue q fun x => { x with qrd := v }))
      ∧ (v.getLsbD 31 = true → x.en = false → exec (.queueEnable q v) s = .next (s.writeQcfg q v)
          ∧ (x.writeCfg v).en = true ∧ (x.writeCfg v).wr = x.qrd ∧ (x.writeCfg v).prio = v.extractLsb' 16 5 ∧ (x.writeCfg v).ctx = v.extractLsb' 0 8)
      ∧ (v.getLsbD 30 = true → x.err = true → exec (.queueErrorClear q v) s = .next (s.writeQcfg q v)
          ∧ (x.writeCfg v).err = false)
      ∧ exec (.registerWrite (.qcfg q) v) s = .next (s.writeQcfg q v)
      ∧ (let u := s.writeQcfg q v
         let y := u.queue q
         y = { x.writeCfg v with listed := y.listed } ∧ (∀ k, k ≠ q → u.queue k = s.queue k)
          ∧ (y.hasPacket = true → y.listed = x.listed ∧ u.pending = s.pending)
          ∧ (y.en = false ∨ y.err = true → y.listed = false ∧ ∀ e ∈ u.pending, q ∉ e.2)))

/-- A queue whose next packet can start joins its priority's pending list; an idle agent draws the head of the highest list whose
context takes packets, checks the packet and holds it, and QRD advances, or the queue enters its error state (R264, R270, R273, R288). -/
def PacketsAreDrawn : Prop :=
  (∀ (q : Nat) (s : State) (bs : List Byte), let x := s.queue q
    x.hasPacket = true → x.listed = false → (s.context x.ctx.toNat).stopped = false → s.headPacket x = .ok bs →
    s.startsNow q x.ctx.toNat bs = true →
    exec (.pendingListJoin q) s = .next ({ s with pending := Table.put s.pending x.prio.toNat (Table.getD s.pending x.prio.toNat [] ++ [q]) }.modQueue q
      fun x => { x with listed := true }))
  ∧ ∀ (core : Nat) (s : State), s.agentIdle core = true →
      (highestPending s.drawable = none → exec (.packetDraw core) s = .next { s with tickets := s.tickets + 1 })
      ∧ (∀ e ∈ s.drawable, ∀ q ∈ e.2, (s.context (s.queue q).ctx.toNat).stopped = false)
      ∧ ∀ p q, highestPending s.drawable = some (p, q) →
          let t := { s with tickets := s.tickets + 1, pending := Table.put s.pending p ((Table.getD s.pending p []).erase q) }.modQueue q
            fun x => { x with listed := false }
          exec (.packetDraw core) s = .next (t.takePacket core q)
          ∧ (∀ bs c, (t.queue q).hasPacket = true → t.headPacket (t.queue q) = .ok bs →
              t.checkPacket [] none (t.queue q).ctx.toNat (t.locBytes []) bs = .ok c →
              ((t.takePacket core q).queue q).qrd = (t.queue q).qrd + 1
              ∧ ((t.takePacket core q).core core).agent.drawn =
                  some { q := q, index := (t.queue q).qrd, bytes := bs ++ c.args ++ c.mask, image := c.image })
          ∧ (∀ a, (t.queue q).hasPacket = true → t.headPacket (t.queue q) = .error a → (t.context (t.queue q).ctx.toNat).level ≠ 3 →
              t.takePacket core q = t.queueError q 4 0 a)
          ∧ ∀ bs f, (t.queue q).hasPacket = true → t.headPacket (t.queue q) = .ok bs →
              t.checkPacket [] none (t.queue q).ctx.toNat (t.locBytes []) bs = .error f →
              t.takePacket core q = t.queueError q f.code (packetType bs) f.detail

/-- The agent acts on its packet in queue order: LAUNCH creates a top-level launch and its grid and writes its PENDING record, BARRIER waits for
its signals, SIGNAL waits for the queue's running packets and then adds and notifies, NOP does nothing, COPY and BTOP start as launches with a
version tag. The grid's number is no other grid's (R52, R253, R265 to R269). -/
def PacketsAct : Prop :=
  ∀ (core : Nat) (s : State) (d : Drawn), (s.core core).agent.drawn = some d →
    let q := s.queue d.q
    let ctx := q.ctx.toNat
    let word := packetAddr d.bytes
    (∀ im, packetType d.bytes = 1 → d.image = some im → s.inOrder d = true →
      let l := s.nextId
      ∃ u x g, exec (.launchPacket core) s = .next u ∧ Table.find u.launches l = some x ∧ Table.find u.grids (l + 1) = some g
        ∧ x.kind = .grid (l + 1) ∧ x.phase = .waiting ∧ x.tag = none ∧ x.ctx = ctx ∧ x.queue = d.q ∧ x.index = d.index ∧ x.status = word 3
        ∧ x.signal = word 7 ∧ g.image = im ∧ g.teams = packetTeams d.bytes ∧ g.args = packetArgList d.bytes ∧ g.prio = q.prio.toNat
        ∧ Recorded s u ctx (word 3) (List.replicate 32 0)
        ∧ (u.queue d.q).running = q.running ++ [{ index := d.index, launch := some l }]
        ∧ (∀ e ∈ s.grids, e.2.number ≠ g.number) ∧ g.parent = none ∧ g.nextTeam = 0 ∧ (u.core core).agent.drawn = none)
    ∧ (packetType d.bytes = 2 → s.inOrder d = true → s.signalsMet ctx d.bytes = true → exec (.barrierPacket core) s = .next (s.packetDone core))
    ∧ (packetType d.bytes = 3 → s.inOrder d = true → q.running = [] →
        let t := s.addSignal ctx (word 1) (word 2)
        exec (.signalPacket core) s = .next ((if packetBit d.bytes 10 then t.notify 2 d.q else t).packetDone core))
    ∧ (packetType d.bytes = 6 → s.inOrder d = true → exec (.nopPacket core) s = .next (s.packetDone core))
    ∧ ∀ kind, s.windowOpen = true → s.queueBefore (newLaunch d ctx kind (word 4) (word 5)) = false → (s.context ctx).stopped = false →
        s.overflowFull ctx = false →
        let l := s.nextId
        let pending := s.writePending ctx (word 4)
        let t := { pending with nextId := l + 1, launches := Table.put pending.launches l (newLaunch d ctx kind (word 4) (word 5)) }
        Recorded s t ctx (word 4) (List.replicate 32 0) ∧
        let done := ((((t.packetRuns d l).packetDone core).startLaunch l 0).beginWork l).rouseAll
        (packetType d.bytes = 4 → kind = .copy (word 1) (word 2) (packetWord d.bytes 3) → exec (.copyPacket core) s = .next done)
        ∧ (packetType d.bytes = 5 → kind = .btop (word 1) (natBits (packetWord d.bytes 2) 31 0) (natBits (packetWord d.bytes 2) 63 32)
            (natBits (packetWord d.bytes 3) 31 0) → exec (.btopPacket core) s = .next done)

/-- launch: with Guard in lane 0 of group 0 the packet at its address is read once, and the child grid that it names joins its die's device queue, under a
new sub-version of the launch, with a PENDING record; a full queue holds it, and it then goes on with what it has read; the tenth level of nesting raises
STACK (R33, R253, R258, R277, R401). A starved group gets its boost and issues next: while a quadrant has starved groups, the one of the lowest slot is chosen, unless the agent issues (R46, R47). -/
def RunningWorkLaunches : Prop :=
  (∀ (w : XWord) (s : State) (e : Env) (t : Team) (gr : Grid), Issues s e { v := [], s := [w.r1.toNat, w.r1.toNat + 1] } → e.team = some t →
    e.grid = some gr →
    let va := e.grp.readSPair w.r1.toNat
    (e.grp.child = none → e.grp.num ≠ 0 → exec (.launch w) s = .next (e.trap s .illegal))
    ∧ (e.grp.child = none → e.grp.num = 0 → (e.guard w.g).getLsbD 0 = false → exec (.launch w) s = .next (e.finish e.grp s))
    ∧ (e.grp.child = none → e.grp.num = 0 → (e.guard w.g).getLsbD 0 = true →
        (gr.depth = 10 → exec (.launch w) s = .next (e.trap s .stack))
        ∧ (gr.depth ≠ 10 → va.toNat % 64 ≠ 0 →
            exec (.launch w) s = .next (e.trapWith s e.grp .align AccessKind.read.code va wholeGroup false)))
    ∧ ∀ bs im l sub u,
        (e.grp.child = some (bs, im) ∧ u = s) ∨ (e.grp.child = none ∧ e.grp.num = 0 ∧ (e.guard w.g).getLsbD 0 = true ∧ gr.depth ≠ 10
          ∧ va.toNat % 64 = 0 ∧ ∃ locs, e.launchPacket s t.grid va = some (bs, locs, im)
          ∧ u = (locs.foldl (fun s x => s.trackOwn e.gref (e.view s) e.grp e.grp.seq x 1) s).touchPacket
              (e.view (locs.foldl (fun s x => s.trackOwn e.gref (e.view s) e.grp e.grp.seq x 1) s)) (some t.grid) e.ctx va bs) →
        Table.find s.launches gr.launch = some l → l.freeSub = some sub →
        let die := e.core / 64
        (256 ≤ (Table.getD u.devQueues die []).length →
          exec (.launch w) s = .next (({ e with grp := { e.grp with child := some (bs, im) } } : Env).waitOn .deviceQueue u))
        ∧ ((Table.getD u.devQueues die []).length < 256 → u.releasable e.gref e.grp e.grp.know 0 e.grp.seq homeScope (.scratch 0) = true →
            u.fencesClear e.gref e.grp e.grp.know e.grp.fence (.scratch 0) = true →
            ∃ v g y, exec (.launch w) s = .next (e.finish { e.grp with child := none } v)
              ∧ Recorded u v e.ctx (packetAddr bs 3) (List.replicate 32 0)
              ∧ Table.getD v.devQueues die [] = Table.getD u.devQueues die [] ++ [s.nextId] ∧ v.nextId = s.nextId + 1
              ∧ Table.find v.grids s.nextId = some g ∧ g.parent = some t.grid ∧ g.launch = gr.launch ∧ g.ctx = e.ctx ∧ g.depth = gr.depth + 1
              ∧ g.sub = sub ∧ g.image = im ∧ g.args = packetArgList bs ∧ g.teams = packetTeams bs ∧ g.prio = gr.prio ∧ g.die = some die
              ∧ g.status = packetAddr bs 3 ∧ g.signal = packetAddr bs 7 ∧ g.nextTeam = 0 ∧ (∀ x ∈ s.grids, x.2.number ≠ g.number)
              ∧ Table.find v.launches gr.launch = some y ∧ y.subs = sub :: l.subs ∧ sub ∉ l.subs))
  ∧ (∀ (r : GroupRef) (s : State) (t : Team) (g : Group), Table.find s.teams r.team = some t → t.groups[r.grp]? = some g →
      65536 ≤ g.starve → g.canIssue = true → s.mayIssue r = true → s.quadIssued t.core g.quad = false →
      exec (.starvationBoost r) s =
        .next { (s.modGroup r fun g => { g with starve := 0, boosted := true }) with turns := .issue r :: s.turns })
  ∧ ∀ (s : State) (core quad : Nat) (c : Contender), c ∈ s.contenders core quad → s.starved c = true →
      (quad = 3 → (s.core core).agentReady = false) →
      ∃ a ∈ s.contenders core quad, s.chosen core quad = some a.ref ∧ s.starved a = true ∧ a.slot ≤ c.slot

end Sys2Proof.Claims

/-- The queues: their registers, and how packets are drawn (R261, R262, R264, R270, R271, R273, R314).
The choices of the model that it rests on: log 73, 76, 80. -/
def Obligations.QueuesTakePackets : Prop := QueueRegistersAreWritten ∧ PacketsAreDrawn

/-- What a packet and a launch instruction start (R33, R46, R47, R253, R258, R265 to R269, R277, R401).
The choices of the model that it rests on: log 70, 71. -/
def Obligations.PacketsAndLaunchesStartWork : Prop := PacketsAct ∧ RunningWorkLaunches

namespace Sys2Proof.Claims

-- ## Power, traps, pre-emption

/-- A charge takes its credits from the bucket; one above CAP waits for a full bucket and empties it; with EN 0 nothing is charged. credit refill
adds RATE up to CAP, once in a cycle, and where it has not, the tick that ends the cycle does; a waiting charge that can be made lets its group issue again; the controller's RATE never exceeds the one last written; an
idle core with GATE set gates its clock, and a gated core that is chosen wakes with a full bucket, lower numbers
first, at most 8 in 1,400 cycles (R280 to R282). -/
def PowerIsCharged : Prop :=
  ∀ (core : Nat) (s : State), let c := s.core core
    (∀ n, (c.pwrEn = false → c.charge n = some c)
      ∧ (c.pwrEn = true → n ≤ c.level.toNat → ∃ d, c.charge n = some d ∧ d = { c with level := d.level } ∧ d.level.toNat = c.level.toNat - n)
      ∧ (c.pwrEn = true → c.level.toNat < n → n ≤ c.cap.toNat → c.charge n = none)
      ∧ (c.pwrEn = true → c.level.toNat < n → c.cap.toNat < n → c.level ≠ c.cap → c.charge n = none)
      ∧ (c.pwrEn = true → c.level.toNat < n → c.cap.toNat < n → c.level = c.cap → c.charge n = some { c with level := 0 }))
    ∧ (c.gated = true → exec (.creditRefill core) s = .fault .notDue)
    ∧ (c.owed = false → exec (.creditRefill core) s = .fault .notDue)
    ∧ (c.gated = false → c.owed = true → c.bucketTicked = { c with level := c.bucketTicked.level }
        ∧ c.bucketTicked.level.toNat = min c.cap.toNat (c.level.toNat + c.rate.toNat))
    ∧ (c.gated = false → c.owed = true → ∃ u, exec (.creditRefill core) s = .next u
        ∧ (u.core core) = { c with level := (u.core core).level, owed := false }
        ∧ (u.core core).level.toNat = min c.cap.toNat (c.level.toNat + c.rate.toNat) ∧ u.mem = s.mem ∧ u.teams = s.teams)
    ∧ (∀ rest, s.turns = .tick :: rest → step s = .next { s with turns := rest }.tick)
    ∧ (c.owed = true → (s.tick.core core).level.toNat = min c.cap.toNat (c.level.toNat + c.rate.toNat))
    ∧ (c.owed = false → (s.tick.core core).level = c.level)
    ∧ (∀ rate : BitVec 11, rate ≠ 0 → exec (.powerControllerAdjust rate) s =
        .next { s with cores := Table.mapVals s.cores fun c => { c with rate := if rate.toNat ≤ c.rateSet.toNat then rate else c.rateSet } })
    ∧ (c.started = true → c.gated = false → c.pwrGate = true → 65536 ≤ c.idle → s.placedOn core = [] →
        exec (.coreClockGate core) s = .next (s.modCore core fun c => { c with gated := true, owed := false }))
    ∧ (c.gated = true → s.chosenCore core = true → s.wakeOpen = true → (∀ k, k < core → (s.core k).gated = true → s.chosenCore k = false) →
        exec (.coreWake core) s = .next { (s.modCore core fun c => { c with gated := false, idle := 0, level := c.cap, owed := false }) with
          wakeFrom := s.cycle, wakes := if s.wakeFrom = s.cycle then s.wakes + 1 else 1 })
    ∧ (8 ≤ s.wakes → (s.cycle - s.wakeFrom).toNat < 1400 → exec (.coreWake core) s = .fault .notDue)
    ∧ (∀ (r : GroupRef) g t k n, s.findGroup r = some g → Table.find s.teams r.team = some t → t.phase = .placed →
        g.state = .waiting (.power k n) → s.canCharge k n = true →
        exec (.powerChargeResume (.group r)) s = .next (s.modGroup r fun g => { g with state := .ready }))
    ∧ (∀ (r : GroupRef) g n, r.team = 0 → s.findGroup r = some g → g.state = .waiting (.power core n) → s.canCharge core n = true → exec (.powerChargeResume (.group r)) s = .next (s.modGroup r fun g => { g with state := .ready }))
    ∧ (∀ tk k t r p, Table.find s.teams tk = some t → t.region = some r → p ∈ r.active.ports → p.k = k → s.canCharge t.core 1 = true →
        exec (.powerChargeResume (.port tk k)) s = .next s)
    ∧ (∀ k q, q ∈ c.tileQ → q.1 = k → q.2.answer = none → s.canCharge core 1 = true → exec (.powerChargeResume (.tile core k)) s = .next s)

/-- trap delivery: the agent writes the record first where the context's ring is enabled and has room, and a full ring holds the trap; PAGE and
PROT then wait for the host, BKPT and SWTRAP for a registered debug handler, RETIRED for the agent's emulation, and every other trap ends its
grid. Without records the agent resolves a PAGE or PROT or does not. DBGC.STOP starts a save at a BKPT or SWTRAP. group resume lets the group issue
again, or ends a bsync that every group has reached, after which a group that single-steps traps with BKPT 5 where it would issue; an unresolved fault aborts
the grid (R152, R199, R284, R286, R293, R359). -/
def TrapsAreDelivered : Prop :=
  ∀ (r : GroupRef) (s : State) (g : Group) (t : Team) (i : TrapInfo), r.team ≠ 0 → s.findGroup r = some g → Table.find s.teams r.team = some t →
    g.trap = some i → t.phase = .placed →
    let ctx := s.teamCtx t
    let c := s.context ctx
    let told := s.agentEvent t.core (.trap r)
    (i.phase = .raised →
      (i.kind = .retired → g.severalPaths = false →
        exec (.trapDelivery r) s = .next ((s.modGroup r fun g => g.trapAt .sync).agentEvent t.core (.trap r)))
      ∧ (i.kind ≠ .retired →
        let recorded := (told.writeTrap ctx (trapRecord ctx (s.gridNumber t.grid) t g i.kind i)).stopForDebug ctx i.kind
        (c.trbEn = true → c.ringFull = true → exec (.trapDelivery r) s = .fault .notDue)
        ∧ (c.trbEn = true → c.ringFull = false → i.kind = .page ∨ i.kind = .prot →
            exec (.trapDelivery r) s = .next (recorded.modGroup r fun g => g.trapAt .host))
        ∧ (c.trbEn = false → i.kind = .page ∨ i.kind = .prot →
            let u := recorded.choose 2
            exec (.trapDelivery r) s = .next (if u.1 = 0 then u.2.abortGrid t.grid (Ending.ofTrap i.kind i.addr) else u.2.modGroup r Group.resume))
        ∧ (i.kind = .bkpt ∨ i.kind = .swtrap → c.dbgStop = true → c.go = false →
            (recorded.context ctx).go = true ∧ (recorded.context ctx).mode = 1)
        ∧ (c.trbEn = true → c.ringFull = false → c.dbgEn = true → i.kind = .bkpt ∨ i.kind = .swtrap →
            exec (.trapDelivery r) s = .next (recorded.modGroup r fun g => g.trapAt .debug))
        ∧ (c.trbEn = false ∨ c.ringFull = false → i.kind ≠ .page → i.kind ≠ .prot → i.kind ≠ .bkpt → i.kind ≠ .swtrap →
            exec (.trapDelivery r) s = .next (recorded.abortGrid t.grid (Ending.ofTrap i.kind i.addr)))))
    ∧ (i.phase = .host →
        exec (.groupResume r) s = .next (s.modGroup r Group.resume)
        ∧ exec (.unresolvedFaultAbort r) s = .next (s.abortGrid t.grid (Ending.ofTrap i.kind i.addr)))
    ∧ (i.phase = .sync → t.syncMet g = true →
        let woken := fun h : Group => if h.syncing g.syncs then h.resume else h
        (∃ u tm, exec (.groupResume r) s = .next u ∧ Table.find u.teams r.team = some tm
          ∧ tm.groups = t.groups.map woken ∧ u.mem = s.mem ∧ u.scratch = s.scratch ∧ ∀ k, k ≠ r.team → Table.find u.teams k = Table.find s.teams k)
        ∧ (g.singleStep = true → i.after = true → g.active.isSome = true → g.resume.stepped = true ∧ g.resume.singleStep = false))
    ∧ ∀ e, s.env = some e → e.grp.stepped = true → s.issueActor = .done (e.trapWith s { e.grp with stepped := false } .bkpt 5 0 wholeGroup false)

/-- A drain completes with RES 1 when every team and child of the context has retired; at its limit it goes on as a save; a save completes with
RES 2 when every placed team can be saved; a kill aborts every launch of the context and completes with RES 3; a restore completes with RES 4
when every saved team is placed (R45, R288 to R291). A write of a request starts it, and while one is under way only a kill is taken. -/
def RequestsComplete : Prop :=
  ∀ (ctx : Nat) (s : State), let c := s.context ctx
    (c.go = true → c.mode = 0 → c.drainOver = false →
      (s.drained ctx = true → exec (.preqDrain ctx none) s = .next (s.preqDone ctx 1))
      ∧ (s.drained ctx = false → c.drain = 0 →
          exec (.drainLimitExpiry ctx) s = .next (s.modContext ctx fun c => { c with drainOver := true })))
    ∧ (s.saving ctx = true → (∀ e ∈ s.placedTeams ctx, s.savable e = true) →
        exec (.preqSave ctx none) s = .next ((((s.placedTeams ctx).foldl (fun s e => s.saveTeam e.1)
          (((s.placedTeams ctx).map fun e => e.2.core).eraseDups.foldl (fun s c => s.blurSaveArea ctx c) s)).preqDone ctx 2).rouseAll))
    ∧ (c.go = true → c.mode = 3 → s.restoreDone ctx = true → exec (.preqRestore ctx none) s = .next ((s.preqDone ctx 4).rouseAll))
    ∧ (s.recov = false → ∀ v : BitVec 64, let mode := (v.extractLsb' 28 3).toNat
        let asked := s.modContext ctx fun c => c.writePreq v
        (mode = 0 → c.go = false → exec (.preqDrain ctx (some v)) s = .next asked)
        ∧ (mode = 1 → c.go = false → exec (.preqSave ctx (some v)) s = .next asked)
        ∧ (mode = 3 → c.go = false → v.getLsbD 31 = true → exec (.preqRestore ctx (some v)) s = .next (asked.unsave ctx))
        ∧ (mode = 2 → v.getLsbD 31 = true → c.go = false ∨ c.mode ≠ 3 →
            exec (.preqKill ctx v) s = .next (((asked.killContext ctx).preqDone ctx 3).rouseAll))
        ∧ (mode = 0 → c.go = true → exec (.preqDrain ctx (some v)) s = .next (s.modContext ctx fun c => c))
        ∧ (mode = 1 → c.go = true → exec (.preqSave ctx (some v)) s = .next (s.modContext ctx fun c => c)))

/-- The debug interface acts on a group that is Trapped or saved: it answers an item in DDAT, writes one, resumes the group, or lets it run one
instruction; a command that it refuses sets REF and changes nothing else. A register item of a group whose loads are still under way waits for them
(R153, R293, R294). -/
def DebuggerActsOnHeldGroups : Prop :=
  ∀ (ctx : Nat) (s : State), s.recov = false → (s.context ctx).dbusy = false →
    let c := s.context ctx
    let refused := s.modContext ctx fun c => { c with dref := true }
    (∀ i ∈ [Instr.debugRead ctx, .debugWrite ctx, .debugResume ctx, .debugSingleStep ctx], s.debugTarget ctx = none → exec i s = .next refused)
    ∧ ∀ t, s.debugTarget ctx = some t →
        (s.debugWaits ctx = true → exec (.debugRead ctx) s = .fault .notDue ∧ exec (.debugWrite ctx) s = .fault .notDue)
        ∧ (t.saved = true ∨ (∀ g, t.held = some g → g.loads = []) ∨ (c.dselKind ≠ 0x01 ∧ c.dselKind ≠ 0x02) → s.debugWaits ctx = false)
        ∧ (∀ x, s.debugWaits ctx = false → t.read s c = some x → exec (.debugRead ctx) s =
          .next ((s.modContext ctx fun c => { c with ddat := x }).modContext ctx fun c => { c with dref := false }))
        ∧ (s.debugWaits ctx = false → t.read s c = none → exec (.debugRead ctx) s = .next refused)
        ∧ (∀ u, s.debugWaits ctx = false → t.write s c = some u → exec (.debugWrite ctx) s = .next (u.modContext ctx fun c => { c with dref := false }))
        ∧ (s.debugWaits ctx = false → t.write s c = none → exec (.debugWrite ctx) s = .next refused)
        ∧ (∀ g, t.held = some g → g.resumable = true → g.state ≠ .retired →
            exec (.debugResume ctx) s = .next ((s.modGroup t.ref Group.resume).modContext ctx fun c => { c with dref := false })
            ∧ exec (.debugSingleStep ctx) s = .next (((t.leaveS s).modGroup t.ref fun g => { (t.toT s g.resume) with singleStep := true, stepped := false }).modContext
                ctx fun c => { c with dref := false }))
        ∧ (t.held = none → exec (.debugResume ctx) s = .next refused ∧ exec (.debugSingleStep ctx) s = .next refused)

/-- The steps of the registers of a context, by their offsets in its block (R304), for a write of a value. -/
def contextRegs (x : Nat) (v : BitVec 64) : List (Nat × Instr) :=
  [(0x00, .registerWrite (.ttb x) v), (0x08, .registerWrite (.csc x) v), (0x10, .registerWrite (.txc x) v), (0x18, .registerWrite (.compat x) v),
   (0x28, .registerWrite (.csa x) v), (0x30, .registerWrite (.trb x) v), (0x40, .trrWrite x v), (0x48, .registerWrite (.dbgc x) v),
   (0x50, .bpWrite x 0 v), (0x58, .bpWrite x 1 v), (0x60, .bpWrite x 2 v), (0x68, .bpWrite x 3 v), (0x70, .rucWrite x v),
   (0x80, .registerWrite (.dtgt x) v), (0x88, .registerWrite (.dsel x) v), (0x90, .registerWrite (.dadr x) v), (0x98, .registerWrite (.ddat x) v)]

/-- The register has a step of its own: it is not named by an offset. -/
def named : CtlReg → Bool
  | .bar _ | .kickPage .. => false
  | _ => true

/-- Control registers that the host writes take their fields: PWR, RUC, TRR, BPn and the registers of register write; in recovery only the
firmware upload window takes writes, and no read of a kick page shows a queue. A word of BAR0 or of a kick page is the register at its offset, a read-only register and an unlisted offset
ignore a write, and a read gives the register's fields (R5, R79, R130, R170, R197, R260 to R262, R280, R287 to R289, R292, R294, R303, R304, R312,
R314). -/
def ControlRegistersAreWritten : Prop :=
  (∀ (s : State) (v : BitVec 64),
    (s.recov = false → ∀ r, named r = true → exec (.registerWrite r v) s = .next (s.writeReg r v))
    ∧ (s.recov = true → (∀ off, exec (.registerWrite (.upload off) v) s = .next { s with upload := Sparse.set s.upload off v })
        ∧ (∀ r, named r = true → (∀ off, r ≠ .upload off) → exec (.registerWrite r v) s = .next s)
        ∧ ∀ ctx n core, exec (.rucWrite ctx v) s = .next s ∧ exec (.pwrWrite core v) s = .next s ∧ exec (.trrWrite ctx v) s = .next s
            ∧ exec (.bpWrite ctx n v) s = .next s)
    ∧ (s.recov = false → ∀ ctx n core,
        (v.getLsbD 0 = false → exec (.rucWrite ctx v) s = .next s)
        ∧ (v.getLsbD 0 = true → exec (.rucWrite ctx v) s = .next (s.modContext ctx fun c => { c with retuse := 0 }).hostWriteBy)
        ∧ exec (.pwrWrite core v) s = .next ((s.modCore core fun c => c.writePwr v).hostWriteTo core)
        ∧ exec (.trrWrite ctx v) s = .next (s.modContext ctx fun c =>
            if v.toNat ≤ c.trw.toNat ∧ c.trr.toNat ≤ v.toNat then { c with trr := v } else c)
        ∧ ∃ u, exec (.bpWrite ctx n v) s = .next u ∧ u.mem = s.mem
            ∧ (u.context ctx).bpAddr = listModify (s.context ctx).bpAddr n (fun _ => v.extractLsb' 3 54)
            ∧ (u.context ctx).bpEn = listModify (s.context ctx).bpEn n (fun _ => v.getLsbD 0)))
  ∧ (∀ (s : State) (v : BitVec 64), let at_ := fun off => exec (.registerWrite (.bar off) v) s
      (∀ q, q < 4096 → at_ (0x1000 + 32 * q) = exec (.registerWrite (.qbase q) v) s
        ∧ at_ (0x1008 + 32 * q) = exec (.registerWrite (.qerra q) v) s ∧ at_ (0x1010 + 32 * q) = exec (.registerWrite (.qcfg q) v) s
        ∧ at_ (0x1018 + 32 * q) = exec (.qrdWrite q v) s
        ∧ exec (.registerWrite (.kickPage (q / 64) (8 * (q % 64))) v) s = exec (.kick q v) s)
      ∧ (∀ x, x < 256 → (∀ p ∈ contextRegs x v, at_ (0x100000 + 0x1000 * x + p.1) = exec p.2 s)
        ∧ at_ (0x100038 + 0x1000 * x) = .next s ∧ at_ (0x1000A8 + 0x1000 * x) = .next s
        ∧ ((v.extractLsb' 28 3).toNat = 0 → at_ (0x100020 + 0x1000 * x) = exec (.preqDrain x (some v)) s)
        ∧ ((v.extractLsb' 28 3).toNat = 1 → at_ (0x100020 + 0x1000 * x) = exec (.preqSave x (some v)) s)
        ∧ ((v.extractLsb' 28 3).toNat = 2 → at_ (0x100020 + 0x1000 * x) = exec (.preqKill x v) s)
        ∧ ((v.extractLsb' 28 3).toNat = 3 → at_ (0x100020 + 0x1000 * x) = exec (.preqRestore x (some v)) s)
        ∧ ((v.extractLsb' 0 4).toNat = 1 → at_ (0x1000A0 + 0x1000 * x) = exec (.debugRead x) s)
        ∧ ((v.extractLsb' 0 4).toNat = 2 → at_ (0x1000A0 + 0x1000 * x) = exec (.debugWrite x) s)
        ∧ ((v.extractLsb' 0 4).toNat = 3 → at_ (0x1000A0 + 0x1000 * x) = exec (.debugResume x) s)
        ∧ ((v.extractLsb' 0 4).toNat = 4 → at_ (0x1000A0 + 0x1000 * x) = exec (.debugSingleStep x) s))
      ∧ (∀ c, c < 256 → at_ (0x200000 + 0x100 * c) = exec (.pwrWrite c v) s ∧ at_ (0x200028 + 0x100 * c) = .next s
        ∧ ∀ n, n < 4 → at_ (0x200008 + 0x100 * c + 8 * n) = exec (.registerWrite (.swc c n) v) s)
      ∧ at_ 0x00 = .next s ∧ at_ 0x08 = .next s ∧ at_ 0x20 = .next s ∧ at_ 0x10 = exec (.warmReset v) s
      ∧ at_ 0x18 = exec (.registerWrite .nrb v) s ∧ at_ 0x28 = exec (.registerWrite .nrr v) s
      ∧ at_ 0x140 = exec (.registerWrite .attestAddr v) s ∧ at_ 0x148 = exec (.attestationRequest (.request v)) s
      ∧ (∀ k, k < 8 → at_ (0x100 + 8 * k) = exec (.registerWrite (.nonce k) v) s))
  ∧ ∀ s : State,
      (∀ off, exec (.hostMemoryRead (.bar off)) s = .next { s with hostData := s.readBar off })
      ∧ (∀ page off, exec (.hostMemoryRead (.kickPage page off)) s = .next { s with hostData := s.readKick page off })
      ∧ s.readBar 0x10 = 0
      ∧ (s.recov = true → ∀ t : State, t.recov = true → ∀ page off, t.readKick page off = s.readKick page off)
      ∧ (s.recov = false →
          (∀ q, q < 4096 → s.readBar (0x1018 + 32 * q) = (s.queue q).qrd ∧ s.readKick (q / 64) (8 * (q % 64)) = (s.queue q).qrd)
          ∧ (∀ x, x < 256 → s.readBar (0x100070 + 0x1000 * x) = 0 ∧ s.readBar (0x1000A0 + 0x1000 * x) = 0
            ∧ s.readBar (0x100038 + 0x1000 * x) = (s.context x).trw
            ∧ s.readBar (0x100008 + 0x1000 * x) = (s.context x).csc.setWidth 64
            ∧ s.readBar (0x100050 + 0x1000 * x) = BitVec.ofNat 64 ((listGetD (s.context x).bpAddr 0 0).toNat * 8
                + if listGetD (s.context x).bpEn 0 false then 1 else 0))
          ∧ (∀ c, c < 256 → s.readBar (0x200028 + 0x100 * c) = (s.core c).level.setWidth 64)
          ∧ s.readBar 0x210000 = 0)

-- ## The host, bring-up and errors

/-- The host reaches an aligned word of the first tier at its offset in the CXL.mem range, and its own memory; the peers reach the first tier of a
ready device, and their own memory: a read gives committed data, a write or an atomic add is one event that aborts the launches that have read its
line (R252, R303, R306 to R308). -/
def OutsideReachesFirstTier : Prop :=
  ∀ (pa : Nat) (x : BitVec 64) (s : State),
    let old := fun pa => BitVec.ofNat 64 (s.committedNat pa 8)
    let put := fun pa (y : BitVec 64) => (s.perform outsideRef 0 [] (.phys pa false) (leBytes 8 y.toNat)).abortReaders ((List.range 8).map fun k => pa / 64 * 8 + k)
    let got := fun pa => { (s.touchBytes [] pa 8) with hostData := old pa }
    (s.ready = true → s.firstTierWord pa = true →
      exec (.peerAccess (.read pa)) s = .next (got pa)
      ∧ exec (.peerAccess (.write pa x)) s = .next (put pa x)
      ∧ exec (.peerAccess (.atomAdd pa x)) s = .next { put pa (old pa + x) with hostData := old pa })
    ∧ (∀ stack a, s.ready = true → a < 64 * 10 ^ 9 → stack < 8 → a % 8 = 0 →
        let pa := stack * 2 ^ 36 + a
        exec (.hostMemoryRead (.mem (stack * (64 * 10 ^ 9) + a))) s = .next (got pa)
        ∧ exec (.hostMemoryWrite (.mem (stack * (64 * 10 ^ 9) + a)) x) s = .next (put pa x))
    ∧ (pa % 8 = 0 → 2 ^ 49 ≤ pa → pa < 2 ^ 50 → exec (.hostMemoryRead (.own pa)) s = .next (got pa)
        ∧ exec (.hostMemoryWrite (.own pa) x) s = .next (put pa x))
    ∧ (pa % 8 = 0 → 2 ^ 50 ≤ pa → pa < 2 ^ 50 + 2 ^ 49 → (pa - 2 ^ 50) / 2 ^ 45 ≠ s.peer →
        exec (.peerAccess (.own pa x)) s = .next (put pa x))
    ∧ (∀ off, exec (.hostMemoryWrite (.bar off) x) s = exec (.registerWrite (.bar off) x) s)
    ∧ ∀ page off, exec (.hostMemoryWrite (.kickPage page off) x) s = exec (.registerWrite (.kickPage page off) x) s

/-- power-up zeroes the first tier and begins bring-up, a warm reset begins it and keeps the first tier, and both discard every launch and queue state. Each
stage ends in the next one's number, and a first check that fails decides ERR and leaves the stage as it is; in stage 4 the agent image is verified and
the cores start in steps of 8, 1,400 cycles apart, each with a full bucket; after the last the stage is 5 and the device is ready (R282, R313, R314,
R316). -/
def DeviceComesUp : Prop :=
  ∀ s : State,
    (∃ t : State, exec .powerUp s = .next t ∧ t.stage = 1 ∧ t.recov = false ∧ t.err = 0 ∧ t.ready = false ∧ t.launches = [] ∧ t.queues = []
      ∧ t.flash = s.flash ∧ t.poison = [] ∧ (∀ k, Sparse.get t.upload k = 0)
      ∧ (∀ pa, pa < 2 ^ 39 → t.committedAt pa = 0) ∧ ∀ pa, 2 ^ 39 ≤ pa → t.committedAt pa = s.committedAt pa)
    ∧ (∀ v : BitVec 64, (v.getLsbD 31 = false → exec (.warmReset v) s = .next s)
        ∧ (v.getLsbD 31 = true → ∃ t : State, exec (.warmReset v) s = .next t ∧ t.stage = 1 ∧ t.recov = false ∧ t.err = 0 ∧ t.ready = false
          ∧ t.launches = [] ∧ t.queues = [] ∧ t.flash = s.flash ∧ ∀ pa, t.committedAt pa = s.committedAt pa))
    ∧ (s.recov = false → s.err = 0 →
        let signed := Config.imageSigned s.flash.bootImage
        let agentSigned := Config.imageSigned s.flash.agentImage
        (s.stage = 1 → exec .coreStartStep s = .next (if signed then { s with stage := 2 } else { s with recov := true, err := 1 }))
        ∧ (s.stage = 2 → s.flash.usable 1 = none ∨ s.flash.usable 3 = none →
            ∃ u, exec .coreStartStep s = .next u ∧ u.recov = true ∧ u.err = 3 ∧ u.stage = 2)
        ∧ (∀ en ident, s.stage = 2 → s.flash.usable 1 = some en → s.flash.usable 3 = some ident →
            ∃ u, exec .coreStartStep s = .next u ∧ u.stage = 3 ∧ u.recov = false ∧ u.err = 0 ∧ u.mem = s.mem
              ∧ u.peer = (listGetD ident.payload 0 0).toNat % 16
              ∧ ∀ c, (u.core c).enabled = (decide (c < 256) && (listGetD en.payload (c / 8) 0).getLsbD (c % 8)) ∧ (u.core c).started = false)
        ∧ (s.stage = 3 → exec .coreStartStep s = .next (if s.flash.trainGood then { s with stage := 4 } else { s with err := 4 }))
        ∧ (s.stage = 4 → s.nextStart = 0 → agentSigned = false → exec .coreStartStep s = .next { s with recov := true, err := 2 })
        ∧ (s.stage = 4 → (s.nextStart = 0 ∧ agentSigned = true) ∨ (s.nextStart ≠ 0 ∧ 1400 ≤ (s.cycle - s.wakeFrom).toNat) →
            let l := (s.cores.filter fun c => c.2.enabled).map fun c => c.1
            ∃ u, exec .coreStartStep s = .next u ∧ u.nextStart = s.nextStart + 8 ∧ u.wakeFrom = s.cycle ∧ u.mem = s.mem
              ∧ (∀ c ∈ (l.drop s.nextStart).take 8, (u.core c).started = true ∧ (u.core c).level = (u.core c).cap)
              ∧ (u.ready = true ↔ l.length ≤ s.nextStart + 8) ∧ u.stage = if l.length ≤ s.nextStart + 8 then 5 else 4)
        ∧ (s.stage = 4 → s.nextStart ≠ 0 → (s.cycle - s.wakeFrom).toNat < 1400 → exec .coreStartStep s = .fault .notDue))
    ∧ (s.recov = true ∨ s.err ≠ 0 → exec .coreStartStep s = .fault .notDue)

/-- A request for attestation is taken unless a report is due; the report, with the nonce, the SHA-512 hashes of the two images, the record versions and the
DEVID before its signature, goes to its host address and the host is told. An agent's slot enters the handler of its first event, a trap or fault record
before a packet before any other, saves where it stood, and leaves a serialisation for the time; it does so from a yield or a wait too (R272, R315,
R386). -/
def AgentsServe : Prop :=
  (∀ (v : BitVec 64) (s : State) (q : Sparse 64 × BitVec 64), s.recov = false →
    (v.getLsbD 0 = false → exec (.attestationRequest (.request v)) s = .next s)
    ∧ (v.getLsbD 0 = true → s.attesting = none →
        exec (.attestationRequest (.request v)) s = .next { s with attesting := some (s.nonce, s.attestAddr) })
    ∧ (s.attesting = some q → exec (.attestationRequest (.request v)) s = .next s ∧ exec (.attestationRequest .report) s = .next
        (State.notify { (s.report q.1).zipIdx.foldl
          (fun (s : State) x => s.perform hubRef 0 [] (.phys (hostByte (q.2.toNat + x.2)) false) [x.1]) s with attesting := none } 5 0))
    ∧ ∃ sig : List Byte, sig.length = 132 ∧ s.report q.1 = ((List.range 8).flatMap fun k => leBytes 8 (Sparse.get q.1 k).toNat)
        ++ sha512 s.flash.bootImage ++ sha512 s.flash.agentImage ++ ([1, 2, 3, 4, 5].flatMap fun k => leBytes 8 (s.flash.versionOf k))
        ++ leBytes 8 deviceId.toNat ++ sig)
  ∧ ∀ (core : Nat) (s : State) (v : AgentEvent) (p : PathEntry),
      let c := s.core core
      c.started = true → c.gated = false → c.agent.handling = none → c.agent.grp.state.canLeave = true → firstEvent c.agent.events = some v →
      (∀ z, c.agent.grp.serl = some z → p = z.path) → (c.agent.grp.serl = none → c.agent.grp.paths.head? = some p) →
      exec (.agentEventEntry core) s = .next (s.modCore core fun c => { c with agent := { c.agent with
        saved := p, savedSerl := c.agent.grp.serl, handling := some v, events := c.agent.events.erase v, halted := false,
        grp := { c.agent.grp with state := .ready, held := none, serl := none, paths := [PathEntry.at (Config.agentHandler v.cls) 1#64] } } })
      ∧ ((∃ x ∈ c.agent.events, x.cls ≤ 1) → v.cls ≤ 1)
      ∧ ((∀ x ∈ c.agent.events, ¬ x.cls ≤ 1) → (∃ x ∈ c.agent.events, x.cls = 2) → v.cls = 2)

/-- A correctable error is counted and changes nothing else, a link's retry changes nothing, a failed port's range is no longer there, and an
uncorrectable error raises ECC in the reading group or in the group whose command reads, faults the stream port that reads, ends the COPY or the launch whose shadow line it meets, or poisons the line being written
back (R91, R213, R215, R307, R308). -/
def ErrorsAreHandled : Prop :=
  ∀ s : State,
    (∀ core, exec (.eccCorrectable core) s = .next (s.modCore core fun c => { c with errors := c.errors + 1 }))
    ∧ (∀ link, exec (.linkCrcRetry link) s = .next s)
    ∧ (∀ k, ∃ u, exec (.portFailure (.secondTier k)) s = .next u ∧ k ∈ u.tier2Failed ∧ u.mem = s.mem
        ∧ ∀ pa, 2 ^ 46 ≤ pa → pa < 2 ^ 49 → tier2Port s.tier2Sizes 0 (pa - 2 ^ 46) = some k → u.physOk pa = false)
    ∧ (∀ k, ∃ u, exec (.portFailure (.link k)) s = .next u ∧ k ∈ u.failedLinks ∧ u.mem = s.mem
        ∧ ∀ p pa, p < 16 → Table.find s.routes p = some k → 2 ^ 50 + p * 2 ^ 45 ≤ pa → pa < 2 ^ 50 + (p + 1) * 2 ^ 45 → u.physOk pa = false)
    ∧ (∀ r lane addr g, s.findGroup r = some g → g.reads lane = true → g.hasTrap = false →
        exec (.eccUncorrectable (.groupRead r lane addr)) s =
          .next (s.asyncTrap r g .ecc (if s.readsShadow r g lane then 1 else 0) addr (BitVec.ofNat 32 lane)))
    ∧ (∀ tk k n t r p x, Table.find s.teams tk = some t → t.region = some r → r.active.port k = some p → p.landing[n]? = some x → p.faulted = false →
        x.value = none → exec (.eccUncorrectable (.portRead tk k n)) s =
          .next (s.portFault tk t.core k .ecc x.va (p.pos - p.landing.length + n)))
    ∧ (∀ l r g gid, s.engineGroups l = [r] → s.findGroup r = some g → s.refLaunch r = some gid → g.hasTrap = false →
        exec (.eccUncorrectable (.engineRead l)) s =
          .next ((s.choose 1).2.asyncTrap r g .ecc 0 0 wholeGroup))
    ∧ (∀ l, s.engineGroups l = [] → s.copyWorks l = true →
        exec (.eccUncorrectable (.engineRead l)) s = .next (s.abortLaunch l (Ending.ofTrap .ecc 0)))
    ∧ (∀ l x, x ∈ s.shadows → x.launch = l → x.bytes ≠ [] →
        exec (.eccUncorrectable (.shadowLine l)) s = .next (s.abortLaunch l (Ending.ofTrap .ecc 0)))
    ∧ ∀ line c e, c ∈ s.committed → e ∈ c.bytes → e.1 / 64 = line →
        exec (.eccUncorrectable (.writeBack line)) s = .next { s with poison := addNew s.poison line }

end Sys2Proof.Claims

/-- The power bucket, its refill and its controller, and a core's clock (R280 to R282).
The choices of the model that it rests on: log 36. -/
def Obligations.PowerAndClocks : Prop := PowerIsCharged

/-- Where traps go, and the requests of pre-emption (R45, R152, R199, R284, R286, R288 to R291, R359).
The choices of the model that it rests on: log 14, 17, 20, 21, 22, 23, 24, 25, 26, 27. -/
def Obligations.TrapsAndRequestsAreServed : Prop := TrapsAreDelivered ∧ RequestsComplete

/-- The debug interface and the control registers that the host writes (R293, R294, R304, R314).
The choices of the model that it rests on: log 28, 29. -/
def Obligations.DebuggerAndControlRegisters : Prop := DebuggerActsOnHeldGroups ∧ ControlRegistersAreWritten

/-- The host, the peers, bring-up, the agents' service and errors (R213, R215, R252, R272, R282, R303, R306 to R308, R313 to R316, R386).
The choices of the model that it rests on: log 8, 16, 20, 30, 31, 33, 34, 35, 75, 86 (what an error's trap and a fault report), 91 (when the nonce is read). -/
def Obligations.OutsideWorldAndBringUp : Prop := OutsideReachesFirstTier ∧ DeviceComesUp ∧ AgentsServe ∧ ErrorsAreHandled

-- ## Completion: every form answers a next state with its own effect

/-- A slot of a processing element whose trigger and own condition hold completes with the effect of its op: steer, merge, cnt, emit, sink, pent,
pexit, isect, swait, ldn, stn, atn, btok, xlat, calln, retn, next, mport and eqpn; and conv acts for its converter node (R77, R88, R89, R92,
R97, R98, R106 to R108, R193, R371, R385). -/
def Obligations.SpatialNodesComplete : Prop :=
  ∀ (w : SWord) (s : State) (e : PeEnv),
    (∀ i ∈ [Instr.steer, .merge, .cnt, .emit, .sink, .pent, .pexit, .isect], Fires s e (i w) w →
      ∃ c, exec (i w) s = .next (e.put s c) ∧ SameCell e.cell c)
    ∧ (Fires s e (.swait w) w → (e.region.active.port (w.imm.toNat % 8)).isSome = true → ∃ c, exec (.swait w) s = .next (e.put s c) ∧ SameCell e.cell c)
    ∧ (∀ i ∈ [Instr.ldn, .stn, .atn, .btok], Fires s e (i w) w → ∃ c q, q.node = i w
        ∧ exec (i w) s = .next ((e.put s c).modRegion e.tk fun r => r.modChain w.chain.toNat fun k => { k with queue := k.queue ++ [q] }))
    ∧ (Fires s e (.xlat w) w → ∃ t c, exec (.xlat w) s = .next t ∧ t.mem = s.mem
        ∧ ∃ u, t = e.put u c ∨ ∃ f : Region → Region, t = (e.put u c).modRegion e.tk f ∧ ∀ r, (f r).stamps = e.region.stamps + 1)
    ∧ (Fires s e (.calln w) w → e.region.shadows.length + e.region.spilled.length + 2 ≤ e.region.depth →
        (∃ p, s.loadPlane e.team e.region (w.imm.toNat % 4) (e.region.loads + 1) = .ok p) → ∃ t, exec (.calln w) s = .next t
          ∧ ∃ tm r, Table.find t.teams e.tk = some tm ∧ tm.region = some r ∧ r.active.cfg = w.imm.toNat % 4
            ∧ r.active.caller = some (e.cell.col, e.cell.row, e.slot))
    ∧ (Fires s e (.retn w) w → e.region.shadows ≠ [] → e.region.active.caller.isSome = true → ∃ t, exec (.retn w) s = .next t
          ∧ ∃ tm r, Table.find t.teams e.tk = some tm ∧ tm.region = some r ∧ r.shadows = e.region.shadows.tail)
    ∧ (Fires s e (.next w) w → e.region.active.pendingNext = none → s.mportAstray e.team e.region (w.imm.toNat % 4) = false →
        ∃ c, exec (.next w) s = .next ((e.put s c).modPlane e.tk fun p => { p with pendingNext := some (w.imm.toNat % 4) }))
    ∧ (Fires s e (.mport w) w → (Table.find e.team.tiles (w.imm.toNat % 16)).isSome = true → ∃ t, exec (.mport w) s = .next t
        ∧ t.mem = s.mem ∧ t.scratch = s.scratch)
    ∧ (Fires s e (.mport w) w → (e.cell.head 0).tag = 0 → (e.cell.head 1).tag = 0 → ∃ c, exec (.mport w) s = .next (e.put s c))
    ∧ (Fires s e (.eqpn w) w → ∃ c, exec (.eqpn w) s = .next (((e.put s c).modRegion e.tk fun r =>
        { r with closing := some (e.cell.col, e.cell.row, e.slot), atnDone := false }).closeSpan e.tk))
    ∧ ∀ tk t v, s.convEnv = some (tk, t, v) →
        exec (.conv w) s = .next (s.modPlane tk fun p => p.modConv v.k fun v => { v with word := w }.step (s.teamLevel t))

/-- The control, system and agent instructions complete where the group may issue them: clause (at a header whose flags read 0 and whose words are at
hand: its clause's words stand before the path, at whose first word each lane then is), br, brx, loop, yield, call, ret, exit, serl, sere, eqp, hop,
nop, fbar, icinv, fence, waitf and launch in a group; eret, halt, mtsr, btop and tlbinv in an agent's slot; and trap, bkpt and bsync take their trap
(R59, R60, R66, R67, R72, R356, R358, R359, R361, R362, R386 to R388, R391, R397, R399, R401, R410, R420, R423, R435, R440, R454, R455, R459, R462).
The choices of the model that it rests on: log 2, 8 (the agent's slot), 50 (what stores of others a fence waits for), 65, 66 (btop and tlbinv), 77, 81,
90 (no memory changes where a split or a call spills), 94. -/
def Obligations.ControlInstructionsComplete : Prop :=
  ∀ (s : State) (e : Env), s.env = some e →
    (∀ (h : HWord) ws t, e.hazard (xUses []) = false → e.path.words = [] → e.grp.flagsClear h.wait = true →
      e.fetchWords h.count.toNat s (e.path.pc + 8) [] = (.ok ws, t) → e.staleClause t ws = false →
      exec (.clause h) s = .next (e.setGroup (((e.grp.sawFlags h.wait).leaveLoop.setPath e.sel
        { e.path with pc := e.path.pc + 8, words := ws, fa := h.flagA, fb := h.flagB, fresh := true, bpDone := false, decided := false }).settle) t))
    ∧ (∀ w : BWord, e.hazard { v := [], s := [] } = false → e.guard w.g ≠ 0 → e.unevenV (e.guard w.g) = false → e.targetOk s (e.target w.disp) = true →
        e.grp.spillBytes + 48 ≤ e.spillLimit →
        (∃ t, exec (.br w) s = .next t ∧ Jumps e s e.grp (e.guard w.g) (e.target w.disp) 0 t)
        ∧ (e.sel.isSome = true → ∃ t, exec (.yield w) s = .next t
            ∧ Jumps e s (if e.grp.flagsClear (yieldFlags w) then e.grp.sawFlags (yieldFlags w) else e.grp) (e.guard w.g) (e.target w.disp)
              (if e.grp.flagsClear (yieldFlags w) then 0 else yieldFlags w) t)
        ∧ (e.sel.isSome = true → e.ref.isSome = true → e.path.words.length = 1 → e.guard w.g = e.path.mask → e.grp.severalPaths = false →
            e.spillBusy (e.pushed w.aux.toNat) = false → (e.pushed w.aux.toNat).spillBytes + 48 ≤ e.spillLimit →
            ∃ t, exec (.call w) s = .next t ∧ Jumps e s (e.pushed w.aux.toNat) (e.guard w.g) (e.target w.disp) 0 t))
    ∧ (∀ w : BWord, let n := w.aux.toNat
        e.hazard { v := [], s := [n, n + 1] } = false → e.guard w.g ≠ 0 → e.unevenV (e.guard w.g) = false →
        (e.grp.readSPair n).extractLsb' 0 3 = 0 → e.targetOk s (e.grp.readSPair n) = true → e.grp.spillBytes + 48 ≤ e.spillLimit →
        ∃ t, exec (.brx w) s = .next t ∧ Jumps e s e.grp (e.guard w.g) (e.grp.readSPair n) 0 t)
    ∧ (∀ w : BWord, let n := w.aux.toNat
        let g := e.grp.writeS n (e.grp.readS n - 1)
        e.hazard { v := [], s := [n] } = false → e.guard w.g ≠ 0 → e.unevenV (e.guard w.g) = false →
        (e.grp.readS n = 1 → exec (.loop w) s = .next (e.finish g s))
        ∧ (e.grp.readS n ≠ 1 → e.targetOk s (e.target w.disp) = true → g.spillBytes + 48 ≤ e.spillLimit →
            ∃ t, exec (.loop w) s = .next t ∧ Jumps e s g (e.guard w.g) (e.target w.disp) 0 t))
    ∧ (∀ (w : BWord) r rest fs f, e.hazard { v := [], s := [] } = false → e.sel.isSome = true → e.guard w.g ≠ 0 → e.guard w.g = e.path.mask →
        e.grp.severalPaths = false → e.grp.rets = r :: rest → e.grp.frames = fs ++ [f] → f.spilled = none →
        let g := { e.grp with rets := rest, frames := fs, base := e.grp.base - r.size }
        e.targetOk s r.clause = true → e.unevenV e.path.mask = false → g.spillBytes + 48 ≤ e.spillLimit →
        ∃ t, exec (.ret w) s = .next t ∧ Jumps e s g e.path.mask r.clause 0 t)
    ∧ (∀ w : BWord, e.hazard { v := [], s := [] } = false → e.guard w.g ≠ 0 → e.unevenV (e.guard w.g) = false → e.sel.isSome = true →
        ∃ h, exec (.exit w) s = .next (e.setGroup h s) ∧ ∀ l pc, l < 64 → (e.guard w.g).getLsbD l = true → (Standing h l pc ↔ StandingElse e l pc))
    ∧ (∀ l rest, e.hazard { v := [], s := [] } = false → e.sel.isSome = true → e.path.words.length = 1 → e.vform = false → e.grp.serl = none →
        lanesOf e.path.mask = l :: rest →
        ∃ h z, exec .serl s = .next (e.setGroup h s) ∧ h.serl = some z ∧ z.lane = l ∧ z.m = e.path.mask ∧ z.body = e.path.pc + 8)
    ∧ (∀ z, e.hazard { v := [], s := [] } = false → e.sel = none → e.grp.serl = some z → e.path.words.length = 1 →
        ∃ h, exec .sere s = .next (e.setGroup h s) ∧ SameRegisters e.grp h)
    ∧ (e.hazard { v := [], s := [] } = false →
        exec .nop s = .next (e.finish e.grp s)
        ∧ exec .fbar s = .next (e.finish { e.grp with fbar := true } s)
        ∧ exec .icinv s = .next (e.finish e.grp (s.modCore e.core fun c => { c with
            icache := [], loops := [], codeKnow := c.codeKnow.join (e.grp.fence.foldl (fun k f => k.told e.gref f.1) e.grp.know) }))
        ∧ (∀ id gr p, e.grid = some gr → p ∈ gr.image.epoints → p.id = id.toNat → e.atEpoint p = true → e.path.fresh = true →
            ∃ g, exec (.eqp id) s = .next (e.finish g s) ∧ g.eqlast = id.setWidth 32)
        ∧ (∀ g target, ∃ h t, exec (.hop g target) s = .next (e.finish h t) ∧ t.mem = s.mem
            ∧ (∀ r, e.ref = some r → e.acts g = true → (s.context e.ctx).cscHint = true → (s.context e.ctx).cscPin = 0 →
                h.hopTarget = if target = 2 then none else some target.toNat))
        ∧ exec .bkpt s = .next (e.trapWith s e.grp .bkpt 4 0 wholeGroup true)
        ∧ exec .bsync s = .next (e.trapWith (s.countRetuse e.ctx) { e.grp with syncs := e.grp.syncs + 1 } .retired 0 0 wholeGroup true)
        ∧ (∀ g imm, e.acts g = true → exec (.trap g imm) s = .next (e.trapWith s e.grp .swtrap (imm.setWidth 32) 0 wholeGroup true))
        ∧ (e.ref = none → (s.core e.core).agent.handling.isSome = true →
            let a := (s.core e.core).agent
            exec .eret s = .next (s.modCore e.core fun c => { c with agent := { c.agent with
              handling := none, savedSerl := none,
              grp := (Group.park { c.agent.grp with paths := if a.savedSerl.isSome then [] else [a.saved], serl := a.savedSerl }).wake } }))
        ∧ (e.ref = none → ∃ t, exec .halt s = .next t ∧ (t.core e.core).agent.grp = e.past e.grp
            ∧ ((s.core e.core).agent.events = [] → (t.core e.core).agent.halted = true)))
    ∧ (∀ w : MWord, let acquired := fun s : State => s.fenceAcquire e.gref w.scope.toNat e.grp.seq
        e.hazard { v := [], s := [] } = false → e.guard w.g ≠ 0 →
        (w.order = 1 → e.grp.loadsDone (fun _ => true) e.grp.seq = true → exec (.fence w) s = .next (acquired (e.finish e.grp s)))
        ∧ (w.order = 2 → ∃ f, exec (.fence w) s = .next (e.finish { e.grp with fence := f } s) ∧ (e.grp.seq, w.scope.toNat) ∈ f)
        ∧ (w.order = 3 → e.grp.performed e.grp.seq w.scope.toNat = true → s.nearClear e.gref e.grp.know w.scope.toNat = true →
            ∃ f, exec (.fence w) s = .next (acquired (e.finish { e.grp with fence := f } s)) ∧ (e.grp.seq, w.scope.toNat) ∈ f))
    ∧ (∀ w : XWord, let f := (w.variant.extractLsb' 0 4).toNat
        e.hazard (xUses []) = false →
        (e.acts w.g = false → exec (.waitf w) s = .next (e.finish e.grp s))
        ∧ (e.acts w.g = true → e.grp.flag f = 0 → exec (.waitf w) s = .next (e.finish (e.grp.sawFlags (1#12 <<< f)) s)))
    ∧ (∀ w : AWord, e.hazard { v := [], s := [w.a.toNat] } = false → e.ref = none → exec (.mtsr w) s = .next (e.finish e.grp
        (if e.guard w.g = 0 then s else s.modContext e.ctx fun c => c.writeSpecial w.imm.toNat (e.grp.readS w.a.toNat))))
    ∧ (∀ (w : XWord) done d u, e.hazard (xUses [w.r1.toNat, w.r1.toNat + 1, w.r2.toNat, w.r3.toNat, w.r3.toNat + 1]) = false → e.ref = none →
        e.acts w.g = true →
        let va := e.grp.readSPair w.r1.toNat
        let op := (e.grp.readS w.r2.toNat).toNat
        let q := (e.grp.readS w.r3.toNat).toNat
        let q2 := (e.grp.readS (w.r3.toNat + 1)).toNat
        let t : TableEnv := { core := e.core, ctx := e.ctx, view := [] }
        t.tableOp s va op q q2 true = (.ok (), done) → t.desc s va = (.ok d, u) →
        (∀ l ∈ u.launches, l.2.uncommitted = true → ∀ x ∈ t.opWords u d op q q2, u.wroteWord l.1 x = false) →
        exec (.btop w) s = .next (e.finish e.grp (done.abortReaders (t.opWords u d op q q2))))
    ∧ (∀ w : XWord, e.hazard (xUses (recordRegs w.r1.toNat ++ (List.range 8).map fun k => w.r2.toNat + k)) = false → e.ref = none →
        e.acts w.g = true → e.grp.readS (w.r1.toNat + 3) = 0 →
        ((∀ k, k < 8 → e.grp.readS (w.r2.toNat + k) = 0) → exec (.tlbinv w) s = .next (e.finish e.grp s))
        ∧ ((∃ k, k < 8 ∧ e.grp.readS (w.r2.toNat + k) ≠ 0) → ∃ x, x.core = e.core ∧ x.start = e.grp.readSPair w.r1.toNat
            ∧ exec (.tlbinv w) s = .next (e.waitOn .hub { s with shootdowns := s.shootdowns ++ [x] })))
    ∧ ∀ (w : XWord) t gr bs locs im l sub, let va := e.grp.readSPair w.r1.toNat
        let read := locs.foldl (fun s x => s.trackOwn e.gref (e.view s) e.grp e.grp.seq x 1) s
        let u := read.touchPacket (e.view read) (some t.grid) e.ctx va bs
        e.hazard { v := [], s := [w.r1.toNat, w.r1.toNat + 1] } = false → e.team = some t → e.grid = some gr →
        e.grp.num = 0 → (e.guard w.g).getLsbD 0 = true → gr.depth ≠ 10 → va.toNat % 64 = 0 → e.grp.child = none →
        e.launchPacket s t.grid va = some (bs, locs, im) → Table.find u.launches gr.launch = some l → l.freeSub = some sub →
        (Table.getD u.devQueues (e.core / 64) []).length < 256 → u.releasable e.gref e.grp e.grp.know 0 e.grp.seq homeScope (.scratch 0) = true →
        u.fencesClear e.gref e.grp e.grp.know e.grp.fence (.scratch 0) = true →
        exec (.launch w) s = .next (e.finish { e.grp with child := none } (e.enqueue u t.grid sub gr bs im))

/-- The memory instructions complete where no older access and no pending write holds them back and the lanes pass their checks: ld, lds, ldv,
ldc, ldbt, prf, st, sts, stv, barinit, atom, atoms, cas, cass, arrive, cwait and wait; and so do the steps that end what they began: load completion,
store acknowledge, instruction fetch complete, cwait poll and wait poll (R62, R151, R221, R222, R225, R348, R351, R352, R364, R376, R403 to R406,
R408, R429, R445, R450, R458). -/
def Obligations.MemoryAccessesComplete : Prop :=
  (∀ (w : MWord) (s : State) (e : Env) (ok : List (Nat × Loc)) (t : State), s.env = some e → e.grp.acquiring = false →
    let n := widthBytes w.width
    (e.hazard (memUses w (dataRegs w.d.toNat n) []) = false →
      (virtualLanes e w.g n .read (e.memAddr w) s = (ok, none, t) → ∃ g, exec (.ld w) s = .next (e.finish g t) ∧ g.v = e.grp.v)
      ∧ (teamLanes e w.g n (e.memAddr w) s = (ok, none, t) → ∃ g, exec (.lds w) s = .next (e.finish g t) ∧ g.v = e.grp.v)
      ∧ (e.firstFull t ok = none →
          (virtualLanes e w.g n .write (e.memAddr w) s = (ok, none, t) → ∃ g, exec (.st w) s = .next (e.finish g t) ∧ g.v = e.grp.v)
          ∧ (teamLanes e w.g n (e.memAddr w) s = (ok, none, t) → ∃ g, exec (.sts w) s = .next (e.finish g t) ∧ g.v = e.grp.v)))
    ∧ (e.hazard (vectorUses w (dataRegs w.d.toNat n)) = false →
      (virtualLanes e w.g n .read (e.vectorAddr w) s = (ok, none, t) → ∃ g, exec (.ldv w) s = .next (e.finish g t) ∧ g.v = e.grp.v)
      ∧ (e.firstFull t ok = none → virtualLanes e w.g n .write (e.vectorAddr w) s = (ok, none, t) →
          ∃ g, exec (.stv w) s = .next (e.finish g t) ∧ g.v = e.grp.v))
    ∧ (∀ l u, e.hazard { v := [], s := [w.base.toNat, w.base.toNat + 1] ++ dataRegs w.d.toNat n } = false → e.guard w.g ≠ 0 →
        e.checkVirtual s (e.grp.readSPair w.base.toNat + w.imm.signExtend 64) n n .read = (.ok l, u) →
        ∃ g, exec (.ldc w) s = .next (e.finish g u) ∧ g.loads.length = e.grp.loads.length + 1)
    ∧ (e.hazard (memUses w [] []) = false → exec (.prf w) s = .next (e.finish e.grp s))
    ∧ (∀ lanes u, e.hazard (memUses w (dataRegs w.d.toNat n) [w.base.toNat + 2]) = false →
        checkLanes (ldbtLane e w) (lanesOf (e.guard w.g)) s [] = (lanes, none, u) →
        ∃ g, exec (.ldbt w) s = .next (e.finish g (lanes.foldl (fun s x => s.markEntry x.2.1 accBit true) u)))
    ∧ (Issues s e (memUses w [w.d.toNat] []) → checkLanes (fun l s => e.checkBarrier s w .write l) (lanesOf (e.guard w.g)) s [] = (ok, none, t) →
        e.firstFull t ok = none → ∃ g, exec (.barinit w) s = .next (e.finish g t) ∧ g.v = e.grp.v)
    ∧ (let atomOf := fun l old => some (atomResult w.aop.toNat n e.level old (e.dataValue w.data.toNat n l))
       let casOf := fun l (old : Nat) => if old = e.dataValue w.data.toNat n l then some (e.dataValue (w.data.toNat + n / 4) n l) else none
       let free := fun f : Nat → Nat → Option Nat => (∀ x ∈ ok, e.mustWait t n x = false)
         ∧ ∀ a g ws, e.atomLanes w.d n (e.pubs (releaseScope w)) f ok t e.grp [] = (a, g, ws) →
             (∀ x ∈ ws, e.mustRelease t (releaseScope w) x = false) ∧ e.firstFull t ws = none ∧ ∃ u, a.chargeAll (tileCharges ok) = .ok u
       (e.hazard (atomUses w (dataRegs w.data.toNat n)) = false → free atomOf →
          (virtualLanes e w.g n .atomic (e.atomAddr w) s = (ok, none, t) → ∃ g u, exec (.atom w) s = .next (e.acquired (acquireScope w) (e.finish g u)))
          ∧ (teamLanes e w.g n (e.atomAddr w) s = (ok, none, t) → ∃ g u, exec (.atoms w) s = .next (e.acquired (acquireScope w) (e.finish g u))))
       ∧ (e.hazard (atomUses w (dataRegs w.data.toNat (2 * n))) = false → free casOf →
          (virtualLanes e w.g n .atomic (e.atomAddr w) s = (ok, none, t) → ∃ g u, exec (.cas w) s = .next (e.acquired (acquireScope w) (e.finish g u)))
          ∧ (teamLanes e w.g n (e.atomAddr w) s = (ok, none, t) → ∃ g u, exec (.cass w) s = .next (e.acquired (acquireScope w) (e.finish g u))))
       ∧ (e.hazard (memUses w (if w.d == 0xFF then [] else [w.d.toNat]) []) = false → e.firstFull t ok = none →
          (∀ x ∈ ok, e.mustWait t 16 x = false ∧ e.mustRelease t (arriveScope w) x = false) → (∃ u, t.chargeAll (tileCharges ok) = .ok u) →
          checkLanes (fun l s => e.checkBarrier s w .atomic l) (lanesOf (e.guard w.g)) s [] = (ok, none, t) →
          ∃ g u, exec (.arrive w) s = .next (e.finish g u)))
    ∧ (e.guard w.g = 0 →
        (e.hazard (memUses w (dataRegs w.d.toNat n) []) = false → ∃ t, exec (.cwait w) s = .next t ∧ t.mem = s.mem)
        ∧ (e.hazard (memUses w [w.d.toNat] []) = false → ∃ t, exec (.wait w) s = .next t ∧ t.mem = s.mem))
    ∧ (let lanes := fun x : Nat × Loc => ({ lane := x.1, loc := x.2, bytes := n, value := BitVec.ofNat 64 (e.dataValue w.d.toNat n x.1),
                                            va := x.2.virtualAt (e.memAddr w x.1) } : WaitLane)
       e.hazard (memUses w (dataRegs w.d.toNat n) []) = false → virtualLanes e w.g n .read (e.memAddr w) s = (ok, none, t) →
        ∀ u, e.readLanes (readScope false (cwaitScope w)) (ok.map lanes) t = ([], u) →
          let f := e.finish (u.noted e.gref e.grp) u
          exec (.cwait w) s = .next f ∨ ∃ k, cwaitScope w = some k ∧ exec (.cwait w) s = .next (f.acquire e.gref k e.grp.seq))
    ∧ (let lanes := fun x : Nat × Loc => ({ lane := x.1, loc := x.2.plus 8, bytes := 4, value := (e.readV w.d.toNat x.1).setWidth 64,
                                            va := x.2.virtualAt (e.memAddr w x.1 + 8) } : WaitLane)
       e.hazard (memUses w [w.d.toNat] []) = false → checkLanes (fun l s => e.checkBarrier s w .read l) (lanesOf (e.guard w.g)) s [] = (ok, none, t) →
        ∀ u, e.readLanes (readScope true (some w.scope.toNat)) (ok.map lanes) t = ([], u) →
          let f := e.finish (u.noted e.gref e.grp) u
          let k := w.scope.toNat
          exec (.wait w) s = .next f
          ∨ exec (.wait w) s = .next ((ok.map lanes).foldl (fun s x => s.waited e.gref k x) (f.acquire e.gref k e.grp.seq))))
  ∧ ∀ (r : GroupRef) (s : State) (g : Group), s.findGroup r = some g →
      (∀ idx l, g.loads[idx]? = some l → s.loadMayRun r g l = true → (l.known = none → s.poisoned l.loc = false) →
        ∃ t h, exec (.loadCompletion r idx) s = .next t ∧ t.findGroup r = some h
        ∧ h.loads = listDrop g.loads idx)
      ∧ (∀ idx x, g.stores[idx]? = some x → s.storeMayRun r g x = true →
          (x.level < 3 → x.loc.atPeer = false → ∃ (t : State) (h : Group), exec (.storeAcknowledge r idx) s = .next t.reorder.closeSpans
            ∧ t.findGroup r = some h ∧ h.stores = listModify g.stores idx (fun y => { y with level := x.level + 1, arr := s.arrivals + 1 }))
          ∧ (3 ≤ x.level ∨ x.loc.atPeer = true → s.storeBlocked r x.loc = none → ∃ t : State,
            exec (.storeAcknowledge r idx) s = .next t.reorder.sweepLeft.closeSpans ∧ t.readLoc (s.viewOfRef r) x.loc x.bytes = leBytes x.bytes x.data.toNat))
      ∧ (∀ k p tm gr, r.team ≠ 0 → Table.find s.teams r.team = some tm → tm.phase = .placed → Table.find s.grids tm.grid = some gr →
          g.paths[k]? = some p → p.miss = true →
          (let probe : Group := { g with state := .ready, paths := [{ p with miss := false, waits := 0 }], serl := none, held := none }
           ∀ e, ({ (s.modGroup r fun _ => probe) with cur := .group r } : State).env = some e →
            e.wordsReady (e.clauseWords s (e.view s) p.pc) s p.pc = true) →
          ∃ t h, exec (.instructionFetchComplete r k) s = .next t ∧ t.findGroup r = some h
            ∧ h.paths = listModify g.paths k fun p => { p with miss := false })
      ∧ ∀ (isWait : Bool) (acq : Option Nat) (u : State) (e : Env) (x : WaitLane), s.running r = true →
          g.state = .waiting (.lanes acq isWait none [x]) → s.waitEnv r = some e → e.pollLane s (readScope isWait acq) x = (.ok true, u) →
          let seen := fun s : State => match acq with
            | some k => if isWait then (s.acquire r k e.grp.seq).waited r k x else s.acquire r k e.grp.seq
            | none => s
          exec (if isWait then Instr.waitPoll r x.lane else .cwaitPoll r x.lane) s =
            .next ((seen (e.finish (u.noted e.gref e.grp) u)).stepEnd r)

/-- The engine instructions complete where their checks pass and the engine has room: accalloc, accgrow, accfree, mma, accld, accst, copy,
gather, query and coll; and so do the steps of the engines and of the table unit: mma execute, mma completion, acc copy completion, copy and gather
completion, query answer, coll completion, accfree unbind, shootdown complete, copy on write complete, block table sweep, demotion begin and
demotion swap (R177, R186, R189 to R191, R205, R206, R211, R212, R342, R343, R369, R373, R395, R430). -/
def Obligations.EngineStepsComplete : Prop :=
  (∀ (w : XWord) (s : State) (e : Env) (r : GroupRef) (t : Team) (f : Nat), s.env = some e → e.ref = some r → e.team = some t → e.acts w.g = true →
    (e.hazard (xUses []) = false → t.ownBound < t.reserved → Table.find t.tiles (tileName w) = none → (∃ k, k < 16 ∧ k ∉ s.boundTiles e.core) →
      ∃ u, exec (.accalloc w) s = .next (e.finish e.grp u))
    ∧ (∀ b, e.hazard (xUses []) = false → Table.find t.tiles (tileName w) = some b → s.tileInUse r.team e.core b.phys = false →
        ∃ u, exec (.accfree w) s = .next (e.finish e.grp u))
    ∧ (e.hazard (xUses [w.d.toNat]) = false → Table.find t.tiles (tileName w) = none → (∃ k, k < 16 ∧ k ∉ s.boundTiles e.core) →
        ∃ u x, exec (.accgrow w) s = .next (e.finish (e.grp.writeS w.d.toNat x) u) ∧ x = if s.unreserved e.core = 0 then 0 else 1)
    ∧ (∀ p s', Selects e w f → e.findTile s w = (some p, s') → s'.portFull e.core e.grp.quad = false →
        (∀ a b fa fb k u, e.hazard (xUses (recordRegs w.r1.toNat ++ recordRegs w.r2.toNat ++ [w.r3.toNat])) = false →
          e.grp.severalPaths = false → e.grp.serl = none → e.path.mask = e.grp.present → e.guard w.g = e.grp.present →
          e.mmaChecks s' w = .ok (a, b, fa, fb, k) → s'.charge e.core (256 * mmaCycles (formatWidth fa.efmt) k) = some u →
          ∃ v, exec (.mma w) s = .next (e.finish (e.grp.flagInc f) v) ∧ (v.core e.core).accepted.length = (s.core e.core).accepted.length + 1)
        ∧ (∀ x, e.hazard (xUses (recordRegs w.r1.toNat)) = false → (e.record w.r1.toNat).rows = 64 → (e.record w.r1.toNat).rowBytes = 256 →
          e.scratchExtent s' (e.record w.r1.toNat) = .ok x →
          (∃ v, exec (.accld w) s = .next (e.finish (e.grp.flagInc f) v)) ∧ ∃ v, exec (.accst w) s = .next (e.finish (e.grp.flagInc f) v)))
    ∧ (∀ rs rd u v, Selects e w f → (s.core e.core).copies.length < copySlots → (v.core e.core).copies = (s.core e.core).copies →
        let r1 := e.record w.r1.toNat
        let r2 := e.record w.r2.toNat
        e.hazard (xUses (recordRegs w.r1.toNat ++ recordRegs w.r2.toNat)) = false → r1.rows = r2.rows → r1.rowBytes = r2.rowBytes → r1.rows ≠ 0 →
        r1.rowBytes ≠ 0 → e.recordOk s (w.variant.getLsbD 0) r1 = .ok () → e.recordOk s (w.variant.getLsbD 1) r2 = .ok () →
        e.recordRuns s (w.variant.getLsbD 0) .read r1 = (.ok rs, u) → e.recordRuns u (w.variant.getLsbD 1) .write r2 = (.ok rd, v) →
        ∃ x, exec (.copy w) s = .next (e.finish (e.grp.flagInc f) x) ∧ (x.core e.core).copies.length = (s.core e.core).copies.length + 1)
    ∧ (∀ xi xd rs u, Selects e w f → (u.core e.core).copies.length < copySlots →
        let r1 := e.record w.r1.toNat
        let r3 := e.record w.r3.toNat
        let n := 2 ^ (w.variant.extractLsb' 0 2).toNat
        let base := e.grp.readSPair w.r2.toNat
        e.hazard (xUses (recordRegs w.r1.toNat ++ [w.r2.toNat, w.r2.toNat + 1] ++ recordRegs w.r3.toNat)) = false →
        r1.rowBytes % 4 = 0 → r3.rowBytes % n = 0 → r1.rows * r1.rowBytes / 4 = r3.rows * r3.rowBytes / n → r1.rows * r1.rowBytes / 4 ≠ 0 →
        e.scratchExtent s r1 = .ok xi → e.scratchExtent s r3 = .ok xd → base.toNat % n = 0 →
        e.gatherRuns base n (xi.runs.flatMap fun r => (List.range (r.2 / 4)).map fun k =>
          ofLeBytes (s.readOwn e.gref (e.view s) e.grp e.grp.seq (r.1.plus (4 * k)) 4)) s = (.ok rs, u) →
        ∃ x, exec (.gather w) s = .next (e.finish (e.grp.flagInc f) x) ∧ (x.core e.core).copies.length = (u.core e.core).copies.length + 1)
    ∧ (Selects e w f → e.hazard (xUses [w.r1.toNat]) = false → (e.grp.readS w.r1.toNat).toNat % 16 = 0 →
        s.teamOk t ((e.grp.readS w.r1.toNat).setWidth 64) 16 = true →
        ∃ q, exec (.query w) s = .next (e.finish (e.grp.flagInc f) { s with queries := s.queries ++ [q] }) ∧ q.g = e.gref ∧ q.flag = f)
    ∧ ∀ l rs rd u v x, Selects e w f → e.hazard (xUses [w.r1.toNat, w.r1.toNat + 1]) = false →
        e.checkVirtual s (e.grp.readSPair w.r1.toNat) 64 64 .read = (.ok l, u) →
        let op := (w.variant.extractLsb' 0 2).toNat
        let d := readColl (u.readOwn e.gref (e.view u) e.grp e.grp.seq l 64)
        u.collBad op d = false → e.virtual .read u d.src (d.srcBytes op) = (.ok rs, v) → e.virtual .write v d.dst (d.dstBytes op) = (.ok rd, x) →
        (∀ y ∈ rs ++ rd, y.1.isTxn = false) →
        ∃ (y : State) (z : CollCmd), exec (.coll w) s = .next (e.finish (e.grp.flagInc f) y) ∧ z ∈ y.colls ∧ z.g = e.gref ∧ z.flag = f)
  ∧ (∀ (c : Nat) (s : State) (x : MatrixCmd), 
      (∀ rest g t gr, (s.core c).executing = none → (s.core c).accepted = x :: rest → s.findGroup x.g = some g → x.g.team ≠ 0 →
        Table.find s.teams x.g.team = some t → Table.find s.grids t.grid = some gr →
        (s.saving gr.ctx = false ∨ ∃ y ∈ (s.core c).accepted, s.remote y = true ∧
          ∃ v h, s.teamOf y.g = some v ∧ Table.find s.grids v.grid = some h ∧ h.ctx = gr.ctx) → g.acquiresDone x.acq x.seq = true →
        ∃ u, exec (.mmaExecute c) s = .next u ∧ (u.core c).accepted = rest)
      ∧ (∀ n z a b fa fb k t, (s.core c).executing = some x → x.op = .mma n z a b fa fb k → s.teamOf x.g = some t →
          ∃ u, exec (.mmaCompletion c) s = .next u ∧ (u.core c).executing = none ∧ FlagDown s u x.g x.flag)
      ∧ (∀ n e, (s.core c).executing = some x → (x.op = .accld n e ∨ x.op = .accst n e ∧ ∀ i, i < 64 → s.engineMayWrite x.g x.seq x.after (e.row i) 256 = true ∧ s.turnClear (e.row i) 256 = true) →
          ∃ u, exec (.accCopyCompletion c) s = .next u ∧ (u.core c).executing = none ∧ FlagDown s u x.g x.flag))
  ∧ (∀ (core idx : Nat) (s : State) (c : CopyCmd) (g : Group), (s.core core).copies[idx]? = some c → s.findGroup c.g = some g →
      g.acquiresDone c.acq c.seq = true → (∀ p ∈ c.pairs, s.engineMayWrite c.g c.seq c.after p.2.1 p.2.2 = true) →
      s.badSource (c.pairs.map fun p => (p.1, p.2.2)) 0 = none → s.copyBlocked c = false →
      ∃ u, exec (if c.isGather then Instr.gatherCompletion core idx else .copyCompletion core idx) s = .next u ∧ FlagDown s u c.g c.flag)
  ∧ (∀ (idx : Nat) (s : State) (q : Query) (t : Team) (bs : List Byte) (g : Group), s.queries[idx]? = some q → s.findGroup q.g = some g →
      s.teamOf q.g = some t → (Table.find s.grids t.grid).isSome = true → q.answer = some bs →
      s.engineMayWrite q.g q.seq q.after (s.teamLoc t q.off) 16 = true → ∃ u, exec (.queryAnswer idx) s = .next u ∧ FlagDown s u q.g q.flag)
  ∧ (∀ (idx : Nat) (others : List (List Byte)) (s : State) (c : CollCmd) (out : List Byte) (g : Group), s.colls[idx]? = some c →
      s.findGroup c.g = some g → c.answer = some out → (∀ l ∈ c.dst, s.engineMayWrite c.g c.seq c.after l 1 = true) →
      ∃ u, exec (.collCompletion idx others) s = .next u ∧ FlagDown s u c.g c.flag)
  ∧ (∀ (r : GroupRef) (s : State) (g : Group) (t : Team) (n : Nat) (b : Tile), r.team ≠ 0 → s.findGroup r = some g →
      Table.find s.teams r.team = some t → g.state = .waiting (.unbind n) → Table.find t.tiles n = some b →
      s.tileInUse r.team t.core b.phys = false → t.phase = .placed → g.singleStep = false →
      ∃ u, exec (.accfreeUnbind r) s = .next u ∧ u.findGroup r = some g.pastWord)
  ∧ (∀ (idx : Nat) (s : State) (x : Shootdown), s.shootdowns[idx]? = some x → (∀ c ∈ s.shootCores x, s.usesRange c x = false) →
      ∃ v, exec (.shootdownComplete idx) s = .next v ∧ v.shootdowns = listDrop s.shootdowns idx)
  ∧ (∀ (r : GroupRef) (s t u : State) (g h : Group) (tm : Team) (gr : Grid) (w : CowWait) (d : Desc), r.team ≠ 0 →
      s.findGroup r = some g → Table.find s.teams r.team = some tm → Table.find s.grids tm.grid = some gr → tm.phase = .placed →
      g.state = .waiting (.cow w) →
      let tb : TableEnv := { core := tm.core, ctx := gr.ctx, view := s.viewOf tm.grid, src := some (r, g) }
      tb.desc s w.desc = (.ok d, t) → tb.actAll d r (w.lanes.length + 1) t w g true = (.done, u, h) → tb.fullAt t t d r w g true = none → w.bad = none →
      exec (.copyOnWriteComplete r) s = .next ((u.modGroup r fun _ => h.pastWord).stepEnd r))
  ∧ ∀ (ctx : Nat) (s t : State) (desc : BitVec 64) (d : Desc), (agentTable ctx).desc s desc = (.ok d, t) →
      ((∀ x ∈ s.sweeps, x.ctx = ctx → x.desc = desc → 700000 ≤ (s.cycle - x.at_).toNat) → s.agentsFree = true →
        ∃ v m, exec (.blockTableSweep ctx desc) s = .next v ∧ m ∈ v.sweeps ∧ m.ctx = ctx ∧ m.desc = desc ∧ m.at_ = t.cycle)
      ∧ (∀ entry dblk (dtier : BitVec 2) e u x, (s.sweeps.find? fun x => x.ctx == ctx && x.desc == desc) = some x →
          (agentTable ctx).entry t d entry = (.ok e, u) → e.val = true →
          (dtier = 1 ∧ entry ∈ x.demote ∧ e.tier = 0) ∨ (dtier = 0 ∧ entry ∈ x.promote ∧ e.tier = 1) →
          u.entryHigh e &&& pinBit = 0 → u.entryHigh e &&& movBit = 0 → u.wordWritten e.loc.addr = false → u.blockFree dblk dtier = true →
          u.agentsFree = true → u.blockOk e = true → u.blockPoisoned e.block = false → ∃ v, exec (.demotionBegin ctx desc entry dblk dtier) s = .next v
            ∧ v.moves = u.moves ++ [{ ctx := ctx, desc := desc, entry := entry, after := none }])
      ∧ ∀ idx m after e u, s.moves[idx]? = some m → m.ctx = ctx → m.desc = desc → m.after = some after →
          (∀ l ∈ after, l ∉ s.uncommittedLaunches) → (agentTable ctx).entry s d m.entry = (.ok e, u) →
          ∃ v, exec (.demotionSwap idx) s = .next v ∧ v.moves = listDrop s.moves idx

/-- The steps of a team's region complete when they are due: s entry, region configure, s rollback, hop timeout, callisto sample, next load, plane
reload, freeze wave, starvation watch event, converter reconfigure, token transfer, stream port read, stream port write, memory chain request and
memory tile access (R79, R81, R84, R87, R93, R95, R96, R107, R108, R111, R127, R129, R133). -/
def Obligations.RegionStepsComplete : Prop :=
  (∀ (tk : Nat) (s : State) (t : Team) (gr : Grid) (id since : Nat) (p : EPoint) (c : ConfigImg), Table.find s.teams tk = some t →
    t.phase = .placed → Table.find s.grids t.grid = some gr → t.armed = some (id, since) →
    (4096 ≤ (s.cycle - BitVec.ofNat 64 since).toNat → (∃ g ∈ t.groups, g.lives = true ∧ g.state ≠ .parkedHop) →
      ∃ u tm, exec (.hopTimeout tk) s = .next u ∧ Table.find u.teams tk = some tm ∧ tm.armed = none)
    ∧ ((gr.image.epoints.find? fun p => p.id == id) = some p → gr.image.config p.cfg = some c → t.hopLate = false → s.saving gr.ctx = false →
        t.groups.filter Group.lives ≠ [] → (∀ g ∈ t.groups, g.lives = true → g.state = .parkedHop ∧ g.loads = [] ∧ g.stores = []) →
        s.regionFits t gr p = true → ∃ u tm r, exec (.sEntry tk) s = .next u ∧ Table.find u.teams tk = some tm ∧ tm.region = some r
          ∧ tm.armed = none ∧ r.active.cfg = c.id))
  ∧ (∀ (c : Nat) (s : State), 4096 ≤ (s.cycle - (s.core c).sampledAt).toNat →
      ∃ u, exec (.callistoSample c) s = .next u ∧ (u.core c).sampledAt = (s.core c).sampledAt + 4096)
  ∧ (∀ (tk : Nat) (s : State) (t : Team) (r : Region), HasRegion s tk t r →
      (∀ p, r.live = false → r.fault = none → s.loadPlane t r r.active.cfg r.active.load = .ok p →
        exec (.regionConfigure tk) s = .next (s.modRegion tk fun r => { r with live := true, active := p.withLocals r.latched }))
      ∧ (∀ f, r.fault = some f → (Table.find s.grids t.grid).isSome = true →
          ∃ u tm, exec (.sRollback tk) s = .next u ∧ Table.find u.teams tk = some tm ∧ tm.region = none)
      ∧ (∀ id p, r.active.pendingNext = some id → r.active.live = 0 → r.fires = true → s.loadPlane t r id (r.loads + 1) = .ok p →
          ∃ u tm q, exec (.nextLoad tk) s = .next u ∧ Table.find u.teams tk = some tm ∧ tm.region = some q ∧ q.active.cfg = p.cfg
            ∧ q.epoch = r.epoch + 1)
      ∧ (∀ p rest, r.spilled = p :: rest → r.shadows.length < 3 → r.fault = none →
          exec (.planeReload tk) s = .next (s.modRegion tk fun r => { r with shadows := r.shadows ++ [p], spilled := rest }))
      ∧ (s.saving (s.teamCtx t) = true → r.fault = none → r.frozen = none → r.live = true → r.closing = none → r.spilled = [] →
          exec (.freezeWave tk) s = .next (s.modRegion tk fun r => { r with frozen := some 0 }))
      ∧ (∀ k, s.saving (s.teamCtx t) = true → r.fault = none → r.frozen = some k → k < r.w →
          exec (.freezeWave tk) s = .next (s.modRegion tk fun r => { r with frozen := some (k + 1) }))
      ∧ (∀ col row slot, let c := s.core t.core
          listGetD c.swcEn r.rid false = true → 2 ^ (min 14 (listGetD c.swcExp r.rid 0).toNat + 10) ≤ Table.getD r.starve (watchKey col row slot) 0 →
          ∃ u, exec (.starvationWatchEvent tk col row slot) s = .next u
            ∧ (u.core t.core).agent.events = c.agent.events ++ [.diag r.rid col row slot s.cycle])
      ∧ (∀ node v w, (r.active.convs.find? fun v => v.k == node) = some v → v.newWord = some w → v.inq = [] → v.outq = [] → v.part = [] →
          exec (.converterReconfigure tk (.take node)) s =
            .next (s.modPlane tk fun p => p.modConv node fun v => { v with word := w, newWord := none }))
      ∧ (∀ node v x w, (r.active.convs.find? fun v => v.k == node) = some v → r.live = true → r.fault = none → decodeConverter x = .ok w →
          exec (.converterReconfigure tk (.part node x)) s = .next (s.modPlane tk fun p => p.modConv node fun v => { v with newWord := some w }))
      ∧ (∀ col row n c q starts tok p p', r.live = true → r.active.cell col row = some c → c.routes[n]? = some q →
          r.active.take r.w r.h c q = some (starts, tok, p) →
          (starts = true → ∃ e, r.active.chanEnd r.w r.h r.active.fuel c q = some e ∧ r.credit e = true ∧ r.frozenCol col = false) →
          r.closing = none ∨ r.active.meetsPort r.w r.h c q = false → p.give r.w r.h c q tok = some p' → exec (.tokenTransfer tk col row n) s = .next (s.modPlane tk fun _ => p'))
      ∧ ∀ n load gate c q u, r.live = true → r.fault = none → r.chainAt n = some (load, gate, c) →
          r.nextRequest n (s.tileReqs tk t.core) = some q → s.runRequest tk t r n load c q = some u →
          exec (.memoryChainRequest tk n) s = .next (u.closeSpan tk))
  ∧ (∀ (tk k : Nat) (s : State) (t : Team) (r : Region) (p : Port), PortRuns s tk k t r p →
      (p.out = false → p.awaited = [] → p.queue.length + p.landing.length < 64 → p.total ≤ p.pos → p.endSent = false → p.landing = [] →
        exec (.streamPortRead tk k) s = .next (s.modPlane tk fun q => q.modPort p.k fun p =>
          { p with endSent := true, queue := p.queue ++ [{ data := 0, tag := 2 }] }))
      ∧ (∀ l u v, p.out = false → p.awaited = [] → p.queue.length + p.landing.length < 64 → p.pos < p.total → p.indexed = false →
          s.checkPort t p.elemAddr p.width .read = (.ok l, u) → u.charge t.core 1 = some v →
          exec (.streamPortRead tk k) s = .next (v.modPlane tk fun q => q.modPort p.k fun p' => p'.issued p.elemAddr))
      ∧ (∀ x rest l u v, p.out = true → p.queue = x :: rest → x.tag.toNat < 2 → p.pos < p.total →
          s.checkPort t p.elemAddr p.width .write = (.ok l, u) → u.charge t.core 1 = some v →
          exec (.streamPortWrite tk k) s =
            .next ((v.modPlane tk fun q => q.modPort k fun p => { p with queue := p.queue.tail, pos := p.pos + 1 }).bufferSpan tk t (.port k)
              (if inWindow p.elemAddr then none else some p.elemAddr) l p.width (x.data.setWidth 64) r.epoch)))
  ∧ ∀ (core tile k n : Nat) (s u v : State) (x : TileReq) (t : Team) (r : Region) (tok : Token), (s.core core).tileNext tile = some k →
      (s.core core).tileQ[k]? = some (n, x) → Table.find s.teams x.team = some t → t.region = some r →
      (s.modCore core fun c => { c with tileQ := listDrop c.tileQ k }).charge core 1 = some u → u.tileAccess t x = some (v, tok) →
      ∃ w, exec (.memoryTileAccess core tile) s = .next w ∧ w = (((v.modRegion x.team fun r => r.respond x.load x.req tok).flushChain core x
        (s.core core).tileQ.length).closeSpan x.team)

/-- The steps of the distributors, of launches and of queues complete when they are due: team placement, gang admission, team retire, starvation
boost, conflict abort, launch replay, launch commit, shadow writeback, shadow evict, shadow store resume, kick, qrd write, queue enable, queue error
clear, pending list join, packet draw, and the packets LAUNCH, BARRIER, SIGNAL, COPY, BTOP and NOP (R34, R43, R47, R49, R252, R254, R256, R257, R261,
R262, R265 to R269, R271, R273 to R276). -/
def Obligations.LaunchAndQueueStepsComplete : Prop :=
  (∀ (gid core off : Nat) (quads cores : List Nat) (s u : State) (g : Grid), Table.find s.grids gid = some g →
    (s.namedNext gid g = true → s.nextFit gid g = some (core, quads, off) → (s.core core).gated = false →
      exec (.teamPlacement gid) s = .next (((s.noteSource g).putTeam gid (core, quads, off)).noteUsed core))
    ∧ (s.gangWaits gid g = true →
        (∀ x ∈ s.grids, x.1 ≠ gid → s.gangWaits x.1 x.2 = true → x.2.prio < g.prio ∨ (x.2.prio = g.prio ∧ g.arrival < x.2.arrival)) →
        (∀ x ∈ s.grids, g.prio < x.2.prio → s.placeable x.1 x.2 = false) →
        s.placeAll gid ((s.restoring gid).length + if (s.context g.ctx).stopped then 0 else g.teams - g.nextTeam) = some (u, cores) →
        (∀ c ∈ cores, (s.core c).gated = false) → exec (.gangAdmission gid) s = .next (u.modGrid gid fun g => { g with admitted := true })))
  ∧ (∀ (tk : Nat) (s : State) (t : Team), Table.find s.teams tk = some t → t.phase = .placed → (∀ g ∈ t.groups, g.state = .retired) →
      s.teamQuiet tk t = true → exec (.teamRetire tk) s = .next
        ((State.gridDone 11 ((s.dropTeam tk).modGrid t.grid fun g => { g with retired := g.retired + 1 }) t.grid).refill t.core))
  ∧ (∀ (r : GroupRef) (s : State) (t : Team) (g : Group), Table.find s.teams r.team = some t → t.groups[r.grp]? = some g → 65536 ≤ g.starve →
      g.canIssue = true → s.mayIssue r = true → s.quadIssued t.core g.quad = false →
      exec (.starvationBoost r) s =
        .next { (s.modGroup r fun g => { g with starve := 0, boosted := true }) with turns := .issue r :: s.turns })
  ∧ (∀ (l : Nat) (s : State) (x : Launch), Table.find s.launches l = some x →
      (x.missed ≠ [] ∨ (∃ e ∈ s.launches, e.2.active = true ∧ s.before e.1 l = true ∧ s.conflicts e.1 l = true) → x.active = true →
        exec (.conflictAbort l) s = .next (s.abortConflict l true))
      ∧ (x.phase = .replay → x.serial = false → x.aborted = false → (s.context x.ctx).stopped = false →
          (∀ y ∈ s.launches, y.2.serial = true → s.before y.1 l = false) → s.workBlocked l x.ctx x.kind (s.isOldest l) = false →
          exec (.launchReplay l) s =
            .next ((s.modLaunch l fun x => { x with phase := .running, aborted := false, ranSerial := x.serial }).beginWork l))
      ∧ (∀ tag g, x.tag = some tag → x.phase = .done → x.missed = [] → s.isOldest l = true → x.kind = .grid g →
          exec (.launchCommit l) s = .next (s.commitLaunch l tag))
      ∧ (∀ line, x.readsLine line = true → s.llcVersions l line = [] ∨ s.overflowFull x.ctx = true →
          ∃ u y, exec (.shadowEvict l line) s = .next u ∧ Table.find u.launches l = some y ∧ y.sig = x.sig ||| signatureBits line))
  ∧ (∀ (line : Nat) (s : State), (∃ c ∈ s.committed, ∃ e ∈ c.bytes, e.1 / 64 = line) →
      ∃ u, exec (.shadowWriteback line) s = .next u)
  ∧ (∀ (r : GroupRef) (s : State) (g : Group) (t : Team), s.findGroup r = some g → Table.find s.teams r.team = some t →
      g.state = .waiting .shadow → (s.overflowFull (s.teamCtx t) = false ∨ s.isOldest (s.teamLaunch t) = true) →
      exec (.shadowStoreResume r) s = .next (s.modGroup r fun g => { g with state := .ready }))
  ∧ (∀ (q : Nat) (v : BitVec 64) (bs : List Byte) (s : State), s.recov = false → q < 4096 → let x := s.queue q
      (x.wr.toNat < v.toNat → v.toNat ≤ x.qrd.toNat + 2 ^ x.size.toNat → exec (.kick q v) s = .next (s.modQueue q fun x => { x with wr := v }))
      ∧ (x.en = false ∨ x.err = true → exec (.qrdWrite q v) s = .next (s.modQueue q fun x => { x with qrd := v }))
      ∧ (v.getLsbD 31 = true → x.en = false → ∃ u, exec (.queueEnable q v) s = .next u ∧ (u.queue q).en = true ∧ (u.queue q).wr = x.qrd)
      ∧ (v.getLsbD 30 = true → x.err = true → ∃ u, exec (.queueErrorClear q v) s = .next u ∧ (u.queue q).err = false)
      ∧ (x.hasPacket = true → x.listed = false → (s.context x.ctx.toNat).stopped = false → s.headPacket x = .ok bs →
          s.startsNow q x.ctx.toNat bs = true → ∃ u, exec (.pendingListJoin q) s = .next u ∧ (u.queue q).listed = true))
  ∧ (∀ (core : Nat) (s : State), s.agentIdle core = true → ∃ u, exec (.packetDraw core) s = .next u ∧ u.tickets = s.tickets + 1)
  ∧ ∀ (core : Nat) (s : State) (d : Drawn), (s.core core).agent.drawn = some d → s.inOrder d = true →
      let q := s.queue d.q
      let ctx := q.ctx.toNat
      (∀ im, packetType d.bytes = 1 → d.image = some im → ∃ u x g, exec (.launchPacket core) s = .next u
        ∧ Table.find u.launches s.nextId = some x ∧ Table.find u.grids (s.nextId + 1) = some g ∧ g.image = im ∧ x.kind = .grid (s.nextId + 1))
      ∧ (packetType d.bytes = 2 → s.signalsMet ctx d.bytes = true → exec (.barrierPacket core) s = .next (s.packetDone core))
      ∧ (packetType d.bytes = 3 → q.running = [] → ∃ u, exec (.signalPacket core) s = .next u ∧ (u.core core).agent.drawn = none)
      ∧ (packetType d.bytes = 6 → exec (.nopPacket core) s = .next (s.packetDone core))
      ∧ ∀ kind, s.windowOpen = true → s.queueBefore (newLaunch d ctx kind (packetAddr d.bytes 4) (packetAddr d.bytes 5)) = false →
          (s.context ctx).stopped = false → s.overflowFull ctx = false →
          (packetType d.bytes = 4 → kind = .copy (packetAddr d.bytes 1) (packetAddr d.bytes 2) (packetWord d.bytes 3) →
            ∃ u, exec (.copyPacket core) s = .next u)
          ∧ (packetType d.bytes = 5 → kind = .btop (packetAddr d.bytes 1) (natBits (packetWord d.bytes 2) 31 0)
              (natBits (packetWord d.bytes 2) 63 32) (natBits (packetWord d.bytes 3) 31 0) → ∃ u, exec (.btopPacket core) s = .next u)

/-- The steps of traps, requests, power, errors, the debugger, the host and bring-up complete when they are due: trap delivery, group resume,
unresolved fault abort, trr write, bp write, the four requests of PREQ and drain limit expiry, the four commands of the debugger, ruc write, pwr
write, register write, credit refill, power charge resume, power controller adjust, core clock gate, core wake, ecc correctable and uncorrectable, link
crc retry, port failure, host memory read and write, peer access, attestation request, warm reset, power-up, core start step and agent event entry
(R45, R152, R199, R213, R215, R280 to R282, R284, R287 to R289, R291 to R294, R303, R304, R306, R308, R312, R315, R316, R386). -/
def Obligations.HostAndServiceStepsComplete : Prop :=
  (∀ (r : GroupRef) (s : State) (g : Group) (t : Team) (i : TrapInfo), r.team ≠ 0 → s.findGroup r = some g → Table.find s.teams r.team = some t →
    g.trap = some i → t.phase = .placed →
    (g.state = .trapped → i.phase = .raised → (s.context (s.teamCtx t)).trbEn = true → (s.context (s.teamCtx t)).ringFull = false →
      i.kind = .page ∨ i.kind = .prot → ∃ u h, exec (.trapDelivery r) s = .next u ∧ u.findGroup r = some h ∧ h = g.trapAt .host)
    ∧ (i.phase = .host → exec (.groupResume r) s = .next (s.modGroup r Group.resume)
        ∧ exec (.unresolvedFaultAbort r) s = .next (s.abortGrid t.grid (Ending.ofTrap i.kind i.addr))))
  ∧ (∀ (s : State) (v : BitVec 64) (ctx n core : Nat), s.recov = false → let c := s.context ctx
      (v.toNat ≤ c.trw.toNat → c.trr.toNat ≤ v.toNat → exec (.trrWrite ctx v) s = .next (s.modContext ctx fun c => { c with trr := v }))
      ∧ (n < 4 → ∃ u, exec (.bpWrite ctx n v) s = .next u ∧ (u.context ctx).bpAddr = listModify c.bpAddr n fun _ => v.extractLsb' 3 54)
      ∧ (v.getLsbD 0 = true → ∃ u, exec (.rucWrite ctx v) s = .next u ∧ (u.context ctx).retuse = 0)
      ∧ (∃ u, exec (.pwrWrite core v) s = .next u ∧ (u.core core).pwrEn = v.getLsbD 31)
      ∧ (∃ u, exec (.registerWrite (.ttb ctx) v) s = .next u ∧ (u.context ctx).ttbBase = v.extractLsb' 12 40)
      ∧ (c.go = false → v.getLsbD 31 = true →
          ((v.extractLsb' 28 3).toNat = 0 → ∃ u, exec (.preqDrain ctx (some v)) s = .next u ∧ (u.context ctx).go = true ∧ (u.context ctx).mode = 0)
          ∧ ((v.extractLsb' 28 3).toNat = 1 → ∃ u, exec (.preqSave ctx (some v)) s = .next u ∧ (u.context ctx).go = true ∧ (u.context ctx).mode = 1)
          ∧ ((v.extractLsb' 28 3).toNat = 2 → ∃ u, exec (.preqKill ctx v) s = .next u ∧ (u.context ctx).res = 3)
          ∧ ((v.extractLsb' 28 3).toNat = 3 → ∃ u, exec (.preqRestore ctx (some v)) s = .next u ∧ (u.context ctx).go = true ∧ (u.context ctx).mode = 3))
      ∧ (c.go = true → c.mode = 0 → c.drainOver = false → s.drained ctx = true → exec (.preqDrain ctx none) s = .next (s.preqDone ctx 1))
      ∧ (c.go = true → c.mode = 0 → c.drainOver = false → s.drained ctx = false → c.drain = 0 →
          exec (.drainLimitExpiry ctx) s = .next (s.modContext ctx fun c => { c with drainOver := true }))
      ∧ (s.saving ctx = true → (∀ e ∈ s.placedTeams ctx, s.savable e = true) →
          ∃ u, exec (.preqSave ctx none) s = .next u ∧ (u.context ctx).res = 2 ∧ (u.context ctx).go = false)
      ∧ (c.go = true → c.mode = 3 → s.restoreDone ctx = true → exec (.preqRestore ctx none) s = .next ((s.preqDone ctx 4).rouseAll))
      ∧ (c.dbusy = false → ∀ t, s.debugTarget ctx = some t →
          (∀ x, s.debugWaits ctx = false → t.read s c = some x → ∃ u, exec (.debugRead ctx) s = .next u ∧ (u.context ctx).ddat = x)
          ∧ (∀ u, s.debugWaits ctx = false → t.write s c = some u → exec (.debugWrite ctx) s = .next (u.modContext ctx fun c => { c with dref := false }))
          ∧ ∀ g, t.held = some g → g.resumable = true → g.state ≠ .retired →
              exec (.debugResume ctx) s = .next ((s.modGroup t.ref Group.resume).modContext ctx fun c => { c with dref := false })
              ∧ ∃ u, exec (.debugSingleStep ctx) s = .next u ∧ (u.context ctx).dref = false))
  ∧ (∀ (core : Nat) (s : State), let c := s.core core
      (c.gated = false → c.owed = true → ∃ u, exec (.creditRefill core) s = .next u
        ∧ (u.core core).level.toNat = min c.cap.toNat (c.level.toNat + c.rate.toNat))
      ∧ (∀ (r : GroupRef) g t n, s.findGroup r = some g → Table.find s.teams r.team = some t → t.phase = .placed →
          g.state = .waiting (.power core n) → s.canCharge core n = true →
          exec (.powerChargeResume (.group r)) s = .next (s.modGroup r fun g => { g with state := .ready }))
      ∧ (∀ rate : BitVec 11, rate ≠ 0 → ∃ u, exec (.powerControllerAdjust rate) s = .next u)
      ∧ (c.started = true → c.gated = false → c.pwrGate = true → 65536 ≤ c.idle → s.placedOn core = [] →
          ∃ u, exec (.coreClockGate core) s = .next u ∧ (u.core core).gated = true)
      ∧ (c.gated = true → s.chosenCore core = true → s.wakeOpen = true → (∀ k, k < core → (s.core k).gated = true → s.chosenCore k = false) →
          ∃ u, exec (.coreWake core) s = .next u ∧ (u.core core).gated = false ∧ (u.core core).level = c.cap)
      ∧ exec (.eccCorrectable core) s = .next (s.modCore core fun c => { c with errors := c.errors + 1 })
      ∧ (∀ v p, c.started = true → c.gated = false → c.agent.handling = none → c.agent.grp.state.canLeave = true →
          firstEvent c.agent.events = some v → (∀ z, c.agent.grp.serl = some z → p = z.path) →
          (c.agent.grp.serl = none → c.agent.grp.paths.head? = some p) →
          ∃ u, exec (.agentEventEntry core) s = .next u ∧ (u.core core).agent.handling = some v ∧ (u.core core).agent.saved = p))
  ∧ ∀ (s : State) (v : BitVec 64) (pa : Nat),
      exec (.linkCrcRetry pa) s = .next s
      ∧ (∃ u, exec (.portFailure (.secondTier pa)) s = .next u ∧ pa ∈ u.tier2Failed)
      ∧ (∃ u, exec (.portFailure (.link pa)) s = .next u ∧ pa ∈ u.failedLinks)
      ∧ (∀ c e, c ∈ s.committed → e ∈ c.bytes → exec (.eccUncorrectable (.writeBack (e.1 / 64))) s = .next { s with poison := addNew s.poison (e.1 / 64) })
      ∧ (∀ r lane g, s.findGroup r = some g → g.reads lane = true → g.hasTrap = false →
          ∃ d, exec (.eccUncorrectable (.groupRead r lane v)) s = .next (s.asyncTrap r g .ecc d v (BitVec.ofNat 32 lane)))
      ∧ (s.ready = true → s.firstTierWord (cxlMem pa) = true →
          (∃ u, exec (.hostMemoryRead (.mem pa)) s = .next u ∧ u.hostData = BitVec.ofNat 64 (s.committedNat (cxlMem pa) 8))
          ∧ ∃ u, exec (.hostMemoryWrite (.mem pa) v) s = .next u)
      ∧ (s.ready = true → s.firstTierWord pa = true →
          (∃ u, exec (.peerAccess (.read pa)) s = .next u ∧ u.hostData = BitVec.ofNat 64 (s.committedNat pa 8))
          ∧ (∃ u, exec (.peerAccess (.write pa v)) s = .next u) ∧ ∃ u, exec (.peerAccess (.atomAdd pa v)) s = .next u)
      ∧ (s.recov = false → ∃ u, exec (.attestationRequest (.request v)) s = .next u)
      ∧ (s.attesting.isSome = true → ∃ u, exec (.attestationRequest .report) s = .next u ∧ u.attesting = none)
      ∧ (v.getLsbD 31 = true → exec (.warmReset v) s = .next { s.flushed.registersReset with stage := 1 })
      ∧ (∃ u, exec .powerUp s = .next u ∧ u.stage = 1)
      ∧ (s.recov = false → s.err = 0 →
          (1 ≤ s.stage.toNat → s.stage.toNat ≤ 3 → ∃ u, exec .coreStartStep s = .next u ∧ u.mem = s.mem)
          ∧ (s.stage = 4 → (s.nextStart = 0 ∧ Config.imageSigned s.flash.agentImage = true)
              ∨ (s.nextStart ≠ 0 ∧ 1400 ≤ (s.cycle - s.wakeFrom).toNat) →
              ∃ u, exec .coreStartStep s = .next u ∧ u.nextStart = s.nextStart + 8))

-- ## Statements of several parts

/-- The privileged instructions: mtsr, eret and halt raise PRIV in user software and act in an agent's slot (R331, R386, R397, R420). The choices of the model that it rests on: log 8. -/
def Obligations.PrivilegedInstructions : Prop := MtsrIsPrivileged ∧ AgentInstructionsArePrivileged

/-- The moves, the special registers and the exchanges between lanes write their v-register, or their s-register, and nothing else (R353, R414, R418, R432, R438, R442, R457). -/
def Obligations.LaneAndGroupInstructionsWrite : Prop := LaneInstructionWritesGuardedLanes ∧ GroupInstructionWritesScalar

/-- Comparisons and predicate operations write the guarded lanes of their predicate, and p0 stays true (R55, R327, R367, R390, R426). -/
def Obligations.ComparisonsAndPredicateOperations : Prop := ComparisonWritesPredicate ∧ PredicateOperationWritesGuardedLanes

/-- Dot products charge their core's bucket, and microcoded operations count in retuse; both write as register operations do (R281, R311, R312, R381). -/
def Obligations.DotProductsAndMicrocodedOperations : Prop := DotProductChargesAndCompletes ∧ MicrocodedOperationCountsInRetuse

/-- steer, merge, cnt, emit, sink, swait, pent, pexit and isect: which heads leave, and which token each output gains; of isect, row by row, with last and end tokens and control tokens among them (R88, R97, R98, R368, R382, R413, R444, R448). -/
def Obligations.RoutingAndIntersectionNodesFire : Prop := RoutingNodeFires ∧ IntersectionFires

/-- A slot that does not fire does nothing, eqpn ends the span, and a converter node takes its actions (R77, R371, R372, R385). The choices of the model that it rests on: log 58. -/
def Obligations.SlotsIdleConvertersAndSpanEnds : Prop := SlotWithoutTriggerDoesNothing ∧ EpointNodeEndsSpan ∧ ConverterActs

/-- calln, retn and next move the planes of a region (R104, R106 to R108). The choices of the model that it rests on: log 12, 59. -/
def Obligations.PlanesCallReturnAndChain : Prop := CallEntersCallee ∧ ReturnThawsCaller ∧ NextIsPendingOnce

/-- Loads leave the writes of their registers pending, stores wait to perform, and nothing else changes; prf changes nothing (R62, R222, R403, R404, R406, R408, R429, R445, R450). -/
def Obligations.LoadsAndStoresIssue : Prop := LoadIssuesPendingWrites ∧ UniformLoadAndPrefetch ∧ StoreIssuesPendingStores

/-- A store performs level by level and in the end at its location, and a read of what was written gives it (R217, R222, R249, R257). The choices of the model that it rests on: log 4, 50, 86. -/
def Obligations.StoresPerformAndAreRead : Prop := StorePerformsAtItsLocation ∧ WriteThenReadMemory

/-- A pending acquire holds back the group's later accesses, and fences order them (R221, R391). The choices of the model that it rests on: log 50 (what stores of others a fence waits for), 51. -/
def Obligations.AcquiresAndFencesOrderAccesses : Prop := AcquireHoldsBackLaterAccesses ∧ FenceOrdersAccesses

/-- Atomics and arrivals update their address as one event a lane; barinit stores a barrier object, and an arrival counts in it (R225, R302, R348, R351, R352, R364). The choices of the model that it rests on: log 50, 51, 93, 97. -/
def Obligations.AtomicsAndBarrierObjects : Prop := AtomicUpdatesItsAddress ∧ BarrierInitStoresObject ∧ ArrivalCountsDown

/-- call and ret move the register window and the return records, exit ends lanes, and serl and sere run a body lane by lane (R57, R67, R362, R387, R435, R440). The choices of the model that it rests on: log 54, 90 (no memory changes where the spill stack spills), 94. -/
def Obligations.CallReturnExitAndSerialBody : Prop := CallAndReturn ∧ ExitAndSerialBody

/-- copy and gather join their core's copy engine, and their completion writes what they have read (R61, R205, R215, R257, R373, R374, R395, R396). The choices of the model that it rests on: log 63, 86 (the PC, the lane and the address of a trap at completion). -/
def Obligations.CopiesIssueAndComplete : Prop := CopiesAreIssued ∧ CopiesComplete

/-- mma, accld and accst are accepted by the matrix engine, and mma completion writes the tile (R60, R177, R178, R184, R186 to R188, R281, R302, R343). The choices of the model that it rests on: log 50, 78, 97. -/
def Obligations.MatrixCommandsAreAcceptedAndRun : Prop := MatrixCommandsAreAccepted ∧ MmaCompletionWritesTile

/-- wait and cwait complete, and their polls end them, when every lane's word differs from its value; a completed wait tells its group which tiles are bound (R127, R302, R376, R458). The choices of the model that it rests on: log 52, 97. -/
def Obligations.WaitsEndOnChange : Prop := WaitCompletesOnChange ∧ WaitingLaneReadsItsWord ∧ PollEndsWaitOnChange

/-- Taking a trap, and the instructions whose effect it is (R127, R284, R286, R355, R359, R455). The choices of the model that it rests on: log 40, 79. -/
def Obligations.TrapsStopTheirGroup : Prop := TrapStopsGroup ∧ TrapInstructionsTrap

/-- accalloc, accgrow and accfree, and the end of a waiting accfree; the matrix engine takes its oldest command, and every group that waits for its port is Ready again; accld and accst copy a tile (R42, R177, R189 to R191, R194, R302, R342, R343, R416). The choices of the model that it rests on: log 50, 74, 78, 97. -/
def Obligations.TileBindingsAndEngineCommands : Prop := TileNamesBindAndUnbind ∧ WaitingAccfreeUnbinds ∧ EngineTakesOldestCommand ∧ TileCopiesComplete

namespace Sys2Proof.Claims

-- ## Integer arithmetic

/-- The integer that the low bits of a value hold in an integer type: signed for an even type code (R162, R321). -/
def typeValue (ty : Nat) (x : BitVec 64) : Int :=
  if ty % 2 = 0 then (x.setWidth (intWidth ty)).toInt else (x.setWidth (intWidth ty)).toNat

/-- The least and the greatest value of an integer type. -/
def typeMin (ty : Nat) : Int := if ty % 2 = 0 then -(2 ^ (intWidth ty - 1) : Nat) else 0
def typeMax (ty : Nat) : Int := if ty % 2 = 0 then (2 ^ (intWidth ty - 1) : Nat) - 1 else (2 ^ intWidth ty : Nat) - 1

/-- Register n of a lane as an integer type names it: the v- or s-register, or its pair for a 64-bit type (R162). -/
def typedReg (e : Env) (g : Group) (scalar wide : Bool) (n l : Nat) : BitVec 64 :=
  if scalar then (if wide then g.readSPair n else (g.readS n).setWidth 64)
  else if wide then g.readVPair e.ring n l else (g.readV e.ring n l).setWidth 64

/-- What a value x added to y leaves in a result of an integer type: the exact sum clamped with sat, and wrapped without it. -/
def IsSum (ty : Nat) (sat : Bool) (x y r : BitVec 64) : Prop :=
  let sum := typeValue ty x + typeValue ty y
  (sat = true → typeValue ty r = max (typeMin ty) (min (typeMax ty) sum))
  ∧ (sat = false → r.setWidth (intWidth ty) = x.setWidth (intWidth ty) + y.setWidth (intWidth ty))

/-- The absolute value of x in an integer type. -/
def IsAbs (ty : Nat) (sat : Bool) (x r : BitVec 64) : Prop :=
  (ty % 2 = 1 → typeValue ty r = typeValue ty x)
  ∧ (ty % 2 = 0 → typeValue ty x ≠ typeMin ty → typeValue ty r = (typeValue ty x).natAbs)
  ∧ (ty % 2 = 0 → typeValue ty x = typeMin ty → typeValue ty r = if sat then typeMax ty else typeMin ty)

/-- A word of format A without a guard. -/
def plainWord (ty : BitVec 3) (sat : Bool) (d a b ctl : BitVec 8) : AWord :=
  { ty := ty, sat := sat, var := 0, g := { pg := 0, pn := false }, d := d, a := a, tail := .reg b 0 ctl }

end Sys2Proof.Claims

/-- add with sat clamps the exact sum to the range of its type, and without it the sum wraps; the operands and the result of a 64-bit type are
whole pairs (R344). The rule's encoded example is the last part. -/
def Obligations.AddClampsOrWraps : Prop :=
  (∀ (w : AWord) (s : State) (e : Env) (r : AluRow), (Instr.add (.native w)).aluRow = some (r, .native w) →
    Issues s e (aluUses (.add (.native w)) r w) → (typeIs64 w.ty.toNat = true → e.ring ≠ 1) →
    ∃ v, exec (.add (.native w)) s = .next (e.finish { e.grp with v := v } s)
      ∧ ∀ l, l < 64 → (e.guard w.g).getLsbD l = true → e.grp.present.getLsbD l = true →
        let wide := typeIs64 w.ty.toNat
        let z := typedReg e { e.grp with v := v } false wide w.d.toNat l
        (∀ b c ctl, w.tail = .reg b c ctl →
          IsSum w.ty.toNat w.sat (typedReg e e.grp ctl[3] wide w.a.toNat l) (typedReg e e.grp ctl[2] wide b.toNat l) z)
        ∧ ∀ x, w.tail = .imm x → IsSum w.ty.toNat w.sat (typedReg e e.grp false wide w.a.toNat l) (x.signExtend 64) z)
  ∧ (∀ (w : SWord) (s : State) (e : PeEnv), Fires s e (.add (.slot w)) w → typeIs64 w.ty.toNat = false →
    ∃ c x, exec (.add (.slot w)) s = .next (e.put s c) ∧ Moved e.cell c w.deq w.out (.tok { data := x, tag := e.cell.outTag w })
      ∧ IsSum w.ty.toNat w.sat ((e.cell.source w w.srcA).setWidth 64) ((e.cell.source w w.srcB).setWidth 64) (x.setWidth 64))
  ∧ decodeNative 0x0118000404090004 = .ok (.add (.native (plainWord 1 true 4 4 9 4)))
  ∧ ∀ (sat : Bool) (s : State) (e : Env) (r : AluRow) (l : Nat), let w := plainWord 1 sat 4 4 9 4
      (Instr.add (.native w)).aluRow = some (r, .native w) → Issues s e (aluUses (.add (.native w)) r w) → l < 64 →
      (e.guard w.g).getLsbD l = true → e.grp.present.getLsbD l = true → e.readV 4 l = 0xFFFFFFF0 → e.grp.readS 9 = 0x20 →
      ∃ v, exec (.add (.native w)) s = .next (e.finish { e.grp with v := v } s)
        ∧ { e.grp with v := v : Group }.readV e.ring 4 l = if sat then 0xFFFFFFFF else 0x00000010

/-- abs of the most negative value of a signed type is that same value, or the greatest one with sat; of every other value it is the absolute
value, and of an unsigned type a copy (R341). The rule's encoded example is the last part. -/
def Obligations.AbsOfMostNegative : Prop :=
  (∀ (w : AWord) (b c ctl : BitVec 8) (s : State) (e : Env) (r : AluRow), w.tail = .reg b c ctl →
    (Instr.abs (.native w)).aluRow = some (r, .native w) → Issues s e (aluUses (.abs (.native w)) r w) → (typeIs64 w.ty.toNat = true → e.ring ≠ 1) →
    ∃ v, exec (.abs (.native w)) s = .next (e.finish { e.grp with v := v } s)
      ∧ ∀ l, l < 64 → (e.guard w.g).getLsbD l = true → e.grp.present.getLsbD l = true →
        let wide := typeIs64 w.ty.toNat
        IsAbs w.ty.toNat w.sat (typedReg e e.grp ctl[3] wide w.a.toNat l) (typedReg e { e.grp with v := v } false wide w.d.toNat l))
  ∧ (∀ (w : SWord) (s : State) (e : PeEnv), Fires s e (.abs (.slot w)) w → typeIs64 w.ty.toNat = false →
    ∃ c x, exec (.abs (.slot w)) s = .next (e.put s c) ∧ Moved e.cell c w.deq w.out (.tok { data := x, tag := e.cell.outTag w })
      ∧ IsAbs w.ty.toNat w.sat ((e.cell.source w w.srcA).setWidth 64) (x.setWidth 64))
  ∧ decodeNative 0x0C08000307000000 = .ok (.abs (.native (plainWord 0 true 3 7 0 0)))
  ∧ ∀ (sat : Bool) (s : State) (e : Env) (r : AluRow) (l : Nat), let w := plainWord 0 sat 3 7 0 0
      (Instr.abs (.native w)).aluRow = some (r, .native w) → Issues s e (aluUses (.abs (.native w)) r w) → l < 64 →
      (e.guard w.g).getLsbD l = true → e.grp.present.getLsbD l = true → e.readV 7 l = 0x80000000 →
      ∃ v, exec (.abs (.native w)) s = .next (e.finish { e.grp with v := v } s)
        ∧ { e.grp with v := v : Group }.readV e.ring 3 l = if sat then 0x7FFFFFFF else 0x80000000

/-- What the integer operations compute, in the arithmetic of N bits: the result of a type narrower than 64 bits is extended by its sign or by
zeros, division by zero gives the limit of the type or x, and an amount of N or more shifts everything out (R162, R340, R346, R366, R380, R412,
R421, R434, R437).
The choices of the model that it rests on: log 39. -/
def Obligations.IntegerOperationsOverNBits : Prop :=
  ∀ a : AluIn, a.ty < 8 → a.sat = false →
    let n := intWidth a.ty
    let x := a.x.setWidth n
    let y := a.y.setWidth n
    let signed : Prop := a.ty % 2 = 0
    let is := fun (o : AluOut) (v : BitVec n) => o.d = if a.ty % 2 = 0 then v.signExtend 64 else v.setWidth 64
    is (subOp a) (x - y) ∧ is (mulOp a) (x * y) ∧ is (madOp a) (x * y + a.z.setWidth n)
    ∧ is (andOp a) (x &&& y) ∧ is (orOp a) (x ||| y) ∧ is (xorOp a) (x ^^^ y) ∧ is (andnOp a) (x &&& ~~~y) ∧ is (notOp a) (~~~x)
    ∧ is (shlOp a) (x <<< y.toNat) ∧ is (shrOp a) (x >>> y.toNat) ∧ is (sarOp a) (x.sshiftRight y.toNat)
    ∧ is (rotOp a) (x.rotateLeft (y.toNat % n))
    ∧ (¬ signed → is (mulhOp a) (BitVec.ofNat n (x.toNat * y.toNat / 2 ^ n)) ∧ is (minOp a) (if x.ult y then x else y)
        ∧ is (maxOp a) (if x.ult y then y else x)
        ∧ is (diviOp a) (if y = 0 then BitVec.allOnes n else x / y) ∧ is (remiOp a) (if y = 0 then x else x % y))
    ∧ (signed → is (mulhOp a) (BitVec.ofInt n (x.toInt * y.toInt / (2 ^ n : Nat))) ∧ is (minOp a) (if x.slt y then x else y)
        ∧ is (maxOp a) (if x.slt y then y else x)
        ∧ is (diviOp a) (if y = 0 then (if x.slt 0 then BitVec.intMin n else BitVec.intMax n) else x.sdiv y)
        ∧ is (remiOp a) (if y = 0 then x else x.srem y))
    ∧ (clzOp a).d = BitVec.ofNat 64 x.clz.toNat ∧ (popcOp a).d = BitVec.ofNat 64 x.cpop.toNat
    ∧ ∀ k, k < n → ((brevOp a).d.setWidth n).getLsbD k = x.getLsbD (n - 1 - k)

-- ## nop, the frame of an instruction, and the step

/-- nop takes one issue and changes no state but the place of its path; a word of its op with any other nonzero field raises ILLEGAL when it
issues; and a configuration that holds its op in a slot raises CONFIG (R423). -/
def Obligations.NopChangesNoState : Prop :=
  (∀ (s : State) (e : Env), s.env = some e → exec .nop s = .next (e.finish e.grp s))
  ∧ (∀ (w : DWord) (s : State) (e : Env), w.extractLsb' 56 8 = 0x63#8 → w.extractLsb' 0 56 ≠ 0#56 → e.issueWord s w = .done (e.trap s .illegal))
  ∧ (∀ w : BitVec 96, w.extractLsb' 88 8 = 0x63#8 → ∃ d, decodeSlot w = .error d)
  ∧ ∀ (col row k : Nat) (x : Section) (w : BitVec 96), k < 16 → Table.find x.slots k = some w → w.extractLsb' 88 8 = 0x63#8 →
      readCell col row x = none
      ∧ ∀ (s : State) (t : Team) (r : Region) (n : Nat) (g : Grid) (c : ConfigImg) (rows : List RowCfg),
          Table.find s.grids t.grid = some g → g.image.config c.id = some c → readRows c r.col = some rows →
          (∃ b, rows[row]? = some b ∧ b.done[col]? = some x) → s.loadPlane t r c.id n = .error .config

/-- The frame of every instruction that completes with finish: memory, the scratchpad and every other group are as before, the issuer's group has
the registers given, its active path stands at the next word and its other paths where they stood (R17, R63). -/
def Obligations.CompletionMovesOnlyItsPath : Prop :=
  ∀ (s : State) (e : Env) (r : GroupRef) (g : Group), s.env = some e → e.ref = some r → r.team ≠ 0 →
    g.paths = e.grp.paths → g.spilledPaths = e.grp.spilledPaths → g.serl = e.grp.serl →
    let t := e.finish g s
    t.mem = s.mem ∧ t.scratch = s.scratch ∧ t.shadows = s.shadows ∧ t.cores = s.cores ∧ t.contexts = s.contexts ∧ t.launches = s.launches
      ∧ t.grids = s.grids ∧ t.queues = s.queues
      ∧ (∀ q, q ≠ r → t.findGroup q = s.findGroup q)
      ∧ (∀ k, k ≠ r.team → Table.find t.teams k = Table.find s.teams k)
      ∧ ∃ h, t.findGroup r = some h ∧ SameRegisters g h ∧ h.eqlast = g.eqlast ∧ h.trap = g.trap ∧ h.vform = g.vform ∧ h.state = .ready
        ∧ ∀ l pc, l < 64 → (Standing h l pc ↔ (e.path.mask.getLsbD l = true ∧ pc = e.path.pc + 8) ∨ StandingElse e l pc)

namespace Sys2Proof.Claims

/-- The word at hand of the issuer e in state t: a trap that it owes, the end of a single step, a breakpoint, an instruction of the group's form, or a word that is none
(R153, R293, R333, R334). The path at hand counts as arrived, and is the one that the instruction acts for. step is what the machine does with it. -/
def WordIssues (t : State) (e : Env) (w : DWord) (step : Host.Outcome State Fault Refusal) : Prop :=
  (∀ g i, t.findGroup e.gref = some g → g.owed = some i → step = .next (t.takeOwed e.gref g i))
  ∧ (e.grp.owed = none → e.grp.stepped = true → step = .next (e.trapWith t { e.grp with stepped := false } .bkpt 5 0 wholeGroup false))
  ∧ (e.grp.owed = none → e.grp.stepped = false →
      (∀ n, e.breakpoint t = some n → step = .next (e.trapWith t e.grp .bkpt (BitVec.ofNat 32 n) 0 wholeGroup false))
      ∧ (e.breakpoint t = none →
          let u := e.arrived t
          ∃ f, u.env = some f ∧ f.path = { e.path with bpDone := true } ∧ f.ref = e.ref ∧ SameRegisters e.grp f.grp
            ∧ (∀ i, decodeNative w = .ok i → i.formOk e.vform = true → step = concludeTurn u i (exec i u)
                ∧ (e.grp.singleStep = false → ∀ v, exec i u = .next v → step = .next v.forgetMoved))
            ∧ (∀ i, decodeNative w = .ok i → i.formOk e.vform = false → step = .next (f.trap u .illegal))
            ∧ ∀ d, decodeNative w = .error d → step = .next (f.trap u .illegal)))

end Sys2Proof.Claims

/-- A step runs the instruction that the word at its path decodes to: the turn of a group that may issue, of an agent's slot, of a processing
element and of a hardware step; with no turn listed the machine takes one of the turns that it can take, no cycle passing while a group or an agent's
slot can issue, in finite time those that are owed, and an eviction first while an LLC holds more shadow lines than it has (R46, R48, R256). A word that
decodes to nothing raises ILLEGAL (R59, R77, R333, R334). The list of turns and the round of those owed are the model's own fields (log 1, 96), and after
each turn the block tables that a write has moved are known no more (log 92).
The choices of the model that it rests on: log 1, 49, 53, 92, 96. -/
def Obligations.StepRunsDecodedInstruction : Prop :=
  (∀ (s q u t : State) (ts : List Turn) (r : GroupRef) (e : Env) (w : DWord) (rest : List DWord), s.turns = .issue r :: ts →
    q = { s with turns := ts } → q.mayIssue r = true → u = q.noteIssue r → t = { u with cur := .group r } →
    t.env = some e → e.path.words = w :: rest → e.gref.team ≠ 0 → WordIssues t e w (step s))
  ∧ (∀ (s q t : State) (ts : List Turn) (c : Nat) (e : Env) (w : DWord) (rest : List DWord), s.turns = .agentIssue c :: ts →
    q = { s with turns := ts } → (q.core c).agentReady = true → t = { (q.noteAgent c) with cur := .agent c } → t.env = some e → e.path.words = w :: rest →
    WordIssues t e w (step s))
  ∧ (∀ (s q p t u v : State) (ts : List Turn) (r : GroupRef) (e d f : Env) (w : DWord) (h : HWord), s.turns = .issue r :: ts →
    q = { s with turns := ts } → q.mayIssue r = true → p = q.noteIssue r → t = { p with cur := .group r } →
    t.env = some e → e.path.words = [] → e.gref.team ≠ 0 → e.grp.owed = none → e.grp.stepped = false → e.breakpoint t = none → (e.arrived t).env = some d → d.grp.fbar = false →
    d.atHeader (e.arrived t) = (u, true) → u.env = some f →
    f.fetchWord u f.path.pc = (.word w, v) →
    (decodeNative w = .ok (.clause h) → step s = concludeTurn v (.clause h) (exec (.clause h) v))
    ∧ (w.extractLsb' 56 8 ≠ 0xF0#8 → step s = .next (f.trap v .illegal)))
  ∧ (∀ (s t : State) (ts : List Turn) (tk col row k : Nat) (i : Instr) (e : PeEnv), s.turns = .pe tk col row :: ts →
    t = { s with turns := ts, cur := .pe tk col row 0 } → t.peEnv = some e → (e.cell.filled.find? fun x => e.canFire x.2) = some (k, i) →
    ∀ u, u = (t.modRegion tk (e.watched (t.watchArmed tk) (some k))).noteFire tk →
      step s = concludeTurn { u with cur := .pe tk col row k } i (exec i { u with cur := .pe tk col row k }))
  ∧ (∀ (s : State) (ts : List Turn) (i : Instr), s.turns = .event i :: ts →
    step s = concludeTurn { s with turns := ts, cur := .device } i (exec i { s with turns := ts, cur := .device }))
  ∧ (∀ (s t : State) (i : Instr), (∀ r g, s.cur = .group r → s.findGroup r = some g → g.singleStep = false) →
      ∃ u l, concludeTurn s i (.next t) = .next u ∧ u = { t with tables := l } ∧ (∀ x ∈ l, x ∈ t.tables) ∧ ∀ x ∈ l, t.tableStands x = true)
  ∧ (∀ (s : State) (i : Instr) (f : Fault) (q : Refusal), concludeTurn s i (.fault f) = .fault f ∧ concludeTurn s i (.refused q) = .refused q)
  ∧ ∀ (s u : State) (l : List Turn), s.turns = [] → s.freeTurns (eventDue s) = (l, u) →
      (∃ t ∈ l, step s = step { u with choices := s.choices + 1, round := u.round.erase t, taken := u.taken + 1, turns := [t] })
      ∧ u = { s with round := u.round, taken := u.taken }
      ∧ (∀ t ∈ l, t ∈ s.issueTurns ++ s.agentTurns ++ s.peTurns ++ s.eventTurns (eventDue s) ++ [Turn.tick])
      ∧ (s.issueTurns ++ s.agentTurns ≠ [] → Turn.tick ∉ l)
      ∧ ((s.llcOver = false ∨ ∀ a b, Turn.event (.shadowEvict a b) ∉ s.eventTurns (eventDue s)) → u.round ≠ [] → Config.patience ≤ u.taken → l = u.round)
      ∧ (s.llcOver = true → (∃ a b, Turn.event (.shadowEvict a b) ∈ s.eventTurns (eventDue s)) → ∀ t ∈ l, ∃ a b, t = .event (.shadowEvict a b))

/-- A few words that the spec writes out, and the instructions that they stand for; and words that are refused (R334, R336, R341, R344). -/
def Obligations.WordsDecode : Prop :=
  let g0 : Guard := { pg := 0, pn := false }
  decodeNative 0x2201000902070094 = .ok (.fmul (.native { plainWord 0 false 9 2 7 0x94 with var := 1 }))
  ∧ decodeNative 0x704C07040A05FFF8 = .ok (.ld { width := 2, order := 1, scope := 4, g := { pg := 3, pn := true }, d := 4, base := 10, index := 5, imm := 0xFFF8 })
  ∧ decodeNative 0x7440000100064010 = .ok (.ldv { width := 2, order := 0, scope := 0, g := g0, d := 1, base := 0, index := 6, imm := 0x4010 })
  ∧ decodeNative 0x5800FE00FFFFFFDA = .ok (.br { fn := 0, g := { pg := 127, pn := false }, aux := 0, disp := 0xFFFFFFDA })
  ∧ decodeNative 0x5000000602050000 = .ok (.pand { g := g0, pd := 3, pa := 1, na := false, pb := 2, nb := true })
  ∧ decodeNative 0x4890000000000000 = .ok (.mfsr { ty := 1, sat := false, var := 0, g := g0, d := 0, a := 0, tail := .imm 0 })
  ∧ decodeNative 0x5D02000200000003 = .ok (.yield { fn := 2, g := g0, aux := 2, disp := 3 })
  ∧ decodeNative 0xA60000040608FF00 = .ok (.btop { fsel := false, acq := false, rel := false, scope := 0, g := g0, r1 := 4, r2 := 6, r3 := 8, d := 0xFF, variant := 0 })
  ∧ decodeNative 0 = .error .unassignedOp ∧ decodeNative 0x2005000201030000 = .error .variantCode ∧ decodeNative 0xC400000000000000 = .error .slotOnly

/-- The decoder and the encoder agree: a word decodes to an instruction exactly if the instruction keeps every rule of its format and the word is
its encoding, with every operand at every value (R318 to R333). -/
def Obligations.DecodingInvertsEncoding : Prop :=
  ∀ (i : Instr) (w : Encoded), decode w = .ok i ↔ i.WellFormed ∧ encode i = some w

/-- Every step keeps the canonical form of memory and of the scratchpad: addresses strictly rising and no entry of an unlisted byte's value, so
that equal memories are equal data.
The choices of the model that it rests on: log 4. -/
def Obligations.StepKeepsCanonicalMemory : Prop :=
  ∀ s t : State, s.wf → step s = .next t → t.wf

/-- The machine right after reset: registers at the values that the spec gives them, no work anywhere, and memory canonical with nothing listed
(R5, R79, R130, R261, R280, R304, R316).
The choices of the model that it rests on: log 3, 4, 5, 6, 7, 8. -/
def Obligations.ResetLeavesRegisters : Prop :=
  let s := State.reset
  s.wf ∧ s.mem = [] ∧ s.launches = [] ∧ s.grids = [] ∧ s.teams = [] ∧ s.pending = [] ∧ s.committed = []
  ∧ s.ready = false ∧ s.recov = false ∧ s.stage = 0 ∧ s.err = 0 ∧ s.nrbEn = false ∧ s.nrbOvf = false ∧ s.nrbBase = 0 ∧ s.nrw = 0 ∧ s.nrr = 0
  ∧ (∀ c, let k := s.core c
      k.enabled = false ∧ k.pwrEn = true ∧ k.pwrGate = false ∧ k.rate = 0x400 ∧ k.cap = 0x10000 ∧ k.level = k.cap
      ∧ k.swcEn = [false, false, false, false] ∧ k.agent.handling = none)
  ∧ (∀ q, let k := s.queue q
      k.en = false ∧ k.err = false ∧ k.prio = 0x10 ∧ k.size = 8 ∧ k.ctx = 0)
  ∧ ∀ x, let k := s.context x
      k.csc = 0x82680000 ∧ k.ttbEn = false ∧ k.retuse = 0 ∧ k.go = false ∧ k.trbEn = false ∧ k.dbgEn = false ∧ k.bpEn = [false, false, false, false]
end

