-- ==== Sys2Proof/Laws/Paths.lean ====
section
/-! SUPPORT. Laws of the path table: what settling a table keeps, and where each lane stands after it. -/

namespace Sys2Proof.Machine

/-- Lane l stands at pc in one of a list of entries. -/
def standsIn (ps : List PathEntry) (l : Nat) (pc : BitVec 64) : Prop := ∃ p ∈ ps, p.mask.getLsbD l = true ∧ p.pc = pc

theorem standsIn_nil (l pc) : standsIn [] l pc ↔ False := by simp [standsIn]

theorem standsIn_cons (p : PathEntry) (ps l pc) :
    standsIn (p :: ps) l pc ↔ (p.mask.getLsbD l = true ∧ p.pc = pc) ∨ standsIn ps l pc := by
  simp [standsIn]

theorem standsIn_append (ps qs l pc) : standsIn (ps ++ qs) l pc ↔ standsIn ps l pc ∨ standsIn qs l pc := by
  simp only [standsIn, List.mem_append]
  constructor
  · rintro ⟨p, h | h, x⟩
    · exact .inl ⟨p, h, x⟩
    · exact .inr ⟨p, h, x⟩
  · rintro (⟨p, h, x⟩ | ⟨p, h, x⟩)
    · exact ⟨p, .inl h, x⟩
    · exact ⟨p, .inr h, x⟩

/-- Adding an entry, merged or not, adds its lanes at its address and moves no other lane. -/
theorem standsIn_addPath (p : PathEntry) (ps l pc) :
    standsIn (addPath p ps) l pc ↔ (p.mask.getLsbD l = true ∧ p.pc = pc) ∨ standsIn ps l pc := by
  induction ps with
  | nil => simp [addPath, standsIn]
  | cons q r ih =>
    unfold addPath
    split
    · rename_i h
      have hpc : q.pc = p.pc := by
        simp only [PathEntry.meets, Bool.and_eq_true, beq_iff_eq] at h
        exact h.1.1.1
      simp only [standsIn_cons, PathEntry.union, BitVec.getLsbD_or, Bool.or_eq_true, hpc]
      grind
    · simp only [standsIn_cons, ih]
      grind

theorem standsIn_foldl (ps acc l pc) :
    standsIn (ps.foldl (fun a p => addPath p a) acc) l pc ↔ standsIn ps l pc ∨ standsIn acc l pc := by
  induction ps generalizing acc with
  | nil => simp [standsIn]
  | cons p r ih =>
    simp only [List.foldl_cons, ih, standsIn_addPath, standsIn_cons]
    grind

theorem standsIn_filter (ps l pc) : standsIn (ps.filter fun p => p.mask != 0) l pc ↔ standsIn ps l pc := by
  simp only [standsIn, List.mem_filter, bne_iff_ne]
  constructor
  · rintro ⟨p, ⟨h, _⟩, x⟩
    exact ⟨p, h, x⟩
  · rintro ⟨p, h, x⟩
    refine ⟨p, ⟨h, ?_⟩, x⟩
    intro h0
    simp [h0] at x

theorem highestPath_get (ps : List PathEntry) (b k : Nat) (p : PathEntry) (h : highestPath ps b = some (k, p)) :
    b ≤ k ∧ ps[k - b]? = some p := by
  induction ps generalizing b k p with
  | nil => simp [highestPath] at h
  | cons q r ih =>
    simp only [highestPath] at h
    split at h
    · cases h; simp
    · rename_i j x hj
      split at h
      · cases h; simp
      · cases h
        obtain ⟨h1, h2⟩ := ih _ _ _ hj
        refine ⟨by omega, ?_⟩
        rw [show k - b = (k - (b + 1)) + 1 by omega]
        simpa using h2

theorem standsIn_listDrop (ps : List PathEntry) (k : Nat) (p : PathEntry) (h : ps[k]? = some p) (l pc) :
    standsIn ps l pc ↔ (p.mask.getLsbD l = true ∧ p.pc = pc) ∨ standsIn (listDrop ps k) l pc := by
  induction ps generalizing k with
  | nil => simp at h
  | cons q r ih =>
    cases k with
    | zero => simp only [List.getElem?_cons_zero, Option.some.injEq] at h; subst h; simp [listDrop, standsIn_cons]
    | succ k =>
      simp only [List.getElem?_cons_succ] at h
      have := ih k h
      simp only [listDrop, standsIn_cons, this]
      grind

theorem standsIn_balanceOnce (g : Group) (l pc) :
    standsIn (g.balanceOnce.paths ++ g.balanceOnce.spilledPaths) l pc ↔ standsIn (g.paths ++ g.spilledPaths) l pc := by
  unfold Group.balanceOnce
  split
  · split
    · rename_i k p h
      obtain ⟨-, h⟩ := highestPath_get _ _ _ _ h
      have := standsIn_listDrop g.paths k p (by simpa using h) l pc
      simp only [standsIn_append, standsIn_cons, this]
      grind
    · rfl
  · split
    · split
      · rename_i p r h
        simp only [standsIn_append, standsIn_addPath, h, standsIn_cons]
        grind
      · rfl
    · rfl

/-- Settling a path table moves no lane. -/
theorem standsIn_settle (g : Group) (l pc) :
    standsIn (g.settle.paths ++ g.settle.spilledPaths) l pc ↔ standsIn (g.paths ++ g.spilledPaths) l pc := by
  unfold Group.settle
  rw [standsIn_balanceOnce, standsIn_balanceOnce, standsIn_balanceOnce]
  simp only [standsIn_append, standsIn_foldl, standsIn_filter, standsIn_nil, or_false]

/-- Balancing a path table touches only its entries. -/
theorem balanceOnce_eq (g : Group) :
    g.balanceOnce = { g with paths := g.balanceOnce.paths, spilledPaths := g.balanceOnce.spilledPaths } := by
  unfold Group.balanceOnce
  repeat' split
  all_goals rfl

/-- Settling a path table touches only its entries. -/
theorem settle_eq (g : Group) : g.settle = { g with paths := g.settle.paths, spilledPaths := g.settle.spilledPaths } := by
  unfold Group.settle
  rw [balanceOnce_eq (Group.balanceOnce _), balanceOnce_eq (Group.balanceOnce _), balanceOnce_eq]

@[simp] theorem settle_v (g : Group) : g.settle.v = g.v := by rw [settle_eq]
@[simp] theorem settle_s (g : Group) : g.settle.s = g.s := by rw [settle_eq]
@[simp] theorem settle_p (g : Group) : g.settle.p = g.p := by rw [settle_eq]
@[simp] theorem settle_flags (g : Group) : g.settle.flags = g.flags := by rw [settle_eq]
@[simp] theorem settle_rets (g : Group) : g.settle.rets = g.rets := by rw [settle_eq]
@[simp] theorem settle_frames (g : Group) : g.settle.frames = g.frames := by rw [settle_eq]
@[simp] theorem settle_base (g : Group) : g.settle.base = g.base := by rw [settle_eq]
@[simp] theorem settle_loads (g : Group) : g.settle.loads = g.loads := by rw [settle_eq]
@[simp] theorem settle_stores (g : Group) : g.settle.stores = g.stores := by rw [settle_eq]
@[simp] theorem settle_serl (g : Group) : g.settle.serl = g.serl := by rw [settle_eq]
@[simp] theorem settle_state (g : Group) : g.settle.state = g.state := by rw [settle_eq]

/-- An entry that waits on flags meets no other. -/
theorem mem_addPath_self (p : PathEntry) (ps) (h : p.waits ≠ 0) : p ∈ addPath p ps := by
  induction ps with
  | nil => simp [addPath]
  | cons q r ih =>
    unfold addPath
    split
    · rename_i hm
      simp only [PathEntry.meets, Bool.and_eq_true, beq_iff_eq] at hm
      exact absurd hm.1.2 h
    · simp [ih]

theorem mem_addPath_of_mem (q p : PathEntry) (ps) (h : q.waits ≠ 0) (hq : q ∈ ps) : q ∈ addPath p ps := by
  induction ps with
  | nil => simp at hq
  | cons x r ih =>
    unfold addPath
    split
    · rename_i hm
      rcases List.mem_cons.1 hq with rfl | hq
      · simp only [PathEntry.meets, Bool.and_eq_true, beq_iff_eq] at hm
        exact absurd hm.1.1.2 h
      · simp [hq]
    · rcases List.mem_cons.1 hq with rfl | hq
      · simp
      · simp [ih hq]

theorem mem_foldl_addPath (q : PathEntry) (ps acc : List PathEntry) (h : q.waits ≠ 0) (hq : q ∈ ps ∨ q ∈ acc) :
    q ∈ ps.foldl (fun a p => addPath p a) acc := by
  induction ps generalizing acc with
  | nil => simpa using hq
  | cons p r ih =>
    apply ih
    rcases hq with hq | hq
    · rcases List.mem_cons.1 hq with rfl | hq
      · exact .inr (mem_addPath_self _ _ h)
      · exact .inl hq
    · exact .inr (mem_addPath_of_mem _ _ _ h hq)

theorem mem_listDrop_or (ps : List PathEntry) (k : Nat) (p q : PathEntry) (h : ps[k]? = some p) (hq : q ∈ ps) :
    q = p ∨ q ∈ listDrop ps k := by
  induction ps generalizing k with
  | nil => simp at hq
  | cons x r ih =>
    cases k with
    | zero =>
      simp only [List.getElem?_cons_zero, Option.some.injEq] at h
      subst h
      simpa [listDrop] using hq
    | succ k =>
      rcases List.mem_cons.1 hq with rfl | hq
      · exact .inr (by simp [listDrop])
      · rcases ih k (by simpa using h) hq with h | h
        · exact .inl h
        · exact .inr (by simp [listDrop, h])

theorem mem_balanceOnce (g : Group) (q : PathEntry) (h : q.waits ≠ 0) (hq : q ∈ g.paths ++ g.spilledPaths) :
    q ∈ g.balanceOnce.paths ++ g.balanceOnce.spilledPaths := by
  unfold Group.balanceOnce
  split
  · split
    · rename_i k p hk
      obtain ⟨-, hk⟩ := highestPath_get _ _ _ _ hk
      rcases List.mem_append.1 hq with hq | hq
      · rcases mem_listDrop_or _ _ _ _ hk hq with rfl | hq
        · simp
        · simp at hq ⊢; grind
      · simp [hq]
    · exact hq
  · split
    · split
      · rename_i p r hr
        rw [hr] at hq
        rcases List.mem_append.1 hq with hq | hq
        · simp [mem_addPath_of_mem _ _ _ h hq]
        · rcases List.mem_cons.1 hq with rfl | hq
          · simp [mem_addPath_self _ _ h]
          · simp [hq]
      · exact hq
    · exact hq

/-- An entry that waits on flags stays in the table, or is spilled. -/
theorem mem_settle (g : Group) (q : PathEntry) (h : q.waits ≠ 0) (hm : q.mask ≠ 0) (hq : q ∈ g.paths ++ g.spilledPaths) :
    q ∈ g.settle.paths ++ g.settle.spilledPaths := by
  unfold Group.settle
  refine mem_balanceOnce _ _ h (mem_balanceOnce _ _ h (mem_balanceOnce _ _ h ?_))
  rcases List.mem_append.1 hq with hq | hq
  · exact List.mem_append.2 (.inl (mem_foldl_addPath _ _ _ h (.inl (by simpa [hq] using hm))))
  · exact List.mem_append.2 (.inr hq)

end Sys2Proof.Machine
end

