-- ==== Sys2Proof/Laws/Control.lean ====
section
/-! SUPPORT. What leaving the active path for a target does: the lanes, the registers, and the state around the group. -/

namespace Sys2Proof.Machine

/-- Taking a branch changes the state at most in the loop buffers of the issuing core. -/
theorem takeLoop_state (e : Env) (s : State) (target : BitVec 64) :
    (e.takeLoop s target).2 = s ∨ ∃ l, (e.takeLoop s target).2 = s.modCore e.core fun c => { c with loops := l } := by
  unfold Env.takeLoop
  simp only
  split
  · split
    · exact .inl rfl
    · split
      · rename_i ws h
        refine .inr ⟨?_, ?_⟩
        rotate_left
        · simp only [State.modCore]
          rfl
      · exact .inl rfl
  · split <;> exact .inl rfl

theorem lowestPath_get (ps : List PathEntry) (b k : Nat) (p : PathEntry) (h : lowestPath ps b = some (k, p)) :
    b ≤ k ∧ ps[k - b]? = some p ∧ p.runnable = true := by
  induction ps generalizing b k p with
  | nil => simp [lowestPath] at h
  | cons q r ih =>
    simp only [lowestPath] at h
    split at h
    · split at h
      · cases h; simpa
      · cases h
    · rename_i j x hj
      split at h
      · rename_i hq
        cases h
        simp only [Bool.and_eq_true] at hq
        simp [hq.1]
      · cases h
        obtain ⟨h1, h2, h3⟩ := ih _ _ _ hj
        refine ⟨by omega, ?_, h3⟩
        rw [show k - b = (k - (b + 1)) + 1 by omega]
        simpa using h2

/-- A path at a position: the entry of the path table, or the pass of the serialising path. -/
def Group.At (g : Group) (sel : Option Nat) (p : PathEntry) : Prop :=
  (∀ k, sel = some k → g.paths[k]? = some p) ∧ (sel = none → ∃ z, g.serl = some z ∧ z.path = p)

theorem lowestPath_at (g : Group) (sel : Option Nat) (p : PathEntry)
    (h : ((lowestPath g.paths 0).map fun e => (some e.1, e.2)) = some (sel, p)) : g.At sel p := by
  simp only [Option.map_eq_some_iff, Prod.mk.injEq] at h
  obtain ⟨⟨k, q⟩, h, rfl, rfl⟩ := h
  obtain ⟨-, h, -⟩ := lowestPath_get _ _ _ _ h
  exact ⟨fun j hj => by simp only [Option.some.injEq] at hj; subst hj; simpa using h, fun hk => (nomatch hk)⟩

theorem nextPath_at (g : Group) (sel : Option Nat) (p : PathEntry) (h : g.nextPath = some (sel, p)) : g.At sel p := by
  unfold Group.nextPath at h
  split at h
  · rename_i z hz
    split at h
    · exact lowestPath_at g sel p h
    · cases h
      exact ⟨fun _ hk => (nomatch hk), fun _ => ⟨z, hz, rfl⟩⟩
  · exact lowestPath_at g sel p h

theorem heldPath_at (g : Group) (sel : Option Nat) (p : PathEntry) (h : g.heldPath = some (sel, p)) : g.At sel p := by
  unfold Group.heldPath at h
  split at h
  · simp only [Option.map_eq_some_iff, Prod.mk.injEq] at h
    obtain ⟨z, hz, rfl, rfl⟩ := h
    exact ⟨fun _ hk => (nomatch hk), fun _ => ⟨z, hz, rfl⟩⟩
  · rename_i k _
    simp only [Option.map_eq_some_iff, Prod.mk.injEq] at h
    obtain ⟨q, hq, rfl, rfl⟩ := h
    exact ⟨fun j hj => by cases hj; exact hq, fun hk => (nomatch hk)⟩
  · cases h

/-- The active path stands where its position says. -/
theorem active_at (g : Group) (sel : Option Nat) (p : PathEntry) (h : g.active = some (sel, p)) : g.At sel p := by
  unfold Group.active at h
  split at h
  · rename_i x hx
    cases h
    exact heldPath_at g sel p hx
  · exact nextPath_at g sel p h

/-- The issuer's path stands in its group, which is Ready. -/
theorem env_at (s : State) (e : Env) (h : s.env = some e) : e.grp.At e.sel e.path ∧ e.grp.state = .ready := by
  unfold State.env at h
  split at h
  · split at h
    · split at h
      · split at h
        · rename_i hc
          split at h
          · rename_i ha
            cases h
            simp only [GroupState.canIssue, Bool.and_eq_true, beq_iff_eq] at hc
            have hp := active_at _ _ _ ha
            exact ⟨hp, hc.1⟩
          · cases h
        · cases h
      · cases h
    · cases h
  · simp only at h
    split at h
    · rename_i hc
      split at h
      · rename_i ha
        cases h
        simp only [GroupState.canIssue, Bool.and_eq_true, beq_iff_eq] at hc
        have hp := active_at _ _ _ ha
        exact ⟨hp, hc.1⟩
      · cases h
    · cases h
  · cases h

/-- The lanes of a group whose entry at a position is replaced. -/
theorem standsIn_listModify (ps : List PathEntry) (k : Nat) (p q : PathEntry) (h : ps[k]? = some p) (l pc) :
    standsIn (listModify ps k fun _ => q) l pc ↔ (q.mask.getLsbD l = true ∧ q.pc = pc) ∨ standsIn (listDrop ps k) l pc := by
  induction ps generalizing k with
  | nil => simp at h
  | cons x r ih =>
    cases k with
    | zero => simp [listModify, listDrop, standsIn_cons]
    | succ k =>
      simp only [List.getElem?_cons_succ] at h
      simp only [listModify, listDrop, standsIn_cons, ih k h]
      grind

/-- Parking changes only the state. -/
theorem park_eq (g : Group) : g.park = { g with state := g.park.state } := by
  unfold Group.park
  split <;> rfl

/-- Where the lanes of a group stand after its active path's entry is replaced by one or two others, the other entries kept. -/
theorem standsIn_setPath (g : Group) (sel : Option Nat) (p q : PathEntry) (h : g.At sel p) (k : Nat) (hk : sel = some k)
    (l pc) :
    standsIn ((g.setPath sel q).paths ++ (g.setPath sel q).spilledPaths) l pc
      ↔ (q.mask.getLsbD l = true ∧ q.pc = pc) ∨ standsIn (listDrop g.paths k ++ g.spilledPaths) l pc := by
  have h1 := h.1 k hk
  subst hk
  simp only [Group.setPath, standsIn_append, standsIn_listModify _ _ _ _ h1]
  grind

-- ## Settling keeps the spill stack in bounds

theorem settle_park (g : Group) :
    g.settle.park = { g with paths := g.settle.paths, spilledPaths := g.settle.spilledPaths, state := g.settle.park.state } := by
  rw [park_eq, settle_eq]

theorem length_balanceOnce (g : Group) : g.balanceOnce.spilledPaths.length ≤ g.spilledPaths.length + 1 := by
  unfold Group.balanceOnce
  repeat' split
  all_goals simp_all
  omega

/-- Settling spills three entries at most. -/
theorem length_settle (g : Group) : g.settle.spilledPaths.length ≤ g.spilledPaths.length + 3 := by
  unfold Group.settle
  refine Nat.le_trans (length_balanceOnce _) ?_
  refine Nat.le_trans (Nat.add_le_add_right (length_balanceOnce _) 1) ?_
  exact Nat.add_le_add_right (Nat.add_le_add_right (length_balanceOnce _) 1) 1

end Sys2Proof.Machine
end

