-- ==== Sys2Proof/Laws/Sparse.lean ====
section
/-! SUPPORT. What the operations over keyed data do: reading after a write, and the canonical form that every write keeps. -/

namespace Sys2Proof.Machine

-- ## Sparse: reading after a write

theorem Sparse.get_insert_self {w : Nat} (m : Sparse w) (k : Nat) (v : BitVec w) : Sparse.get (Sparse.insert m k v) k = v := by
  induction m with
  | nil => simp [Sparse.insert, Sparse.get]
  | cons e r ih =>
    obtain ⟨a, x⟩ := e
    simp only [Sparse.insert]
    split
    · simp [Sparse.get]
    · split
      · simp [Sparse.get]
      · rename_i h1 h2
        simp [Sparse.get, Ne.symm h2, ih]

theorem Sparse.get_insert_other {w : Nat} (m : Sparse w) {k j : Nat} (v : BitVec w) (h : j ≠ k) :
    Sparse.get (Sparse.insert m k v) j = Sparse.get m j := by
  induction m with
  | nil => simp [Sparse.insert, Sparse.get, Ne.symm h]
  | cons e r ih =>
    obtain ⟨a, x⟩ := e
    simp only [Sparse.insert]
    split
    · simp [Sparse.get, Ne.symm h]
    · split
      · rename_i h2
        subst h2
        simp [Sparse.get, Ne.symm h]
      · simp [Sparse.get, ih]

theorem Sparse.get_filter_key {w : Nat} (m : Sparse w) (p : Nat → Bool) (j : Nat) :
    Sparse.get (m.filter fun e => p e.1) j = if p j then Sparse.get m j else 0#w := by
  induction m with
  | nil => simp [Sparse.get]
  | cons e r ih =>
    obtain ⟨a, x⟩ := e
    by_cases hp : p a
    · simp only [List.filter_cons, hp, if_true, Sparse.get, ih]
      split
      · rename_i h
        subst h
        simp [hp]
      · rfl
    · simp only [List.filter_cons, hp, Bool.false_eq_true, if_false, ih, Sparse.get]
      split
      · rename_i h1
        split
        · rename_i h2
          subst h2
          simp_all
        · rfl
      · rfl

/-- Reading the key just written gives the value. -/
theorem Sparse.get_set_self {w : Nat} (m : Sparse w) (k : Nat) (v : BitVec w) : Sparse.get (Sparse.set m k v) k = v := by
  unfold Sparse.set
  split
  · rename_i h
    rw [Sparse.get_filter_key m (fun a => a != k) k]
    simp [h]
  · exact Sparse.get_insert_self m k v

/-- A write leaves every other key alone. -/
theorem Sparse.get_set_other {w : Nat} (m : Sparse w) {k j : Nat} (v : BitVec w) (h : j ≠ k) :
    Sparse.get (Sparse.set m k v) j = Sparse.get m j := by
  unfold Sparse.set
  split
  · rw [Sparse.get_filter_key m (fun a => a != k) j]
    simp [h]
  · exact Sparse.get_insert_other m v h

theorem Sparse.get_set {w : Nat} (m : Sparse w) (k j : Nat) (v : BitVec w) :
    Sparse.get (Sparse.set m k v) j = if j = k then v else Sparse.get m j := by
  split
  · rename_i h
    subst h
    exact Sparse.get_set_self m j v
  · rename_i h
    exact Sparse.get_set_other m v h

/-- Clearing a range makes it read 0 and leaves the rest. -/
theorem Sparse.get_clear {w : Nat} (m : Sparse w) (lo n j : Nat) :
    Sparse.get (Sparse.clear m lo n) j = if j < lo ∨ lo + n ≤ j then Sparse.get m j else 0#w := by
  unfold Sparse.clear
  rw [Sparse.get_filter_key m (fun a => decide (a < lo) || decide (lo + n ≤ a)) j]
  simp [Bool.or_eq_true]

-- ## Sparse: the canonical form

/-- The canonical form as a fact about the list: keys strictly rising, no value 0. -/
theorem Sparse.wf_iff {w : Nat} (m : Sparse w) :
    Sparse.wf m = true ↔ m.Pairwise (fun a b => a.1 < b.1) ∧ ∀ e ∈ m, e.2 ≠ 0#w := by
  induction m with
  | nil => simp [Sparse.wf]
  | cons e r ih =>
    obtain ⟨a, x⟩ := e
    cases r with
    | nil => simp [Sparse.wf]
    | cons f r =>
      obtain ⟨b, y⟩ := f
      simp only [Sparse.wf, Bool.and_eq_true, bne_iff_ne, decide_eq_true_eq, ih]
      constructor
      · rintro ⟨⟨h1, h2⟩, h3, h4⟩
        refine ⟨?_, ?_⟩
        · rw [List.pairwise_cons]
          refine ⟨?_, h3⟩
          intro c hc
          rcases List.mem_cons.mp hc with rfl | hc
          · exact h2
          · exact Nat.lt_trans h2 ((List.pairwise_cons.mp h3).1 c hc)
        · intro c hc
          rcases List.mem_cons.mp hc with rfl | hc
          · exact h1
          · exact h4 c hc
      · rintro ⟨h1, h2⟩
        rw [List.pairwise_cons] at h1
        exact ⟨⟨h2 (a, x) (by simp), h1.1 (b, y) (by simp)⟩, h1.2, fun c hc => h2 c (List.mem_cons_of_mem _ hc)⟩

theorem Sparse.wf_filter {w : Nat} {m : Sparse w} (p : Nat × BitVec w → Bool) (h : Sparse.wf m = true) :
    Sparse.wf (m.filter p) = true := by
  rw [Sparse.wf_iff] at h ⊢
  exact ⟨h.1.filter p, fun e he => h.2 e (List.mem_filter.mp he).1⟩

theorem Sparse.mem_insert {w : Nat} {m : Sparse w} {k : Nat} {v : BitVec w} {e : Nat × BitVec w}
    (h : e ∈ Sparse.insert m k v) : e = (k, v) ∨ e ∈ m := by
  induction m with
  | nil => simpa [Sparse.insert] using h
  | cons f r ih =>
    obtain ⟨a, x⟩ := f
    simp only [Sparse.insert] at h
    split at h
    · simpa using h
    · split at h
      · rcases List.mem_cons.mp h with h | h
        · exact .inl h
        · exact .inr (by simp [h])
      · rcases List.mem_cons.mp h with h | h
        · exact .inr (by simp [h])
        · rcases ih h with h | h
          · exact .inl h
          · exact .inr (by simp [h])

theorem Sparse.wf_insert {w : Nat} {m : Sparse w} (k : Nat) {v : BitVec w} (hv : v ≠ 0#w) (h : Sparse.wf m = true) :
    Sparse.wf (Sparse.insert m k v) = true := by
  rw [Sparse.wf_iff] at h ⊢
  refine ⟨?_, ?_⟩
  · induction m with
    | nil => simp [Sparse.insert]
    | cons f r ih =>
      obtain ⟨a, x⟩ := f
      have hr := List.pairwise_cons.mp h.1
      simp only [Sparse.insert]
      split
      · rename_i hk
        rw [List.pairwise_cons]
        refine ⟨?_, h.1⟩
        intro c hc
        rcases List.mem_cons.mp hc with rfl | hc
        · exact hk
        · exact Nat.lt_trans hk (hr.1 c hc)
      · split
        · rename_i hk
          subst hk
          rw [List.pairwise_cons]
          exact ⟨hr.1, hr.2⟩
        · rename_i h1 h2
          rw [List.pairwise_cons]
          refine ⟨?_, ih ⟨hr.2, fun e he => h.2 e (by simp [he])⟩⟩
          intro c hc
          rcases Sparse.mem_insert hc with rfl | hc
          · show a < k
            omega
          · exact hr.1 c hc
  · intro e he
    rcases Sparse.mem_insert he with rfl | he
    · exact hv
    · exact h.2 e he

/-- A write keeps the canonical form. -/
theorem Sparse.wf_set {w : Nat} {m : Sparse w} (k : Nat) (v : BitVec w) (h : Sparse.wf m = true) :
    Sparse.wf (Sparse.set m k v) = true := by
  unfold Sparse.set
  split
  · exact Sparse.wf_filter _ h
  · rename_i hv
    exact Sparse.wf_insert k hv h

theorem Sparse.wf_clear {w : Nat} {m : Sparse w} (lo n : Nat) (h : Sparse.wf m = true) : Sparse.wf (Sparse.clear m lo n) = true :=
  Sparse.wf_filter _ h

/-- Writing a list of values one by one keeps the canonical form. -/
theorem Sparse.wf_foldl_set {w : Nat} {α : Type} (l : List α) (key : α → Nat) (val : α → BitVec w) {m : Sparse w}
    (h : Sparse.wf m = true) : Sparse.wf (l.foldl (fun m e => Sparse.set m (key e) (val e)) m) = true := by
  induction l generalizing m with
  | nil => exact h
  | cons e r ih => exact ih (Sparse.wf_set _ _ h)

-- ## Table

theorem Table.find_put_self {α : Type} (t : Table α) (k : Nat) (x : α) : Table.find (Table.put t k x) k = some x := by
  induction t with
  | nil => simp [Table.put, Table.find]
  | cons e r ih =>
    obtain ⟨a, y⟩ := e
    simp only [Table.put]
    split
    · simp [Table.find]
    · split
      · simp [Table.find]
      · rename_i h1 h2
        simp [Table.find, Ne.symm h2, ih]

theorem Table.find_put_other {α : Type} (t : Table α) {k j : Nat} (x : α) (h : j ≠ k) :
    Table.find (Table.put t k x) j = Table.find t j := by
  induction t with
  | nil => simp [Table.put, Table.find, Ne.symm h]
  | cons e r ih =>
    obtain ⟨a, y⟩ := e
    simp only [Table.put]
    split
    · simp [Table.find, Ne.symm h]
    · split
      · rename_i h2
        subst h2
        simp [Table.find, Ne.symm h]
      · simp [Table.find, ih]

theorem Table.find_modify {α : Type} (t : Table α) (k j : Nat) (f : α → α) :
    Table.find (Table.modify t k f) j = if j = k then (Table.find t j).map f else Table.find t j := by
  induction t with
  | nil => simp [Table.modify, Table.find]
  | cons e r ih =>
    obtain ⟨a, y⟩ := e
    simp only [Table.modify, List.map_cons] at ih ⊢
    by_cases ha : a = k
    · subst ha
      by_cases hj : a = j
      · subst hj
        simp [Table.find]
      · simp [Table.find, hj, Ne.symm hj, ih]
    · by_cases hj : a = j
      · subst hj
        simp [Table.find, ha]
      · simp [Table.find, ha, hj, ih]

/-- Reading a record just put. -/
theorem Table.getD_put_self {α : Type} (t : Table α) (k : Nat) (x d : α) : Table.getD (Table.put t k x) k d = x := by
  simp [Table.getD, Table.find_put_self]

/-- Putting a record leaves every other key alone. -/
theorem Table.getD_put_other {α : Type} (t : Table α) {k j : Nat} (x d : α) (h : j ≠ k) :
    Table.getD (Table.put t k x) j d = Table.getD t j d := by
  simp [Table.getD, Table.find_put_other t x h]

-- ## Lists

theorem getElem?_listModify {α : Type} (l : List α) (i j : Nat) (f : α → α) :
    (listModify l i f)[j]? = if j = i then l[j]?.map f else l[j]? := by
  induction l generalizing i j with
  | nil => simp [listModify]
  | cons x r ih =>
    cases i with
    | zero =>
      cases j with
      | zero => simp [listModify]
      | succ j => simp [listModify]
    | succ i =>
      cases j with
      | zero => simp [listModify]
      | succ j => simp [listModify, ih]

theorem length_listModify {α : Type} (l : List α) (i : Nat) (f : α → α) : (listModify l i f).length = l.length := by
  induction l generalizing i with
  | nil => rfl
  | cons x r ih =>
    cases i with
    | zero => rfl
    | succ i => simp [listModify, ih]

end Sys2Proof.Machine
end

