-- ==== Sys2Proof/Laws/State.lean ====
section
/-! SUPPORT. What each update of a record of State leaves alone, field by field, and what it gives the record. -/

namespace Sys2Proof.Machine

-- ## modCore

@[simp] theorem State.modCore_turns (s : State) (c : Nat) (f : Core → Core) : (s.modCore c f).turns = s.turns := rfl
@[simp] theorem State.modCore_round (s : State) (c : Nat) (f : Core → Core) : (s.modCore c f).round = s.round := rfl
@[simp] theorem State.modCore_taken (s : State) (c : Nat) (f : Core → Core) : (s.modCore c f).taken = s.taken := rfl
@[simp] theorem State.modCore_choices (s : State) (c : Nat) (f : Core → Core) : (s.modCore c f).choices = s.choices := rfl
@[simp] theorem State.modCore_cur (s : State) (c : Nat) (f : Core → Core) : (s.modCore c f).cur = s.cur := rfl
@[simp] theorem State.modCore_cycle (s : State) (c : Nat) (f : Core → Core) : (s.modCore c f).cycle = s.cycle := rfl
@[simp] theorem State.modCore_mem (s : State) (c : Nat) (f : Core → Core) : (s.modCore c f).mem = s.mem := rfl
@[simp] theorem State.modCore_scratch (s : State) (c : Nat) (f : Core → Core) : (s.modCore c f).scratch = s.scratch := rfl
@[simp] theorem State.modCore_blurs (s : State) (c : Nat) (f : Core → Core) : (s.modCore c f).blurs = s.blurs := rfl
@[simp] theorem State.modCore_history (s : State) (c : Nat) (f : Core → Core) : (s.modCore c f).history = s.history := rfl
@[simp] theorem State.modCore_stamp (s : State) (c : Nat) (f : Core → Core) : (s.modCore c f).stamp = s.stamp := rfl
@[simp] theorem State.modCore_arrivals (s : State) (c : Nat) (f : Core → Core) : (s.modCore c f).arrivals = s.arrivals := rfl
@[simp] theorem State.modCore_left (s : State) (c : Nat) (f : Core → Core) : (s.modCore c f).left = s.left := rfl
@[simp] theorem State.modCore_dieTlb (s : State) (c : Nat) (f : Core → Core) : (s.modCore c f).dieTlb = s.dieTlb := rfl
@[simp] theorem State.modCore_poison (s : State) (c : Nat) (f : Core → Core) : (s.modCore c f).poison = s.poison := rfl
@[simp] theorem State.modCore_tables (s : State) (c : Nat) (f : Core → Core) : (s.modCore c f).tables = s.tables := rfl
@[simp] theorem State.modCore_shadows (s : State) (c : Nat) (f : Core → Core) : (s.modCore c f).shadows = s.shadows := rfl
@[simp] theorem State.modCore_committed (s : State) (c : Nat) (f : Core → Core) : (s.modCore c f).committed = s.committed := rfl
@[simp] theorem State.modCore_launches (s : State) (c : Nat) (f : Core → Core) : (s.modCore c f).launches = s.launches := rfl
@[simp] theorem State.modCore_grids (s : State) (c : Nat) (f : Core → Core) : (s.modCore c f).grids = s.grids := rfl
@[simp] theorem State.modCore_teams (s : State) (c : Nat) (f : Core → Core) : (s.modCore c f).teams = s.teams := rfl
@[simp] theorem State.modCore_contexts (s : State) (c : Nat) (f : Core → Core) : (s.modCore c f).contexts = s.contexts := rfl
@[simp] theorem State.modCore_queues (s : State) (c : Nat) (f : Core → Core) : (s.modCore c f).queues = s.queues := rfl
@[simp] theorem State.modCore_lastUsed (s : State) (c : Nat) (f : Core → Core) : (s.modCore c f).lastUsed = s.lastUsed := rfl
@[simp] theorem State.modCore_devQueues (s : State) (c : Nat) (f : Core → Core) : (s.modCore c f).devQueues = s.devQueues := rfl
@[simp] theorem State.modCore_lastTag (s : State) (c : Nat) (f : Core → Core) : (s.modCore c f).lastTag = s.lastTag := rfl
@[simp] theorem State.modCore_commits (s : State) (c : Nat) (f : Core → Core) : (s.modCore c f).commits = s.commits := rfl
@[simp] theorem State.modCore_tickets (s : State) (c : Nat) (f : Core → Core) : (s.modCore c f).tickets = s.tickets := rfl
@[simp] theorem State.modCore_pending (s : State) (c : Nat) (f : Core → Core) : (s.modCore c f).pending = s.pending := rfl
@[simp] theorem State.modCore_lastSource (s : State) (c : Nat) (f : Core → Core) : (s.modCore c f).lastSource = s.lastSource := rfl
@[simp] theorem State.modCore_nextId (s : State) (c : Nat) (f : Core → Core) : (s.modCore c f).nextId = s.nextId := rfl
@[simp] theorem State.modCore_queries (s : State) (c : Nat) (f : Core → Core) : (s.modCore c f).queries = s.queries := rfl
@[simp] theorem State.modCore_colls (s : State) (c : Nat) (f : Core → Core) : (s.modCore c f).colls = s.colls := rfl
@[simp] theorem State.modCore_shootdowns (s : State) (c : Nat) (f : Core → Core) : (s.modCore c f).shootdowns = s.shootdowns := rfl
@[simp] theorem State.modCore_moves (s : State) (c : Nat) (f : Core → Core) : (s.modCore c f).moves = s.moves := rfl
@[simp] theorem State.modCore_oldBlocks (s : State) (c : Nat) (f : Core → Core) : (s.modCore c f).oldBlocks = s.oldBlocks := rfl
@[simp] theorem State.modCore_sweeps (s : State) (c : Nat) (f : Core → Core) : (s.modCore c f).sweeps = s.sweeps := rfl
@[simp] theorem State.modCore_ready (s : State) (c : Nat) (f : Core → Core) : (s.modCore c f).ready = s.ready := rfl
@[simp] theorem State.modCore_recov (s : State) (c : Nat) (f : Core → Core) : (s.modCore c f).recov = s.recov := rfl
@[simp] theorem State.modCore_stage (s : State) (c : Nat) (f : Core → Core) : (s.modCore c f).stage = s.stage := rfl
@[simp] theorem State.modCore_err (s : State) (c : Nat) (f : Core → Core) : (s.modCore c f).err = s.err := rfl
@[simp] theorem State.modCore_nrbBase (s : State) (c : Nat) (f : Core → Core) : (s.modCore c f).nrbBase = s.nrbBase := rfl
@[simp] theorem State.modCore_nrbOvf (s : State) (c : Nat) (f : Core → Core) : (s.modCore c f).nrbOvf = s.nrbOvf := rfl
@[simp] theorem State.modCore_nrbEn (s : State) (c : Nat) (f : Core → Core) : (s.modCore c f).nrbEn = s.nrbEn := rfl
@[simp] theorem State.modCore_nrw (s : State) (c : Nat) (f : Core → Core) : (s.modCore c f).nrw = s.nrw := rfl
@[simp] theorem State.modCore_nrr (s : State) (c : Nat) (f : Core → Core) : (s.modCore c f).nrr = s.nrr := rfl
@[simp] theorem State.modCore_nonce (s : State) (c : Nat) (f : Core → Core) : (s.modCore c f).nonce = s.nonce := rfl
@[simp] theorem State.modCore_attestAddr (s : State) (c : Nat) (f : Core → Core) : (s.modCore c f).attestAddr = s.attestAddr := rfl
@[simp] theorem State.modCore_attesting (s : State) (c : Nat) (f : Core → Core) : (s.modCore c f).attesting = s.attesting := rfl
@[simp] theorem State.modCore_upload (s : State) (c : Nat) (f : Core → Core) : (s.modCore c f).upload = s.upload := rfl
@[simp] theorem State.modCore_interrupts (s : State) (c : Nat) (f : Core → Core) : (s.modCore c f).interrupts = s.interrupts := rfl
@[simp] theorem State.modCore_hostData (s : State) (c : Nat) (f : Core → Core) : (s.modCore c f).hostData = s.hostData := rfl
@[simp] theorem State.modCore_flash (s : State) (c : Nat) (f : Core → Core) : (s.modCore c f).flash = s.flash := rfl
@[simp] theorem State.modCore_peer (s : State) (c : Nat) (f : Core → Core) : (s.modCore c f).peer = s.peer := rfl
@[simp] theorem State.modCore_routes (s : State) (c : Nat) (f : Core → Core) : (s.modCore c f).routes = s.routes := rfl
@[simp] theorem State.modCore_failedLinks (s : State) (c : Nat) (f : Core → Core) : (s.modCore c f).failedLinks = s.failedLinks := rfl
@[simp] theorem State.modCore_tier2Sizes (s : State) (c : Nat) (f : Core → Core) : (s.modCore c f).tier2Sizes = s.tier2Sizes := rfl
@[simp] theorem State.modCore_tier2Failed (s : State) (c : Nat) (f : Core → Core) : (s.modCore c f).tier2Failed = s.tier2Failed := rfl
@[simp] theorem State.modCore_nextStart (s : State) (c : Nat) (f : Core → Core) : (s.modCore c f).nextStart = s.nextStart := rfl
@[simp] theorem State.modCore_wakeFrom (s : State) (c : Nat) (f : Core → Core) : (s.modCore c f).wakeFrom = s.wakeFrom := rfl
@[simp] theorem State.modCore_wakes (s : State) (c : Nat) (f : Core → Core) : (s.modCore c f).wakes = s.wakes := rfl

-- ## modContext

@[simp] theorem State.modContext_turns (s : State) (x : Nat) (f : Context → Context) : (s.modContext x f).turns = s.turns := rfl
@[simp] theorem State.modContext_round (s : State) (x : Nat) (f : Context → Context) : (s.modContext x f).round = s.round := rfl
@[simp] theorem State.modContext_taken (s : State) (x : Nat) (f : Context → Context) : (s.modContext x f).taken = s.taken := rfl
@[simp] theorem State.modContext_choices (s : State) (x : Nat) (f : Context → Context) : (s.modContext x f).choices = s.choices := rfl
@[simp] theorem State.modContext_cur (s : State) (x : Nat) (f : Context → Context) : (s.modContext x f).cur = s.cur := rfl
@[simp] theorem State.modContext_cycle (s : State) (x : Nat) (f : Context → Context) : (s.modContext x f).cycle = s.cycle := rfl
@[simp] theorem State.modContext_mem (s : State) (x : Nat) (f : Context → Context) : (s.modContext x f).mem = s.mem := rfl
@[simp] theorem State.modContext_scratch (s : State) (x : Nat) (f : Context → Context) : (s.modContext x f).scratch = s.scratch := rfl
@[simp] theorem State.modContext_blurs (s : State) (x : Nat) (f : Context → Context) : (s.modContext x f).blurs = s.blurs := rfl
@[simp] theorem State.modContext_history (s : State) (x : Nat) (f : Context → Context) : (s.modContext x f).history = s.history := rfl
@[simp] theorem State.modContext_stamp (s : State) (x : Nat) (f : Context → Context) : (s.modContext x f).stamp = s.stamp := rfl
@[simp] theorem State.modContext_arrivals (s : State) (x : Nat) (f : Context → Context) : (s.modContext x f).arrivals = s.arrivals := rfl
@[simp] theorem State.modContext_left (s : State) (x : Nat) (f : Context → Context) : (s.modContext x f).left = s.left := rfl
@[simp] theorem State.modContext_dieTlb (s : State) (x : Nat) (f : Context → Context) : (s.modContext x f).dieTlb = s.dieTlb := rfl
@[simp] theorem State.modContext_poison (s : State) (x : Nat) (f : Context → Context) : (s.modContext x f).poison = s.poison := rfl
@[simp] theorem State.modContext_tables (s : State) (x : Nat) (f : Context → Context) : (s.modContext x f).tables = s.tables := rfl
@[simp] theorem State.modContext_shadows (s : State) (x : Nat) (f : Context → Context) : (s.modContext x f).shadows = s.shadows := rfl
@[simp] theorem State.modContext_committed (s : State) (x : Nat) (f : Context → Context) : (s.modContext x f).committed = s.committed := rfl
@[simp] theorem State.modContext_launches (s : State) (x : Nat) (f : Context → Context) : (s.modContext x f).launches = s.launches := rfl
@[simp] theorem State.modContext_grids (s : State) (x : Nat) (f : Context → Context) : (s.modContext x f).grids = s.grids := rfl
@[simp] theorem State.modContext_teams (s : State) (x : Nat) (f : Context → Context) : (s.modContext x f).teams = s.teams := rfl
@[simp] theorem State.modContext_cores (s : State) (x : Nat) (f : Context → Context) : (s.modContext x f).cores = s.cores := rfl
@[simp] theorem State.modContext_queues (s : State) (x : Nat) (f : Context → Context) : (s.modContext x f).queues = s.queues := rfl
@[simp] theorem State.modContext_lastUsed (s : State) (x : Nat) (f : Context → Context) : (s.modContext x f).lastUsed = s.lastUsed := rfl
@[simp] theorem State.modContext_devQueues (s : State) (x : Nat) (f : Context → Context) : (s.modContext x f).devQueues = s.devQueues := rfl
@[simp] theorem State.modContext_lastTag (s : State) (x : Nat) (f : Context → Context) : (s.modContext x f).lastTag = s.lastTag := rfl
@[simp] theorem State.modContext_commits (s : State) (x : Nat) (f : Context → Context) : (s.modContext x f).commits = s.commits := rfl
@[simp] theorem State.modContext_tickets (s : State) (x : Nat) (f : Context → Context) : (s.modContext x f).tickets = s.tickets := rfl
@[simp] theorem State.modContext_pending (s : State) (x : Nat) (f : Context → Context) : (s.modContext x f).pending = s.pending := rfl
@[simp] theorem State.modContext_lastSource (s : State) (x : Nat) (f : Context → Context) : (s.modContext x f).lastSource = s.lastSource := rfl
@[simp] theorem State.modContext_nextId (s : State) (x : Nat) (f : Context → Context) : (s.modContext x f).nextId = s.nextId := rfl
@[simp] theorem State.modContext_queries (s : State) (x : Nat) (f : Context → Context) : (s.modContext x f).queries = s.queries := rfl
@[simp] theorem State.modContext_colls (s : State) (x : Nat) (f : Context → Context) : (s.modContext x f).colls = s.colls := rfl
@[simp] theorem State.modContext_shootdowns (s : State) (x : Nat) (f : Context → Context) : (s.modContext x f).shootdowns = s.shootdowns := rfl
@[simp] theorem State.modContext_moves (s : State) (x : Nat) (f : Context → Context) : (s.modContext x f).moves = s.moves := rfl
@[simp] theorem State.modContext_oldBlocks (s : State) (x : Nat) (f : Context → Context) : (s.modContext x f).oldBlocks = s.oldBlocks := rfl
@[simp] theorem State.modContext_sweeps (s : State) (x : Nat) (f : Context → Context) : (s.modContext x f).sweeps = s.sweeps := rfl
@[simp] theorem State.modContext_ready (s : State) (x : Nat) (f : Context → Context) : (s.modContext x f).ready = s.ready := rfl
@[simp] theorem State.modContext_recov (s : State) (x : Nat) (f : Context → Context) : (s.modContext x f).recov = s.recov := rfl
@[simp] theorem State.modContext_stage (s : State) (x : Nat) (f : Context → Context) : (s.modContext x f).stage = s.stage := rfl
@[simp] theorem State.modContext_err (s : State) (x : Nat) (f : Context → Context) : (s.modContext x f).err = s.err := rfl
@[simp] theorem State.modContext_nrbBase (s : State) (x : Nat) (f : Context → Context) : (s.modContext x f).nrbBase = s.nrbBase := rfl
@[simp] theorem State.modContext_nrbOvf (s : State) (x : Nat) (f : Context → Context) : (s.modContext x f).nrbOvf = s.nrbOvf := rfl
@[simp] theorem State.modContext_nrbEn (s : State) (x : Nat) (f : Context → Context) : (s.modContext x f).nrbEn = s.nrbEn := rfl
@[simp] theorem State.modContext_nrw (s : State) (x : Nat) (f : Context → Context) : (s.modContext x f).nrw = s.nrw := rfl
@[simp] theorem State.modContext_nrr (s : State) (x : Nat) (f : Context → Context) : (s.modContext x f).nrr = s.nrr := rfl
@[simp] theorem State.modContext_nonce (s : State) (x : Nat) (f : Context → Context) : (s.modContext x f).nonce = s.nonce := rfl
@[simp] theorem State.modContext_attestAddr (s : State) (x : Nat) (f : Context → Context) : (s.modContext x f).attestAddr = s.attestAddr := rfl
@[simp] theorem State.modContext_attesting (s : State) (x : Nat) (f : Context → Context) : (s.modContext x f).attesting = s.attesting := rfl
@[simp] theorem State.modContext_upload (s : State) (x : Nat) (f : Context → Context) : (s.modContext x f).upload = s.upload := rfl
@[simp] theorem State.modContext_interrupts (s : State) (x : Nat) (f : Context → Context) : (s.modContext x f).interrupts = s.interrupts := rfl
@[simp] theorem State.modContext_hostData (s : State) (x : Nat) (f : Context → Context) : (s.modContext x f).hostData = s.hostData := rfl
@[simp] theorem State.modContext_flash (s : State) (x : Nat) (f : Context → Context) : (s.modContext x f).flash = s.flash := rfl
@[simp] theorem State.modContext_peer (s : State) (x : Nat) (f : Context → Context) : (s.modContext x f).peer = s.peer := rfl
@[simp] theorem State.modContext_routes (s : State) (x : Nat) (f : Context → Context) : (s.modContext x f).routes = s.routes := rfl
@[simp] theorem State.modContext_failedLinks (s : State) (x : Nat) (f : Context → Context) : (s.modContext x f).failedLinks = s.failedLinks := rfl
@[simp] theorem State.modContext_tier2Sizes (s : State) (x : Nat) (f : Context → Context) : (s.modContext x f).tier2Sizes = s.tier2Sizes := rfl
@[simp] theorem State.modContext_tier2Failed (s : State) (x : Nat) (f : Context → Context) : (s.modContext x f).tier2Failed = s.tier2Failed := rfl
@[simp] theorem State.modContext_nextStart (s : State) (x : Nat) (f : Context → Context) : (s.modContext x f).nextStart = s.nextStart := rfl
@[simp] theorem State.modContext_wakeFrom (s : State) (x : Nat) (f : Context → Context) : (s.modContext x f).wakeFrom = s.wakeFrom := rfl
@[simp] theorem State.modContext_wakes (s : State) (x : Nat) (f : Context → Context) : (s.modContext x f).wakes = s.wakes := rfl

-- ## modQueue

@[simp] theorem State.modQueue_turns (s : State) (q : Nat) (f : Queue → Queue) : (s.modQueue q f).turns = s.turns := rfl
@[simp] theorem State.modQueue_round (s : State) (q : Nat) (f : Queue → Queue) : (s.modQueue q f).round = s.round := rfl
@[simp] theorem State.modQueue_taken (s : State) (q : Nat) (f : Queue → Queue) : (s.modQueue q f).taken = s.taken := rfl
@[simp] theorem State.modQueue_choices (s : State) (q : Nat) (f : Queue → Queue) : (s.modQueue q f).choices = s.choices := rfl
@[simp] theorem State.modQueue_cur (s : State) (q : Nat) (f : Queue → Queue) : (s.modQueue q f).cur = s.cur := rfl
@[simp] theorem State.modQueue_cycle (s : State) (q : Nat) (f : Queue → Queue) : (s.modQueue q f).cycle = s.cycle := rfl
@[simp] theorem State.modQueue_mem (s : State) (q : Nat) (f : Queue → Queue) : (s.modQueue q f).mem = s.mem := rfl
@[simp] theorem State.modQueue_scratch (s : State) (q : Nat) (f : Queue → Queue) : (s.modQueue q f).scratch = s.scratch := rfl
@[simp] theorem State.modQueue_blurs (s : State) (q : Nat) (f : Queue → Queue) : (s.modQueue q f).blurs = s.blurs := rfl
@[simp] theorem State.modQueue_history (s : State) (q : Nat) (f : Queue → Queue) : (s.modQueue q f).history = s.history := rfl
@[simp] theorem State.modQueue_stamp (s : State) (q : Nat) (f : Queue → Queue) : (s.modQueue q f).stamp = s.stamp := rfl
@[simp] theorem State.modQueue_arrivals (s : State) (q : Nat) (f : Queue → Queue) : (s.modQueue q f).arrivals = s.arrivals := rfl
@[simp] theorem State.modQueue_left (s : State) (q : Nat) (f : Queue → Queue) : (s.modQueue q f).left = s.left := rfl
@[simp] theorem State.modQueue_dieTlb (s : State) (q : Nat) (f : Queue → Queue) : (s.modQueue q f).dieTlb = s.dieTlb := rfl
@[simp] theorem State.modQueue_poison (s : State) (q : Nat) (f : Queue → Queue) : (s.modQueue q f).poison = s.poison := rfl
@[simp] theorem State.modQueue_tables (s : State) (q : Nat) (f : Queue → Queue) : (s.modQueue q f).tables = s.tables := rfl
@[simp] theorem State.modQueue_shadows (s : State) (q : Nat) (f : Queue → Queue) : (s.modQueue q f).shadows = s.shadows := rfl
@[simp] theorem State.modQueue_committed (s : State) (q : Nat) (f : Queue → Queue) : (s.modQueue q f).committed = s.committed := rfl
@[simp] theorem State.modQueue_launches (s : State) (q : Nat) (f : Queue → Queue) : (s.modQueue q f).launches = s.launches := rfl
@[simp] theorem State.modQueue_grids (s : State) (q : Nat) (f : Queue → Queue) : (s.modQueue q f).grids = s.grids := rfl
@[simp] theorem State.modQueue_teams (s : State) (q : Nat) (f : Queue → Queue) : (s.modQueue q f).teams = s.teams := rfl
@[simp] theorem State.modQueue_cores (s : State) (q : Nat) (f : Queue → Queue) : (s.modQueue q f).cores = s.cores := rfl
@[simp] theorem State.modQueue_contexts (s : State) (q : Nat) (f : Queue → Queue) : (s.modQueue q f).contexts = s.contexts := rfl
@[simp] theorem State.modQueue_lastUsed (s : State) (q : Nat) (f : Queue → Queue) : (s.modQueue q f).lastUsed = s.lastUsed := rfl
@[simp] theorem State.modQueue_devQueues (s : State) (q : Nat) (f : Queue → Queue) : (s.modQueue q f).devQueues = s.devQueues := rfl
@[simp] theorem State.modQueue_lastTag (s : State) (q : Nat) (f : Queue → Queue) : (s.modQueue q f).lastTag = s.lastTag := rfl
@[simp] theorem State.modQueue_commits (s : State) (q : Nat) (f : Queue → Queue) : (s.modQueue q f).commits = s.commits := rfl
@[simp] theorem State.modQueue_tickets (s : State) (q : Nat) (f : Queue → Queue) : (s.modQueue q f).tickets = s.tickets := rfl
@[simp] theorem State.modQueue_pending (s : State) (q : Nat) (f : Queue → Queue) : (s.modQueue q f).pending = s.pending := rfl
@[simp] theorem State.modQueue_lastSource (s : State) (q : Nat) (f : Queue → Queue) : (s.modQueue q f).lastSource = s.lastSource := rfl
@[simp] theorem State.modQueue_nextId (s : State) (q : Nat) (f : Queue → Queue) : (s.modQueue q f).nextId = s.nextId := rfl
@[simp] theorem State.modQueue_queries (s : State) (q : Nat) (f : Queue → Queue) : (s.modQueue q f).queries = s.queries := rfl
@[simp] theorem State.modQueue_colls (s : State) (q : Nat) (f : Queue → Queue) : (s.modQueue q f).colls = s.colls := rfl
@[simp] theorem State.modQueue_shootdowns (s : State) (q : Nat) (f : Queue → Queue) : (s.modQueue q f).shootdowns = s.shootdowns := rfl
@[simp] theorem State.modQueue_moves (s : State) (q : Nat) (f : Queue → Queue) : (s.modQueue q f).moves = s.moves := rfl
@[simp] theorem State.modQueue_oldBlocks (s : State) (q : Nat) (f : Queue → Queue) : (s.modQueue q f).oldBlocks = s.oldBlocks := rfl
@[simp] theorem State.modQueue_sweeps (s : State) (q : Nat) (f : Queue → Queue) : (s.modQueue q f).sweeps = s.sweeps := rfl
@[simp] theorem State.modQueue_ready (s : State) (q : Nat) (f : Queue → Queue) : (s.modQueue q f).ready = s.ready := rfl
@[simp] theorem State.modQueue_recov (s : State) (q : Nat) (f : Queue → Queue) : (s.modQueue q f).recov = s.recov := rfl
@[simp] theorem State.modQueue_stage (s : State) (q : Nat) (f : Queue → Queue) : (s.modQueue q f).stage = s.stage := rfl
@[simp] theorem State.modQueue_err (s : State) (q : Nat) (f : Queue → Queue) : (s.modQueue q f).err = s.err := rfl
@[simp] theorem State.modQueue_nrbBase (s : State) (q : Nat) (f : Queue → Queue) : (s.modQueue q f).nrbBase = s.nrbBase := rfl
@[simp] theorem State.modQueue_nrbOvf (s : State) (q : Nat) (f : Queue → Queue) : (s.modQueue q f).nrbOvf = s.nrbOvf := rfl
@[simp] theorem State.modQueue_nrbEn (s : State) (q : Nat) (f : Queue → Queue) : (s.modQueue q f).nrbEn = s.nrbEn := rfl
@[simp] theorem State.modQueue_nrw (s : State) (q : Nat) (f : Queue → Queue) : (s.modQueue q f).nrw = s.nrw := rfl
@[simp] theorem State.modQueue_nrr (s : State) (q : Nat) (f : Queue → Queue) : (s.modQueue q f).nrr = s.nrr := rfl
@[simp] theorem State.modQueue_nonce (s : State) (q : Nat) (f : Queue → Queue) : (s.modQueue q f).nonce = s.nonce := rfl
@[simp] theorem State.modQueue_attestAddr (s : State) (q : Nat) (f : Queue → Queue) : (s.modQueue q f).attestAddr = s.attestAddr := rfl
@[simp] theorem State.modQueue_attesting (s : State) (q : Nat) (f : Queue → Queue) : (s.modQueue q f).attesting = s.attesting := rfl
@[simp] theorem State.modQueue_upload (s : State) (q : Nat) (f : Queue → Queue) : (s.modQueue q f).upload = s.upload := rfl
@[simp] theorem State.modQueue_interrupts (s : State) (q : Nat) (f : Queue → Queue) : (s.modQueue q f).interrupts = s.interrupts := rfl
@[simp] theorem State.modQueue_hostData (s : State) (q : Nat) (f : Queue → Queue) : (s.modQueue q f).hostData = s.hostData := rfl
@[simp] theorem State.modQueue_flash (s : State) (q : Nat) (f : Queue → Queue) : (s.modQueue q f).flash = s.flash := rfl
@[simp] theorem State.modQueue_peer (s : State) (q : Nat) (f : Queue → Queue) : (s.modQueue q f).peer = s.peer := rfl
@[simp] theorem State.modQueue_routes (s : State) (q : Nat) (f : Queue → Queue) : (s.modQueue q f).routes = s.routes := rfl
@[simp] theorem State.modQueue_failedLinks (s : State) (q : Nat) (f : Queue → Queue) : (s.modQueue q f).failedLinks = s.failedLinks := rfl
@[simp] theorem State.modQueue_tier2Sizes (s : State) (q : Nat) (f : Queue → Queue) : (s.modQueue q f).tier2Sizes = s.tier2Sizes := rfl
@[simp] theorem State.modQueue_tier2Failed (s : State) (q : Nat) (f : Queue → Queue) : (s.modQueue q f).tier2Failed = s.tier2Failed := rfl
@[simp] theorem State.modQueue_nextStart (s : State) (q : Nat) (f : Queue → Queue) : (s.modQueue q f).nextStart = s.nextStart := rfl
@[simp] theorem State.modQueue_wakeFrom (s : State) (q : Nat) (f : Queue → Queue) : (s.modQueue q f).wakeFrom = s.wakeFrom := rfl
@[simp] theorem State.modQueue_wakes (s : State) (q : Nat) (f : Queue → Queue) : (s.modQueue q f).wakes = s.wakes := rfl

-- ## modTeam

@[simp] theorem State.modTeam_turns (s : State) (k : Nat) (f : Team → Team) : (s.modTeam k f).turns = s.turns := rfl
@[simp] theorem State.modTeam_round (s : State) (k : Nat) (f : Team → Team) : (s.modTeam k f).round = s.round := rfl
@[simp] theorem State.modTeam_taken (s : State) (k : Nat) (f : Team → Team) : (s.modTeam k f).taken = s.taken := rfl
@[simp] theorem State.modTeam_choices (s : State) (k : Nat) (f : Team → Team) : (s.modTeam k f).choices = s.choices := rfl
@[simp] theorem State.modTeam_cur (s : State) (k : Nat) (f : Team → Team) : (s.modTeam k f).cur = s.cur := rfl
@[simp] theorem State.modTeam_cycle (s : State) (k : Nat) (f : Team → Team) : (s.modTeam k f).cycle = s.cycle := rfl
@[simp] theorem State.modTeam_mem (s : State) (k : Nat) (f : Team → Team) : (s.modTeam k f).mem = s.mem := rfl
@[simp] theorem State.modTeam_scratch (s : State) (k : Nat) (f : Team → Team) : (s.modTeam k f).scratch = s.scratch := rfl
@[simp] theorem State.modTeam_blurs (s : State) (k : Nat) (f : Team → Team) : (s.modTeam k f).blurs = s.blurs := rfl
@[simp] theorem State.modTeam_history (s : State) (k : Nat) (f : Team → Team) : (s.modTeam k f).history = s.history := rfl
@[simp] theorem State.modTeam_stamp (s : State) (k : Nat) (f : Team → Team) : (s.modTeam k f).stamp = s.stamp := rfl
@[simp] theorem State.modTeam_arrivals (s : State) (k : Nat) (f : Team → Team) : (s.modTeam k f).arrivals = s.arrivals := rfl
@[simp] theorem State.modTeam_left (s : State) (k : Nat) (f : Team → Team) : (s.modTeam k f).left = s.left := rfl
@[simp] theorem State.modTeam_dieTlb (s : State) (k : Nat) (f : Team → Team) : (s.modTeam k f).dieTlb = s.dieTlb := rfl
@[simp] theorem State.modTeam_poison (s : State) (k : Nat) (f : Team → Team) : (s.modTeam k f).poison = s.poison := rfl
@[simp] theorem State.modTeam_tables (s : State) (k : Nat) (f : Team → Team) : (s.modTeam k f).tables = s.tables := rfl
@[simp] theorem State.modTeam_shadows (s : State) (k : Nat) (f : Team → Team) : (s.modTeam k f).shadows = s.shadows := rfl
@[simp] theorem State.modTeam_committed (s : State) (k : Nat) (f : Team → Team) : (s.modTeam k f).committed = s.committed := rfl
@[simp] theorem State.modTeam_launches (s : State) (k : Nat) (f : Team → Team) : (s.modTeam k f).launches = s.launches := rfl
@[simp] theorem State.modTeam_grids (s : State) (k : Nat) (f : Team → Team) : (s.modTeam k f).grids = s.grids := rfl
@[simp] theorem State.modTeam_cores (s : State) (k : Nat) (f : Team → Team) : (s.modTeam k f).cores = s.cores := rfl
@[simp] theorem State.modTeam_contexts (s : State) (k : Nat) (f : Team → Team) : (s.modTeam k f).contexts = s.contexts := rfl
@[simp] theorem State.modTeam_queues (s : State) (k : Nat) (f : Team → Team) : (s.modTeam k f).queues = s.queues := rfl
@[simp] theorem State.modTeam_lastUsed (s : State) (k : Nat) (f : Team → Team) : (s.modTeam k f).lastUsed = s.lastUsed := rfl
@[simp] theorem State.modTeam_devQueues (s : State) (k : Nat) (f : Team → Team) : (s.modTeam k f).devQueues = s.devQueues := rfl
@[simp] theorem State.modTeam_lastTag (s : State) (k : Nat) (f : Team → Team) : (s.modTeam k f).lastTag = s.lastTag := rfl
@[simp] theorem State.modTeam_commits (s : State) (k : Nat) (f : Team → Team) : (s.modTeam k f).commits = s.commits := rfl
@[simp] theorem State.modTeam_tickets (s : State) (k : Nat) (f : Team → Team) : (s.modTeam k f).tickets = s.tickets := rfl
@[simp] theorem State.modTeam_pending (s : State) (k : Nat) (f : Team → Team) : (s.modTeam k f).pending = s.pending := rfl
@[simp] theorem State.modTeam_lastSource (s : State) (k : Nat) (f : Team → Team) : (s.modTeam k f).lastSource = s.lastSource := rfl
@[simp] theorem State.modTeam_nextId (s : State) (k : Nat) (f : Team → Team) : (s.modTeam k f).nextId = s.nextId := rfl
@[simp] theorem State.modTeam_queries (s : State) (k : Nat) (f : Team → Team) : (s.modTeam k f).queries = s.queries := rfl
@[simp] theorem State.modTeam_colls (s : State) (k : Nat) (f : Team → Team) : (s.modTeam k f).colls = s.colls := rfl
@[simp] theorem State.modTeam_shootdowns (s : State) (k : Nat) (f : Team → Team) : (s.modTeam k f).shootdowns = s.shootdowns := rfl
@[simp] theorem State.modTeam_moves (s : State) (k : Nat) (f : Team → Team) : (s.modTeam k f).moves = s.moves := rfl
@[simp] theorem State.modTeam_oldBlocks (s : State) (k : Nat) (f : Team → Team) : (s.modTeam k f).oldBlocks = s.oldBlocks := rfl
@[simp] theorem State.modTeam_sweeps (s : State) (k : Nat) (f : Team → Team) : (s.modTeam k f).sweeps = s.sweeps := rfl
@[simp] theorem State.modTeam_ready (s : State) (k : Nat) (f : Team → Team) : (s.modTeam k f).ready = s.ready := rfl
@[simp] theorem State.modTeam_recov (s : State) (k : Nat) (f : Team → Team) : (s.modTeam k f).recov = s.recov := rfl
@[simp] theorem State.modTeam_stage (s : State) (k : Nat) (f : Team → Team) : (s.modTeam k f).stage = s.stage := rfl
@[simp] theorem State.modTeam_err (s : State) (k : Nat) (f : Team → Team) : (s.modTeam k f).err = s.err := rfl
@[simp] theorem State.modTeam_nrbBase (s : State) (k : Nat) (f : Team → Team) : (s.modTeam k f).nrbBase = s.nrbBase := rfl
@[simp] theorem State.modTeam_nrbOvf (s : State) (k : Nat) (f : Team → Team) : (s.modTeam k f).nrbOvf = s.nrbOvf := rfl
@[simp] theorem State.modTeam_nrbEn (s : State) (k : Nat) (f : Team → Team) : (s.modTeam k f).nrbEn = s.nrbEn := rfl
@[simp] theorem State.modTeam_nrw (s : State) (k : Nat) (f : Team → Team) : (s.modTeam k f).nrw = s.nrw := rfl
@[simp] theorem State.modTeam_nrr (s : State) (k : Nat) (f : Team → Team) : (s.modTeam k f).nrr = s.nrr := rfl
@[simp] theorem State.modTeam_nonce (s : State) (k : Nat) (f : Team → Team) : (s.modTeam k f).nonce = s.nonce := rfl
@[simp] theorem State.modTeam_attestAddr (s : State) (k : Nat) (f : Team → Team) : (s.modTeam k f).attestAddr = s.attestAddr := rfl
@[simp] theorem State.modTeam_attesting (s : State) (k : Nat) (f : Team → Team) : (s.modTeam k f).attesting = s.attesting := rfl
@[simp] theorem State.modTeam_upload (s : State) (k : Nat) (f : Team → Team) : (s.modTeam k f).upload = s.upload := rfl
@[simp] theorem State.modTeam_interrupts (s : State) (k : Nat) (f : Team → Team) : (s.modTeam k f).interrupts = s.interrupts := rfl
@[simp] theorem State.modTeam_hostData (s : State) (k : Nat) (f : Team → Team) : (s.modTeam k f).hostData = s.hostData := rfl
@[simp] theorem State.modTeam_flash (s : State) (k : Nat) (f : Team → Team) : (s.modTeam k f).flash = s.flash := rfl
@[simp] theorem State.modTeam_peer (s : State) (k : Nat) (f : Team → Team) : (s.modTeam k f).peer = s.peer := rfl
@[simp] theorem State.modTeam_routes (s : State) (k : Nat) (f : Team → Team) : (s.modTeam k f).routes = s.routes := rfl
@[simp] theorem State.modTeam_failedLinks (s : State) (k : Nat) (f : Team → Team) : (s.modTeam k f).failedLinks = s.failedLinks := rfl
@[simp] theorem State.modTeam_tier2Sizes (s : State) (k : Nat) (f : Team → Team) : (s.modTeam k f).tier2Sizes = s.tier2Sizes := rfl
@[simp] theorem State.modTeam_tier2Failed (s : State) (k : Nat) (f : Team → Team) : (s.modTeam k f).tier2Failed = s.tier2Failed := rfl
@[simp] theorem State.modTeam_nextStart (s : State) (k : Nat) (f : Team → Team) : (s.modTeam k f).nextStart = s.nextStart := rfl
@[simp] theorem State.modTeam_wakeFrom (s : State) (k : Nat) (f : Team → Team) : (s.modTeam k f).wakeFrom = s.wakeFrom := rfl
@[simp] theorem State.modTeam_wakes (s : State) (k : Nat) (f : Team → Team) : (s.modTeam k f).wakes = s.wakes := rfl

-- ## modGrid

@[simp] theorem State.modGrid_turns (s : State) (g : Nat) (f : Grid → Grid) : (s.modGrid g f).turns = s.turns := rfl
@[simp] theorem State.modGrid_round (s : State) (g : Nat) (f : Grid → Grid) : (s.modGrid g f).round = s.round := rfl
@[simp] theorem State.modGrid_taken (s : State) (g : Nat) (f : Grid → Grid) : (s.modGrid g f).taken = s.taken := rfl
@[simp] theorem State.modGrid_choices (s : State) (g : Nat) (f : Grid → Grid) : (s.modGrid g f).choices = s.choices := rfl
@[simp] theorem State.modGrid_cur (s : State) (g : Nat) (f : Grid → Grid) : (s.modGrid g f).cur = s.cur := rfl
@[simp] theorem State.modGrid_cycle (s : State) (g : Nat) (f : Grid → Grid) : (s.modGrid g f).cycle = s.cycle := rfl
@[simp] theorem State.modGrid_mem (s : State) (g : Nat) (f : Grid → Grid) : (s.modGrid g f).mem = s.mem := rfl
@[simp] theorem State.modGrid_scratch (s : State) (g : Nat) (f : Grid → Grid) : (s.modGrid g f).scratch = s.scratch := rfl
@[simp] theorem State.modGrid_blurs (s : State) (g : Nat) (f : Grid → Grid) : (s.modGrid g f).blurs = s.blurs := rfl
@[simp] theorem State.modGrid_history (s : State) (g : Nat) (f : Grid → Grid) : (s.modGrid g f).history = s.history := rfl
@[simp] theorem State.modGrid_stamp (s : State) (g : Nat) (f : Grid → Grid) : (s.modGrid g f).stamp = s.stamp := rfl
@[simp] theorem State.modGrid_arrivals (s : State) (g : Nat) (f : Grid → Grid) : (s.modGrid g f).arrivals = s.arrivals := rfl
@[simp] theorem State.modGrid_left (s : State) (g : Nat) (f : Grid → Grid) : (s.modGrid g f).left = s.left := rfl
@[simp] theorem State.modGrid_dieTlb (s : State) (g : Nat) (f : Grid → Grid) : (s.modGrid g f).dieTlb = s.dieTlb := rfl
@[simp] theorem State.modGrid_poison (s : State) (g : Nat) (f : Grid → Grid) : (s.modGrid g f).poison = s.poison := rfl
@[simp] theorem State.modGrid_tables (s : State) (g : Nat) (f : Grid → Grid) : (s.modGrid g f).tables = s.tables := rfl
@[simp] theorem State.modGrid_shadows (s : State) (g : Nat) (f : Grid → Grid) : (s.modGrid g f).shadows = s.shadows := rfl
@[simp] theorem State.modGrid_committed (s : State) (g : Nat) (f : Grid → Grid) : (s.modGrid g f).committed = s.committed := rfl
@[simp] theorem State.modGrid_launches (s : State) (g : Nat) (f : Grid → Grid) : (s.modGrid g f).launches = s.launches := rfl
@[simp] theorem State.modGrid_teams (s : State) (g : Nat) (f : Grid → Grid) : (s.modGrid g f).teams = s.teams := rfl
@[simp] theorem State.modGrid_cores (s : State) (g : Nat) (f : Grid → Grid) : (s.modGrid g f).cores = s.cores := rfl
@[simp] theorem State.modGrid_contexts (s : State) (g : Nat) (f : Grid → Grid) : (s.modGrid g f).contexts = s.contexts := rfl
@[simp] theorem State.modGrid_queues (s : State) (g : Nat) (f : Grid → Grid) : (s.modGrid g f).queues = s.queues := rfl
@[simp] theorem State.modGrid_lastUsed (s : State) (g : Nat) (f : Grid → Grid) : (s.modGrid g f).lastUsed = s.lastUsed := rfl
@[simp] theorem State.modGrid_devQueues (s : State) (g : Nat) (f : Grid → Grid) : (s.modGrid g f).devQueues = s.devQueues := rfl
@[simp] theorem State.modGrid_lastTag (s : State) (g : Nat) (f : Grid → Grid) : (s.modGrid g f).lastTag = s.lastTag := rfl
@[simp] theorem State.modGrid_commits (s : State) (g : Nat) (f : Grid → Grid) : (s.modGrid g f).commits = s.commits := rfl
@[simp] theorem State.modGrid_tickets (s : State) (g : Nat) (f : Grid → Grid) : (s.modGrid g f).tickets = s.tickets := rfl
@[simp] theorem State.modGrid_pending (s : State) (g : Nat) (f : Grid → Grid) : (s.modGrid g f).pending = s.pending := rfl
@[simp] theorem State.modGrid_lastSource (s : State) (g : Nat) (f : Grid → Grid) : (s.modGrid g f).lastSource = s.lastSource := rfl
@[simp] theorem State.modGrid_nextId (s : State) (g : Nat) (f : Grid → Grid) : (s.modGrid g f).nextId = s.nextId := rfl
@[simp] theorem State.modGrid_queries (s : State) (g : Nat) (f : Grid → Grid) : (s.modGrid g f).queries = s.queries := rfl
@[simp] theorem State.modGrid_colls (s : State) (g : Nat) (f : Grid → Grid) : (s.modGrid g f).colls = s.colls := rfl
@[simp] theorem State.modGrid_shootdowns (s : State) (g : Nat) (f : Grid → Grid) : (s.modGrid g f).shootdowns = s.shootdowns := rfl
@[simp] theorem State.modGrid_moves (s : State) (g : Nat) (f : Grid → Grid) : (s.modGrid g f).moves = s.moves := rfl
@[simp] theorem State.modGrid_oldBlocks (s : State) (g : Nat) (f : Grid → Grid) : (s.modGrid g f).oldBlocks = s.oldBlocks := rfl
@[simp] theorem State.modGrid_sweeps (s : State) (g : Nat) (f : Grid → Grid) : (s.modGrid g f).sweeps = s.sweeps := rfl
@[simp] theorem State.modGrid_ready (s : State) (g : Nat) (f : Grid → Grid) : (s.modGrid g f).ready = s.ready := rfl
@[simp] theorem State.modGrid_recov (s : State) (g : Nat) (f : Grid → Grid) : (s.modGrid g f).recov = s.recov := rfl
@[simp] theorem State.modGrid_stage (s : State) (g : Nat) (f : Grid → Grid) : (s.modGrid g f).stage = s.stage := rfl
@[simp] theorem State.modGrid_err (s : State) (g : Nat) (f : Grid → Grid) : (s.modGrid g f).err = s.err := rfl
@[simp] theorem State.modGrid_nrbBase (s : State) (g : Nat) (f : Grid → Grid) : (s.modGrid g f).nrbBase = s.nrbBase := rfl
@[simp] theorem State.modGrid_nrbOvf (s : State) (g : Nat) (f : Grid → Grid) : (s.modGrid g f).nrbOvf = s.nrbOvf := rfl
@[simp] theorem State.modGrid_nrbEn (s : State) (g : Nat) (f : Grid → Grid) : (s.modGrid g f).nrbEn = s.nrbEn := rfl
@[simp] theorem State.modGrid_nrw (s : State) (g : Nat) (f : Grid → Grid) : (s.modGrid g f).nrw = s.nrw := rfl
@[simp] theorem State.modGrid_nrr (s : State) (g : Nat) (f : Grid → Grid) : (s.modGrid g f).nrr = s.nrr := rfl
@[simp] theorem State.modGrid_nonce (s : State) (g : Nat) (f : Grid → Grid) : (s.modGrid g f).nonce = s.nonce := rfl
@[simp] theorem State.modGrid_attestAddr (s : State) (g : Nat) (f : Grid → Grid) : (s.modGrid g f).attestAddr = s.attestAddr := rfl
@[simp] theorem State.modGrid_attesting (s : State) (g : Nat) (f : Grid → Grid) : (s.modGrid g f).attesting = s.attesting := rfl
@[simp] theorem State.modGrid_upload (s : State) (g : Nat) (f : Grid → Grid) : (s.modGrid g f).upload = s.upload := rfl
@[simp] theorem State.modGrid_interrupts (s : State) (g : Nat) (f : Grid → Grid) : (s.modGrid g f).interrupts = s.interrupts := rfl
@[simp] theorem State.modGrid_hostData (s : State) (g : Nat) (f : Grid → Grid) : (s.modGrid g f).hostData = s.hostData := rfl
@[simp] theorem State.modGrid_flash (s : State) (g : Nat) (f : Grid → Grid) : (s.modGrid g f).flash = s.flash := rfl
@[simp] theorem State.modGrid_peer (s : State) (g : Nat) (f : Grid → Grid) : (s.modGrid g f).peer = s.peer := rfl
@[simp] theorem State.modGrid_routes (s : State) (g : Nat) (f : Grid → Grid) : (s.modGrid g f).routes = s.routes := rfl
@[simp] theorem State.modGrid_failedLinks (s : State) (g : Nat) (f : Grid → Grid) : (s.modGrid g f).failedLinks = s.failedLinks := rfl
@[simp] theorem State.modGrid_tier2Sizes (s : State) (g : Nat) (f : Grid → Grid) : (s.modGrid g f).tier2Sizes = s.tier2Sizes := rfl
@[simp] theorem State.modGrid_tier2Failed (s : State) (g : Nat) (f : Grid → Grid) : (s.modGrid g f).tier2Failed = s.tier2Failed := rfl
@[simp] theorem State.modGrid_nextStart (s : State) (g : Nat) (f : Grid → Grid) : (s.modGrid g f).nextStart = s.nextStart := rfl
@[simp] theorem State.modGrid_wakeFrom (s : State) (g : Nat) (f : Grid → Grid) : (s.modGrid g f).wakeFrom = s.wakeFrom := rfl
@[simp] theorem State.modGrid_wakes (s : State) (g : Nat) (f : Grid → Grid) : (s.modGrid g f).wakes = s.wakes := rfl

-- ## modLaunch

@[simp] theorem State.modLaunch_turns (s : State) (l : Nat) (f : Launch → Launch) : (s.modLaunch l f).turns = s.turns := rfl
@[simp] theorem State.modLaunch_round (s : State) (l : Nat) (f : Launch → Launch) : (s.modLaunch l f).round = s.round := rfl
@[simp] theorem State.modLaunch_taken (s : State) (l : Nat) (f : Launch → Launch) : (s.modLaunch l f).taken = s.taken := rfl
@[simp] theorem State.modLaunch_choices (s : State) (l : Nat) (f : Launch → Launch) : (s.modLaunch l f).choices = s.choices := rfl
@[simp] theorem State.modLaunch_cur (s : State) (l : Nat) (f : Launch → Launch) : (s.modLaunch l f).cur = s.cur := rfl
@[simp] theorem State.modLaunch_cycle (s : State) (l : Nat) (f : Launch → Launch) : (s.modLaunch l f).cycle = s.cycle := rfl
@[simp] theorem State.modLaunch_mem (s : State) (l : Nat) (f : Launch → Launch) : (s.modLaunch l f).mem = s.mem := rfl
@[simp] theorem State.modLaunch_scratch (s : State) (l : Nat) (f : Launch → Launch) : (s.modLaunch l f).scratch = s.scratch := rfl
@[simp] theorem State.modLaunch_blurs (s : State) (l : Nat) (f : Launch → Launch) : (s.modLaunch l f).blurs = s.blurs := rfl
@[simp] theorem State.modLaunch_history (s : State) (l : Nat) (f : Launch → Launch) : (s.modLaunch l f).history = s.history := rfl
@[simp] theorem State.modLaunch_stamp (s : State) (l : Nat) (f : Launch → Launch) : (s.modLaunch l f).stamp = s.stamp := rfl
@[simp] theorem State.modLaunch_arrivals (s : State) (l : Nat) (f : Launch → Launch) : (s.modLaunch l f).arrivals = s.arrivals := rfl
@[simp] theorem State.modLaunch_left (s : State) (l : Nat) (f : Launch → Launch) : (s.modLaunch l f).left = s.left := rfl
@[simp] theorem State.modLaunch_dieTlb (s : State) (l : Nat) (f : Launch → Launch) : (s.modLaunch l f).dieTlb = s.dieTlb := rfl
@[simp] theorem State.modLaunch_poison (s : State) (l : Nat) (f : Launch → Launch) : (s.modLaunch l f).poison = s.poison := rfl
@[simp] theorem State.modLaunch_tables (s : State) (l : Nat) (f : Launch → Launch) : (s.modLaunch l f).tables = s.tables := rfl
@[simp] theorem State.modLaunch_shadows (s : State) (l : Nat) (f : Launch → Launch) : (s.modLaunch l f).shadows = s.shadows := rfl
@[simp] theorem State.modLaunch_committed (s : State) (l : Nat) (f : Launch → Launch) : (s.modLaunch l f).committed = s.committed := rfl
@[simp] theorem State.modLaunch_grids (s : State) (l : Nat) (f : Launch → Launch) : (s.modLaunch l f).grids = s.grids := rfl
@[simp] theorem State.modLaunch_teams (s : State) (l : Nat) (f : Launch → Launch) : (s.modLaunch l f).teams = s.teams := rfl
@[simp] theorem State.modLaunch_cores (s : State) (l : Nat) (f : Launch → Launch) : (s.modLaunch l f).cores = s.cores := rfl
@[simp] theorem State.modLaunch_contexts (s : State) (l : Nat) (f : Launch → Launch) : (s.modLaunch l f).contexts = s.contexts := rfl
@[simp] theorem State.modLaunch_queues (s : State) (l : Nat) (f : Launch → Launch) : (s.modLaunch l f).queues = s.queues := rfl
@[simp] theorem State.modLaunch_lastUsed (s : State) (l : Nat) (f : Launch → Launch) : (s.modLaunch l f).lastUsed = s.lastUsed := rfl
@[simp] theorem State.modLaunch_devQueues (s : State) (l : Nat) (f : Launch → Launch) : (s.modLaunch l f).devQueues = s.devQueues := rfl
@[simp] theorem State.modLaunch_lastTag (s : State) (l : Nat) (f : Launch → Launch) : (s.modLaunch l f).lastTag = s.lastTag := rfl
@[simp] theorem State.modLaunch_commits (s : State) (l : Nat) (f : Launch → Launch) : (s.modLaunch l f).commits = s.commits := rfl
@[simp] theorem State.modLaunch_tickets (s : State) (l : Nat) (f : Launch → Launch) : (s.modLaunch l f).tickets = s.tickets := rfl
@[simp] theorem State.modLaunch_pending (s : State) (l : Nat) (f : Launch → Launch) : (s.modLaunch l f).pending = s.pending := rfl
@[simp] theorem State.modLaunch_lastSource (s : State) (l : Nat) (f : Launch → Launch) : (s.modLaunch l f).lastSource = s.lastSource := rfl
@[simp] theorem State.modLaunch_nextId (s : State) (l : Nat) (f : Launch → Launch) : (s.modLaunch l f).nextId = s.nextId := rfl
@[simp] theorem State.modLaunch_queries (s : State) (l : Nat) (f : Launch → Launch) : (s.modLaunch l f).queries = s.queries := rfl
@[simp] theorem State.modLaunch_colls (s : State) (l : Nat) (f : Launch → Launch) : (s.modLaunch l f).colls = s.colls := rfl
@[simp] theorem State.modLaunch_shootdowns (s : State) (l : Nat) (f : Launch → Launch) : (s.modLaunch l f).shootdowns = s.shootdowns := rfl
@[simp] theorem State.modLaunch_moves (s : State) (l : Nat) (f : Launch → Launch) : (s.modLaunch l f).moves = s.moves := rfl
@[simp] theorem State.modLaunch_oldBlocks (s : State) (l : Nat) (f : Launch → Launch) : (s.modLaunch l f).oldBlocks = s.oldBlocks := rfl
@[simp] theorem State.modLaunch_sweeps (s : State) (l : Nat) (f : Launch → Launch) : (s.modLaunch l f).sweeps = s.sweeps := rfl
@[simp] theorem State.modLaunch_ready (s : State) (l : Nat) (f : Launch → Launch) : (s.modLaunch l f).ready = s.ready := rfl
@[simp] theorem State.modLaunch_recov (s : State) (l : Nat) (f : Launch → Launch) : (s.modLaunch l f).recov = s.recov := rfl
@[simp] theorem State.modLaunch_stage (s : State) (l : Nat) (f : Launch → Launch) : (s.modLaunch l f).stage = s.stage := rfl
@[simp] theorem State.modLaunch_err (s : State) (l : Nat) (f : Launch → Launch) : (s.modLaunch l f).err = s.err := rfl
@[simp] theorem State.modLaunch_nrbBase (s : State) (l : Nat) (f : Launch → Launch) : (s.modLaunch l f).nrbBase = s.nrbBase := rfl
@[simp] theorem State.modLaunch_nrbOvf (s : State) (l : Nat) (f : Launch → Launch) : (s.modLaunch l f).nrbOvf = s.nrbOvf := rfl
@[simp] theorem State.modLaunch_nrbEn (s : State) (l : Nat) (f : Launch → Launch) : (s.modLaunch l f).nrbEn = s.nrbEn := rfl
@[simp] theorem State.modLaunch_nrw (s : State) (l : Nat) (f : Launch → Launch) : (s.modLaunch l f).nrw = s.nrw := rfl
@[simp] theorem State.modLaunch_nrr (s : State) (l : Nat) (f : Launch → Launch) : (s.modLaunch l f).nrr = s.nrr := rfl
@[simp] theorem State.modLaunch_nonce (s : State) (l : Nat) (f : Launch → Launch) : (s.modLaunch l f).nonce = s.nonce := rfl
@[simp] theorem State.modLaunch_attestAddr (s : State) (l : Nat) (f : Launch → Launch) : (s.modLaunch l f).attestAddr = s.attestAddr := rfl
@[simp] theorem State.modLaunch_attesting (s : State) (l : Nat) (f : Launch → Launch) : (s.modLaunch l f).attesting = s.attesting := rfl
@[simp] theorem State.modLaunch_upload (s : State) (l : Nat) (f : Launch → Launch) : (s.modLaunch l f).upload = s.upload := rfl
@[simp] theorem State.modLaunch_interrupts (s : State) (l : Nat) (f : Launch → Launch) : (s.modLaunch l f).interrupts = s.interrupts := rfl
@[simp] theorem State.modLaunch_hostData (s : State) (l : Nat) (f : Launch → Launch) : (s.modLaunch l f).hostData = s.hostData := rfl
@[simp] theorem State.modLaunch_flash (s : State) (l : Nat) (f : Launch → Launch) : (s.modLaunch l f).flash = s.flash := rfl
@[simp] theorem State.modLaunch_peer (s : State) (l : Nat) (f : Launch → Launch) : (s.modLaunch l f).peer = s.peer := rfl
@[simp] theorem State.modLaunch_routes (s : State) (l : Nat) (f : Launch → Launch) : (s.modLaunch l f).routes = s.routes := rfl
@[simp] theorem State.modLaunch_failedLinks (s : State) (l : Nat) (f : Launch → Launch) : (s.modLaunch l f).failedLinks = s.failedLinks := rfl
@[simp] theorem State.modLaunch_tier2Sizes (s : State) (l : Nat) (f : Launch → Launch) : (s.modLaunch l f).tier2Sizes = s.tier2Sizes := rfl
@[simp] theorem State.modLaunch_tier2Failed (s : State) (l : Nat) (f : Launch → Launch) : (s.modLaunch l f).tier2Failed = s.tier2Failed := rfl
@[simp] theorem State.modLaunch_nextStart (s : State) (l : Nat) (f : Launch → Launch) : (s.modLaunch l f).nextStart = s.nextStart := rfl
@[simp] theorem State.modLaunch_wakeFrom (s : State) (l : Nat) (f : Launch → Launch) : (s.modLaunch l f).wakeFrom = s.wakeFrom := rfl
@[simp] theorem State.modLaunch_wakes (s : State) (l : Nat) (f : Launch → Launch) : (s.modLaunch l f).wakes = s.wakes := rfl

-- ## The records themselves

@[simp] theorem State.core_modCore (s : State) (c : Nat) (f : Core → Core) : (s.modCore c f).core c = f (s.core c) :=
  Table.getD_put_self _ _ _ _
theorem State.core_modCore_other (s : State) {c j : Nat} (f : Core → Core) (h : j ≠ c) : (s.modCore c f).core j = s.core j :=
  Table.getD_put_other _ _ _ h
@[simp] theorem State.core_modContext (s : State) (k j : Nat) (f : Context → Context) : (s.modContext k f).core j = s.core j := rfl
@[simp] theorem State.core_modQueue (s : State) (k j : Nat) (f : Queue → Queue) : (s.modQueue k f).core j = s.core j := rfl
@[simp] theorem State.core_modTeam (s : State) (k j : Nat) (f : Team → Team) : (s.modTeam k f).core j = s.core j := rfl
@[simp] theorem State.core_modGrid (s : State) (k j : Nat) (f : Grid → Grid) : (s.modGrid k f).core j = s.core j := rfl
@[simp] theorem State.core_modLaunch (s : State) (k j : Nat) (f : Launch → Launch) : (s.modLaunch k f).core j = s.core j := rfl
@[simp] theorem State.context_modContext (s : State) (x : Nat) (f : Context → Context) : (s.modContext x f).context x = f (s.context x) :=
  Table.getD_put_self _ _ _ _
theorem State.context_modContext_other (s : State) {x j : Nat} (f : Context → Context) (h : j ≠ x) : (s.modContext x f).context j = s.context j :=
  Table.getD_put_other _ _ _ h
@[simp] theorem State.context_modCore (s : State) (k j : Nat) (f : Core → Core) : (s.modCore k f).context j = s.context j := rfl
@[simp] theorem State.context_modQueue (s : State) (k j : Nat) (f : Queue → Queue) : (s.modQueue k f).context j = s.context j := rfl
@[simp] theorem State.context_modTeam (s : State) (k j : Nat) (f : Team → Team) : (s.modTeam k f).context j = s.context j := rfl
@[simp] theorem State.context_modGrid (s : State) (k j : Nat) (f : Grid → Grid) : (s.modGrid k f).context j = s.context j := rfl
@[simp] theorem State.context_modLaunch (s : State) (k j : Nat) (f : Launch → Launch) : (s.modLaunch k f).context j = s.context j := rfl
@[simp] theorem State.queue_modQueue (s : State) (q : Nat) (f : Queue → Queue) : (s.modQueue q f).queue q = f (s.queue q) :=
  Table.getD_put_self _ _ _ _
theorem State.queue_modQueue_other (s : State) {q j : Nat} (f : Queue → Queue) (h : j ≠ q) : (s.modQueue q f).queue j = s.queue j :=
  Table.getD_put_other _ _ _ h
@[simp] theorem State.queue_modCore (s : State) (k j : Nat) (f : Core → Core) : (s.modCore k f).queue j = s.queue j := rfl
@[simp] theorem State.queue_modContext (s : State) (k j : Nat) (f : Context → Context) : (s.modContext k f).queue j = s.queue j := rfl
@[simp] theorem State.queue_modTeam (s : State) (k j : Nat) (f : Team → Team) : (s.modTeam k f).queue j = s.queue j := rfl
@[simp] theorem State.queue_modGrid (s : State) (k j : Nat) (f : Grid → Grid) : (s.modGrid k f).queue j = s.queue j := rfl
@[simp] theorem State.queue_modLaunch (s : State) (k j : Nat) (f : Launch → Launch) : (s.modLaunch k f).queue j = s.queue j := rfl

-- ## A group's update

@[simp] theorem State.modGroup_turns (s : State) (r : GroupRef) (f : Group → Group) : (s.modGroup r f).turns = s.turns := by
  unfold State.modGroup; split; · rfl
  · split <;> rfl
@[simp] theorem State.modGroup_round (s : State) (r : GroupRef) (f : Group → Group) : (s.modGroup r f).round = s.round := by
  unfold State.modGroup; split; · rfl
  · split <;> rfl
@[simp] theorem State.modGroup_taken (s : State) (r : GroupRef) (f : Group → Group) : (s.modGroup r f).taken = s.taken := by
  unfold State.modGroup; split; · rfl
  · split <;> rfl
@[simp] theorem State.modGroup_choices (s : State) (r : GroupRef) (f : Group → Group) : (s.modGroup r f).choices = s.choices := by
  unfold State.modGroup; split; · rfl
  · split <;> rfl
@[simp] theorem State.modGroup_cur (s : State) (r : GroupRef) (f : Group → Group) : (s.modGroup r f).cur = s.cur := by
  unfold State.modGroup; split; · rfl
  · split <;> rfl
@[simp] theorem State.modGroup_cycle (s : State) (r : GroupRef) (f : Group → Group) : (s.modGroup r f).cycle = s.cycle := by
  unfold State.modGroup; split; · rfl
  · split <;> rfl
@[simp] theorem State.modGroup_mem (s : State) (r : GroupRef) (f : Group → Group) : (s.modGroup r f).mem = s.mem := by
  unfold State.modGroup; split; · rfl
  · split <;> rfl
@[simp] theorem State.modGroup_scratch (s : State) (r : GroupRef) (f : Group → Group) : (s.modGroup r f).scratch = s.scratch := by
  unfold State.modGroup; split; · rfl
  · split <;> rfl
@[simp] theorem State.modGroup_blurs (s : State) (r : GroupRef) (f : Group → Group) : (s.modGroup r f).blurs = s.blurs := by
  unfold State.modGroup; split; · rfl
  · split <;> rfl
@[simp] theorem State.modGroup_history (s : State) (r : GroupRef) (f : Group → Group) : (s.modGroup r f).history = s.history := by
  unfold State.modGroup; split; · rfl
  · split <;> rfl
@[simp] theorem State.modGroup_stamp (s : State) (r : GroupRef) (f : Group → Group) : (s.modGroup r f).stamp = s.stamp := by
  unfold State.modGroup; split; · rfl
  · split <;> rfl
@[simp] theorem State.modGroup_arrivals (s : State) (r : GroupRef) (f : Group → Group) : (s.modGroup r f).arrivals = s.arrivals := by
  unfold State.modGroup; split; · rfl
  · split <;> rfl
@[simp] theorem State.modGroup_dieTlb (s : State) (r : GroupRef) (f : Group → Group) : (s.modGroup r f).dieTlb = s.dieTlb := by
  unfold State.modGroup; split; · rfl
  · split <;> rfl
@[simp] theorem State.modGroup_poison (s : State) (r : GroupRef) (f : Group → Group) : (s.modGroup r f).poison = s.poison := by
  unfold State.modGroup; split; · rfl
  · split <;> rfl
@[simp] theorem State.modGroup_tables (s : State) (r : GroupRef) (f : Group → Group) : (s.modGroup r f).tables = s.tables := by
  unfold State.modGroup; split; · rfl
  · split <;> rfl
@[simp] theorem State.modGroup_shadows (s : State) (r : GroupRef) (f : Group → Group) : (s.modGroup r f).shadows = s.shadows := by
  unfold State.modGroup; split; · rfl
  · split <;> rfl
@[simp] theorem State.modGroup_committed (s : State) (r : GroupRef) (f : Group → Group) : (s.modGroup r f).committed = s.committed := by
  unfold State.modGroup; split; · rfl
  · split <;> rfl
@[simp] theorem State.modGroup_launches (s : State) (r : GroupRef) (f : Group → Group) : (s.modGroup r f).launches = s.launches := by
  unfold State.modGroup; split; · rfl
  · split <;> rfl
@[simp] theorem State.modGroup_grids (s : State) (r : GroupRef) (f : Group → Group) : (s.modGroup r f).grids = s.grids := by
  unfold State.modGroup; split; · rfl
  · split <;> rfl
@[simp] theorem State.modGroup_contexts (s : State) (r : GroupRef) (f : Group → Group) : (s.modGroup r f).contexts = s.contexts := by
  unfold State.modGroup; split; · rfl
  · split <;> rfl
@[simp] theorem State.modGroup_queues (s : State) (r : GroupRef) (f : Group → Group) : (s.modGroup r f).queues = s.queues := by
  unfold State.modGroup; split; · rfl
  · split <;> rfl
@[simp] theorem State.modGroup_lastUsed (s : State) (r : GroupRef) (f : Group → Group) : (s.modGroup r f).lastUsed = s.lastUsed := by
  unfold State.modGroup; split; · rfl
  · split <;> rfl
@[simp] theorem State.modGroup_devQueues (s : State) (r : GroupRef) (f : Group → Group) : (s.modGroup r f).devQueues = s.devQueues := by
  unfold State.modGroup; split; · rfl
  · split <;> rfl
@[simp] theorem State.modGroup_lastTag (s : State) (r : GroupRef) (f : Group → Group) : (s.modGroup r f).lastTag = s.lastTag := by
  unfold State.modGroup; split; · rfl
  · split <;> rfl
@[simp] theorem State.modGroup_commits (s : State) (r : GroupRef) (f : Group → Group) : (s.modGroup r f).commits = s.commits := by
  unfold State.modGroup; split; · rfl
  · split <;> rfl
@[simp] theorem State.modGroup_tickets (s : State) (r : GroupRef) (f : Group → Group) : (s.modGroup r f).tickets = s.tickets := by
  unfold State.modGroup; split; · rfl
  · split <;> rfl
@[simp] theorem State.modGroup_pending (s : State) (r : GroupRef) (f : Group → Group) : (s.modGroup r f).pending = s.pending := by
  unfold State.modGroup; split; · rfl
  · split <;> rfl
@[simp] theorem State.modGroup_lastSource (s : State) (r : GroupRef) (f : Group → Group) : (s.modGroup r f).lastSource = s.lastSource := by
  unfold State.modGroup; split; · rfl
  · split <;> rfl
@[simp] theorem State.modGroup_nextId (s : State) (r : GroupRef) (f : Group → Group) : (s.modGroup r f).nextId = s.nextId := by
  unfold State.modGroup; split; · rfl
  · split <;> rfl
@[simp] theorem State.modGroup_queries (s : State) (r : GroupRef) (f : Group → Group) : (s.modGroup r f).queries = s.queries := by
  unfold State.modGroup; split; · rfl
  · split <;> rfl
@[simp] theorem State.modGroup_colls (s : State) (r : GroupRef) (f : Group → Group) : (s.modGroup r f).colls = s.colls := by
  unfold State.modGroup; split; · rfl
  · split <;> rfl
@[simp] theorem State.modGroup_shootdowns (s : State) (r : GroupRef) (f : Group → Group) : (s.modGroup r f).shootdowns = s.shootdowns := by
  unfold State.modGroup; split; · rfl
  · split <;> rfl
@[simp] theorem State.modGroup_moves (s : State) (r : GroupRef) (f : Group → Group) : (s.modGroup r f).moves = s.moves := by
  unfold State.modGroup; split; · rfl
  · split <;> rfl
@[simp] theorem State.modGroup_oldBlocks (s : State) (r : GroupRef) (f : Group → Group) : (s.modGroup r f).oldBlocks = s.oldBlocks := by
  unfold State.modGroup; split; · rfl
  · split <;> rfl
@[simp] theorem State.modGroup_sweeps (s : State) (r : GroupRef) (f : Group → Group) : (s.modGroup r f).sweeps = s.sweeps := by
  unfold State.modGroup; split; · rfl
  · split <;> rfl
@[simp] theorem State.modGroup_ready (s : State) (r : GroupRef) (f : Group → Group) : (s.modGroup r f).ready = s.ready := by
  unfold State.modGroup; split; · rfl
  · split <;> rfl
@[simp] theorem State.modGroup_recov (s : State) (r : GroupRef) (f : Group → Group) : (s.modGroup r f).recov = s.recov := by
  unfold State.modGroup; split; · rfl
  · split <;> rfl
@[simp] theorem State.modGroup_stage (s : State) (r : GroupRef) (f : Group → Group) : (s.modGroup r f).stage = s.stage := by
  unfold State.modGroup; split; · rfl
  · split <;> rfl
@[simp] theorem State.modGroup_err (s : State) (r : GroupRef) (f : Group → Group) : (s.modGroup r f).err = s.err := by
  unfold State.modGroup; split; · rfl
  · split <;> rfl
@[simp] theorem State.modGroup_nrbBase (s : State) (r : GroupRef) (f : Group → Group) : (s.modGroup r f).nrbBase = s.nrbBase := by
  unfold State.modGroup; split; · rfl
  · split <;> rfl
@[simp] theorem State.modGroup_nrbOvf (s : State) (r : GroupRef) (f : Group → Group) : (s.modGroup r f).nrbOvf = s.nrbOvf := by
  unfold State.modGroup; split; · rfl
  · split <;> rfl
@[simp] theorem State.modGroup_nrbEn (s : State) (r : GroupRef) (f : Group → Group) : (s.modGroup r f).nrbEn = s.nrbEn := by
  unfold State.modGroup; split; · rfl
  · split <;> rfl
@[simp] theorem State.modGroup_nrw (s : State) (r : GroupRef) (f : Group → Group) : (s.modGroup r f).nrw = s.nrw := by
  unfold State.modGroup; split; · rfl
  · split <;> rfl
@[simp] theorem State.modGroup_nrr (s : State) (r : GroupRef) (f : Group → Group) : (s.modGroup r f).nrr = s.nrr := by
  unfold State.modGroup; split; · rfl
  · split <;> rfl
@[simp] theorem State.modGroup_nonce (s : State) (r : GroupRef) (f : Group → Group) : (s.modGroup r f).nonce = s.nonce := by
  unfold State.modGroup; split; · rfl
  · split <;> rfl
@[simp] theorem State.modGroup_attestAddr (s : State) (r : GroupRef) (f : Group → Group) : (s.modGroup r f).attestAddr = s.attestAddr := by
  unfold State.modGroup; split; · rfl
  · split <;> rfl
@[simp] theorem State.modGroup_attesting (s : State) (r : GroupRef) (f : Group → Group) : (s.modGroup r f).attesting = s.attesting := by
  unfold State.modGroup; split; · rfl
  · split <;> rfl
@[simp] theorem State.modGroup_upload (s : State) (r : GroupRef) (f : Group → Group) : (s.modGroup r f).upload = s.upload := by
  unfold State.modGroup; split; · rfl
  · split <;> rfl
@[simp] theorem State.modGroup_interrupts (s : State) (r : GroupRef) (f : Group → Group) : (s.modGroup r f).interrupts = s.interrupts := by
  unfold State.modGroup; split; · rfl
  · split <;> rfl
@[simp] theorem State.modGroup_hostData (s : State) (r : GroupRef) (f : Group → Group) : (s.modGroup r f).hostData = s.hostData := by
  unfold State.modGroup; split; · rfl
  · split <;> rfl
@[simp] theorem State.modGroup_flash (s : State) (r : GroupRef) (f : Group → Group) : (s.modGroup r f).flash = s.flash := by
  unfold State.modGroup; split; · rfl
  · split <;> rfl
@[simp] theorem State.modGroup_peer (s : State) (r : GroupRef) (f : Group → Group) : (s.modGroup r f).peer = s.peer := by
  unfold State.modGroup; split; · rfl
  · split <;> rfl
@[simp] theorem State.modGroup_routes (s : State) (r : GroupRef) (f : Group → Group) : (s.modGroup r f).routes = s.routes := by
  unfold State.modGroup; split; · rfl
  · split <;> rfl
@[simp] theorem State.modGroup_failedLinks (s : State) (r : GroupRef) (f : Group → Group) : (s.modGroup r f).failedLinks = s.failedLinks := by
  unfold State.modGroup; split; · rfl
  · split <;> rfl
@[simp] theorem State.modGroup_tier2Sizes (s : State) (r : GroupRef) (f : Group → Group) : (s.modGroup r f).tier2Sizes = s.tier2Sizes := by
  unfold State.modGroup; split; · rfl
  · split <;> rfl
@[simp] theorem State.modGroup_tier2Failed (s : State) (r : GroupRef) (f : Group → Group) : (s.modGroup r f).tier2Failed = s.tier2Failed := by
  unfold State.modGroup; split; · rfl
  · split <;> rfl
@[simp] theorem State.modGroup_nextStart (s : State) (r : GroupRef) (f : Group → Group) : (s.modGroup r f).nextStart = s.nextStart := by
  unfold State.modGroup; split; · rfl
  · split <;> rfl
@[simp] theorem State.modGroup_wakeFrom (s : State) (r : GroupRef) (f : Group → Group) : (s.modGroup r f).wakeFrom = s.wakeFrom := by
  unfold State.modGroup; split; · rfl
  · split <;> rfl
@[simp] theorem State.modGroup_wakes (s : State) (r : GroupRef) (f : Group → Group) : (s.modGroup r f).wakes = s.wakes := by
  unfold State.modGroup; split; · rfl
  · split <;> rfl

@[simp] theorem State.modGroup_context (s : State) (r : GroupRef) (f : Group → Group) (x : Nat) :
    (s.modGroup r f).context x = s.context x := by
  unfold State.modGroup; split; · rfl
  · split <;> rfl
@[simp] theorem State.modGroup_queue (s : State) (r : GroupRef) (f : Group → Group) (q : Nat) :
    (s.modGroup r f).queue q = s.queue q := by
  unfold State.modGroup; split; · rfl
  · split <;> rfl

/-- The group just changed is the changed group. -/
theorem State.findGroup_modGroup_self (s : State) (r : GroupRef) (f : Group → Group) :
    (s.modGroup r f).findGroup r = (s.findGroup r).map f := by
  by_cases h1 : r.team = 0
  · simp [State.modGroup, State.findGroup, h1]
  · cases h2 : Table.find s.teams r.team with
    | none =>
      simp only [State.modGroup, State.findGroup, h1, h2, if_false, Option.isSome_none, Bool.false_eq_true, Table.find_modify, if_true]
      cases Table.find s.left r.team with
      | none => rfl
      | some x => simp [getElem?_listModify]
    | some t => simp [State.modGroup, State.findGroup, State.modTeam, h1, h2, Table.find_modify, getElem?_listModify]

/-- Every other group stays as it was. -/
theorem State.findGroup_modGroup_other (s : State) {r q : GroupRef} (f : Group → Group) (h : q ≠ r) :
    (s.modGroup r f).findGroup q = s.findGroup q := by
  obtain ⟨rt, rg⟩ := r
  obtain ⟨qt, qg⟩ := q
  unfold State.modGroup State.findGroup
  by_cases h1 : rt = 0
  · subst h1
    by_cases h2 : qt = 0
    · subst h2
      have h3 : qg ≠ rg := by
        intro h4
        exact h (by rw [h4])
      simp [State.core_modCore_other s _ h3]
    · simp [h2]
  · by_cases h2 : qt = 0
    · simp only [h1, h2, if_true, if_false]
      split <;> rfl
    · cases h5 : Table.find s.teams rt with
      | none =>
        simp only [h1, h2, if_false, Option.isSome_none, Bool.false_eq_true, Table.find_modify]
        by_cases h3 : qt = rt
        · subst h3
          have h4 : qg ≠ rg := fun h6 => h (by rw [h6])
          cases Table.find s.left qt with
          | none => simp [h5]
          | some x => simp [h5, getElem?_listModify, h4]
        · simp [h3]
      | some t =>
        simp only [h1, h2, if_false, Option.isSome_some, if_true, State.modTeam, Table.find_modify]
        by_cases h3 : qt = rt
        · subst h3
          have h4 : qg ≠ rg := fun h6 => h (by rw [h6])
          simp [h5, getElem?_listModify, h4]
        · simp [h3]

end Sys2Proof.Machine
end

