-- ==== Sys2Proof/Laws/Fire.lean ====
section
/-! SUPPORT. What the shared operations of a processing element do: a slot's step, dequeuing, emitting, the write of a result. -/

namespace Sys2Proof.Machine

/-- A slot that fires gives its body's state. -/
theorem slotStep_of_fires {i : Instr} {w : SWord} {s : State} {e : PeEnv} {body : PeEnv → State} (he : s.peEnv = some e)
    (hc : e.cell.eligible i w = true) (hx : e.extra i = true) : slotStep i w s body = .next (body e) := by
  simp [slotStep, he, hc, hx]

/-- A slot that does not fire leaves the state. -/
theorem slotStep_of_idle {i : Instr} {w : SWord} {s : State} {e : PeEnv} {body : PeEnv → State} (he : s.peEnv = some e)
    (hc : e.cell.eligible i w = false ∨ e.extra i = false) : slotStep i w s body = .next s := by
  rcases hc with hc | hc <;> simp [slotStep, he, hc]

/-- Everything a slot can answer with a next state. -/
theorem slotStep_cases {i : Instr} {w : SWord} {s t : State} {body : PeEnv → State} (h : slotStep i w s body = .next t) :
    ∃ e, s.peEnv = some e ∧ ((e.cell.eligible i w = true ∧ e.extra i = true ∧ t = body e)
      ∨ ((e.cell.eligible i w = false ∨ e.extra i = false) ∧ t = s)) := by
  unfold slotStep at h
  split at h
  · cases h
  · rename_i e he
    refine ⟨e, he, ?_⟩
    split at h <;> rename_i hc
    · simp only [Bool.and_eq_true] at hc
      exact .inl ⟨hc.1, hc.2, by injection h with h; exact h.symm⟩
    · exact .inr ⟨by revert hc; cases e.cell.eligible i w <;> cases e.extra i <;> simp, by injection h with h; exact h.symm⟩

theorem listGetD_map_range {α : Type} (f : Nat → α) (d : α) {n k : Nat} (h : k < n) : listGetD ((List.range n).map f) k d = f k := by
  simp [listGetD, h]

/-- Dequeuing takes the heads of the inputs of its mask. -/
theorem Cell.inq_dequeue (c : Cell) (m : BitVec 4) {k : Nat} (h : k < 4) :
    (c.dequeue m).inq k = if m.getLsbD k then (c.inq k).tail else c.inq k :=
  listGetD_map_range _ _ h

/-- Emitting appends to the outputs of its mask. -/
theorem Cell.outq_emit (c : Cell) (m : BitVec 4) (x : OutEntry) {k : Nat} (h : k < 4) :
    (c.emit m x).outq k = if m.getLsbD k then c.outq k ++ [x] else c.outq k :=
  listGetD_map_range _ _ h

@[simp] theorem Cell.outq_dequeue (c : Cell) (m : BitVec 4) (k : Nat) : (c.dequeue m).outq k = c.outq k := rfl
@[simp] theorem Cell.inq_emit (c : Cell) (m : BitVec 4) (x : OutEntry) (k : Nat) : (c.emit m x).inq k = c.inq k := rfl
@[simp] theorem Cell.dequeue_l (c : Cell) (m : BitVec 4) : (c.dequeue m).l = c.l := rfl
@[simp] theorem Cell.emit_l (c : Cell) (m : BitVec 4) (x : OutEntry) : (c.emit m x).l = c.l := rfl
@[simp] theorem Cell.dequeue_b (c : Cell) (m : BitVec 4) : (c.dequeue m).b = c.b := rfl
@[simp] theorem Cell.emit_b (c : Cell) (m : BitVec 4) (x : OutEntry) : (c.emit m x).b = c.b := rfl

theorem Cell.get_writeL (c : Cell) (n k : Nat) (x : Word) : Sparse.get (c.writeL n x).l k = if k = n then x else Sparse.get c.l k := by
  unfold Cell.writeL
  exact Sparse.get_set c.l n k x

/-- A firing changes its own team's record alone. -/
theorem PeEnv.put_eq (e : PeEnv) (s : State) (c : Cell) : e.put s c = { s with teams := (e.put s c).teams } := rfl

end Sys2Proof.Machine
end

