-- ==== Sys2Proof/Laws/Native.lean ====
section
/-! SUPPORT. What the shared operations of native instructions do: the scoreboard, the words' registers in every lane, the completion of an
instruction. -/

namespace Sys2Proof.Machine

-- ## native and due

/-- A native instruction whose registers are free gives its body's state. -/
theorem native_of_free {u : Uses} {s : State} {e : Env} {body : Env → State} (he : s.env = some e) (hh : e.hazard u = false) :
    native u s body = .next (body e) := by
  simp [native, he, hh]

/-- One whose register has a pending write waits. -/
theorem native_of_hazard {u : Uses} {s : State} {e : Env} {body : Env → State} (he : s.env = some e) (hh : e.hazard u = true) :
    native u s body = .next (e.waitOn .scoreboard s) := by
  simp [native, he, hh]

/-- Everything a native instruction can answer with a next state. -/
theorem native_cases {u : Uses} {s t : State} {body : Env → State} (h : native u s body = .next t) :
    ∃ e, s.env = some e ∧ ((e.hazard u = true ∧ t = e.waitOn .scoreboard s) ∨ (e.hazard u = false ∧ t = body e)) := by
  unfold native at h
  split at h
  · cases h
  · rename_i e he
    refine ⟨e, he, ?_⟩
    split at h
    · rename_i hh
      exact .inl ⟨hh, by injection h with h; exact h.symm⟩
    · rename_i hh
      exact .inr ⟨by simpa using hh, by injection h with h; exact h.symm⟩

/-- A hardware step that answers was due. -/
theorem due_eq_next {o : Option State} {t : State} : due o = .next t ↔ o = some t := by
  unfold due
  split <;> simp_all

-- ## Registers

theorem vKey_inj {a b l m : Nat} (hl : l < 64) (hm : m < 64) : vKey a l = vKey b m ↔ a = b ∧ l = m := by
  unfold vKey
  omega

theorem pairOf_halves (x : BitVec 64) : pairOf (loWord x) (hiWord x) = x := by
  unfold pairOf loWord hiWord
  apply BitVec.eq_of_getLsbD_eq
  intro i hi
  rw [BitVec.getLsbD_append]
  split
  · simp [*]
  · rename_i h
    rw [BitVec.getLsbD_extractLsb']
    have : 32 + (i - 32) = i := by omega
    rw [this]
    simp
    omega

theorem mem_lanesOf {m : LaneMask} {l : Nat} : l ∈ lanesOf m ↔ l < 64 ∧ m.getLsbD l = true := by
  simp [lanesOf, List.mem_filter]

theorem nodup_lanesOf (m : LaneMask) : (lanesOf m).Nodup := by
  unfold lanesOf
  exact (List.nodup_range (n := 64)).sublist List.filter_sublist

@[simp] theorem Group.writeV_present (g : Group) (ring n l : Nat) (x : Word) : (g.writeV ring n l x).present = g.present := by
  unfold Group.writeV; split <;> rfl
@[simp] theorem Group.writeV_base (g : Group) (ring n l : Nat) (x : Word) : (g.writeV ring n l x).base = g.base := by
  unfold Group.writeV; split <;> rfl
@[simp] theorem Group.writeV_vSlot (g : Group) (ring n l r k : Nat) (x : Word) : (g.writeV ring n l x).vSlot r k = g.vSlot r k := by
  simp [Group.vSlot]
theorem Group.writeV_eq (g : Group) (ring n l : Nat) (x : Word) : g.writeV ring n l x = { g with v := (g.writeV ring n l x).v } := by
  unfold Group.writeV; split <;> rfl

/-- What a register write does to the register file. -/
theorem Group.get_writeV (g : Group) (ring n l key : Nat) (x : Word) :
    Sparse.get (g.writeV ring n l x).v key =
      if g.present.getLsbD l = true ∧ key = vKey (g.vSlot ring n) l then x else Sparse.get g.v key := by
  unfold Group.writeV
  split
  · rename_i h
    simp [Sparse.get_set, h]
  · rename_i h
    simp [h]

@[simp] theorem Group.writeVPair_present (g : Group) (ring n l : Nat) (x : BitVec 64) : (g.writeVPair ring n l x).present = g.present := by
  simp [Group.writeVPair]
@[simp] theorem Group.writeVPair_base (g : Group) (ring n l : Nat) (x : BitVec 64) : (g.writeVPair ring n l x).base = g.base := by
  simp [Group.writeVPair]
theorem Group.writeVPair_eq (g : Group) (ring n l : Nat) (x : BitVec 64) :
    g.writeVPair ring n l x = { g with v := (g.writeVPair ring n l x).v } := by
  unfold Group.writeVPair
  rw [Group.writeV_eq, Group.writeV_eq g]

theorem Group.get_writeVPair (g : Group) (ring n l key : Nat) (x : BitVec 64) :
    Sparse.get (g.writeVPair ring n l x).v key =
      if g.present.getLsbD l = true ∧ key = vKey (g.vSlot ring (n + 1)) l then hiWord x
      else if g.present.getLsbD l = true ∧ key = vKey (g.vSlot ring n) l then loWord x else Sparse.get g.v key := by
  simp [Group.writeVPair, Group.get_writeV]

/-- Writing a register, or a pair, of a list of lanes. -/
def writeEach (ring d : Nat) (pair : Bool) (f : Nat → BitVec 64) (ls : List Nat) (g : Group) : Group :=
  ls.foldl (fun g l => if pair then g.writeVPair ring d l (f l) else g.writeV ring d l (loWord (f l))) g

theorem writeEach_eq (ring d : Nat) (pair : Bool) (f : Nat → BitVec 64) (ls : List Nat) (g : Group) :
    writeEach ring d pair f ls g = { g with v := (writeEach ring d pair f ls g).v } := by
  induction ls generalizing g with
  | nil => rfl
  | cons l r ih =>
    show writeEach ring d pair f r _ = _
    have h2 : writeEach ring d pair f (l :: r) g =
        writeEach ring d pair f r (if pair then g.writeVPair ring d l (f l) else g.writeV ring d l (loWord (f l))) := rfl
    rw [h2]
    cases pair with
    | true =>
      have h1 := ih (g.writeVPair ring d l (f l))
      simp only [if_true]
      rw [h1, Group.writeVPair_eq]
    | false =>
      have h1 := ih (g.writeV ring d l (loWord (f l)))
      simp only [Bool.false_eq_true, if_false]
      rw [h1, Group.writeV_eq]

/-- The register file after writing a register, or a pair, of distinct lanes. -/
theorem get_writeEach (ring d : Nat) (pair : Bool) (f : Nat → BitVec 64) (ls : List Nat) (g : Group) (key : Nat)
    (hd : ls.Nodup) (hl : ∀ l ∈ ls, l < 64) :
    (∀ l ∈ ls, g.present.getLsbD l = true → pair = true → key = vKey (g.vSlot ring (d + 1)) l →
      Sparse.get (writeEach ring d pair f ls g).v key = hiWord (f l))
    ∧ (∀ l ∈ ls, g.present.getLsbD l = true → (pair = true → g.vSlot ring (d + 1) ≠ g.vSlot ring d) →
      key = vKey (g.vSlot ring d) l → Sparse.get (writeEach ring d pair f ls g).v key = loWord (f l))
    ∧ ((∀ l ∈ ls, key ≠ vKey (g.vSlot ring d) l ∧ (pair = true → key ≠ vKey (g.vSlot ring (d + 1)) l)) →
      Sparse.get (writeEach ring d pair f ls g).v key = Sparse.get g.v key) := by
  induction ls generalizing g with
  | nil => simp [writeEach]
  | cons m r ih =>
    have hr : r.Nodup := (List.nodup_cons.mp hd).2
    have hm : m ∉ r := (List.nodup_cons.mp hd).1
    have hlr : ∀ l ∈ r, l < 64 := fun l h => hl l (List.mem_cons_of_mem _ h)
    have h64 : m < 64 := hl m (List.mem_cons_self ..)
    have hstep : writeEach ring d pair f (m :: r) g =
        writeEach ring d pair f r (if pair then g.writeVPair ring d m (f m) else g.writeV ring d m (loWord (f m))) := rfl
    rw [hstep]
    cases pair with
    | true =>
      simp only [if_true]
      have hs : ∀ n, (g.writeVPair ring d m (f m)).vSlot ring n = g.vSlot ring n := by
        intro n; simp [Group.vSlot]
      have key3 := ih (g.writeVPair ring d m (f m)) hr hlr
      simp only [hs, Group.writeVPair_present] at key3
      refine ⟨?_, ?_, ?_⟩
      · intro l hl' hp _ hk
        rcases List.mem_cons.mp hl' with rfl | hl'
        · rw [key3.2.2, Group.get_writeVPair]
          · simp [hp, hk]
          · intro q hq
            subst hk
            have : q ≠ l := fun h => hm (h ▸ hq)
            constructor
            · intro hx; exact this ((vKey_inj h64 (hlr q hq)).mp hx).2.symm
            · intro _ hx; exact this ((vKey_inj h64 (hlr q hq)).mp hx).2.symm
        · exact key3.1 l hl' hp trivial hk
      · intro l hl' hp hne hk
        rcases List.mem_cons.mp hl' with rfl | hl'
        · rw [key3.2.2, Group.get_writeVPair]
          · subst hk
            have h1 : ¬ vKey (g.vSlot ring d) l = vKey (g.vSlot ring (d + 1)) l := by
              intro hx; exact hne trivial ((vKey_inj h64 h64).mp hx).1.symm
            simp [hp, h1]
          · intro q hq
            subst hk
            have : q ≠ l := fun h => hm (h ▸ hq)
            constructor
            · intro hx; exact this ((vKey_inj h64 (hlr q hq)).mp hx).2.symm
            · intro _ hx; exact this ((vKey_inj h64 (hlr q hq)).mp hx).2.symm
        · exact key3.2.1 l hl' hp hne hk
      · intro hk
        rw [key3.2.2 fun l hl' => hk l (List.mem_cons_of_mem _ hl'), Group.get_writeVPair]
        have h1 := hk m (List.mem_cons_self ..)
        simp [h1.1, h1.2 trivial]
    | false =>
      simp only [Bool.false_eq_true, if_false]
      have key3 := ih (g.writeV ring d m (loWord (f m))) hr hlr
      simp only [Group.writeV_vSlot, Group.writeV_present] at key3
      refine ⟨?_, ?_, ?_⟩
      · intro l _ _ h; cases h
      · intro l hl' hp hne hk
        rcases List.mem_cons.mp hl' with rfl | hl'
        · rw [key3.2.2, Group.get_writeV]
          · simp [hp, hk]
          · intro q hq
            subst hk
            have : q ≠ l := fun h => hm (h ▸ hq)
            constructor
            · intro hx; exact this ((vKey_inj h64 (hlr q hq)).mp hx).2.symm
            · intro h; cases h
        · exact key3.2.1 l hl' hp (fun h => by cases h) hk
      · intro hk
        rw [key3.2.2 fun l hl' => ⟨(hk l (List.mem_cons_of_mem _ hl')).1, fun h => by cases h⟩, Group.get_writeV]
        simp [(hk m (List.mem_cons_self ..)).1]

/-- Two neighbouring registers stand in different slots of a ring of more than one. -/
theorem Group.vSlot_succ_ne (g : Group) {ring : Nat} (n : Nat) (h : ring ≠ 1) : g.vSlot ring (n + 1) ≠ g.vSlot ring n := by
  unfold Group.vSlot
  split
  · omega
  · rename_i h0
    intro hx
    have h1 : (g.base + n + 1) % ring = (g.base + n) % ring := by rw [← hx]; congr 1
    have h2 := Nat.sub_mod_eq_zero_of_mod_eq h1
    have h3 : g.base + n + 1 - (g.base + n) = 1 := by omega
    rw [h3] at h2
    have : ring ∣ 1 := Nat.dvd_of_mod_eq_zero h2
    have := Nat.dvd_one.mp this
    omega

/-- writeLanes is the write of each lane of the mask. -/
theorem Env.writeLanes_eq (e : Env) (pair : Bool) (d : Nat) (m : LaneMask) (f : Nat → BitVec 64) :
    e.writeLanes pair d m f = writeEach e.ring d pair f (lanesOf m) e.grp := rfl

/-- A register operation without a carry is the write of each guarded lane. -/
theorem Env.aluGroup_eq (e : Env) (i : Instr) (r : AluRow) (w : AWord) (f : AluIn → AluOut) (h1 : r.toPred = false)
    (h2 : r.third ≠ .carry) :
    e.aluGroup i r w f = writeEach e.ring w.d.toNat (rowPair r i w) (fun l => (f (e.aluIn i r w l)).d) (lanesOf (e.guard w.g)) e.grp := by
  unfold Env.aluGroup writeEach
  simp only [h1, Bool.false_eq_true, if_false]
  congr 1
  funext g l
  unfold Env.writeAlu
  cases hr : r.third <;> simp_all

-- ## The shapes of register instructions

theorem aluStep_native {i : Instr} {f : AluIn → AluOut} {s : State} {e : Env} {r : AluRow} {w : AWord}
    (hr : i.aluRow = some (r, .native w)) (he : s.env = some e) (hh : e.hazard (aluUses i r w) = false) :
    aluStep i f s = .next (e.finish (e.aluGroup i r w f) s) := by
  unfold aluStep
  rw [hr]
  exact native_of_free he hh

theorem dotStep_native {i : Instr} {f : AluIn → AluOut} {s : State} {e : Env} {r : AluRow} {w : AWord}
    (hr : i.aluRow = some (r, .native w)) (he : s.env = some e) (hh : e.hazard (aluUses i r w) = false) :
    dotStep i f s = .next (e.charged s 16 fun s => e.finish (e.aluGroup i r w f) s) := by
  unfold dotStep
  rw [hr]
  exact native_of_free he hh

theorem microStep_native {i : Instr} {f : AluIn → AluOut} {s : State} {e : Env} {r : AluRow} {w : AWord}
    (hr : i.aluRow = some (r, .native w)) (he : s.env = some e) (hh : e.hazard (aluUses i r w) = false) :
    microStep i w f s = .next (e.finish (e.aluGroup i r w f) (if e.acts w.g then s.countRetuse e.ctx else s)) := by
  unfold microStep
  rw [hr]
  exact native_of_free he hh

-- ## Predicates

theorem Group.writeP_eq (g : Group) (n : Nat) (m x : LaneMask) : g.writeP n m x = { g with p := (g.writeP n m x).p } := by
  unfold Group.writeP
  split <;> rfl

@[simp] theorem Group.readP_zero (g : Group) : g.readP 0 = BitVec.allOnes 64 := rfl

theorem Group.readP_writeP_other (g : Group) {n k : Nat} (m x : LaneMask) (h : k ≠ n) : (g.writeP n m x).readP k = g.readP k := by
  unfold Group.writeP
  split
  · rfl
  · unfold Group.readP
    split
    · rfl
    · simp [Sparse.get_set_other _ _ h]

theorem Group.readP_writeP_self (g : Group) {n : Nat} (m x : LaneMask) (h : n ≠ 0) (l : Nat) :
    ((g.writeP n m x).readP n).getLsbD l =
      if m.getLsbD l && g.present.getLsbD l then x.getLsbD l else (g.readP n).getLsbD l := by
  unfold Group.writeP
  simp only [h, if_false]
  have : ({ g with p := Sparse.set g.p n (g.readP n &&& ~~~(m &&& g.present) ||| x &&& (m &&& g.present)) } : Group).readP n
      = (g.readP n &&& ~~~(m &&& g.present) ||| x &&& (m &&& g.present)) := by
    unfold Group.readP
    simp [h, Sparse.get_set_self]
  rw [this]
  by_cases hl : l < 64
  · simp only [BitVec.getLsbD_or, BitVec.getLsbD_and, BitVec.getLsbD_not, hl, decide_true, Bool.true_and]
    cases m.getLsbD l <;> cases g.present.getLsbD l <;> simp
  · have h1 : m.getLsbD l = false := BitVec.getLsbD_of_ge _ _ (by omega)
    simp only [BitVec.getLsbD_or, BitVec.getLsbD_and, BitVec.getLsbD_not, h1, Bool.false_and, Bool.false_eq_true, if_false, hl,
      decide_false, Bool.and_false, Bool.or_false]
    exact (BitVec.getLsbD_of_ge _ _ (by omega)).symm

end Sys2Proof.Machine
end

