-- ==== Sys2Proof/Laws/Memory.lean ====
section
/-! SUPPORT. Every operation that writes memory or the scratchpad keeps their canonical form, and what each of them writes; and what the end of
an instruction leaves. -/

namespace Sys2Proof.Machine

-- ## The canonical form

theorem reset_wf : State.reset.wf := by decide

/-- A state with the memory and scratchpad of another is canonical with it. -/
theorem wf_of_same {s t : State} (h : s.wf) (hm : t.mem = s.mem) (hs : t.scratch = s.scratch) : t.wf := by
  unfold State.wf
  rw [hm, hs]
  exact h

theorem Sparse.wf_foldr_set {w : Nat} {α : Type} (l : List α) (key : α → Nat) (val : α → BitVec w) {m : Sparse w}
    (h : Sparse.wf m = true) : Sparse.wf (l.foldr (fun e m => Sparse.set m (key e) (val e)) m) = true := by
  induction l with
  | nil => exact h
  | cons e r ih => exact Sparse.wf_set _ _ ih

/-- A touch of a committed line changes the overflow regions alone. -/
theorem touchCommitted_eq (s : State) (pa : Nat) : s.touchCommitted pa = { s with contexts := (s.touchCommitted pa).contexts } := by
  unfold State.touchCommitted
  simp only
  split <;> rfl

/-- A direct write of a byte changes memory, the committed versions, the ranges whose bytes are free and the overflow regions alone. -/
theorem writeDirect_eq (s : State) (pa : Nat) (b : Byte) :
    s.writeDirect pa b = { s with mem := Sparse.set s.mem pa b, committed := (s.writeDirect pa b).committed,
                                  blurs := cutBlurs s.blurs false pa 1, contexts := (s.touchCommitted pa).contexts } := by
  unfold State.writeDirect
  rw [touchCommitted_eq]

theorem writeDirect_wf {s : State} (pa : Nat) (b : Byte) (h : s.wf) : (s.writeDirect pa b).wf := by
  rw [writeDirect_eq]
  exact ⟨Sparse.wf_set _ _ h.1, h.2⟩

theorem writeDirectBytes_wf (bs : List Byte) : ∀ {s : State} (pa : Nat), s.wf → (s.writeDirectBytes pa bs).wf := by
  induction bs with
  | nil => intro s pa h; exact h
  | cons b r ih => intro s pa h; exact ih (pa + 1) (writeDirect_wf pa b h)

theorem writeScratch_wf (bs : List Byte) : ∀ {s : State} (off : Nat), s.wf → (s.writeScratch off bs).wf := by
  induction bs with
  | nil => intro s off h; exact h
  | cons b r ih => intro s off h; exact ih (off + 1) ⟨h.1, Sparse.wf_set _ _ h.2⟩

/-- A write to the scratchpad changes nothing but its bytes and the ranges whose bytes are free. -/
theorem writeScratch_eq (bs : List Byte) : ∀ (s : State) (off : Nat),
    s.writeScratch off bs = { s with scratch := (s.writeScratch off bs).scratch, blurs := (s.writeScratch off bs).blurs } := by
  induction bs with
  | nil => intro s off; rfl
  | cons b r ih => intro s off; simp only [State.writeScratch]; rw [ih]

/-- A direct write changes memory, the committed versions, the ranges whose bytes are free and the overflow regions alone. -/
theorem writeDirectBytes_eq (bs : List Byte) : ∀ (s : State) (pa : Nat),
    s.writeDirectBytes pa bs = { s with mem := (s.writeDirectBytes pa bs).mem, committed := (s.writeDirectBytes pa bs).committed,
                                        blurs := (s.writeDirectBytes pa bs).blurs, contexts := (s.writeDirectBytes pa bs).contexts } := by
  induction bs with
  | nil => intro s pa; rfl
  | cons b r ih =>
    intro s pa
    simp only [State.writeDirectBytes]
    rw [ih, writeDirect_eq]

/-- Keeping old values changes the history and its number alone. -/
theorem keep_eq (s : State) (src : GroupRef) (seq : Nat) (xs : List (Option (Nat × Nat) × Loc)) (pubs : List Pub) :
    s.keep src seq xs pubs = { s with stamp := (s.keep src seq xs pubs).stamp, history := (s.keep src seq xs pubs).history } := by
  unfold State.keep
  split <;> rfl

/-- Keeping old values changes no memory. -/
theorem remember_same (s : State) (src : GroupRef) (seq : Nat) (view : List (Nat × Nat)) (l : Loc) (n : Nat) (pubs : List Pub) :
    (s.remember src seq view l n pubs).mem = s.mem ∧ (s.remember src seq view l n pubs).scratch = s.scratch := by
  unfold State.remember
  rw [keep_eq]
  exact ⟨rfl, rfl⟩

/-- Notes of a launch's lines change no memory. -/
theorem touchLine_same (s : State) (v : Nat × Nat) (line : Nat) : (s.touchLine v line).mem = s.mem ∧ (s.touchLine v line).scratch = s.scratch := by
  unfold State.touchLine
  repeat' split
  all_goals exact ⟨rfl, rfl⟩

theorem foldl_same {α : Type} (l : List α) (f : State → α → State)
    (hf : ∀ s a, (f s a).mem = s.mem ∧ (f s a).scratch = s.scratch) :
    ∀ s, (l.foldl f s).mem = s.mem ∧ (l.foldl f s).scratch = s.scratch := by
  induction l with
  | nil => intro s; exact ⟨rfl, rfl⟩
  | cons a r ih =>
    intro s
    obtain ⟨h1, h2⟩ := ih (f s a)
    obtain ⟨h3, h4⟩ := hf s a
    exact ⟨h1.trans h3, h2.trans h4⟩

theorem writeTxn_wf {s : State} (v : Nat × Nat) (pa : Nat) (b : Byte) (h : s.wf) : (s.writeTxn v pa b).wf := by
  unfold State.writeTxn
  split
  · exact writeDirect_wf _ _ h
  · exact wf_of_same h (touchLine_same s _ _).1 (touchLine_same s _ _).2

/-- A write at a location, of whatever kind, keeps the canonical form. -/
theorem writeLoc_wf {s : State} (view : List (Nat × Nat)) (l : Loc) (bs : List Byte) (h : s.wf) : (s.writeLoc view l bs).wf := by
  unfold State.writeLoc
  split
  · exact writeScratch_wf _ _ h
  · split
    · rename_i pa _ _ v _
      have : ∀ (l : List (Byte × Nat)) (s : State), s.wf → (l.foldl (fun s e => s.writeTxn v (pa + e.2) e.1) s).wf := by
        intro l
        induction l with
        | nil => intro s h; exact h
        | cons e r ih => intro s h; exact ih _ (writeTxn_wf _ _ _ h)
      exact this _ _ h
    · exact writeDirectBytes_wf _ _ h

/-- A store that performs at its home keeps the canonical form. -/
theorem perform_wf {s : State} (src : GroupRef) (seq : Nat) (view : List (Nat × Nat)) (l : Loc) (bs : List Byte) (pubs : List Pub)
    (h : s.wf) : (s.perform src seq view l bs pubs).wf :=
  writeLoc_wf _ _ _ (wf_of_same h (remember_same s src seq view l bs.length pubs).1 (remember_same s src seq view l bs.length pubs).2)

/-- A range of scratchpad that reads as zero keeps the canonical form. -/
theorem zeroScratch_wf {s : State} (off n : Nat) (h : s.wf) : (s.zeroScratch off n).wf := ⟨h.1, Sparse.wf_clear off n h.2⟩

theorem flushed_wf {s : State} (h : s.wf) : s.flushed.wf := by
  refine ⟨?_, h.2⟩
  unfold State.flushed
  simp only
  generalize s.committed.reverse = l
  have : ∀ m : Sparse 8, Sparse.wf m = true → Sparse.wf (l.foldl (fun m c =>
      c.bytes.foldr (fun (e : Nat × Byte) (m : Sparse 8) => Sparse.set m e.1 e.2) m) m) = true := by
    induction l with
    | nil => intro m hm; exact hm
    | cons c r ih => intro m hm; exact ih _ (Sparse.wf_foldr_set c.bytes (fun e => e.1) (fun e => e.2) hm)
  exact this _ h.1

/-- A scratchpad range filled from a saved image keeps the canonical form: a restore and the debugger's view of a saved team. -/
theorem fill_wf {m : Memory} (image : Sparse 8) (base lo n : Nat) (h : Memory.wf m = true) :
    Memory.wf (image.foldl (fun (m : Sparse 8) (e : Nat × Byte) => Sparse.set m (base + e.1) e.2) (Sparse.clear m lo n)) = true :=
  Sparse.wf_foldl_set image (fun e => base + e.1) (fun e => e.2) (Sparse.wf_clear lo n h)

-- ## The end of an instruction

/-- Finishing, waiting and trapping write the issuer's group and its team alone. -/
theorem modGroup_same (s : State) (r : GroupRef) (f : Group → Group) :
    (s.modGroup r f).mem = s.mem ∧ (s.modGroup r f).scratch = s.scratch ∧ (s.modGroup r f).shadows = s.shadows
      ∧ (s.modGroup r f).contexts = s.contexts ∧ (s.modGroup r f).launches = s.launches ∧ (s.modGroup r f).grids = s.grids := by
  simp

theorem finish_wf {s : State} (e : Env) (g : Group) (h : s.wf) : (e.finish g s).wf :=
  wf_of_same h (modGroup_same _ _ _).1 (modGroup_same _ _ _).2.1

theorem waitOn_wf {s : State} (e : Env) (w : WaitOn) (h : s.wf) : (e.waitOn w s).wf :=
  wf_of_same h (modGroup_same _ _ _).1 (modGroup_same _ _ _).2.1

theorem trapWith_wf {s : State} (e : Env) (g : Group) (k : TrapKind) (d : BitVec 32) (a : BitVec 64) (l : BitVec 32) (b : Bool) (h : s.wf) :
    (e.trapWith s g k d a l b).wf := by
  unfold Env.trapWith
  simp only
  split
  · exact wf_of_same h (modGroup_same _ _ _).1 (modGroup_same _ _ _).2.1
  · exact wf_of_same h (modGroup_same _ _ _).1 (modGroup_same _ _ _).2.1

/-- A native instruction keeps the canonical form where its body does. -/
theorem native_wf {u : Uses} {s t : State} {body : Env → State} (h : s.wf) (hb : ∀ e, s.env = some e → (body e).wf)
    (hn : native u s body = .next t) : t.wf := by
  obtain ⟨e, he, ⟨-, rfl⟩ | ⟨-, rfl⟩⟩ := native_cases hn
  · exact waitOn_wf e _ h
  · exact hb e he

end Sys2Proof.Machine
end

