-- ==== Sys2Proof/Laws/PerInstr.lean ====
section
/-! SUPPORT. The family opcode: the word of every instruction carries, in its top byte, the op that the opcode map of R332 lists for it, and a
step of the hardware or the host has no word. One lemma for each constructor. -/

namespace Sys2Proof.Laws

/-- The op byte of a word: bits [63:56] of a native word, bits [95:88] of a spatial one. -/
def opByte (w : Encoded) : Byte :=
  match w with
  | .native w => w.extractLsb' 56 8
  | .slot w => w.extractLsb' 88 8

/-- The bits of an append above its low part. -/
theorem extract_append {a b : Nat} (x : BitVec a) (y : BitVec b) {n k : Nat} (h : b ≤ n) : (x ++ y).extractLsb' n k = x.extractLsb' (n - b) k := by
  apply BitVec.eq_of_getLsbD_eq
  intro i hi
  simp only [BitVec.getLsbD_extractLsb', BitVec.getLsbD_append, hi, decide_true, Bool.true_and]
  rw [if_neg (by omega)]
  congr 1
  omega

theorem extract_whole (op : Byte) : op.extractLsb' 0 8 = op := by simp

theorem opByte_aWord (op : Byte) (w : AWord) : opByte (.native (w.encode op)) = op := by
  unfold opByte AWord.encode
  simp only
  split
  · refine (extract_append _ _ (by decide)).trans ?_
    refine (extract_append _ _ (by decide)).trans ?_
    refine (extract_append _ _ (by decide)).trans ?_
    refine (extract_append _ _ (by decide)).trans ?_
    refine (extract_append _ _ (by decide)).trans ?_
    refine (extract_append _ _ (by decide)).trans ?_
    refine (extract_append _ _ (by decide)).trans ?_
    refine (extract_append _ _ (by decide)).trans ?_
    exact extract_whole _
  · refine (extract_append _ _ (by decide)).trans ?_
    refine (extract_append _ _ (by decide)).trans ?_
    refine (extract_append _ _ (by decide)).trans ?_
    refine (extract_append _ _ (by decide)).trans ?_
    refine (extract_append _ _ (by decide)).trans ?_
    refine (extract_append _ _ (by decide)).trans ?_
    refine (extract_append _ _ (by decide)).trans ?_
    refine (extract_append _ _ (by decide)).trans ?_
    refine (extract_append _ _ (by decide)).trans ?_
    refine (extract_append _ _ (by decide)).trans ?_
    exact extract_whole _

theorem opByte_mWord (op : Byte) (w : MWord) : opByte (.native (w.encode op)) = op := by
  unfold opByte MWord.encode
  refine (extract_append _ _ (by decide)).trans ?_
  refine (extract_append _ _ (by decide)).trans ?_
  refine (extract_append _ _ (by decide)).trans ?_
  refine (extract_append _ _ (by decide)).trans ?_
  refine (extract_append _ _ (by decide)).trans ?_
  refine (extract_append _ _ (by decide)).trans ?_
  refine (extract_append _ _ (by decide)).trans ?_
  refine (extract_append _ _ (by decide)).trans ?_
  exact extract_whole _

theorem opByte_bWord (op : Byte) (w : BWord) : opByte (.native (w.encode op)) = op := by
  unfold opByte BWord.encode
  refine (extract_append _ _ (by decide)).trans ?_
  refine (extract_append _ _ (by decide)).trans ?_
  refine (extract_append _ _ (by decide)).trans ?_
  refine (extract_append _ _ (by decide)).trans ?_
  exact extract_whole _

theorem opByte_pWord (op : Byte) (w : PWord) : opByte (.native (w.encode op)) = op := by
  unfold opByte PWord.encode
  refine (extract_append _ _ (by decide)).trans ?_
  refine (extract_append _ _ (by decide)).trans ?_
  refine (extract_append _ _ (by decide)).trans ?_
  refine (extract_append _ _ (by decide)).trans ?_
  refine (extract_append _ _ (by decide)).trans ?_
  refine (extract_append _ _ (by decide)).trans ?_
  refine (extract_append _ _ (by decide)).trans ?_
  refine (extract_append _ _ (by decide)).trans ?_
  refine (extract_append _ _ (by decide)).trans ?_
  exact extract_whole _

theorem opByte_xWord (op : Byte) (w : XWord) : opByte (.native (w.encode op)) = op := by
  unfold opByte XWord.encode
  refine (extract_append _ _ (by decide)).trans ?_
  refine (extract_append _ _ (by decide)).trans ?_
  refine (extract_append _ _ (by decide)).trans ?_
  refine (extract_append _ _ (by decide)).trans ?_
  refine (extract_append _ _ (by decide)).trans ?_
  refine (extract_append _ _ (by decide)).trans ?_
  refine (extract_append _ _ (by decide)).trans ?_
  refine (extract_append _ _ (by decide)).trans ?_
  refine (extract_append _ _ (by decide)).trans ?_
  refine (extract_append _ _ (by decide)).trans ?_
  refine (extract_append _ _ (by decide)).trans ?_
  exact extract_whole _

theorem opByte_hWord (w : HWord) : opByte (.native w.encode) = 0xF0 := by
  unfold opByte HWord.encode
  refine (extract_append _ _ (by decide)).trans ?_
  refine (extract_append _ _ (by decide)).trans ?_
  refine (extract_append _ _ (by decide)).trans ?_
  refine (extract_append _ _ (by decide)).trans ?_
  refine (extract_append _ _ (by decide)).trans ?_
  exact extract_whole _

theorem opByte_sWord (op : Byte) (w : SWord) : opByte (.slot (w.encode op)) = op := by
  unfold opByte SWord.encode
  refine (extract_append _ _ (by decide)).trans ?_
  refine (extract_append _ _ (by decide)).trans ?_
  refine (extract_append _ _ (by decide)).trans ?_
  refine (extract_append _ _ (by decide)).trans ?_
  refine (extract_append _ _ (by decide)).trans ?_
  refine (extract_append _ _ (by decide)).trans ?_
  refine (extract_append _ _ (by decide)).trans ?_
  refine (extract_append _ _ (by decide)).trans ?_
  refine (extract_append _ _ (by decide)).trans ?_
  refine (extract_append _ _ (by decide)).trans ?_
  refine (extract_append _ _ (by decide)).trans ?_
  refine (extract_append _ _ (by decide)).trans ?_
  refine (extract_append _ _ (by decide)).trans ?_
  refine (extract_append _ _ (by decide)).trans ?_
  refine (extract_append _ _ (by decide)).trans ?_
  refine (extract_append _ _ (by decide)).trans ?_
  refine (extract_append _ _ (by decide)).trans ?_
  refine (extract_append _ _ (by decide)).trans ?_
  refine (extract_append _ _ (by decide)).trans ?_
  exact extract_whole _

theorem opByte_bare (op : Byte) : opByte (.native (bareEncode op)) = op := by
  unfold opByte bareEncode
  refine (extract_append _ _ (by decide)).trans ?_
  exact extract_whole _

theorem opByte_alu (op : Byte) (w : Alu) : opByte (w.encode op) = op := by
  cases w
  · exact opByte_aWord op _
  · exact opByte_sWord op _

/-- The op of the opcode map for each instruction (R332). -/
def opOf (i : Instr) : Option Byte :=
  match i with
  | .abs _ => some 0x0C
  | .accalloc _ => some 0x93
  | .accgrow _ => some 0x94
  | .accfree _ => some 0x95
  | .accld _ => some 0x96
  | .accst _ => some 0x97
  | .add _ => some 0x01
  | .addc _ => some 0x03
  | .and _ => some 0x0D
  | .andn _ => some 0x10
  | .arrive _ => some 0x86
  | .atn _ => some 0xC6
  | .atom _ => some 0x80
  | .atoms _ => some 0x81
  | .barinit _ => some 0x85
  | .bcast _ => some 0x44
  | .bfi _ => some 0x1A
  | .bfx _ => some 0x19
  | .bkpt => some 0xA2
  | .br _ => some 0x58
  | .brev _ => some 0x18
  | .brx _ => some 0x59
  | .bsync => some 0x65
  | .btok _ => some 0xCE
  | .btop _ => some 0xA6
  | .call _ => some 0x5A
  | .calln _ => some 0xC9
  | .cas _ => some 0x82
  | .cass _ => some 0x83
  | .clause _ => some 0xF0
  | .clz _ => some 0x16
  | .cmp _ => some 0x1C
  | .cnt _ => some 0xC2
  | .coll _ => some 0x9A
  | .conv _ => some 0xC8
  | .copy _ => some 0x90
  | .cvt _ => some 0x33
  | .cwait _ => some 0x64
  | .divi _ => some 0x08
  | .dot2 _ => some 0x36
  | .dot4 _ => some 0x37
  | .dot8 _ => some 0x38
  | .emit _ => some 0xCF
  | .eqp _ => some 0x61
  | .eqpn _ => some 0xD3
  | .eret => some 0xA1
  | .exit _ => some 0x5E
  | .fadd _ => some 0x20
  | .fbar => some 0xA4
  | .fclass _ => some 0x30
  | .fcmp _ => some 0x26
  | .fcos _ => some 0x2E
  | .fdiv _ => some 0x27
  | .fence _ => some 0x84
  | .fexp2 _ => some 0x2B
  | .ffma _ => some 0x23
  | .flog2 _ => some 0x2C
  | .fmax _ => some 0x25
  | .fmin _ => some 0x24
  | .fmul _ => some 0x22
  | .frcp _ => some 0x28
  | .frnd _ => some 0x31
  | .frsq _ => some 0x29
  | .fscale _ => some 0x32
  | .fsin _ => some 0x2D
  | .fsqrt _ => some 0x2A
  | .fsub _ => some 0x21
  | .ftanh _ => some 0x2F
  | .gather _ => some 0x91
  | .halt => some 0xA7
  | .hop _ _ => some 0x62
  | .icinv => some 0xA3
  | .isect _ => some 0xC3
  | .launch _ => some 0x99
  | .ld _ => some 0x70
  | .lds _ => some 0x72
  | .ldv _ => some 0x74
  | .ldbt _ => some 0x76
  | .ldc _ => some 0x78
  | .ldn _ => some 0xC4
  | .lea _ => some 0x1D
  | .loop _ => some 0x5C
  | .mad _ => some 0x07
  | .max _ => some 0x0B
  | .min _ => some 0x0A
  | .merge _ => some 0xC1
  | .mfsr _ => some 0x48
  | .mma _ => some 0x92
  | .mov _ => some 0x40
  | .movh _ => some 0x42
  | .movi _ => some 0x41
  | .mport _ => some 0xD2
  | .mtsr _ => some 0x49
  | .mul _ => some 0x05
  | .mulh _ => some 0x06
  | .next _ => some 0xCB
  | .nop => some 0x63
  | .not _ => some 0x11
  | .or _ => some 0x0E
  | .popc _ => some 0x17
  | .pack _ => some 0x34
  | .pand _ => some 0x50
  | .por _ => some 0x51
  | .pxor _ => some 0x52
  | .pnot _ => some 0x53
  | .pmov _ => some 0x54
  | .pent _ => some 0xCC
  | .pexit _ => some 0xCD
  | .prf _ => some 0x79
  | .query _ => some 0x98
  | .red _ => some 0x46
  | .remi _ => some 0x09
  | .ret _ => some 0x5B
  | .retn _ => some 0xCA
  | .rot _ => some 0x15
  | .sar _ => some 0x14
  | .shl _ => some 0x12
  | .shr _ => some 0x13
  | .scan _ => some 0x47
  | .sel _ => some 0x1B
  | .serl => some 0x5F
  | .sere => some 0x60
  | .shfl _ => some 0x43
  | .sink _ => some 0xD0
  | .st _ => some 0x71
  | .sts _ => some 0x73
  | .stv _ => some 0x75
  | .stbt _ => some 0x77
  | .steer _ => some 0xC0
  | .stn _ => some 0xC5
  | .sub _ => some 0x02
  | .subb _ => some 0x04
  | .swait _ => some 0xD1
  | .tlbinv _ => some 0xA5
  | .trap _ _ => some 0xA0
  | .unpack _ => some 0x35
  | .vote _ => some 0x45
  | .wait _ => some 0x87
  | .waitf _ => some 0x9B
  | .xlat _ => some 0xC7
  | .xor _ => some 0x0F
  | .yield _ => some 0x5D
  | _ => none

namespace Opcode

/-- The instruction's word carries its op. -/
def Statement (i : Instr) : Prop := (encode i).map opByte = opOf i

theorem abs (w : Alu) : Statement (.abs w) := congrArg some (opByte_alu 0x0C w)
theorem accalloc (w : XWord) : Statement (.accalloc w) := congrArg some (opByte_xWord 0x93 w)
theorem accgrow (w : XWord) : Statement (.accgrow w) := congrArg some (opByte_xWord 0x94 w)
theorem accfree (w : XWord) : Statement (.accfree w) := congrArg some (opByte_xWord 0x95 w)
theorem accld (w : XWord) : Statement (.accld w) := congrArg some (opByte_xWord 0x96 w)
theorem accst (w : XWord) : Statement (.accst w) := congrArg some (opByte_xWord 0x97 w)
theorem add (w : Alu) : Statement (.add w) := congrArg some (opByte_alu 0x01 w)
theorem addc (w : Alu) : Statement (.addc w) := congrArg some (opByte_alu 0x03 w)
theorem and (w : Alu) : Statement (.and w) := congrArg some (opByte_alu 0x0D w)
theorem andn (w : Alu) : Statement (.andn w) := congrArg some (opByte_alu 0x10 w)
theorem arrive (w : MWord) : Statement (.arrive w) := congrArg some (opByte_mWord 0x86 w)
theorem atn (w : SWord) : Statement (.atn w) := congrArg some (opByte_sWord 0xC6 w)
theorem atom (w : MWord) : Statement (.atom w) := congrArg some (opByte_mWord 0x80 w)
theorem atoms (w : MWord) : Statement (.atoms w) := congrArg some (opByte_mWord 0x81 w)
theorem barinit (w : MWord) : Statement (.barinit w) := congrArg some (opByte_mWord 0x85 w)
theorem bcast (w : AWord) : Statement (.bcast w) := congrArg some (opByte_aWord 0x44 w)
theorem bfi (w : Alu) : Statement (.bfi w) := congrArg some (opByte_alu 0x1A w)
theorem bfx (w : Alu) : Statement (.bfx w) := congrArg some (opByte_alu 0x19 w)
theorem bkpt : Statement (.bkpt) := congrArg some (opByte_bare 0xA2)
theorem br (w : BWord) : Statement (.br w) := congrArg some (opByte_bWord 0x58 w)
theorem brev (w : Alu) : Statement (.brev w) := congrArg some (opByte_alu 0x18 w)
theorem brx (w : BWord) : Statement (.brx w) := congrArg some (opByte_bWord 0x59 w)
theorem bsync : Statement (.bsync) := congrArg some (opByte_bare 0x65)
theorem btok (w : SWord) : Statement (.btok w) := congrArg some (opByte_sWord 0xCE w)
theorem btop (w : XWord) : Statement (.btop w) := congrArg some (opByte_xWord 0xA6 w)
theorem call (w : BWord) : Statement (.call w) := congrArg some (opByte_bWord 0x5A w)
theorem calln (w : SWord) : Statement (.calln w) := congrArg some (opByte_sWord 0xC9 w)
theorem cas (w : MWord) : Statement (.cas w) := congrArg some (opByte_mWord 0x82 w)
theorem cass (w : MWord) : Statement (.cass w) := congrArg some (opByte_mWord 0x83 w)
theorem clause (w : HWord) : Statement (.clause w) := congrArg some (opByte_hWord w)
theorem clz (w : Alu) : Statement (.clz w) := congrArg some (opByte_alu 0x16 w)
theorem cmp (w : Alu) : Statement (.cmp w) := congrArg some (opByte_alu 0x1C w)
theorem cnt (w : SWord) : Statement (.cnt w) := congrArg some (opByte_sWord 0xC2 w)
theorem coll (w : XWord) : Statement (.coll w) := congrArg some (opByte_xWord 0x9A w)
theorem conv (w : SWord) : Statement (.conv w) := congrArg some (opByte_sWord 0xC8 w)
theorem copy (w : XWord) : Statement (.copy w) := congrArg some (opByte_xWord 0x90 w)
theorem cvt (w : Alu) : Statement (.cvt w) := congrArg some (opByte_alu 0x33 w)
theorem cwait (w : MWord) : Statement (.cwait w) := congrArg some (opByte_mWord 0x64 w)
theorem cwaitPoll (g : GroupRef) (lane : Nat) : Statement (.cwaitPoll g lane) := rfl
theorem divi (w : AWord) : Statement (.divi w) := congrArg some (opByte_aWord 0x08 w)
theorem dot2 (w : Alu) : Statement (.dot2 w) := congrArg some (opByte_alu 0x36 w)
theorem dot4 (w : Alu) : Statement (.dot4 w) := congrArg some (opByte_alu 0x37 w)
theorem dot8 (w : Alu) : Statement (.dot8 w) := congrArg some (opByte_alu 0x38 w)
theorem emit (w : SWord) : Statement (.emit w) := congrArg some (opByte_sWord 0xCF w)
theorem eqp (id : BitVec 12) : Statement (.eqp id) := congrArg some (by
  refine (extract_append _ _ (by decide)).trans ?_
  refine (extract_append _ _ (by decide)).trans ?_
  refine (extract_append _ _ (by decide)).trans ?_
  exact extract_whole _)
theorem eqpn (w : SWord) : Statement (.eqpn w) := congrArg some (opByte_sWord 0xD3 w)
theorem eret : Statement (.eret) := congrArg some (opByte_bare 0xA1)
theorem exit (w : BWord) : Statement (.exit w) := congrArg some (opByte_bWord 0x5E w)
theorem fadd (w : Alu) : Statement (.fadd w) := congrArg some (opByte_alu 0x20 w)
theorem fbar : Statement (.fbar) := congrArg some (opByte_bare 0xA4)
theorem fclass (w : Alu) : Statement (.fclass w) := congrArg some (opByte_alu 0x30 w)
theorem fcmp (w : Alu) : Statement (.fcmp w) := congrArg some (opByte_alu 0x26 w)
theorem fcos (w : Alu) : Statement (.fcos w) := congrArg some (opByte_alu 0x2E w)
theorem fdiv (w : AWord) : Statement (.fdiv w) := congrArg some (opByte_aWord 0x27 w)
theorem fence (w : MWord) : Statement (.fence w) := congrArg some (opByte_mWord 0x84 w)
theorem fexp2 (w : Alu) : Statement (.fexp2 w) := congrArg some (opByte_alu 0x2B w)
theorem ffma (w : Alu) : Statement (.ffma w) := congrArg some (opByte_alu 0x23 w)
theorem flog2 (w : Alu) : Statement (.flog2 w) := congrArg some (opByte_alu 0x2C w)
theorem fmax (w : Alu) : Statement (.fmax w) := congrArg some (opByte_alu 0x25 w)
theorem fmin (w : Alu) : Statement (.fmin w) := congrArg some (opByte_alu 0x24 w)
theorem fmul (w : Alu) : Statement (.fmul w) := congrArg some (opByte_alu 0x22 w)
theorem frcp (w : Alu) : Statement (.frcp w) := congrArg some (opByte_alu 0x28 w)
theorem frnd (w : Alu) : Statement (.frnd w) := congrArg some (opByte_alu 0x31 w)
theorem frsq (w : Alu) : Statement (.frsq w) := congrArg some (opByte_alu 0x29 w)
theorem fscale (w : Alu) : Statement (.fscale w) := congrArg some (opByte_alu 0x32 w)
theorem fsin (w : Alu) : Statement (.fsin w) := congrArg some (opByte_alu 0x2D w)
theorem fsqrt (w : Alu) : Statement (.fsqrt w) := congrArg some (opByte_alu 0x2A w)
theorem fsub (w : Alu) : Statement (.fsub w) := congrArg some (opByte_alu 0x21 w)
theorem ftanh (w : Alu) : Statement (.ftanh w) := congrArg some (opByte_alu 0x2F w)
theorem gather (w : XWord) : Statement (.gather w) := congrArg some (opByte_xWord 0x91 w)
theorem halt : Statement (.halt) := congrArg some (opByte_bare 0xA7)
theorem hop (g : Guard) (target : BitVec 2) : Statement (.hop g target) := congrArg some (by
  refine (extract_append _ _ (by decide)).trans ?_
  refine (extract_append _ _ (by decide)).trans ?_
  refine (extract_append _ _ (by decide)).trans ?_
  refine (extract_append _ _ (by decide)).trans ?_
  refine (extract_append _ _ (by decide)).trans ?_
  exact extract_whole _)
theorem icinv : Statement (.icinv) := congrArg some (opByte_bare 0xA3)
theorem isect (w : SWord) : Statement (.isect w) := congrArg some (opByte_sWord 0xC3 w)
theorem launch (w : XWord) : Statement (.launch w) := congrArg some (opByte_xWord 0x99 w)
theorem ld (w : MWord) : Statement (.ld w) := congrArg some (opByte_mWord 0x70 w)
theorem lds (w : MWord) : Statement (.lds w) := congrArg some (opByte_mWord 0x72 w)
theorem ldv (w : MWord) : Statement (.ldv w) := congrArg some (opByte_mWord 0x74 w)
theorem ldbt (w : MWord) : Statement (.ldbt w) := congrArg some (opByte_mWord 0x76 w)
theorem ldc (w : MWord) : Statement (.ldc w) := congrArg some (opByte_mWord 0x78 w)
theorem ldn (w : SWord) : Statement (.ldn w) := congrArg some (opByte_sWord 0xC4 w)
theorem lea (w : Alu) : Statement (.lea w) := congrArg some (opByte_alu 0x1D w)
theorem loop (w : BWord) : Statement (.loop w) := congrArg some (opByte_bWord 0x5C w)
theorem mad (w : Alu) : Statement (.mad w) := congrArg some (opByte_alu 0x07 w)
theorem max (w : Alu) : Statement (.max w) := congrArg some (opByte_alu 0x0B w)
theorem min (w : Alu) : Statement (.min w) := congrArg some (opByte_alu 0x0A w)
theorem merge (w : SWord) : Statement (.merge w) := congrArg some (opByte_sWord 0xC1 w)
theorem mfsr (w : AWord) : Statement (.mfsr w) := congrArg some (opByte_aWord 0x48 w)
theorem mma (w : XWord) : Statement (.mma w) := congrArg some (opByte_xWord 0x92 w)
theorem mov (w : Alu) : Statement (.mov w) := congrArg some (opByte_alu 0x40 w)
theorem movh (w : AWord) : Statement (.movh w) := congrArg some (opByte_aWord 0x42 w)
theorem movi (w : AWord) : Statement (.movi w) := congrArg some (opByte_aWord 0x41 w)
theorem mport (w : SWord) : Statement (.mport w) := congrArg some (opByte_sWord 0xD2 w)
theorem mtsr (w : AWord) : Statement (.mtsr w) := congrArg some (opByte_aWord 0x49 w)
theorem mul (w : Alu) : Statement (.mul w) := congrArg some (opByte_alu 0x05 w)
theorem mulh (w : Alu) : Statement (.mulh w) := congrArg some (opByte_alu 0x06 w)
theorem next (w : SWord) : Statement (.next w) := congrArg some (opByte_sWord 0xCB w)
theorem nop : Statement (.nop) := congrArg some (opByte_bare 0x63)
theorem not (w : Alu) : Statement (.not w) := congrArg some (opByte_alu 0x11 w)
theorem or (w : Alu) : Statement (.or w) := congrArg some (opByte_alu 0x0E w)
theorem popc (w : Alu) : Statement (.popc w) := congrArg some (opByte_alu 0x17 w)
theorem pack (w : Alu) : Statement (.pack w) := congrArg some (opByte_alu 0x34 w)
theorem pand (w : PWord) : Statement (.pand w) := congrArg some (opByte_pWord 0x50 w)
theorem por (w : PWord) : Statement (.por w) := congrArg some (opByte_pWord 0x51 w)
theorem pxor (w : PWord) : Statement (.pxor w) := congrArg some (opByte_pWord 0x52 w)
theorem pnot (w : PWord) : Statement (.pnot w) := congrArg some (opByte_pWord 0x53 w)
theorem pmov (w : PWord) : Statement (.pmov w) := congrArg some (opByte_pWord 0x54 w)
theorem pent (w : SWord) : Statement (.pent w) := congrArg some (opByte_sWord 0xCC w)
theorem pexit (w : SWord) : Statement (.pexit w) := congrArg some (opByte_sWord 0xCD w)
theorem prf (w : MWord) : Statement (.prf w) := congrArg some (opByte_mWord 0x79 w)
theorem query (w : XWord) : Statement (.query w) := congrArg some (opByte_xWord 0x98 w)
theorem red (w : AWord) : Statement (.red w) := congrArg some (opByte_aWord 0x46 w)
theorem remi (w : AWord) : Statement (.remi w) := congrArg some (opByte_aWord 0x09 w)
theorem ret (w : BWord) : Statement (.ret w) := congrArg some (opByte_bWord 0x5B w)
theorem retn (w : SWord) : Statement (.retn w) := congrArg some (opByte_sWord 0xCA w)
theorem rot (w : Alu) : Statement (.rot w) := congrArg some (opByte_alu 0x15 w)
theorem sar (w : Alu) : Statement (.sar w) := congrArg some (opByte_alu 0x14 w)
theorem shl (w : Alu) : Statement (.shl w) := congrArg some (opByte_alu 0x12 w)
theorem shr (w : Alu) : Statement (.shr w) := congrArg some (opByte_alu 0x13 w)
theorem scan (w : AWord) : Statement (.scan w) := congrArg some (opByte_aWord 0x47 w)
theorem sel (w : Alu) : Statement (.sel w) := congrArg some (opByte_alu 0x1B w)
theorem serl : Statement (.serl) := congrArg some (opByte_bare 0x5F)
theorem sere : Statement (.sere) := congrArg some (opByte_bare 0x60)
theorem shfl (w : AWord) : Statement (.shfl w) := congrArg some (opByte_aWord 0x43 w)
theorem sink (w : SWord) : Statement (.sink w) := congrArg some (opByte_sWord 0xD0 w)
theorem st (w : MWord) : Statement (.st w) := congrArg some (opByte_mWord 0x71 w)
theorem sts (w : MWord) : Statement (.sts w) := congrArg some (opByte_mWord 0x73 w)
theorem stv (w : MWord) : Statement (.stv w) := congrArg some (opByte_mWord 0x75 w)
theorem stbt (w : MWord) : Statement (.stbt w) := congrArg some (opByte_mWord 0x77 w)
theorem steer (w : SWord) : Statement (.steer w) := congrArg some (opByte_sWord 0xC0 w)
theorem stn (w : SWord) : Statement (.stn w) := congrArg some (opByte_sWord 0xC5 w)
theorem sub (w : Alu) : Statement (.sub w) := congrArg some (opByte_alu 0x02 w)
theorem subb (w : Alu) : Statement (.subb w) := congrArg some (opByte_alu 0x04 w)
theorem swait (w : SWord) : Statement (.swait w) := congrArg some (opByte_sWord 0xD1 w)
theorem tlbinv (w : XWord) : Statement (.tlbinv w) := congrArg some (opByte_xWord 0xA5 w)
theorem trap (g : Guard) (imm : BitVec 24) : Statement (.trap g imm) := congrArg some (by
  refine (extract_append _ _ (by decide)).trans ?_
  refine (extract_append _ _ (by decide)).trans ?_
  refine (extract_append _ _ (by decide)).trans ?_
  refine (extract_append _ _ (by decide)).trans ?_
  refine (extract_append _ _ (by decide)).trans ?_
  exact extract_whole _)
theorem unpack (w : Alu) : Statement (.unpack w) := congrArg some (opByte_alu 0x35 w)
theorem vote (w : AWord) : Statement (.vote w) := congrArg some (opByte_aWord 0x45 w)
theorem wait (w : MWord) : Statement (.wait w) := congrArg some (opByte_mWord 0x87 w)
theorem waitPoll (g : GroupRef) (lane : Nat) : Statement (.waitPoll g lane) := rfl
theorem waitf (w : XWord) : Statement (.waitf w) := congrArg some (opByte_xWord 0x9B w)
theorem xlat (w : SWord) : Statement (.xlat w) := congrArg some (opByte_sWord 0xC7 w)
theorem xor (w : Alu) : Statement (.xor w) := congrArg some (opByte_alu 0x0F w)
theorem yield (w : BWord) : Statement (.yield w) := congrArg some (opByte_bWord 0x5D w)
theorem loadCompletion (g : GroupRef) (idx : Nat) : Statement (.loadCompletion g idx) := rfl
theorem instructionFetchComplete (g : GroupRef) (path : Nat) : Statement (.instructionFetchComplete g path) := rfl
theorem starvationBoost (g : GroupRef) : Statement (.starvationBoost g) := rfl
theorem teamPlacement (grid : Nat) : Statement (.teamPlacement grid) := rfl
theorem gangAdmission (grid : Nat) : Statement (.gangAdmission grid) := rfl
theorem teamRetire (team : Nat) : Statement (.teamRetire team) := rfl
theorem callistoSample (core : Nat) : Statement (.callistoSample core) := rfl
theorem sEntry (team : Nat) : Statement (.sEntry team) := rfl
theorem hopTimeout (team : Nat) : Statement (.hopTimeout team) := rfl
theorem sRollback (team : Nat) : Statement (.sRollback team) := rfl
theorem regionConfigure (team : Nat) : Statement (.regionConfigure team) := rfl
theorem tokenTransfer (team : Nat) (col row entry : Nat) : Statement (.tokenTransfer team col row entry) := rfl
theorem streamPortRead (team : Nat) (port : Nat) : Statement (.streamPortRead team port) := rfl
theorem streamPortWrite (team : Nat) (port : Nat) : Statement (.streamPortWrite team port) := rfl
theorem memoryChainRequest (team : Nat) (chain : Nat) : Statement (.memoryChainRequest team chain) := rfl
theorem memoryTileAccess (core : Nat) (tile : Nat) : Statement (.memoryTileAccess core tile) := rfl
theorem starvationWatchEvent (team : Nat) (col row slot : Nat) : Statement (.starvationWatchEvent team col row slot) := rfl
theorem converterReconfigure (team : Nat) (change : ConvChange) : Statement (.converterReconfigure team change) := rfl
theorem planeReload (team : Nat) : Statement (.planeReload team) := rfl
theorem nextLoad (team : Nat) : Statement (.nextLoad team) := rfl
theorem freezeWave (team : Nat) : Statement (.freezeWave team) := rfl
theorem mmaExecute (core : Nat) : Statement (.mmaExecute core) := rfl
theorem mmaCompletion (core : Nat) : Statement (.mmaCompletion core) := rfl
theorem accCopyCompletion (core : Nat) : Statement (.accCopyCompletion core) := rfl
theorem copyCompletion (core : Nat) (idx : Nat) : Statement (.copyCompletion core idx) := rfl
theorem gatherCompletion (core : Nat) (idx : Nat) : Statement (.gatherCompletion core idx) := rfl
theorem queryAnswer (idx : Nat) : Statement (.queryAnswer idx) := rfl
theorem collCompletion (idx : Nat) (others : List (List (BitVec 8))) : Statement (.collCompletion idx others) := rfl
theorem accfreeUnbind (g : GroupRef) : Statement (.accfreeUnbind g) := rfl
theorem shootdownComplete (idx : Nat) : Statement (.shootdownComplete idx) := rfl
theorem blockTableSweep (ctx : Nat) (desc : BitVec 64) : Statement (.blockTableSweep ctx desc) := rfl
theorem demotionBegin (ctx : Nat) (desc : BitVec 64) (entry : Nat) (dblk : BitVec 36) (dtier : BitVec 2) : Statement (.demotionBegin ctx desc entry dblk dtier) := rfl
theorem demotionSwap (idx : Nat) : Statement (.demotionSwap idx) := rfl
theorem eccCorrectable (core : Nat) : Statement (.eccCorrectable core) := rfl
theorem eccUncorrectable (p : EccPlace) : Statement (.eccUncorrectable p) := rfl
theorem linkCrcRetry (link : Nat) : Statement (.linkCrcRetry link) := rfl
theorem portFailure (p : PortRef) : Statement (.portFailure p) := rfl
theorem conflictAbort (launch : Nat) : Statement (.conflictAbort launch) := rfl
theorem launchReplay (launch : Nat) : Statement (.launchReplay launch) := rfl
theorem launchCommit (launch : Nat) : Statement (.launchCommit launch) := rfl
theorem shadowWriteback (line : Nat) : Statement (.shadowWriteback line) := rfl
theorem shadowEvict (launch : Nat) (line : Nat) : Statement (.shadowEvict launch line) := rfl
theorem shadowStoreResume (g : GroupRef) : Statement (.shadowStoreResume g) := rfl
theorem kick (q : Nat) (k : BitVec 64) : Statement (.kick q k) := rfl
theorem qrdWrite (q : Nat) (v : BitVec 64) : Statement (.qrdWrite q v) := rfl
theorem queueEnable (q : Nat) (v : BitVec 64) : Statement (.queueEnable q v) := rfl
theorem queueErrorClear (q : Nat) (v : BitVec 64) : Statement (.queueErrorClear q v) := rfl
theorem pendingListJoin (q : Nat) : Statement (.pendingListJoin q) := rfl
theorem packetDraw (core : Nat) : Statement (.packetDraw core) := rfl
theorem launchPacket (core : Nat) : Statement (.launchPacket core) := rfl
theorem barrierPacket (core : Nat) : Statement (.barrierPacket core) := rfl
theorem signalPacket (core : Nat) : Statement (.signalPacket core) := rfl
theorem copyPacket (core : Nat) : Statement (.copyPacket core) := rfl
theorem btopPacket (core : Nat) : Statement (.btopPacket core) := rfl
theorem nopPacket (core : Nat) : Statement (.nopPacket core) := rfl
theorem powerChargeResume (c : Charged) : Statement (.powerChargeResume c) := rfl
theorem powerControllerAdjust (rate : BitVec 11) : Statement (.powerControllerAdjust rate) := rfl
theorem pwrWrite (core : Nat) (v : BitVec 64) : Statement (.pwrWrite core v) := rfl
theorem coreClockGate (core : Nat) : Statement (.coreClockGate core) := rfl
theorem coreWake (core : Nat) : Statement (.coreWake core) := rfl
theorem trapDelivery (g : GroupRef) : Statement (.trapDelivery g) := rfl
theorem groupResume (g : GroupRef) : Statement (.groupResume g) := rfl
theorem trrWrite (ctx : Nat) (v : BitVec 64) : Statement (.trrWrite ctx v) := rfl
theorem preqDrain (ctx : Nat) (v : Option (BitVec 64)) : Statement (.preqDrain ctx v) := rfl
theorem drainLimitExpiry (ctx : Nat) : Statement (.drainLimitExpiry ctx) := rfl
theorem preqSave (ctx : Nat) (v : Option (BitVec 64)) : Statement (.preqSave ctx v) := rfl
theorem preqKill (ctx : Nat) (v : BitVec 64) : Statement (.preqKill ctx v) := rfl
theorem preqRestore (ctx : Nat) (v : Option (BitVec 64)) : Statement (.preqRestore ctx v) := rfl
theorem bpWrite (ctx : Nat) (n : Nat) (v : BitVec 64) : Statement (.bpWrite ctx n v) := rfl
theorem debugRead (ctx : Nat) : Statement (.debugRead ctx) := rfl
theorem debugWrite (ctx : Nat) : Statement (.debugWrite ctx) := rfl
theorem debugResume (ctx : Nat) : Statement (.debugResume ctx) := rfl
theorem debugSingleStep (ctx : Nat) : Statement (.debugSingleStep ctx) := rfl
theorem rucWrite (ctx : Nat) (v : BitVec 64) : Statement (.rucWrite ctx v) := rfl
theorem hostMemoryWrite (a : HostAddr) (data : BitVec 64) : Statement (.hostMemoryWrite a data) := rfl
theorem hostMemoryRead (a : HostAddr) : Statement (.hostMemoryRead a) := rfl
theorem peerAccess (op : PeerOp) : Statement (.peerAccess op) := rfl
theorem attestationRequest (a : Attestation) : Statement (.attestationRequest a) := rfl
theorem warmReset (v : BitVec 64) : Statement (.warmReset v) := rfl
theorem powerUp : Statement (.powerUp) := rfl
theorem coreStartStep : Statement (.coreStartStep) := rfl
theorem agentEventEntry (core : Nat) : Statement (.agentEventEntry core) := rfl
theorem registerWrite (r : CtlReg) (v : BitVec 64) : Statement (.registerWrite r v) := rfl
theorem storeAcknowledge (g : GroupRef) (idx : Nat) : Statement (.storeAcknowledge g idx) := rfl
theorem creditRefill (core : Nat) : Statement (.creditRefill core) := rfl
theorem copyOnWriteComplete (g : GroupRef) : Statement (.copyOnWriteComplete g) := rfl
theorem unresolvedFaultAbort (g : GroupRef) : Statement (.unresolvedFaultAbort g) := rfl

end Opcode

end Sys2Proof.Laws
end

