-- ==== Sys2Proof/Tests/Slice0.lean ====
section
/-! SUPPORT. Tests: the checks of well-formedness, decoding of words written out from the spec, a witness for the hypotheses of each statement,
and single steps. -/

namespace Sys2Proof.Tests

open Sys2Proof.Machine Sys2Proof.Claims

set_option Elab.async false

-- ## Small states

/-- A 1 GiB page of tier 0 at virtual address 0, with every right and NT 0, behind three levels of tables at 0x1000 (R197, R198). -/
def pageTables : Memory :=
  [(0x1000, 0x01), (0x1001, 0x20), (0x2000, 0x01), (0x2001, 0x30), (0x3000, 0x1F), (0x3003, 0x40)]

/-- A program with 256 bytes of scratchpad and one tile a team. -/
def testImage : Image := { placedImage with scratch := 256, acc := 1 }

/-- A group on one path over the lanes of a mask, with a word at hand. -/
def groupOf (m : LaneMask) : Group :=
  placedGroup false { PathEntry.at 0x10008 m with words := [0#64], fresh := true, fa := 0 } none

/-- The machine with one team of one group, which issues; its context translates through the tables. -/
def world (g : Group) : State :=
  { State.reset with
    cur := .group { team := 1, grp := 0 }, mem := pageTables, nextId := 2, ready := true, stage := 4,
    launches := [(1, placedLaunch 1)], grids := [(1, { placedGrid 1 with image := testImage })],
    teams := [(1, { placedTeam 1 [g] none with reserved := 1 })],
    cores := [(0, { Core.start with enabled := true, started := true })],
    contexts := [(0, { Context.start with ttbEn := true, ttbBase := 1 })] }

/-- The machine of one group with lanes 0 and 1 active, and that of one with lane 0 active. -/
def two : State := world (groupOf 3)
def one : State := world (groupOf 1)

def noEnv : Env :=
  { ref := none, core := 0, ctx := 0, team := none, grid := none, grp := groupOf 0, sel := none, path := PathEntry.at 0 0, ring := 0,
    level := 0 }

/-- The issuer of a state. -/
def issuer (s : State) : Env := s.env.getD noEnv

/-- A state with a group that issues, and no pending write of the registers u. -/
abbrev Ready (s : State) (u : Uses) : Prop := s.env = some (issuer s) ∧ (issuer s).hazard u = false

/-- The guards that hold everywhere and nowhere. -/
def always : Guard := { pg := 0, pn := false }
def never : Guard := { pg := 0, pn := true }

def aw : AWord := plainWord 1 false 4 5 6 0
def mw : MWord := { width := 2, order := 0, scope := 0, g := always, d := 4, base := 8, index := 0xFF, imm := 0 }
def bw : BWord := { fn := 0, g := always, aux := 4, disp := 2 }
def pw : PWord := { g := always, pd := 3, pa := 1, na := false, pb := 2, nb := true }

-- ## Witnesses: register operations

/-- The word's operation has a table row for it, and the group of two issues it. -/
def rowIssues (i : Instr) (w : AWord) : Bool :=
  match i.aluRow with
  | some (r, .native x) => decide (x = w ∧ Ready two (aluUses i r w))
  | _ => false
abbrev RowsIssue (l : List ((Alu → Instr) × (AluIn → AluOut))) (w : AWord) : Prop := ∀ p ∈ l, rowIssues (p.1 (.native w)) w = true

theorem witness_RegisterOperationWritesGuardedLanes : RowsIssue registerOps aw := by decide +kernel
theorem witness_CarryOperationWritesResultAndCarry : RowsIssue carryOps aw ∧ aw.tail = .reg 6 0 0 := by decide +kernel
theorem witness_ComparisonsAndPredicateOperations : RowsIssue compareOps aw ∧ Ready two { v := [], s := [] } := by decide +kernel
theorem witness_DotProductsAndMicrocodedOperations : RowsIssue dotOps aw
    ∧ (∀ p ∈ microOps, rowIssues (p.1 aw) aw = true)
    -- a bucket that allows the charge, and one that is short
    ∧ ((two.core 0).charge 16).isSome ∧ ((two.modCore 0 fun c => { c with level := 3 }).core 0).charge 16 = none
    ∧ Ready (two.modCore 0 fun c => { c with level := 3 }) { v := [], s := [] } := by decide +kernel

theorem witness_LaneAndGroupInstructionsWrite :
    Ready two { v := regs (typeIs64 aw.ty.toNat) aw.d.toNat, s := [] } ∧ Ready two { v := [aw.d.toNat], s := [] }
    ∧ Ready two { laneUses aw with v := (laneUses aw).v ++ regs (typeIs64 aw.ty.toNat) aw.d.toNat }
    ∧ Ready two { v := regs false aw.a.toNat ++ regs false aw.d.toNat, s := [] }
    ∧ Ready two { laneUses aw with s := (laneUses aw).s ++ regs (typeIs64 aw.ty.toNat) aw.d.toNat }
    ∧ Ready two { v := [], s := regs true aw.d.toNat }
    -- the guard holds in some lane, and in none
    ∧ (issuer two).guard aw.g ≠ 0 ∧ (issuer two).guard never = 0 := by decide +kernel

/-- The slot of core 0's agent, which handles no event and is not halted. -/
def agentWorld : State :=
  { one with cur := .agent 0,
             cores := [(0, { Core.start with
               enabled := true, started := true, agent := { Agent.start with halted := false, grp := groupOf 1 } })] }

/-- The same slot within the handling of an event. -/
def handling : State := agentWorld.modCore 0 fun c => { c with agent := { c.agent with handling := some .hostWrite } }

theorem witness_PrivilegedInstructions :
    Ready two { v := [], s := [aw.a.toNat] } ∧ (issuer two).ref.isSome = true
    ∧ Ready agentWorld { v := [], s := [aw.a.toNat] } ∧ (issuer agentWorld).ref = none
    ∧ Ready handling { v := [], s := [] } ∧ (issuer handling).ref = none ∧ (handling.core 0).agent.handling.isSome = true
    -- no event waits, and one does
    ∧ (agentWorld.core 0).agent.events = []
    ∧ ((agentWorld.agentEvent 0 .packet).core 0).agent.events ≠ [] ∧ Ready (agentWorld.agentEvent 0 .packet) { v := [], s := [] } := by
  decide +kernel

/-- add with and without sat, on the rule's operands (R344), and abs (R341). -/
def sumWorld : State := world { groupOf 1 with v := [(vKey 4 0, 0xFFFFFFF0), (vKey 7 0, 0x80000000)], s := [(9, 0x20)] }

theorem witness_AddClampsOrWraps :
    RowsIssue [(.add, addOp)] (plainWord 1 true 4 4 9 4) ∧ RowsIssue [(.add, addOp)] (plainWord 1 false 4 4 9 4)
    ∧ RowsIssue [(.add, addOp)] { plainWord 3 false 4 8 10 0 with tail := .imm 5 } ∧ (issuer two).ring ≠ 1
    ∧ Ready sumWorld { v := [4], s := [9] } ∧ (issuer sumWorld).guard always = 1 ∧ (issuer sumWorld).grp.present.getLsbD 0 = true
    ∧ (issuer sumWorld).readV 4 0 = 0xFFFFFFF0 ∧ (issuer sumWorld).grp.readS 9 = 0x20 := by decide +kernel

theorem witness_AbsOfMostNegative :
    RowsIssue [(.abs, absOp)] (plainWord 0 true 3 7 0 0) ∧ RowsIssue [(.abs, absOp)] (plainWord 2 false 4 6 0 0)
    ∧ Ready sumWorld { v := [3, 7], s := [] } ∧ (issuer sumWorld).readV 7 0 = 0x80000000 := by decide +kernel

def sums (ty : Nat) : AluIn := { ty := ty, sat := false, var := 0, codes := 0, pos := 0, level := 0, x := 5, y := 3, z := 0, old := 0 }
theorem witness_IntegerOperationsOverNBits : ∀ ty < 8, (sums ty).ty < 8 ∧ (sums ty).sat = false := by decide

-- ## Witnesses: processing elements

def sw : SWord :=
  { care := 0, value := 0, ready := 3, space := 15, tagen := false, tagInput := 0, tagVal := 0, deq := 3, srcA := 0, srcB := 1, out := 2,
    ldest := 1, lwe := true, pbit := 2, pkind := 1, otag := 1, fn := 1, imm := 0 }

/-- A token of data and a tag. -/
def tk (x : Word) (t : BitVec 2) : Token := { data := x, tag := t }

/-- The PE at (0, 0) with tokens in its inputs. -/
def cellOf (ins : List (List Token)) : Cell := { Cell.empty 0 0 with ins := ins, l := [(1, 4)] }

def planeOf (c : Cell) : Plane :=
  { cfg := 0, load := 1, cells := [c], ports := [], convs := [], chains := [{ id := 0, nodes := [(0, 0)], e := 0, queue := [] }], gate := 0,
    caller := none, pendingNext := none }

/-- A live region of one cell and a plane. -/
def regionOf (p : Plane) : Region :=
  { rid := 0, col := 0, row := 0, w := 1, h := 1, depth := 2, ep := 0, live := true, active := p, shadows := [], spilled := [],
    oldPlanes := [], span := [], epoch := 0, loads := 1, released := 0, releasedBy := [], xlat := List.replicate 16 none, xlatNext := 0,
    stamps := 0, fault := none, atnDone := false, closing := none, frozen := none, starve := [], mustLeave := false, latched := [],
    fired := false }

/-- A program with a configuration of one empty cell, and an E-point that enters it. -/
def spatialImage : Image :=
  { testImage with
    configs := [{ id := 1, w := 1, h := 1, depth := 2, col := 0, row := 0, packets := [0x4#128 <<< 124, 0x6#128 <<< 124] }],
    epoints := [{ id := 7, vok := false, sentry := true, snode := true, exit := true, cfg := 1, tpos := 0, vpos := 0, first := 0, count := 0 }] }

/-- The machine whose team is in S form with a region. -/
def inS (r : Region) : State :=
  { one with cur := .pe 1 0 0 0,
             grids := [(1, { placedGrid 1 with image := spatialImage })],
             teams := [(1, { placedTeam 1 [{ groupOf 1 with state := .parkedHop }] (some r) with
               reserved := 1, tiles := [(0, { phys := 0, grown := false, knows := [0], sent := [] })] })] }

def noPe : PeEnv :=
  { tk := 0, team := placedTeam 0 [] none, region := regionOf (planeOf (cellOf [])), cell := cellOf [], slot := 0, inTiles := false }
def peOf (s : State) : PeEnv := s.peEnv.getD noPe

/-- A slot fires in a state. -/
def fires (s : State) (i : Instr) (w : SWord) : Bool :=
  decide (s.peEnv = some (peOf s)) && (peOf s).cell.eligible i w && (peOf s).extra i

/-- Two data tokens, two last tokens and two ends wait at the inputs. -/
def dataPair : State := inS (regionOf (planeOf (cellOf [[tk 0x30001 0], [tk 0x30002 0], [tk 9 0], []])))
def lastPair : State := inS (regionOf (planeOf (cellOf [[tk 1 1], [tk 2 1], [], []])))
def noTokens : State := inS (regionOf (planeOf (cellOf [[], [], [], []])))

def slotRow (i : Instr) (w : SWord) : Bool :=
  match i.aluRow with
  | some (_, .slot x) => decide (x = w)
  | _ => false

theorem witness_SlotOperationFires : ∀ p ∈ registerOps ++ compareOps ++ dotOps ++ carryOps,
    slotRow (p.1 (.slot sw)) sw = true ∧ fires dataPair (p.1 (.slot sw)) sw = true := by decide +kernel

theorem witness_SlotsIdleConvertersAndSpanEnds :
    -- a slot without its trigger, and one whose own condition does not hold
    slotWord (.steer sw) = some sw ∧ noTokens.peEnv = some (peOf noTokens) ∧ (peOf noTokens).cell.eligible (.steer sw) sw = false
    ∧ (peOf dataPair).extra (.swait sw) = false ∧ (peOf dataPair).cell.eligible (.swait sw) sw = true
    ∧ fires dataPair (.eqpn sw) sw = true := by decide +kernel

/-- A converter with an element and room, and one with two results waiting. -/
def conv0 (out : List Token) : Conv := { k := 0, word := sw, newWord := none, inq := [tk 5 0], outq := out, part := [] }
def convWorld (v : Conv) : State :=
  { inS (regionOf { planeOf (cellOf []) with convs := [v] }) with cur := .pe 1 1 0 0 }

theorem witness_ConverterActs :
    (convWorld (conv0 [])).convEnv.isSome = true ∧ (conv0 []).inq = [tk 5 0] ∧ (conv0 []).outq.length < 2 ∧ sw.imm.extractLsb' 14 2 = 0
    ∧ 2 ≤ (conv0 [tk 1 0, tk 2 0]).outq.length := by decide +kernel

/-- Port 0 of the region has moved its one element. -/
def port0 : Port :=
  { k := 0, indexed := false, inq := [], baseLoc := 0, base := 0x10000, width := 4, out := false, mark := false, dims := [(1, 4)], pos := 1, landing := [],
    queue := [], endSent := true, faulted := false, xlat := none }
def portDone : State := inS (regionOf { planeOf (cellOf [[tk 1 0], [tk 2 0], [], []]) with ports := [port0] })

/-- Heads with tags a and b at in0 and in1. -/
def heads (a b : BitVec 2) : State := inS (regionOf (planeOf (cellOf [[tk 0x30001 a], [tk 0x30002 b], [], []])))

theorem witness_RoutingAndIntersectionNodesFire :
    (∀ i ∈ [Instr.steer, .merge, .cnt, .emit, .sink, .pent, .pexit, .isect], fires dataPair (i sw) sw = true)
    ∧ (peOf portDone).region.active.port (sw.imm.toNat % 8) = some port0 ∧ fires portDone (.swait sw) sw = true
    -- isect: equal coordinates, a smaller one on each side, and every row with last, end and control tokens
    ∧ (∀ p ∈ [(0, 0), (0, 1), (0, 2), (1, 0), (2, 0), (1, 1), (2, 2), (2, 1), (1, 2), (3, 0), (0, 3), (3, 1), (2, 3), (3, 3)],
        fires (heads p.1 p.2) (.isect sw) sw = true ∧ ((peOf (heads p.1 p.2)).cell.head 0).tag = p.1
        ∧ ((peOf (heads p.1 p.2)).cell.head 1).tag = p.2)
    ∧ (let c := (peOf dataPair).cell; (c.head 0).tag = 0 ∧ (c.head 1).tag = 0 ∧ (c.head 0).data.extractLsb' 16 16 = (c.head 1).data.extractLsb' 16 16)
    ∧ fires (inS (regionOf (planeOf (cellOf [[tk 0x10000 0], [tk 0x20000 0], [], []])))) (.isect sw) sw = true
    ∧ fires (inS (regionOf (planeOf (cellOf [[tk 0x20000 0], [tk 0x10000 0], [], []])))) (.isect sw) sw = true
    ∧ fires lastPair (.isect sw) sw = true ∧ ((peOf lastPair).cell.head 0).tag = 1
    -- cnt: its count goes on, and wraps
    ∧ fires lastPair (.cnt sw) sw = true := by decide +kernel

theorem witness_MemoryNodeFires : ∀ i ∈ [Instr.ldn, .stn, .atn, .btok], fires dataPair (i sw) sw = true := by decide +kernel

/-- An xlat of an address that is mapped, with the right to read, and of one that is not. -/
def xlatPair (hi : Word) : State := inS (regionOf (planeOf (cellOf [[tk 0x100 0], [tk hi 0], [], []])))

def xlatOk (s : State) : Bool :=
  match (s.xlatLookup 0 0 (pairOf ((peOf s).cell.source sw sw.srcA) ((peOf s).cell.source sw sw.srcB)) true false).1 with
  | .ok _ => true
  | .error _ => false

theorem witness_TranslationNodeFires : fires (xlatPair 0) (.xlat sw) sw = true ∧ xlatOk (xlatPair 0) = true
    ∧ fires (xlatPair 1) (.xlat sw) sw = true ∧ xlatOk (xlatPair 1) = false := by decide +kernel

theorem witness_MatrixPortAccumulates :
    fires dataPair (.mport sw) sw = true ∧ ((peOf dataPair).cell.head 0).tag = 0 ∧ ((peOf dataPair).cell.head 1).tag = 0
    ∧ fires lastPair (.mport sw) sw = true ∧ ((peOf lastPair).cell.head 0).tag = 1 ∧ ((peOf lastPair).cell.head 1).tag = 1
    ∧ (Table.find (peOf lastPair).team.tiles 0).isSome = true
    -- a name without a tile
    ∧ fires lastPair (.mport { sw with imm := 3 }) { sw with imm := 3 } = true ∧ Table.find (peOf lastPair).team.tiles 3 = none := by
  decide +kernel

/-- calln with room for a plane, and with the region's depth reached; a callee to return from; and a pending next. -/
def callWorld (depth : Nat) : State := inS { regionOf (planeOf (cellOf [[tk 1 0], [tk 2 0], [], []])) with depth := depth }
def callee : State := inS
  { regionOf { planeOf (cellOf [[tk 1 0], [tk 2 0], [], []]) with caller := some (0, 0, 0) } with shadows := [planeOf (cellOf [])] }
def pendingNext : State := inS (regionOf { planeOf (cellOf [[tk 1 0], [tk 2 0], [], []]) with pendingNext := some 1 })
def callSlot : SWord := { sw with imm := 1 }

def loads (s : State) : Bool :=
  match s.loadPlane (peOf s).team (peOf s).region (callSlot.imm.toNat % 4) ((peOf s).region.loads + 1) with
  | .ok p => (p.cell 0 0).isSome
  | .error _ => false

theorem witness_PlanesCallReturnAndChain :
    fires (callWorld 2) (.calln callSlot) callSlot = true ∧ 0 + 0 + 2 ≤ (peOf (callWorld 2)).region.depth ∧ loads (callWorld 2) = true
    ∧ fires (callWorld 1) (.calln callSlot) callSlot = true ∧ (peOf (callWorld 1)).region.depth < 2
    ∧ fires callee (.retn sw) sw = true ∧ (peOf callee).region.shadows ≠ [] ∧ (peOf callee).region.active.caller.isSome = true
    ∧ fires dataPair (.retn { sw with ready := 7, deq := 7 }) { sw with ready := 7, deq := 7 } = true ∧ (peOf dataPair).region.shadows = []
    ∧ fires dataPair (.next sw) sw = true ∧ (peOf dataPair).region.active.pendingNext = none
    ∧ fires pendingNext (.next sw) sw = true ∧ (peOf pendingNext).region.active.pendingNext.isSome = true := by decide +kernel

-- ## Witnesses: memory

/-- Lane 0 accesses the mapped address 0x100; a misaligned one; and offset 0x10 of its team's range. -/
def at_ (a : Word) : State := world { groupOf 1 with s := [(8, a)] }
def mapped : State := at_ 0x100

def readable (s : State) (w : MWord) (k : AccessKind) : Bool :=
  (virtualLanes (issuer s) w.g (widthBytes w.width) k ((issuer s).memAddr w) s).2.1.isNone
def inTeam (s : State) (w : MWord) : Bool :=
  (teamLanes (issuer s) w.g (widthBytes w.width) ((issuer s).memAddr w) s).2.1.isNone
def vectorOk (s : State) (w : MWord) (k : AccessKind) : Bool :=
  (virtualLanes (issuer s) w.g (widthBytes w.width) k ((issuer s).vectorAddr w) s).2.1.isNone

abbrev MemReady (s : State) (w : MWord) : Prop :=
  Ready s (memUses w (dataRegs w.d.toNat (widthBytes w.width)) []) ∧ (issuer s).grp.acquiring = false

theorem witness_LoadsAndStoresIssue_loads :
    MemReady mapped mw ∧ readable mapped mw .read = true ∧ inTeam mapped { mw with base := 10, imm := 0x10 } = true
    ∧ Ready mapped (vectorUses mw (dataRegs mw.d.toNat 4)) ∧ vectorOk mapped mw .read = true
    -- ldc with and without a lane, and prf
    ∧ Ready mapped { v := [], s := [8, 9] ++ dataRegs 4 4 } ∧ (issuer mapped).guard always ≠ 0 ∧ (issuer mapped).guard never = 0
    ∧ (match ((issuer mapped).checkVirtual mapped ((issuer mapped).grp.readSPair 8 + mw.imm.signExtend 64) 4 4 .read).1 with
        | .ok _ => true
        | .error _ => false) = true
    ∧ Ready mapped (memUses mw [] []) := by decide +kernel

theorem witness_LoadsAndStoresIssue_stores :
    MemReady mapped mw ∧ readable mapped mw .write = true ∧ inTeam mapped { mw with base := 10, imm := 0x10 } = true
    ∧ Ready mapped (vectorUses mw (dataRegs mw.d.toNat 4)) ∧ vectorOk mapped mw .write = true
    ∧ (issuer mapped).firstFull mapped [(0, .phys 0x40000100 true)] = none := by decide +kernel

theorem witness_FailingLaneTrapsWithoutEffect :
    MemReady (at_ 0x101) mw ∧ (issuer (at_ 0x101)).vform = false
    ∧ readable (at_ 0x101) mw .read = false ∧ readable (at_ 0x101) mw .write = false ∧ inTeam (at_ 0x101) mw = false
    ∧ Ready (at_ 0x101) (atomUses mw (dataRegs mw.data.toNat 4))
    ∧ (virtualLanes (issuer (at_ 0x101)) mw.g 4 .atomic ((issuer (at_ 0x101)).atomAddr mw) (at_ 0x101)).2.1.isSome = true
    ∧ (teamLanes (issuer (at_ 0x101)) mw.g 4 ((issuer (at_ 0x101)).atomAddr mw) (at_ 0x101)).2.1.isSome = true := by decide +kernel

/-- A V-form group whose elements 0 and 1 load one word each, the second past its address space. -/
def vectorFails : State := world
  { groupOf 3 with vform := true, s := [(8, 0x100)], v := [(vKey 5 1, 0xFFFFFFFF)] }
def mwIndexed : MWord := { mw with index := 5 }

theorem witness_FailingElementTraps :
    MemReady vectorFails mwIndexed ∧ (issuer vectorFails).vform = true
    ∧ (virtualLanes (issuer vectorFails) always 4 .read ((issuer vectorFails).memAddr mwIndexed) vectorFails).2.1.isSome = true
    ∧ (virtualLanes (issuer vectorFails) always 4 .write ((issuer vectorFails).memAddr mwIndexed) vectorFails).2.1.isSome = true
    ∧ (issuer vectorFails).firstFull vectorFails [] = none := by decide +kernel

/-- A pending load of four bytes to lane 0's slot of v4, one to s5 whose value is known, and a pending store, at its group and at its die. -/
def load4 : PendLoad :=
  { seq := 0, op := 0, dst := .v 4 0, pair := none, loc := .phys 0x40000100 true, bytes := 4, known := none, acq := false, scope := 0, va := none }
def load5 : PendLoad := { load4 with seq := 1, op := 1, dst := .s 5, known := some 9 }
def store6 : PendStore :=
  { seq := 2, op := 2, after := [], lane := 0, rel := false, scope := 0, level := 0, loose := false, loc := .scratch 0x10, bytes := 4, data := 7,
    va := none }
def pendingGroup : Group := { groupOf 1 with loads := [load4, load5], stores := [store6], seq := 3 }
def pendingWorld : State := world pendingGroup
def ref : GroupRef := { team := 1, grp := 0 }

/-- The same group with its store at the die, where only its home is left. -/
def homeStore : PendStore := { store6 with level := 3 }
def homeGroup : Group := { pendingGroup with stores := [homeStore] }
def homeWorld : State := world homeGroup

/-- Two loads of 64 bits: to v4 and v5 of lane 0, and to s4 and s5. -/
def loadV : PendLoad := { load4 with pair := some (.v 5 0), known := some 0x100000002 }
def loadS : PendLoad := { load4 with seq := 1, op := 1, dst := .s 4, pair := some (.s 5), known := some 0x300000004 }
def pairGroup : Group := { groupOf 1 with loads := [loadV, loadS], seq := 2 }
def pairWorld : State := world pairGroup

theorem witness_LoadCompletionWritesRegister :
    pendingWorld.findGroup ref = some pendingGroup ∧ pendingGroup.loads[0]? = some load4 ∧ pendingGroup.loads[1]? = some load5
    ∧ pendingWorld.loadMayRun ref pendingGroup load4 = true ∧ pendingWorld.loadMayRun ref pendingGroup load5 = true
    ∧ pendingGroup.present.getLsbD 0 = true
    -- a read that one pending store gives, and one that memory gives
    ∧ pendingWorld.seenStores ref [] pendingGroup 3 = [] ++ (ref, store6) :: [] ∧ store6.loc.overlaps store6.bytes (.scratch 0x10) 4 = true
    ∧ (∀ y ∈ pendingGroup.stores, y.loose = false)
    ∧ (∀ x ∈ pendingWorld.seenStores ref [] pendingGroup 3, x.2.loc.overlaps x.2.bytes (.phys 0x40000100 true) 4 = false)
    ∧ (∀ k, k < 4 → pendingWorld.inflightByte [] ((Loc.phys 0x40000100 true).plus k) = none)
    ∧ pendingWorld.staleStamps ref [] (.phys 0x40000100 true) 4 = []
    ∧ (∀ l ∈ [Loc.scratch 0x10, .phys 0x40000100 true], pendingWorld.readable ref [] pendingGroup 3 l 4 none = true)
    ∧ (pendingWorld.overlying ref [] pendingGroup 3 (.scratch 0x10) 4).map Prod.snd = [store6]
    ∧ (pendingWorld.mustShow ref [] pendingGroup 3 (.scratch 0x10) 4).length = 1
    -- a pair of v-registers, an s-register and a pair of them, as ldc of 64 bits writes
    ∧ pairWorld.findGroup ref = some pairGroup ∧ pairGroup.loads[0]? = some loadV ∧ pairGroup.loads[1]? = some loadS
    ∧ pairWorld.loadMayRun ref pairGroup loadV = true ∧ pairWorld.loadMayRun ref pairGroup loadS = true := by decide +kernel

/-- A poisoned line, from which a load is to take its value. -/
def poisonWorld : State := { pendingWorld with poison := [lineOf 0x40000100] }

theorem witness_LoadCompletion_ecc :
    poisonWorld.findGroup ref = some pendingGroup ∧ load4.known = none ∧ poisonWorld.poisoned load4.loc = true
    ∧ wholeStore load4.loc load4.bytes (poisonWorld.mustShow ref (poisonWorld.viewOfRef ref) pendingGroup load4.seq load4.loc load4.bytes) = none
    ∧ pendingGroup.hasTrap = false ∧ poisonWorld.loadMayRun ref pendingGroup load4 = true := by decide +kernel

theorem witness_StoresPerformAndAreRead :
    pendingGroup.stores[0]? = some store6 ∧ pendingWorld.storeMayRun ref pendingGroup store6 = true ∧ store6.level < 3 ∧ store6.loc.atPeer = false
    ∧ homeWorld.findGroup ref = some homeGroup ∧ homeGroup.stores[0]? = some homeStore ∧ homeWorld.storeMayRun ref homeGroup homeStore = true
    ∧ 3 ≤ homeStore.level ∧ homeWorld.storeBlocked ref homeStore.loc = none ∧ homeGroup.hasTrap = false := by decide +kernel

/-- A store of the oldest uncommitted launch to transactional memory, whose context's overflow region holds the lines o. -/
def fullStore : PendStore := { homeStore with loc := .phys 0x40000100 true }
def fullWorld (o : List (Nat × Nat)) : State :=
  { world { pendingGroup with loads := [], stores := [fullStore] } with
    contexts := [(0, { Context.start with ttbEn := true, ttbBase := 1, ovfInForce := 0, overflow := o })] }

theorem fullWorld_storeBlocked (o : List (Nat × Nat)) : (fullWorld o).storeBlocked ref fullStore.loc =
    if decide (2 ^ 0 * 2 ^ 30 / 64 ≤ o.length) then some true else none := rfl

theorem witness_StoresPerform_shadow : ∃ o g, (fullWorld o).storeBlocked ref fullStore.loc = some true
    ∧ (fullWorld o).findGroup ref = some g ∧ g.stores[0]? = some fullStore ∧ 3 ≤ fullStore.level ∧ g.hasTrap = false
    ∧ (fullWorld o).storeMayRun ref g fullStore = true := by
  refine ⟨List.replicate (2 ^ 24) (1, 0), { pendingGroup with loads := [], stores := [fullStore] }, ?_, rfl, rfl, by decide, by decide, rfl⟩
  rw [fullWorld_storeBlocked, List.length_replicate]
  rfl

theorem witness_AtomicsAndBarrierObjects :
    Ready mapped (atomUses mw (dataRegs mw.data.toNat 4)) ∧ Ready mapped (atomUses mw (dataRegs mw.data.toNat 8))
    ∧ (issuer mapped).grp.acquiring = false
    ∧ (let r := virtualLanes (issuer mapped) always 4 .atomic ((issuer mapped).atomAddr mw) mapped;
        r.1 = [(0, .phys 0x40000100 true)] ∧ r.2.1 = none ∧ (∀ k, k < 16 →
          r.2.2.inflightByte ((issuer mapped).view r.2.2) ((Loc.phys 0x40000100 true).plus k) = none) ∧ (issuer mapped).firstFull r.2.2 r.1 = none
        ∧ (∀ x ∈ r.1, (issuer mapped).mustWait r.2.2 4 x = false ∧ (issuer mapped).mustRelease r.2.2 (releaseScope mw) x = false))
    ∧ (let r := teamLanes (issuer (at_ 0x10)) always 4 ((issuer (at_ 0x10)).atomAddr mw) (at_ 0x10);
        r.1 = [(0, .scratch 0x10)] ∧ r.2.1 = none ∧ ∀ x ∈ r.1, (issuer (at_ 0x10)).mustWait r.2.2 4 x = false ∧ (issuer (at_ 0x10)).mustRelease r.2.2 (releaseScope mw) x = false)
    -- an arrival at a barrier object in memory
    ∧ Ready mapped (memUses mw [mw.d.toNat] [])
    ∧ (let r := checkLanes (fun l s => (issuer mapped).checkBarrier s mw .atomic l) (lanesOf ((issuer mapped).guard always)) mapped [];
        r.1 = [(0, .phys 0x40000100 true)] ∧ r.2.1 = none ∧ ∀ x ∈ r.1, (issuer mapped).mustWait r.2.2 16 x = false ∧ (issuer mapped).mustRelease r.2.2 (arriveScope mw) x = false)
    -- barinit
    ∧ (let r := checkLanes (fun l s => (issuer mapped).checkBarrier s mw .write l) (lanesOf ((issuer mapped).guard always)) mapped [];
        r.2.1 = none ∧ (issuer mapped).firstFull r.2.2 r.1 = none)
    -- objects of two expected arrivals: both pending, and one
    ∧ (2 + 2 * 2 ^ 32) / 2 ^ 32 % 2 ^ 32 = 2 ∧ (2 + 2 ^ 32) / 2 ^ 32 % 2 ^ 32 = 1 := by decide +kernel

/-- A group whose acquire has not performed, one with no pending access, and one with a load pending. -/
def acquiringWorld : State := world { pendingGroup with loads := [{ load4 with acq := true }], stores := [] }

theorem witness_AcquiresAndFencesOrderAccesses :
    acquiringWorld.env = some (issuer acquiringWorld) ∧ (issuer acquiringWorld).grp.acquiring = true
    ∧ Ready one { v := [], s := [] } ∧ (issuer one).guard always ≠ 0 ∧ (issuer one).guard never = 0
    ∧ (issuer one).grp.loadsDone (fun _ => true) (issuer one).grp.seq = true
    ∧ (issuer one).grp.performed (issuer one).grp.seq 2 = true ∧ one.nearClear ref (issuer one).grp.know 2 = true
    ∧ ({ mw with order := 1 } : MWord).order = 1 ∧ ({ mw with order := 3 } : MWord).order = 3
    ∧ Ready pendingWorld { v := [], s := [] } ∧ (issuer pendingWorld).grp.loadsDone (fun _ => true) (issuer pendingWorld).grp.seq = false
    ∧ (issuer pendingWorld).grp.performed (issuer pendingWorld).grp.seq 2 = false := by decide +kernel

/-- A wait on lane 0's value x at the mapped word, which holds 0. -/
def waitLane0 (x : BitVec 64) : WaitLane := { lane := 0, loc := .phys 0x40000100 true, bytes := 4, value := x, va := some 0x100 }
def otherLane : WaitLane := { waitLane0 0 with lane := 1, loc := .phys 0x40000104 true, va := some 0x104 }
def waitingFor (bad : Option LaneFault) (l : List WaitLane) : Group := { groupOf 1 with state := .waiting (.lanes none false bad l) }

def leftOf (x : BitVec 64) : List WaitLane := ((issuer mapped).readLanes none [waitLane0 x] mapped).1

/-- What the poll of lane 0 finds. -/
def pollFinds (g : Group) (x : WaitLane) : Option Bool :=
  match (world g).waitEnv ref with
  | some e => match (e.pollLane (world g) none x).1 with
    | .ok b => some b
    | .error _ => none
  | none => none

def faultOne : LaneFault := { lane := 1, addr := 0x101, kind := .align }

theorem witness_WaitsEndOnChange :
    MemReady mapped mw ∧ readable mapped mw .read = true ∧ Ready mapped (memUses mw [mw.d.toNat] [])
    ∧ (checkLanes (fun l s => (issuer mapped).checkBarrier s mw .read l) (lanesOf ((issuer mapped).guard always)) mapped []).2.1 = none
    -- an equal word leaves the lane waiting, a different one does not
    ∧ leftOf 0 ≠ [] ∧ leftOf 5 = []
    ∧ (∀ b ∈ [none, some faultOne], ∀ l ∈ [[waitLane0 5], [waitLane0 5, otherLane]],
        let s := world (waitingFor b l); s.findGroup ref = some (waitingFor b l) ∧ s.running ref = true
        ∧ (s.waitEnv ref).isSome = true ∧ pollFinds (waitingFor b l) (waitLane0 5) = some true)
    ∧ pollFinds (waitingFor none [waitLane0 0]) (waitLane0 0) = some false
    -- an address whose translation is taken away
    ∧ pollFinds (waitingFor none [waitLane0 0]) { waitLane0 0 with va := some 0x100000100 } = none
    ∧ ((world (waitingFor none [waitLane0 0])).waitEnv ref).map (·.vform) = some false := by decide +kernel

-- ## Witnesses: control flow

/-- s4 and s5 hold a word. -/
def jumpTo (x : Word) : State := world { groupOf 3 with s := [(4, x)] }

/-- The guard of predicate 1, which holds in lane 0 only. -/
def lane0 : Guard := { pg := 1, pn := false }

abbrev CanJump (s : State) (g : Group) (m : LaneMask) (t : BitVec 64) : Prop :=
  m ≠ 0 ∧ (issuer s).unevenV m = false ∧ (issuer s).targetOk s t = true ∧ g.spillBytes + 48 ≤ (issuer s).spillLimit

theorem witness_BranchMovesGuardedLanes :
    (let s := jumpTo 0x10040; let e := issuer s; Ready s { v := [], s := [4, 5] } ∧ e.guard always ≠ 0 ∧ e.guard never = 0
      ∧ CanJump s e.grp (e.guard always) (e.target bw.disp)
      ∧ (e.grp.readSPair 4).extractLsb' 0 3 = 0 ∧ CanJump s e.grp (e.guard always) (e.grp.readSPair 4)
      ∧ e.grp.readS 4 ≠ 1 ∧ CanJump s (e.grp.writeS 4 (e.grp.readS 4 - 1)) (e.guard always) (e.target bw.disp)
      ∧ e.sel.isSome = true)
    ∧ (let s := jumpTo 0x10041; let e := issuer s; Ready s { v := [], s := [4, 5] } ∧ e.unevenV (e.guard always) = false
      ∧ (e.grp.readSPair 4).extractLsb' 0 3 ≠ 0)
    ∧ (let s := jumpTo 1; Ready s { v := [], s := [4] } ∧ (issuer s).grp.readS 4 = 1) := by decide +kernel

/-- A path over lanes 0 and 1 with predicate 1 true in lane 0; beside it another path; and after a call whose frame is in place or spilled. -/
def mixedGroup : Group := { groupOf 3 with p := [(1, 1)] }
def pathsGroup : Group := { groupOf 3 with paths := (groupOf 3).paths ++ [PathEntry.at 0x10020 4] }
def calledGroup (f : Frame) : Group := { groupOf 3 with base := 16, rets := [{ clause := 0x10000, size := 16 }], frames := [f] }

theorem witness_CallReturnExitAndSerialBody_calls :
    (let s := world mixedGroup; let e := issuer s; Ready s { v := [], s := [] } ∧ e.sel.isSome = true ∧ e.path.words.length = 1 ∧ e.ref.isSome = true
      ∧ e.guard never = 0 ∧ e.guard lane0 ≠ 0 ∧ e.guard lane0 ≠ e.path.mask ∧ e.guard always = e.path.mask ∧ e.grp.severalPaths = false
      ∧ e.spillBusy (e.pushed bw.aux.toNat) = false ∧ CanJump s (e.pushed bw.aux.toNat) (e.guard always) (e.target bw.disp) ∧ e.grp.rets = [])
    ∧ (let s := world pathsGroup; let e := issuer s; Ready s { v := [], s := [] } ∧ e.sel.isSome = true ∧ e.path.words.length = 1
      ∧ e.guard always = e.path.mask ∧ e.grp.severalPaths = true)
    ∧ (let s := world (calledGroup { size := 16, spilled := none }); let e := issuer s; Ready s { v := [], s := [] } ∧ e.guard always = e.path.mask
      ∧ e.grp.severalPaths = false ∧ CanJump s { e.grp with rets := [], frames := [], base := 0 } (e.guard always) 0x10000)
    ∧ (let s := world (calledGroup { size := 16, spilled := some [(0, 7)] }); let e := issuer s; Ready s { v := [], s := [] }
      ∧ e.grp.busyRange e.ring 0 16 = false
      ∧ CanJump s ({ e.grp with rets := [], frames := [], base := 0 }.loadFrame e.ring 0 16 [(0, 7)]) (e.guard always) 0x10000) := by
  decide +kernel

/-- The pass of lane 0, and that of the last lane, in a serl body over lanes 0 and 1. -/
def passOf (lane : Nat) : State :=
  world { groupOf 3 with
    paths := [], serl := some { m := 3, lane := lane, body := 0x10000, path := { PathEntry.at 0x10008 (laneBit lane) with words := [0#64] } } }

/-- The same with a body of one clause in memory: a header of one word, and sere. -/
def bodyOf (lane : Nat) : State :=
  { passOf lane with mem := pageTables ++ [(0x40010004, 0x01), (0x40010007, 0xF0), (0x4001000F, 0x60)] }

theorem witness_CallReturnExitAndSerialBody_bodies :
    (let e := issuer two; Ready two { v := [], s := [] } ∧ e.guard never = 0 ∧ e.guard always ≠ 0 ∧ e.unevenV (e.guard always) = false
      ∧ e.sel.isSome = true ∧ e.path.words.length = 1 ∧ e.vform = false ∧ e.ref.isSome = true ∧ e.grp.serl = none ∧ lanesOf e.path.mask = [0, 1])
    ∧ (let e := issuer (passOf 0); Ready (passOf 0) { v := [], s := [] } ∧ e.sel = none ∧ e.grp.serl.isSome = true ∧ e.path.words.length = 1
      ∧ ((lanesOf 3).find? fun l => decide (0 < l)) = some 1)
    ∧ (let e := issuer (passOf 1); Ready (passOf 1) { v := [], s := [] } ∧ e.sel = none ∧ e.path.words.length = 1
      ∧ ((lanesOf 3).find? fun l => decide (1 < l)) = none)
    -- exit within a body whose end is found, with lanes left, and serl while another path serialises
    ∧ (let s := { bodyOf 1 with teams := [(1, placedTeam 1 [{ groupOf 3 with
                   paths := [], p := [(1, 2)],
                   serl := some { m := 3, lane := 1, body := 0x10000, path := { PathEntry.at 0x10008 2 with words := [0#64] } } }] none)] }
       let e := issuer s; Ready s { v := [], s := [] } ∧ e.sel = none ∧ e.guard lane0 ≠ 0 ∧ e.unevenV (e.guard lane0) = false
        ∧ e.grp.serl.any (fun z => z.m &&& ~~~(e.guard lane0) != 0 && e.afterBody s z matches some (.ok _)) = true)
    ∧ (let s := world { groupOf 3 with
         serl := some { m := 4, lane := 2, body := 0x10000, path := { PathEntry.at 0x10008 4 with miss := true } } }
       Ready s { v := [], s := [] } ∧ (issuer s).sel = some 0 ∧ (issuer s).path.words.length = 1 ∧ (issuer s).vform = false
        ∧ (issuer s).grp.serl.isSome = true) := by decide +kernel

/-- A group at the first word of its clause, the header of which stands at the image's E-point 7. -/
def atPoint : State := { world (groupOf 1) with
  grids := [(1, { placedGrid 1 with image := { testImage with epoints := spatialImage.epoints } })] }
def notFresh : State := world { groupOf 1 with paths := [{ PathEntry.at 0x10008 1 with words := [0#64] }] }
/-- Callisto gives no hint to the program. -/
def pinned : State := one.modContext 0 fun c => { c with csc := 0 }

theorem witness_SystemInstructionsComplete :
    (let e := issuer atPoint; Ready atPoint { v := [], s := [] } ∧ e.grid.isSome = true ∧ e.path.fresh = true
      ∧ spatialImage.epoints.all fun p => e.atEpoint p && p.id == (7#12).toNat)
    ∧ Ready notFresh { v := [], s := [] } ∧ (issuer notFresh).path.fresh = false
    -- a hop that asks, and one that does not
    ∧ (let s := one.modContext 0 fun c => { c with csc := 0x92680000 }
       Ready s { v := [], s := [] } ∧ (issuer s).ref = some ref ∧ (issuer s).acts always = true ∧ (s.context 0).cscHint = true ∧ (s.context 0).cscPin = 0)
    ∧ Ready pinned { v := [], s := [] } ∧ (pinned.context 0).cscHint = false := by decide +kernel

/-- Paths at a header: with its flag 0 clear and set; the words of the clause stand in the loop buffer. -/
def headerGroup (flags : Sparse 6) : Group :=
  { groupOf 1 with
    paths := [PathEntry.at 0x10000 1], flags := flags,
    loop := some { quad := 0, ctx := 0, view := [(1, 0)], lo := 0x10000, hi := 0x10008, words := [(0x10000, 0), (0x10008, 0)] } }
def header : HWord := { wait := 1, flagA := 15, flagB := 15, count := 1 }

def fetches (s : State) : Bool :=
  match (issuer s).fetchWords header.count.toNat s ((issuer s).path.pc + 8) [] with
  | (.ok ws, t) => !(issuer s).staleClause t ws
  | _ => false

/-- A clause whose word in the instruction cache is no longer that of memory. -/
def staleWorld : State :=
  (world { headerGroup [] with loop := none }).modCore 0 fun c => { c with icache := [{ view := [(1, 0)], pa := 0x40010008, word := 5 }] }
def stale : Bool :=
  match (issuer staleWorld).fetchWords header.count.toNat staleWorld ((issuer staleWorld).path.pc + 8) [] with
  | (.ok ws, t) => (issuer staleWorld).staleClause t ws
  | _ => false

/-- A path whose next word is missing. -/
def missing : State := world { groupOf 1 with paths := [{ PathEntry.at 0x10008 1 with miss := true }] }

theorem witness_ClauseAndItsFetch :
    Ready one { v := [], s := [] } ∧ (issuer one).path.words ≠ []
    ∧ (let s := world (headerGroup []); Ready s { v := [], s := [] } ∧ (issuer s).path.words = [] ∧ (issuer s).grp.flagsClear header.wait = true
        ∧ fetches s = true)
    ∧ (let s := world (headerGroup [(0, 1)]); Ready s { v := [], s := [] } ∧ (issuer s).grp.flagsClear header.wait = false)
    ∧ ref.team ≠ 0 ∧ (Table.find missing.teams 1).any (fun t => t.phase == .placed && (t.groups.any fun g => g.paths.any fun p => p.miss)) = true
    ∧ (Table.find missing.grids 1).isSome = true
    ∧ Ready staleWorld { v := [], s := [] } ∧ (issuer staleWorld).path.words = [] ∧ (issuer staleWorld).grp.flagsClear header.wait = true
    ∧ stale = true
    -- the pass of a serl body misses, and the path of an agent that is not halted
    ∧ (let z : Serl := { m := 3, lane := 0, body := 0x10000, path := { PathEntry.at 0x10000 1 with miss := true } }
       (({ groupOf 3 with paths := [], serl := some z } : Group).serl = some z) ∧ z.path.miss = true)
    ∧ (agentWorld.core 0).agent.halted = false ∧ (agentWorld.findGroup { team := 0, grp := 0 }).isSome = true := by decide +kernel

theorem witness_TrapsStopTheirGroup :
    one.env = some (issuer one) ∧ (issuer one).ref = some ref ∧ Ready one { v := [], s := [] } ∧ (issuer one).acts always = true
    ∧ (issuer one).acts never = false := by decide +kernel

theorem witness_NopChangesNoState :
    one.env = some (issuer one) ∧ (0x6300000000000001#64).extractLsb' 56 8 = 0x63#8 ∧ (0x6300000000000001#64).extractLsb' 0 56 ≠ 0#56
    ∧ (0x630000000000000000000000#96).extractLsb' 88 8 = 0x63#8
    -- a configuration whose one cell holds the op in slot 0
    ∧ (let c : ConfigImg := { id := 1, w := 1, h := 1, depth := 2, col := 0, row := 0,
                              packets := [0x63#128 <<< 88, 0x4#128 <<< 124, 0x6#128 <<< 124] }
       ((readRows c 0).any fun rows => (rows[0]?).any fun b => (b.done[0]?).any fun x => Table.find x.slots 0 == some (0x63#96 <<< 88)) = true) := by
  decide +kernel

theorem witness_CompletionMovesOnlyItsPath :
    one.env = some (issuer one) ∧ (issuer one).ref = some ref ∧ ref.team ≠ 0 := by decide +kernel

-- ## Witnesses: engines

def xw : XWord :=
  { fsel := false, acq := false, rel := false, scope := 0, g := always, r1 := 8, r2 := 12, r3 := 16, d := 30, variant := 0 }

/-- The format blocks at offset 0 of an mma of f16 elements without scales, and the collective's descriptor for one rank at 0x100. -/
def engineScratch : Memory :=
  [(0, 1), (4, 0xFF), (5, 0xFF), (6, 0xFF), (7, 0xFF), (16, 1), (20, 0xFF), (21, 0xFF), (22, 0xFF), (23, 0xFF)]
  ++ [(0x101, 2), (0x103, 0xF0), (0x104, 0xFF), (0x105, 0xFF), (0x106, 0xFF), (0x107, 1), (0x109, 3), (0x10B, 0xF0), (0x10C, 0xFF)]
  ++ [(0x10D, 0xFF), (0x10E, 0xFF), (0x10F, 1), (0x110, 1), (0x11A, 1)]

/-- Records of 64 rows of 64 bytes in s8 to s15, of 64 rows of 256 bytes in s20, of one row of 16 and of 8 bytes in s32, s36 and s40; a
mapped address in s24, one in the window in s26, and offsets in s28 and s29. -/
def engineRegs : Sparse 32 :=
  [(8, 0x1000), (10, 0x400040), (11, 64), (12, 0x2000), (14, 0x400040), (15, 64), (20, 0x3000), (22, 0x400100), (23, 256)]
  ++ [(24, 0x100), (26, 0xF0000100), (27, 0x01FFFFFF), (28, 0x20), (29, 0x21), (32, 0x1000), (34, 0x10010), (36, 0x2000), (38, 0x10010)]
  ++ [(40, 0x3000), (42, 0x10008), (44, 0x4000), (46, 0x10008)]

def engineGroup (m : LaneMask) : Group := { groupOf m with s := engineRegs }

def engineOf (g : Group) (t : Team → Team) (c : Core → Core) : State :=
  { world g with
    scratch := engineScratch, grids := [(1, { placedGrid 1 with image := { testImage with scratch := 0x8000 }, wx := 4, wy := 2, wz := 1 })],
    teams := [(1, t { placedTeam 1 [g] none with reserved := 1, tiles := [(0, { phys := 0, grown := false, knows := [0], sent := [] })] })],
    cores := [(0, c { Core.start with enabled := true, started := true })] }
def engines : State := engineOf (engineGroup (BitVec.allOnes 64)) id id

def cmd (op : MatrixOp) : MatrixCmd :=
  { g := ref, flag := 0, seq := 0, after := [], phys := 0, acq := false, rel := false, scope := 0, op := op, since := 0, floor := none, know := Know.none, pubs := [] }
def tileRows : Extent := { virt := false, start := 0x3000, rows := 64, rowBytes := 256, pitch := 256 }
def noScale : FmtBlock := { saddr := 0xFFFFFFFF, sfmt := 0, blen := 16, efmt := 1 }
def rowsOf (a : BitVec 64) : Extent := { virt := false, start := a, rows := 64, rowBytes := 64, pitch := 64 }
def mmaOp : MatrixOp := .mma 0 false (rowsOf 0x1000) (rowsOf 0x2000) noScale noScale 32
def accepts (l : List MatrixCmd) : State := engineOf (engineGroup (BitVec.allOnes 64)) id fun c => { c with accepted := l }
def executes (op : MatrixOp) : State := engineOf (engineGroup (BitVec.allOnes 64)) id fun c => { c with executing := some (cmd op) }

theorem witness_TileBindingsAndEngineCommands_names :
    (let e := issuer engines; Ready engines (xUses []) ∧ Ready engines (xUses [30]) ∧ e.ref = some ref ∧ e.team.isSome = true ∧ e.acts always = true)
    -- no reservation, a bound name, a name to wait for, a name to bind, and a name that commands use
    ∧ (let s := engineOf (engineGroup 1) (fun t => { t with reserved := 0, tiles := [] }) id
       (issuer s).team.any (fun t => t.reserved == 0 && (Table.find t.tiles 0).isNone) = true ∧ s.unreserved 0 ≠ 0)
    ∧ (issuer engines).team.any (fun t => t.reserved != 0 && (Table.find t.tiles 0).isSome && (Table.find t.tiles 1).isNone
        && decide (t.reserved ≤ t.ownBound)) = true
    ∧ (let s := engineOf (engineGroup 1) (fun t => { t with tiles := [] }) id
       Ready s (xUses []) ∧ (issuer s).team.any (fun t => decide (t.ownBound < t.reserved)) = true ∧ 3 ∉ s.boundTiles 0)
    ∧ (accepts [cmd mmaOp]).tileInUse 1 0 0 = true ∧ Ready (accepts [cmd mmaOp]) (xUses []) ∧ engines.tileInUse 1 0 0 = false
    -- a core without a tile to grow
    ∧ (let s := engineOf (engineGroup 1) (fun t => { t with reserved := 16 }) id; s.unreserved 0 = 0 ∧ Ready s (xUses [30]))
    -- a waiting accfree
    ∧ (let g := { engineGroup 1 with state := .waiting (.unbind 0) }
       let s := engineOf g id id
       s.findGroup ref = some g ∧ (Table.find s.teams 1).any (fun t => t.phase == .placed && (Table.find t.tiles 0).isSome) = true ∧ s.tileInUse 1 0 0 = false
       ∧ g.singleStep = false) := by decide +kernel

theorem witness_MatrixCommandsAreAcceptedAndRun_issue :
    (let e := issuer engines; engines.env = some e ∧ e.path.flagOf xw.fsel = some 0 ∧ e.acts always = true ∧ e.grp.flagFull 0 = false
      ∧ (e.findTile engines xw).1 = some 0 ∧ e.hazard (xUses (recordRegs 8 ++ recordRegs 12 ++ [16])) = false ∧ e.grp.severalPaths = false
      ∧ e.grp.serl = none ∧ e.path.mask = e.grp.present ∧ e.guard always = e.grp.present
      ∧ (e.mmaChecks engines xw).toOption = some (rowsOf 0x1000, rowsOf 0x2000, noScale, noScale, 32) ∧ engines.portFull 0 e.grp.quad = false
      ∧ (engines.charge 0 (256 * mmaCycles 16 32)).isSome = true
      ∧ ((engines.modCore 0 fun c => { c with level := 5 }).charge 0 (256 * mmaCycles 16 32)).isNone = true)
    ∧ (accepts [cmd mmaOp]).portFull 0 (issuer engines).grp.quad = true
    -- a binding that the group knows, one that it has not learnt of, and none
    ∧ (let f := fun l => engineOf (engineGroup 1) (fun t => { t with tiles := l }) id
       ((issuer engines).binding xw).any (fun b => b.knows.contains (issuer engines).gref.grp) = true
       ∧ ((issuer (f [(0, { phys := 0, grown := false, knows := [7], sent := [] })])).binding xw).any (fun b => !b.knows.contains 0) = true
       ∧ ((issuer (f [])).binding xw).isNone = true ∧ ((issuer (f [])).findTile (f []) xw).1 = none)
    ∧ (let e := issuer engines; e.hazard (xUses (recordRegs 20)) = false ∧ (e.record 20).rows = 64 ∧ (e.record 20).rowBytes = 256
      ∧ (e.scratchExtent engines (e.record 20)).toOption = some tileRows) := by decide +kernel

theorem witness_TileBindingsAndEngineCommands_engine :
    (let s := accepts [cmd mmaOp]; (s.core 0).executing = none ∧ (s.core 0).accepted = [cmd mmaOp] ∧ (s.findGroup ref).isSome = true
      ∧ (Table.find s.teams 1).isSome = true ∧ (Table.find s.grids 1).isSome = true ∧ s.saving 0 = false
      ∧ (s.findGroup ref).any (fun g => g.acquiresDone false 0) = true)
    -- groups of the core and of another that wait for their port, and one that waits for nothing
    ∧ (let s : State := { accepts [cmd mmaOp] with
         teams := [(1, placedTeam 1 [{ engineGroup 1 with state := .waiting .port }, groupOf 1] none), (2, { placedTeam 1 [groupOf 1] none with core := 1 })] }
       (s.findGroup ref).any (fun g => g.state == .waiting .port) = true ∧ (Table.find s.teams 1).any (fun t => t.core == 0) = true
       ∧ (s.findGroup { team := 1, grp := 1 }).any (fun g => g.state == .ready) = true ∧ (Table.find s.teams 2).any (fun t => t.core != 0) = true)
    ∧ ((executes (.accld 0 tileRows)).core 0).executing = some (cmd (.accld 0 tileRows))
    ∧ ((executes (.accst 0 tileRows)).core 0).executing = some (cmd (.accst 0 tileRows))
    ∧ (∀ i, i < 64 → (executes (.accst 0 tileRows)).engineMayWrite ref 0 [] (tileRows.row i) 256 = true) := by
  decide +kernel

theorem witness_MatrixCommandsAreAcceptedAndRun_completion :
    ((executes mmaOp).core 0).executing = some (cmd mmaOp) ∧ ((executes mmaOp).teamOf ref).isSome = true := by decide +kernel

/-- copy of s32's row to s36's, and gather by s40's indices from s24 to s44's row. -/
def copyWord : XWord := { xw with r1 := 32, r2 := 36 }
def gatherWord : XWord := { xw with r1 := 40, r2 := 24, r3 := 44, variant := 2 }
def aCopy (isGather : Bool) : CopyCmd :=
  { g := ref, flag := 0, seq := 0, after := [], acq := false, rel := false, scope := 0, isGather := isGather,
    pairs := [(.scratch 0, .scratch 0x200, 16)], since := 0, floor := none, know := Know.none, pubs := [], vas := [(0x100, 16)], dvas := [] }
def copying (l : List CopyCmd) : State := engineOf (engineGroup 1) id fun c => { c with copies := l }

def isOk {α β : Type} (x : Except α β) : Bool :=
  match x with
  | .ok _ => true
  | .error _ => false

theorem witness_CopiesIssueAndComplete_issue :
    (let e := issuer engines; engines.env = some e ∧ e.path.flagOf false = some 0 ∧ e.acts always = true ∧ e.grp.flagFull 0 = false
      ∧ e.hazard (xUses (recordRegs 32 ++ recordRegs 36)) = false
      -- different shapes, and equal ones
      ∧ (e.record 32).rows ≠ (e.record 8).rows ∧ (e.record 32).rows = (e.record 36).rows ∧ (e.record 32).rowBytes = (e.record 36).rowBytes
      ∧ (e.record 32).rows ≠ 0 ∧ (e.record 32).rowBytes ≠ 0 ∧ isOk (e.recordOk engines false (e.record 32)) = true
      ∧ isOk (e.recordOk engines false (e.record 36)) = true ∧ isOk (e.recordRuns engines false .read (e.record 32)).1 = true
      ∧ isOk (e.recordRuns engines false .write (e.record 36)).1 = true
      -- a gather
      ∧ e.hazard (xUses (recordRegs 40 ++ [24, 25] ++ recordRegs 44)) = false ∧ (e.record 40).rowBytes % 4 = 0 ∧ (e.record 44).rowBytes % 4 = 0
      ∧ (e.record 40).rows * (e.record 40).rowBytes / 4 = (e.record 44).rows * (e.record 44).rowBytes / 4
      ∧ (e.record 40).rows * (e.record 40).rowBytes / 4 ≠ 0 ∧ isOk (e.scratchExtent engines (e.record 40)) = true
      ∧ isOk (e.scratchExtent engines (e.record 44)) = true ∧ (e.grp.readSPair 24).toNat % 4 = 0
      ∧ isOk (e.gatherRuns (e.grp.readSPair 24) 4 [0, 0] engines).1 = true)
    -- a place in the engine, and none
    ∧ (engines.core 0).copies.length < copySlots ∧ copySlots ≤ ((copying (List.replicate 64 (aCopy false))).core 0).copies.length := by
  decide +kernel

/-- A copy from a poisoned line of memory. -/
def poisonedCopy (b : Bool) : CopyCmd := { aCopy b with pairs := [(.phys 0x40000100 true, .scratch 0x200, 16)] }

theorem witness_CopiesIssueAndComplete : ∀ b ∈ [true, false],
    (let s := copying [aCopy b]; (s.core 0).copies[0]? = some (aCopy b) ∧ (s.findGroup ref).any (fun g => g.acquiresDone false 0) = true
      ∧ pairsOverlap (aCopy b).pairs = false ∧ (∀ p ∈ (aCopy b).pairs, s.engineMayWrite ref 0 [] p.2.1 p.2.2 = true)
      ∧ s.copyBlocked (aCopy b) = false ∧ (aCopy b).pairs.Pairwise (fun p q => p.2.1.overlaps p.2.2 q.2.1 q.2.2 = false)
      ∧ s.badSource ((aCopy b).pairs.map fun p => (p.1, p.2.2)) 0 = none)
    ∧ (let s := { copying [poisonedCopy b] with poison := [0x40000100 / 64] }
      s.badSource ((poisonedCopy b).pairs.map fun p => (p.1, p.2.2)) 0 = some 0
      ∧ (s.findGroup ref).any (fun g => !g.hasTrap && g.acquiresDone false 0) = true
      ∧ (s.refLaunch ref).any (fun x => s.isOldest x.2.1) = true
      ∧ ∀ p ∈ (poisonedCopy b).pairs, s.engineMayWrite ref 0 [] p.2.1 p.2.2 = true) := by decide +kernel

def aQuery : Query := { g := ref, flag := 0, seq := 0, after := [], acq := false, rel := false, scope := 0, off := 0x20, pubs := [], answer := none }
def asking : State := { engines with queries := [aQuery] }

theorem witness_QueriesAreAnswered :
    (let e := issuer engines; Ready engines (xUses [28]) ∧ e.path.flagOf false = some 0 ∧ e.acts always = true ∧ e.grp.flagFull 0 = false
      ∧ e.team.any (fun t => engines.teamOk t 0x20 16) = true ∧ (e.grp.readS 28).toNat % 16 = 0 ∧ (e.grp.readS 29).toNat % 16 ≠ 0)
    ∧ asking.queries[0]? = some aQuery ∧ (asking.findGroup ref).any (fun g => g.acquiresDone false 0) = true ∧ (asking.teamOf ref).isSome = true
    ∧ (Table.find asking.grids 1).isSome = true ∧ asking.engineMayWrite ref 0 [] (.scratch 0x20) 16 = true
    ∧ ({ aQuery with answer := some [1] } : Query).answer = some [1] := by decide +kernel

def aColl : CollCmd :=
  { g := ref, flag := 0, seq := 0, after := [], acq := false, rel := false, scope := 0, op := 0, src := (List.range 4).map Loc.scratch,
    dst := (List.range 4).map fun k => .scratch (0x300 + k), n := 1, fmt := 0, red := 0, members := 2, rank := 1, id := 0, number := 0, level := 0,
    since := 0, floor := none, know := Know.none, pubs := [], vas := [], dvas := [], answer := none }
def collecting : State := { engines with colls := [aColl] }
def collWord : XWord := { xw with r1 := 26 }
def collDesc : CollDesc := readColl (engines.scratchBytes 0x100 64)

theorem witness_CollectivesAndWaitf :
    (let e := issuer engines; Ready engines (xUses [26, 27]) ∧ (e.checkVirtual engines (e.grp.readSPair 26) 64 64 .read).1.toOption = some (.scratch 0x100)
      ∧ engines.collBad 0 collDesc = false ∧ engines.collBad 1 { collDesc with n := 0 } = true
      ∧ (e.virtual .read engines collDesc.src (collDesc.srcBytes 0)).1.toOption = some [(.scratch 0x200, 4)]
      ∧ (e.virtual .write engines collDesc.dst (collDesc.dstBytes 0)).1.toOption = some [(.scratch 0x300, 4)])
    ∧ collecting.colls[0]? = some aColl ∧ (collecting.findGroup ref).any (fun g => g.acquiresDone false 0) = true
    ∧ collecting.running ref = true ∧ [[0, 0, 0, (0x40 : Byte)]].length + 1 = aColl.members ∧ (∀ l ∈ [[0, 0, 0, (0x40 : Byte)]], l.length = aColl.src.length)
    ∧ (∀ l ∈ aColl.dst, collecting.engineMayWrite ref 0 [] l 1 = true)
    ∧ collecting.badSource (aColl.src.map fun l => (l, 1)) 0 = none
    ∧ ({ collecting with poison := [0] }).badSource ([Loc.phys 0 true].map fun l => (l, 1)) 0 = some 0
    -- waitf: its flag at 0, and counting
    ∧ Ready engines (xUses []) ∧ (issuer engines).grp.flag 0 = 0
    ∧ (let s := world { groupOf 1 with flags := [(0, 2)] }; Ready s (xUses []) ∧ (issuer s).acts always = true ∧ (issuer s).grp.flag 0 ≠ 0) := by
  decide +kernel

-- ## Witnesses: block tables

/-- A table at 0x200 of three entries at 0x300, one sequence of one block whose slot stands at 0x400, and a ring of four at 0x500 that holds
entry 1: entry 0 names block 0x5000 with REF and COW as given, and the slot names entry 0 or none. -/
def tableMem (cow : Bool) (slot : Memory) : Memory :=
  pageTables ++ [(0x40000201, 3), (0x40000208, 3), (0x4000020C, 1), (0x40000211, 4), (0x40000218, 1), (0x40000221, 5), (0x40000228, 4)]
  ++ [(0x40000230, 1), (0x40000301, 0x50), (0x40000304, if cow then 0x80 else 0x40), (0x40000306, if cow then 0xC0 else 0x40)]
  ++ slot ++ [(0x40000500, 1)]
def noSlot : Memory := [(0x40000400, 0xFF), (0x40000401, 0xFF), (0x40000402, 0xFF), (0x40000403, 0xFF)]
def tableWorld (cow : Bool) (slot : Memory) : State := { at_ 0x200 with mem := tableMem cow slot }

def tableUses : Uses := memUses mw (dataRegs mw.d.toNat 4) [mw.base.toNat + 2]

/-- What the check of lane 0 finds: no entry, or an entry and its COW and REF. -/
def resolved (s : State) : Option (Option (Nat × Bool × Nat)) :=
  match ((issuer s).checkTable mw true 0 s).1 with
  | .ok r => some (r.entry.map fun x => (x.1, x.2.cow, x.2.ref.toNat))
  | .error _ => none

/-- The descriptor that the table unit reads after the check, and what it finds once it has taken a free entry. -/
def descOf (s : State) : Option Desc := (((issuer s).table s).desc ((issuer s).checkTable mw true 0 s).2 0x200).1.toOption
def taken (s : State) : Option (List Nat × Bool × Bool) :=
  (descOf s).bind fun d =>
    let t := (issuer s).table s
    let x := t.takeFree (t.desc ((issuer s).checkTable mw true 0 s).2 0x200).2 d 1
    let y := t.resolve x.2 d 0 0 true
    x.1.toOption.map fun free => (free, isOk y.1, isOk (t.entry y.2 d 1).1)

theorem witness_BlockTableAccesses_lanes :
    Ready (tableWorld false []) tableUses ∧ (issuer (tableWorld false [])).grp.acquiring = false
    ∧ lanesOf ((issuer (tableWorld false [])).guard always) = [0]
    ∧ (checkLanes (ldbtLane (issuer (tableWorld false [])) mw) [0] (tableWorld false []) []).2.1.isNone = true
    -- an entry to store in, one that is shared, and a slot to append to
    ∧ resolved (tableWorld false []) = some (some (0, false, 1)) ∧ resolved (tableWorld true []) = some (some (0, true, 2))
    ∧ resolved (tableWorld false noSlot) = some none
    ∧ (∀ s ∈ [tableWorld false [], tableWorld true [], tableWorld false noSlot], (descOf s).any (fun d => decide (1 ≤ d.free)) = true
        ∧ taken s = some ([1], true, true))
    ∧ (tableWorld false []).shadowBlocked 0 [(1, 0)] (.phys 0x50000000 true) = false
    -- the lanes act, or the first waits for a copy, and the shadow has room
    ∧ (∀ s ∈ [tableWorld false [], tableWorld true [], tableWorld false noSlot], (descOf s).any (fun d =>
        let t := (issuer s).table s
        let u := (t.desc ((issuer s).checkTable mw true 0 s).2 0x200).2
        let x := t.takeFree u d 1
        (t.fullAt u x.2 d ref { desc := 0x200, q := 0, bytes := 4, rel := false, scope := 0, op := 0, lanes := [{ lane := 0, off := 0, data := 7 }],
                                free := [1], bad := none } (issuer s).grp false).isNone) = true)
    -- a ring without an entry, and a table whose pages are absent
    ∧ (let s : State := { at_ 0x200 with mem := (tableMem false noSlot).filter fun c => c.1 != 0x40000230 }
       (descOf s).any (fun d => d.free == 0) = true)
    ∧ resolved { tableWorld false [] with mem := [] } = none := by decide +kernel

/-- A sweep that found entry 0 with ACC clear, 1 ms ago; the same entry to be demoted; and a move of it under way. -/
def aSweep (demote : List Nat) : Sweep := { ctx := 0, desc := 0x200, at_ := 0, clear := [0], demote := demote, promote := [] }
def swept : State := { tableWorld false [] with sweeps := [aSweep [0]], cycle := 700000, cur := .device }
def aMove : Move := { ctx := 0, desc := 0x200, entry := 0, after := some [] }

theorem witness_BlocksMoveBetweenTiers :
    isOk ((agentTable 0).desc swept 0x200).1 = true ∧ (∀ x ∈ swept.sweeps, 700000 ≤ (swept.cycle - x.at_).toNat)
    ∧ (swept.sweeps.find? fun x => x.ctx == 0 && x.desc == 0x200) = some (aSweep [0]) ∧ 0 ∈ (aSweep [0]).demote
    ∧ (match ((agentTable 0).desc swept 0x200) with
      | (.ok d, t) => match (agentTable 0).entry t d 0 with
        | (.ok e, u) => e.val && e.tier == 0 && u.entryHigh e == 0 && !u.wordWritten e.loc.addr && u.blockOk e && !u.blockPoisoned e.block
        | _ => false
      | _ => false) = true
    ∧ swept.agentsFree = true ∧ swept.blockFree 0x6000 0 = true ∧ ({ swept with tier2Sizes := [65536] }).blockFree 0x40000000 1 = true
    ∧ ({ swept with moves := [aMove] } : State).moves[0]? = some aMove ∧ aMove.after = some []
    ∧ ({ aMove with after := none } : Move).after = none := by decide +kernel

/-- The agent of core 0, with the table's address in s8, an operation in s12 and sequences in s16 and s17. -/
def agentTables (g : Group) : State :=
  { tableWorld false [] with
    cur := .agent 0,
    cores := [(0, { Core.start with enabled := true, started := true, agent := { Agent.start with halted := false, grp := g } })] }
def agentGroup (op : Word) : Group := { groupOf 1 with s := [(8, 0x200), (12, op), (28, 1)] }
/-- Launch 1 has written the directory slot. -/
def slotWritten : State := { agentTables (agentGroup 1) with shadows := [{ launch := 1, sub := 0, bytes := [(0x40000400, 7)] }] }
def operates (s : State) : Option Bool :=
  match (TableEnv.tableOp { core := 0, ctx := 0, view := [] } s 0x200 1 0 0 true).1,
      (TableEnv.desc { core := 0, ctx := 0, view := [] } s 0x200) with
  | .ok _, (.ok d, u) =>
    some (u.launches.any fun l => l.2.uncommitted && (TableEnv.opWords { core := 0, ctx := 0, view := [] } u d 1 0 0).any (u.wroteWord l.1))
  | _, _ => none

def btopUses : Uses := xUses [8, 9, 12, 16, 17]
def tlbUses : Uses := xUses (recordRegs 16 ++ (List.range 8).map fun k => 28 + k)
def aShoot : Shootdown := { core := 0, start := 0, len := 0, cores := 1 }

theorem witness_AgentTableOperationsAndShootdowns :
    (let s := agentTables (agentGroup 1); let e := issuer s; Ready s btopUses ∧ e.ref = none ∧ e.acts always = true ∧ e.acts never = false
      ∧ e.grp.readSPair 8 = 0x200 ∧ e.grp.readS 12 = 1 ∧ e.ctx = 0 ∧ operates s = some false
      -- tlbinv: a mask, and none
      ∧ Ready s tlbUses ∧ e.grp.readS 19 = 0 ∧ e.grp.readS 28 ≠ 0)
    ∧ Ready slotWritten btopUses ∧ operates slotWritten = some true
    ∧ Ready two btopUses ∧ Ready two tlbUses ∧ (issuer two).ref.isSome = true ∧ (issuer two).grp.readS 19 = 0
    -- a fourth word that is not 0, and an operation that the table refuses
    ∧ (let s := world { groupOf 1 with s := [(19, 1)] }; Ready s tlbUses ∧ (issuer s).acts always = true ∧ (issuer s).grp.readS 19 ≠ 0)
    ∧ (let s := agentTables (agentGroup 9)
       isOk (TableEnv.tableOp { core := 0, ctx := 0, view := [] } s 0x200 9 0 0 true).1 = false)
    ∧ (let s := agentTables { groupOf 1 with s := [] }; Ready s tlbUses ∧ (issuer s).grp.readS 28 = 0)
    ∧ (let s : State := { one with shootdowns := [aShoot] }; s.shootdowns[0]? = some aShoot
      ∧ (∀ c ∈ s.shootCores aShoot, s.usesRange c aShoot = false)) := by decide +kernel

/-- A group that waits for the copy of entry 0's shared block into entry 1. -/
def cowLane : TableLane := { lane := 0, off := 0, data := 7 }
def cowWait : CowWait :=
  { desc := 0x200, q := 0, bytes := 4, rel := false, scope := 0, op := 0, lanes := [cowLane], free := [1], bad := none }
def cowGroup : Group := { groupOf 1 with s := [(8, 0x200)], state := .waiting (.cow cowWait) }
def cowWorld : State := { world cowGroup with mem := tableMem true [] }

/-- The entry that the slot names in a state, with its COW and REF, and that the free entry can be read. -/
def cowEntry (tb : TableEnv) (s : State) : Option (Nat × Bool × Nat × Bool) :=
  match tb.desc s 0x200 with
  | (.ok d, u) => match tb.resolve u d 0 0 true with
    | (.ok { entry := some (k, en), .. }, v) =>
      some (k, en.cow, en.ref.toNat, isOk (tb.entry ((v.markEntry en movBit false).markEntry en accBit true) d 1).1)
    | _ => none
  | _ => none

theorem witness_BlockTableAccesses_copy :
    cowWorld.findGroup ref = some cowGroup ∧ (Table.find cowWorld.teams 1).any (fun t => t.phase == .placed && t.grid == 1) = true
    ∧ (Table.find cowWorld.grids 1).any (fun g => g.ctx == 0) = true ∧ cowGroup.singleStep = false
    ∧ cowEntry { core := 0, ctx := 0, view := cowWorld.viewOf 1 } cowWorld = some (0, true, 2, true)
    -- the copy finds room for its shadow lines
    ∧ (let tb : TableEnv := { core := 0, ctx := 0, view := cowWorld.viewOf 1, src := some (ref, cowGroup) }
       match tb.desc cowWorld 0x200 with
       | (.ok d, t) => (tb.fullAt t t d ref cowWait cowGroup true).isNone
       | _ => false) = true := by decide +kernel

-- ## Witnesses: regions

/-- The machine whose team is placed with a region, with the image of one configuration. -/
def asleep (cfg : Nat) : State := inS { regionOf { planeOf (cellOf []) with cfg := cfg } with live := false }
def hasRegion (s : State) (p : Team → Region → Bool) : Bool :=
  (Table.find s.teams 1).any fun t => t.phase == .placed && t.region.any (p t)

/-- A team whose group is parked for a hop to S form at E-point 7, or still runs; another team may hold the cell. -/
def arming (st : GroupState) (held : Bool) : State :=
  { one with
    grids := [(1, { placedGrid 1 with image := spatialImage })],
    teams := (1, { placedTeam 1 [{ groupOf 1 with state := st }] none with armed := some (7, 0) })
      :: if held then [(2, placedTeam 1 [groupOf 1] (some (regionOf (planeOf (cellOf [])))))] else [] }
def fits (s : State) : Bool :=
  (Table.find s.teams 1).any fun t => (Table.find s.grids 1).any fun g => (g.image.epoints.find? fun p => p.id == 7).any fun p => s.regionFits t g p

/-- A fault of a region's span: a guard failure, or a trap. -/
def faulted (f : SFault) : State := inS { regionOf (planeOf (cellOf [])) with fault := some f }

/-- Core 0 gives its slot of core 0's region a starvation watch of 1,024 cycles. -/
def watched : State := (inS { regionOf (planeOf (cellOf [])) with starve := [(watchKey 0 0 2, 1024)] }).modCore 0 fun c =>
  { c with swcEn := [true, false, false, false] }
/-- Context 0 is being saved. -/
def savingWorld (r : Region) : State := (inS r).modContext 0 fun c => { c with go := true, mode := 1 }
def convChange : State := inS (regionOf { planeOf (cellOf []) with convs := [{ conv0 [] with inq := [], newWord := some sw }] })
/-- A converter's word (R371). -/
def convBits : BitVec 96 := 0xC800001100868801#64 ++ 0x08300000#32
def loadsPlane (s : State) (id n : Nat) : Bool := hasRegion s fun t r => isOk (s.loadPlane t r id n)

theorem witness_RegionsBeginStepAndEnd :
    -- a configuration that passes its checks, and one that does not
    hasRegion (asleep 1) (fun _ r => !r.live && r.fault.isNone) = true ∧ loadsPlane (asleep 1) 1 1 = true ∧ loadsPlane (asleep 3) 3 1 = false
    -- an entry whose region fits, and one whose region does not
    ∧ fits (arming .parkedHop false) = true ∧ fits (arming .parkedHop true) = false
    ∧ (∀ w ∈ [false, true], (Table.find (arming .parkedHop w).teams 1).any (fun t => (t.groups.filter Group.lives).length == 1
        && t.groups.all (fun g => g.state == .parkedHop && g.loads.isEmpty && g.stores.isEmpty) && !t.hopLate) = true)
    ∧ (arming .parkedHop false).saving 0 = false
    -- a guard failure and a trap
    ∧ hasRegion (faulted SFault.guardFailure) (fun _ r => r.fault.any SFault.guard) = true
    ∧ hasRegion (faulted (SFault.trap .align 1)) (fun _ r => r.fault.any fun f => !f.guard) = true
    -- a hop armed for 4,096 cycles, and for fewer; a sample due, and not yet
    ∧ (Table.find (arming .ready false).teams 1).any (fun t => t.groups.any fun g => g.lives && g.state != .parkedHop) = true
    ∧ 4096 ≤ (({ arming .ready false with cycle := 4096 } : State).cycle - BitVec.ofNat 64 0).toNat
    ∧ ((arming .ready false).cycle - BitVec.ofNat 64 0).toNat < 4096
    ∧ 4096 ≤ (({ one with cycle := 4096 } : State).cycle - (one.core 0).sampledAt).toNat := by decide +kernel

theorem witness_RegionsBeginStepAndEnd_steps :
    -- next load, plane reload, freeze wave, starvation watch event, converter reconfigure
    hasRegion (inS (regionOf { planeOf (cellOf []) with pendingNext := some 1 })) (fun _ r =>
      r.active.pendingNext == some 1 && r.active.live == 0 && r.fires) = true
    ∧ loadsPlane (inS (regionOf { planeOf (cellOf []) with pendingNext := some 1 })) 1 2 = true
    ∧ hasRegion (inS { regionOf (planeOf (cellOf [])) with spilled := [planeOf (cellOf [])] }) (fun _ r =>
      r.spilled.length == 1 && decide (r.shadows.length < 3) && r.fault.isNone) = true
    ∧ (savingWorld (regionOf (planeOf (cellOf [])))).saving 0 = true
    ∧ hasRegion (savingWorld (regionOf (planeOf (cellOf [])))) (fun _ r => r.fault.isNone && r.frozen.isNone && r.live && r.closing.isNone && r.spilled.isEmpty) = true
    ∧ hasRegion (savingWorld { regionOf (planeOf (cellOf [])) with frozen := some 0 }) (fun _ r => r.frozen == some 0 && decide (0 < r.w)) = true
    ∧ hasRegion watched (fun t r => listGetD (watched.core t.core).swcEn r.rid false
        && decide (2 ^ (min 14 (listGetD (watched.core t.core).swcExp r.rid 0).toNat + 10) ≤ Table.getD r.starve (watchKey 0 0 2) 0)) = true
    ∧ hasRegion convChange (fun _ r => (r.active.convs.find? fun v => v.k == 0).any fun v =>
        v.newWord == some sw && v.inq.isEmpty && v.outq.isEmpty && v.part.isEmpty && r.live && r.fault.isNone) = true
    ∧ isOk (decodeConverter convBits) = true ∧ isOk (decodeConverter 0) = false := by decide +kernel

/-- Ports: an in port at its first and past its last element, at a mapped and an unmapped address; one in indexed mode; and an out port. -/
def inPort (pos : Nat) (base : BitVec 64) : Port := { port0 with pos := pos, base := base, endSent := false }
def indexedPort : Port := { inPort 0 0 with indexed := true, inq := [{ data := 4, tag := 0, stamp := 1 }], xlat := some (0, 1) }
def outPort (tag : BitVec 2) (base : BitVec 64) : Port := { inPort 0 base with out := true, queue := [tk 6 tag] }
def landingPort : Port :=
  { inPort 0 0x100 with pos := 1, landing := [{ va := 0x100, tag := 0, value := none }], queue := List.replicate 63 (tk 0 0) }
def table0 : List (Option XlatEntry) :=
  some { va := 0, pa := 0x40000000, size := 2 ^ 30, txn := true, rd := true, w := false, stamp := 1, cleared := false } :: List.replicate 15 none
def portWorld (p : Port) : State := inS { regionOf { planeOf (cellOf []) with ports := [p] } with xlat := table0 }

def portRuns (s : State) (f : Team → Region → Port → Bool) : Bool :=
  hasRegion s fun t r => r.live && r.fault.isNone && r.closing.isNone && !r.atnDone && !r.frozenCol 0
    && (r.active.port 0).any fun p => !p.faulted && f t r p
def checks (s : State) (k : AccessKind) (ok : Bool) : Bool :=
  portRuns s fun t _ p => match s.checkPort t p.elemAddr p.width k with
    | (.ok _, u) => ok && (u.charge t.core 1).isSome
    | (.error _, _) => !ok

theorem witness_RegionsMoveData_ports :
    portRuns (portWorld (inPort 1 0x100)) (fun _ _ p => !p.out && p.awaited.isEmpty && decide (p.queue.length + p.landing.length < 64)
      && decide (p.total ≤ p.pos) && !p.endSent && p.landing.isEmpty) = true
    ∧ portRuns (portWorld (inPort 0 0x100)) (fun _ _ p => decide (p.pos < p.total) && !p.indexed) = true
    -- a full port whose one read is to be made
    ∧ (let s := portWorld landingPort; let u := (s.choose 2).2
       portRuns s (fun t _ p => !p.out && p.awaited == [0] && decide (64 ≤ p.queue.length + p.landing.length)
        && match u.checkPort t 0x100 4 .read with
          | (.ok l, v) => (v.sampleTeam 1 t l 4).isSome
          | _ => false) = true)
    ∧ checks (portWorld (inPort 0 0x100)) .read true = true ∧ checks (portWorld (inPort 0 (2 ^ 32))) .read false = true
    ∧ portRuns (portWorld indexedPort) (fun t r p => p.indexed && p.xlat == some (0, 1) && (listGetD r.xlat 0 none).any (fun e =>
        e.stamp == 1 && !e.cleared && decide (4 < e.size) && e.rd && !(portWorld indexedPort).poisoned (.phys (e.pa + 4) e.txn))
        && ((portWorld indexedPort).charge t.core 1).isSome) = true
    ∧ portRuns (portWorld (outPort 2 0x100)) (fun _ _ p => p.out && p.queue == [tk 6 2]) = true
    ∧ portRuns (portWorld (outPort 0 0x100)) (fun _ _ p => p.out && p.queue == [tk 6 0] && decide (p.pos < p.total)) = true
    ∧ checks (portWorld (outPort 0 0x100)) .write true = true ∧ checks (portWorld (outPort 0 (2 ^ 32))) .write false = true := by decide +kernel

/-- Chain 0 with a request of a node. -/
def request (i : Instr) (addr : Word) (skip : Bool) : MemReq :=
  { col := 0, row := 0, slot := 0, node := i, seq := 0, addr := addr, data := 1, tag := 0, skip := skip, epoch := 0 }
def chainWorld (q : MemReq) : State :=
  inS (regionOf { planeOf (cellOf []) with chains := [{ id := 0, nodes := [(0, 0)], e := 0, queue := [q] }] })
def nodeWord8 : SWord := { sw with fn := 0x10 }
def nextIs (q : MemReq) (fault : Bool) : Bool :=
  hasRegion (chainWorld q) fun t r => (r.chainAt 0).isSome && r.nextRequest 0 ((chainWorld q).tileReqs 1 t.core) == some q && r.live && r.fault.isNone
    && ((chainWorld q).nodeFault t q (nodeBytes nodeWord8)).isSome == fault && !r.ownRelease 1 q

/-- A request at memory tile 0. -/
def tileReq (i : Instr) : TileReq := { team := 1, load := 1, chain := 0, req := request i 0 false, fwd := [], answer := none }
def tileWorld (i : Instr) : State := (chainWorld (request i 0 false)).modCore 0 fun c => { c with tileQ := [(0, tileReq i)] }

/-- out0 of the cell leads to its own in2. -/
def aRoute : Route := { dlv := true, loc := true, src := 0, sslot := 0, dst := 2, dslot := 0 }
def routeCell : Cell := { cellOf [[], [], [], []] with outs := [[.tok (tk 3 0)], [], [], []], routes := [aRoute] }
def routeWorld : State := inS (regionOf (planeOf routeCell))

theorem witness_RegionsMoveData :
    (∀ i ∈ [Instr.ldn nodeWord8, .stn nodeWord8, .atn nodeWord8, .btok nodeWord8], nextIs (request i 8 false) false = true
      ∧ nextIs (request i 8 true) false = true ∧ nextIs (request i 0x1000 false) true = true)
    ∧ (∀ i ∈ [Instr.ldn nodeWord8, .atn nodeWord8], ((tileWorld i).core 0).tileNext 0 = some 0 ∧ ((tileWorld i).core 0).tileQ[0]? = some (0, tileReq i)
        ∧ (((tileWorld i).modCore 0 fun c => { c with tileQ := [] }).charge 0 1).isSome = true ∧ (∀ k, k < 4 →
          (tileWorld i).inflightByte ((tileWorld i).viewOfRef ref) ((Loc.scratch 0x40).plus k) = none)
        -- what a read of its team takes, and no store of another group over the word
        ∧ hasRegion (tileWorld i) (fun t _ => (((tileWorld i).sampleTeam 1 t (.scratch (((tileWorld i).teamRange t).1)) 4).isSome)
            && ((tileWorld i).nearStores (t.spanRef 1) ((tileWorld i).viewOfTeam t)).isEmpty
            && (((tileWorld i).modCore 0 fun c => { c with tileQ := [] }).tileAccess t (tileReq i)).isSome) = true)
    -- a stn's charge, and an answer that stands behind a request of its chain
    ∧ (∀ i ∈ [Instr.stn nodeWord8], ((chainWorld (request i 8 false)).charge 0 1).isSome = true)
    ∧ (tileWorld (.ldn nodeWord8)).tileReqs 1 0 = [tileReq (.ldn nodeWord8)]
    -- an atn of a span with an entry
    ∧ ({ regionOf (planeOf (cellOf [])) with span := [{ src := .port 0, va := none, loc := .scratch 0, bytes := 4, data := 0, epoch := 0,
                                                         seenBy := [] }] } : Region).span ≠ []
    ∧ hasRegion routeWorld (fun _ r => (r.active.cell 0 0) == some routeCell && (match r.active.take r.w r.h routeCell aRoute with
        | some (starts, tok, p) => starts && tok == tk 3 0 && (p.give r.w r.h routeCell aRoute tok).isSome
          && (r.active.chanEnd r.w r.h r.active.fuel routeCell aRoute).any r.credit && !r.frozenCol 0
        | none => false)) = true := by decide +kernel

-- ## Witnesses: teams and launches

/-- A grid of two teams, none of which is placed yet, of a launch that runs or waits for its first team. -/
def waitingGrid (gang : Bool) : Grid := { placedGrid 1 with image := testImage, teams := 2, nextTeam := 0, gang := gang, admitted := false, die := none }
def placing (gang gated : Bool) : State :=
  { one with
    grids := [(1, waitingGrid gang)], teams := [], nextId := 2,
    cores := [(0, { Core.start with enabled := true, started := true, gated := gated })] }

theorem witness_TeamsArePlacedAndRetired :
    (∀ b ∈ [false, true], (placing false b).namedNext 1 (waitingGrid false) = true
      ∧ (placing false b).nextFit 1 (waitingGrid false) = some (0, [0], 0) ∧ ((placing false b).core 0).gated = b)
    ∧ (placing false false).restoring 1 = []
    ∧ (let s := placing true false; s.gangWaits 1 (waitingGrid true) = true ∧ (∀ x ∈ s.grids, x.1 = 1) ∧ (s.context 0).stopped = false
      ∧ (s.placeAll 1 2).any (fun p => p.2.all fun c => !(s.core c).gated) = true)
    ∧ ((placing true true).placeAll 1 2).any (fun p => p.2.any fun c => ((placing true true).core c).gated) = true
    -- a team whose group has retired
    ∧ (let s := world { groupOf 1 with state := .retired, paths := [] }; (Table.find s.teams 1).any (fun t =>
        t.phase == .placed && t.groups.all (fun g => g.state == .retired) && s.teamQuiet 1 t) = true) := by decide +kernel

/-- Two launches, the first of which has written line 0x1000004 that the second has read. -/
def launchOf (tag : BitVec 16) (phase : LaunchPhase) (kind : LaunchKind) : Launch := { placedLaunch 1 with tag := some tag, phase := phase, kind := kind }
def conflicting : State :=
  { one with
    launches := [(1, placedLaunch 1), (2, { launchOf 2 .running (.copy 0 0 0) with readWords := [8 * 0x1000004], order := 2 })],
    shadows := [{ launch := 1, sub := 0, bytes := [(0x40000100, 5)] }] }
def launched (x : Launch) : State := { one with launches := [(1, x)] }

theorem witness_LaunchTransactions :
    (conflicting.launches.any fun e => e.2.active && conflicting.before e.1 2 && conflicting.conflicts e.1 2) = true
    -- a replay, a serialised one, and commits of each kind
    ∧ (let s := launched (launchOf 1 .replay (.grid 1)); (s.context 0).stopped = false ∧ s.workBlocked 1 0 (.grid 1) (s.isOldest 1) = false
      ∧ (∀ y ∈ s.launches, y.2.serial = true → s.before y.1 1 = false))
    ∧ (let s := launched { launchOf 1 .replay (.grid 1) with serial := true }; s.isOldest 1 = true ∧ s.workBlocked 1 0 (.grid 1) (s.isOldest 1) = false
      ∧ ∀ y ∈ s.launches, y.2.serial = true → s.before y.1 1 = false)
    ∧ (∀ k ∈ [LaunchKind.grid 1, .copy 0 64 8, .btop 0x200 0 0 1, .btop 0x200 2 0 0], (launched (launchOf 1 .done k)).isOldest 1 = true)
    -- a committed line, a line that was read, and one that was written; a store that waits
    ∧ (let s : State := { one with committed := [{ ctx := 0, tag := 1, bytes := [(0x40000100, 5)] }] }
       (s.committed.any fun c => c.bytes.any fun e => e.1 / 64 == 0x1000004) = true
       ∧ ∀ e ∈ s.teams, (e.2.region.any fun r => r.closing.isSome) = false)
    ∧ (let s := launched { placedLaunch 1 with readWords := [56] }; s.llcVersions 1 7 = [] ∧ ({ placedLaunch 1 with readWords := [56] }).readsLine 7 = true)
    ∧ ({ placedLaunch 1 with readWords := [56] }).readsLine 7 = true
    ∧ (let s : State := { launched { placedLaunch 1 with readWords := [8 * 0x1000004] } with shadows := conflicting.shadows }
       s.llcVersions 1 0x1000004 ≠ [] ∧ s.overflowFull 0 = false)
    ∧ (let s := world { groupOf 1 with state := .waiting .shadow }; (s.findGroup ref).any (fun g => g.state == .waiting .shadow) = true
      ∧ s.overflowFull 0 = false) := by decide +kernel

-- ## Witnesses: queues and packets

/-- Memory with a packet of a type at 0x8000: a NOP, or one of no type; and with a LAUNCH packet of one team at 0x8040, whose image at 0x9000
has one T clause (R119, R264). -/
def packetMem (ty : Byte) : Memory := pageTables ++ [(0x40008000, ty)]
def launchMem : Memory :=
  pageTables ++ [(0x40008040, 1), (0x40008049, 0x90), (0x40008068, 1)]
  ++ [(0x40009000, 0x44), (0x40009001, 0x44), (0x40009002, 0x56), (0x40009003, 0x31), (0x40009004, 4), (0x40009008, 0x40)]
  ++ [(0x4000900B, 1), (0x40009020, 1), (0x40009040, 1), (0x40009048, 0x80), (0x4000904C, 8)]

/-- A queue with one packet at an address. -/
def queueAt (listed : Bool) : Queue := { Queue.start with qbase := 0x8000, en := true, wr := 1, listed := listed }
def queueWorld (ty : Byte) (listed : Bool) : State :=
  { one with mem := packetMem ty, queues := [(0, queueAt listed)], pending := if listed then [(16, [0])] else [] }

theorem witness_QueuesTakePackets :
    -- registers: writes below, within and above the queue's size; a queue that runs, and one that does not; an error to clear
    State.reset.recov = false ∧ ({ State.reset with recov := true } : State).recov = true
    ∧ (let x := queueAt false; (0 : Nat) ≤ x.wr.toNat ∧ x.wr.toNat < 200 ∧ 200 ≤ x.qrd.toNat + 2 ^ x.size.toNat
      ∧ x.qrd.toNat + 2 ^ x.size.toNat < 300 ∧ x.en = true ∧ x.err = false)
    ∧ Queue.start.en = false ∧ (0x80100800#64).getLsbD 31 = true ∧ (0x40000000#64).getLsbD 30 = true
    ∧ { Queue.start with err := true }.err = true ∧ (0 : Nat) < 4096 ∧ 4096 ≤ 5000
    -- a packet that joins its list, and one that an agent draws
    ∧ (let s := queueWorld 6 false; (s.queue 0).hasPacket = true ∧ (s.queue 0).listed = false ∧ (s.context 0).stopped = false
      ∧ (match s.headPacket (s.queue 0) with
        | .ok bs => s.startsNow 0 0 bs
        | .error _ => false) = true)
    ∧ one.agentIdle 0 = true ∧ highestPending one.drawable = none ∧ (queueWorld 6 true).agentIdle 0 = true
    ∧ highestPending (queueWorld 6 true).drawable = some (16, 0) ∧ ((queueWorld 6 true).context 0).level ≠ 3
    -- a packet that passes its checks, and one that does not
    ∧ (∀ x ∈ [((6 : Byte), true), (9, false)], let s := queueWorld x.1 true; (s.queue 0).hasPacket = true
      ∧ (match s.headPacket (s.queue 0) with
        | .ok bs => isOk (s.checkPacket [] none 0 (s.locBytes []) bs)
        | .error _ => !x.2) = x.2) := by decide +kernel

/-- The bytes of a packet of a type. -/
def packetOf (ty : Byte) : List Byte := ty :: List.replicate 63 0
def drawnOf (ty : Byte) : Drawn := { q := 0, index := 0, bytes := packetOf ty, image := if ty = 1 then some testImage else none }
def agentHolds (ty : Byte) : State :=
  { one with launches := [], grids := [], teams := [], queues := [(0, { queueAt false with qrd := 1 })],
             cores := [(0, { Core.start with enabled := true, started := true, agent := { Agent.start with drawn := some (drawnOf ty) } })] }

/-- The group asks for a launch at an address, on a core with a full device queue or with none. -/
def launching (a : Word) (depth : Nat) (full : Bool) : State :=
  { world { groupOf 1 with s := [(8, a)] } with
    mem := launchMem, grids := [(1, { placedGrid 1 with image := testImage, depth := depth })],
    devQueues := if full then [(0, List.replicate 256 9)] else [] }
def canLaunch (s : State) : Bool :=
  ((issuer s).launchPacket s 1 ((issuer s).grp.readSPair 8)).isSome && (Table.find s.launches 1).any fun l => l.freeSub.isSome

theorem witness_PacketsAndLaunchesStartWork :
    (∀ ty ∈ [(1 : Byte), 2, 3, 4, 5, 6], let s := agentHolds ty; (s.core 0).agent.drawn = some (drawnOf ty)
      ∧ packetType (drawnOf ty).bytes = ty.toNat ∧ s.inOrder (drawnOf ty) = true ∧ s.signalsMet 0 (drawnOf ty).bytes = true ∧ (s.queue 0).running = []
      ∧ s.windowOpen = true ∧ s.queueBefore (newLaunch (drawnOf ty) 0 (.copy 0 0 0) 0 0) = false ∧ (s.context 0).stopped = false
      ∧ s.overflowFull 0 = false)
    ∧ (drawnOf 1).image = some testImage
    -- launch: another group's, without Guard, too deep, misaligned, with a full device queue, and with room
    ∧ Ready (world { groupOf 1 with num := 1 }) { v := [], s := [8, 9] } ∧ Ready one { v := [], s := [8, 9] }
    ∧ (issuer one).team.isSome = true ∧ (issuer one).grid.isSome = true ∧ (issuer one).grp.num = 0 ∧ ((issuer one).guard never).getLsbD 0 = false
    ∧ ((issuer one).guard always).getLsbD 0 = true ∧ (issuer (launching 0x8040 10 false)).grid.any (fun g => g.depth == 10) = true
    ∧ ((issuer (launching 0x8041 1 false)).grp.readSPair 8).toNat % 64 ≠ 0
    ∧ (∀ b ∈ [false, true], Ready (launching 0x8040 1 b) { v := [], s := [8, 9] } ∧ canLaunch (launching 0x8040 1 b) = true)
    ∧ 256 ≤ (Table.getD (launching 0x8040 1 true).devQueues 0 []).length ∧ (Table.getD (launching 0x8040 1 false).devQueues 0 []).length < 256
    ∧ (let s := launching 0x8040 1 false; let e := issuer s; s.releasable e.gref e.grp e.grp.know 0 e.grp.seq homeScope (.scratch 0) = true
       ∧ s.fencesClear e.gref e.grp e.grp.know e.grp.fence (.scratch 0) = true)
    -- a starved group
    ∧ (let s := world { groupOf 1 with starve := 65536 }; (s.findGroup ref).any (fun g => g.canIssue && decide (65536 ≤ g.starve)) = true
      ∧ s.mayIssue ref = true ∧ s.quadIssued 0 0 = false ∧ (s.contenders 0 0).any s.starved = true) := by decide +kernel

-- ## Witnesses: power, traps, requests, debug, host

def coreWith (f : Core → Core) : State := one.modCore 0 f

theorem witness_PowerAndClocks :
    ((coreWith fun c => { c with pwrEn := false }).core 0).pwrEn = false
    ∧ (one.core 0).pwrEn = true ∧ 16 ≤ (one.core 0).level.toNat ∧ (one.core 0).gated = false
    ∧ (let c := (coreWith fun c => { c with level := 3 }).core 0; c.level.toNat < 16 ∧ 16 ≤ c.cap.toNat)
    ∧ (let c := (coreWith fun c => { c with level := 8, cap := 8 }).core 0; c.level.toNat < 16 ∧ c.cap.toNat < 16 ∧ c.level = c.cap)
    ∧ (let s : State := { coreWith fun c => { c with pwrGate := true, idle := 65536 } with teams := [] }
       (s.core 0).started = true ∧ (s.core 0).pwrGate = true ∧ 65536 ≤ (s.core 0).idle ∧ s.placedOn 0 = [])
    ∧ ((placing false true).core 0).gated = true ∧ (placing false true).chosenCore 0 = true ∧ (placing false true).wakeOpen = true
    -- credits that are owed, and not; and a wake step that is full
    ∧ ((coreWith fun c => { c with owed := true }).core 0).owed = true ∧ (one.core 0).owed = false
    ∧ (let s : State := { placing false true with wakes := 8 }; 8 ≤ s.wakes ∧ (s.cycle - s.wakeFrom).toNat < 1400)
    -- an agent's slot, a port and a tile that wait
    ∧ (let s := agentWorld.modCore 0 fun c => { c with agent := { c.agent with grp := { c.agent.grp with state := .waiting (.power 0 16) } } }
       (s.findGroup { team := 0, grp := 0 }).any (fun g => g.state == .waiting (.power 0 16)) = true ∧ (s.teamOf { team := 0, grp := 0 }).isNone = true
        ∧ s.canCharge 0 16 = true)
    ∧ hasRegion (portWorld (inPort 0 0x100)) (fun t r => (r.active.ports.any fun p => p.k == 0) && (portWorld (inPort 0 0x100)).canCharge t.core 1) = true
    ∧ (let s := tileWorld (.ldn nodeWord8); ((s.core 0).tileQ.any fun q => q.1 == 0 && q.2.answer.isNone) = true ∧ s.canCharge 0 1 = true)
    ∧ (let s := world { groupOf 1 with state := .waiting (.power 0 16) }; (s.findGroup ref).any (fun g => g.state == .waiting (.power 0 16)) = true
      ∧ (s.teamOf ref).any (fun t => t.phase == .placed && t.core == 0) = true ∧ s.canCharge 0 16 = true) := by decide +kernel

def trapOf (kind : TrapKind) (phase : TrapPhase) : TrapInfo :=
  { kind := kind, detail := 0, pc := 0x10000, addr := 0, lane := wholeGroup, after := false, phase := phase }
def trapped (kind : TrapKind) (phase : TrapPhase) : State := world { groupOf 1 with state := .trapped, trap := some (trapOf kind phase) }
def isTrapped (s : State) (i : TrapInfo) : Bool :=
  (s.findGroup ref).any (fun g => g.trap == some i && g.state == .trapped && !g.severalPaths)
    && (Table.find s.teams 1).any fun t => t.phase == .placed
/-- The trap ring is enabled, with room or full, and a debug handler is registered. -/
def ringed (s : State) (trw : BitVec 64) : State := s.modContext 0 fun c => { c with trbEn := true, trw := trw, dbgEn := true }

/-- Requests under way, and none. -/
def asked (mode : BitVec 3) (f : Context → Context) : State := one.modContext 0 fun c => f { c with go := true, mode := mode }

theorem witness_TrapsAndRequestsAreServed :
    (∀ k ∈ [TrapKind.retired, .page, .prot, .bkpt, .swtrap, .illegal], isTrapped (trapped k .raised) (trapOf k .raised) = true
      ∧ ((trapped k .raised).context 0).trbEn = false)
    ∧ isTrapped (trapped .page .host) (trapOf .page .host) = true
    ∧ ((ringed (trapped .page .raised) 0).context 0).ringFull = false ∧ ((ringed (trapped .page .raised) 64).context 0).ringFull = true
    ∧ ((ringed (trapped .bkpt .raised) 0).context 0).dbgEn = true ∧ isTrapped (ringed (trapped .bkpt .raised) 0) (trapOf .bkpt .raised) = true
    -- requests: a drain that is over, and one that is not; a save; a restore; and none under way
    ∧ (let s : State := { asked 0 id with teams := [] }; (s.context 0).go = true ∧ (s.context 0).mode = 0 ∧ (s.context 0).drainOver = false ∧ s.drained 0 = true)
    ∧ (asked 0 id).drained 0 = false ∧ ((asked 0 id).context 0).drain = 0
    ∧ (asked 1 id).saving 0 = true ∧ (∀ e ∈ (asked 1 id).placedTeams 0, (asked 1 id).savable e = true)
    ∧ ((asked 3 id).context 0).mode = 3 ∧ (asked 3 id).restoreDone 0 = true
    -- DBGC.STOP, and a bsync that the team has reached
    ∧ ((one.modContext 0 fun c => { c with dbgStop := true }).context 0).dbgStop = true
    ∧ (let s := trapped .retired .sync; (s.findGroup ref).any (fun g => g.trap == some (trapOf .retired .sync)
         && (Table.find s.teams 1).any fun t => t.syncMet g) = true)
    ∧ one.recov = false ∧ (one.context 0).go = false
    ∧ ((0x00000000#64).extractLsb' 28 3).toNat = 0 ∧ ((0x90000000#64).extractLsb' 28 3).toNat = 1 ∧ ((0xB0000000#64).extractLsb' 28 3).toNat = 3
    ∧ (0xB0000000#64).getLsbD 31 = true ∧ ((0xA0000000#64).extractLsb' 28 3).toNat = 2 ∧ (0xA0000000#64).getLsbD 31 = true := by decide +kernel

/-- The debugger names group 0 of team 0 of grid 1, and an item: s8, or a lane that no register has. -/
def debugging (s : State) (dsel dadr : BitVec 64) : State := s.modContext 0 fun c => { c with dtgt := 1#64 <<< 32, dsel := dsel, dadr := dadr }
def target (s : State) (f : Target → Bool) : Bool := (s.debugTarget 0).any f

theorem witness_DebuggerAndControlRegisters :
    one.recov = false ∧ (one.context 0).dbusy = false ∧ (one.modContext 0 fun c => { c with dtgt := 5#64 <<< 32 }).debugTarget 0 = none
    ∧ (let s := debugging (trapped .page .host) 0x02000000 0; target s (fun t => (t.read s (s.context 0)).isSome && (t.write s (s.context 0)).isSome
        && t.held.any fun g => g.resumable && g.state != .retired) = true)
    ∧ (let s := debugging (trapped .page .host) 0x7F000000 0; target s (fun t => (t.read s (s.context 0)).isNone && (t.write s (s.context 0)).isNone) = true)
    ∧ (let s := debugging one 0x02000000 0; target s (fun t => t.held.isNone) = true)
    ∧ (∀ r ∈ [CtlReg.ttb 0, .nrb, .qbase 0], named r = true) ∧ CtlReg.ttb 0 ≠ .upload 0
    ∧ ({ one with recov := true } : State).recov = true ∧ (2#64).getLsbD 0 = false ∧ (1#64).getLsbD 0 = true := by decide +kernel

def agentWaits (l : List AgentEvent) : State :=
  { agentWorld with cores := [(0, { Core.start with
      enabled := true, started := true, agent := { Agent.start with halted := true, grp := groupOf 1, events := l } })] }
def flashed (f : Flash) : State := { State.reset with flash := f }

theorem witness_OutsideWorldAndBringUp :
    one.ready = true ∧ one.firstTierWord 0x8000 = true ∧ one.peer = 0 ∧ (2 ^ 50 + 2 ^ 45 - 2 ^ 50) / 2 ^ 45 ≠ one.peer
    -- bring-up: what fails, and what does not; a step of the cores
    ∧ (0#64).getLsbD 31 = false ∧ (0x80000000#64).getLsbD 31 = true
    ∧ (flashed { Flash.shipped with records := [] }).flash.usable 1 = none
    ∧ (let s : State := { State.reset with stage := 4 }; s.stage = 4 ∧ s.recov = false ∧ s.err = 0 ∧ s.nextStart = 0)
    -- attestation, and an agent's first event
    ∧ one.recov = false ∧ one.attesting = none ∧ (let s : State := { one with attesting := some ([], 0) }; s.attesting.isSome = true)
    ∧ (∀ l ∈ [[AgentEvent.packet, .trap ref], [.hostWrite, .packet]], let c := (agentWaits l).core 0
        c.started = true ∧ c.gated = false ∧ c.agent.handling = none ∧ c.agent.grp.state.canLeave = true ∧ (firstEvent c.agent.events).isSome = true
        ∧ c.agent.grp.active.isSome = true)
    -- errors
    ∧ tier2Port [2 ^ 30] 0 ((2 ^ 46 + 64) - 2 ^ 46) = some 0
    ∧ pendingGroup.reads 0 = true ∧ pendingGroup.hasTrap = false
    ∧ portRuns (portWorld landingPort) (fun _ _ p => p.landing[0]?.any fun x => x.value.isNone) = true
    ∧ (accepts [cmd mmaOp]).engineGroups 1 = [ref]
    ∧ ((accepts [cmd mmaOp]).findGroup ref).any (fun g => !g.hasTrap) = true
    ∧ ((accepts [cmd mmaOp]).refLaunch ref).isSome = true
    ∧ conflicting.engineGroups 2 = [] ∧ conflicting.copyWorks 2 = true
    ∧ (∀ x ∈ conflicting.shadows, x.launch = 1 ∧ x.bytes ≠ [])
    ∧ (({ one with committed := [{ ctx := 0, tag := 1, bytes := [(0x40000100, 5)] }] } : State).committed.any fun c => c.bytes.any fun e => e.1 / 64 == 0x1000004) = true := by
  decide +kernel

theorem readRecord_of (b : List Byte) (kind : Nat) (h : ∀ m s, Config.signatureValid m s = true)
    (c : (bytesField b 0 4 = 0x43525644 && bytesField b 6 2 = 0 && ((b.drop 20).take 12).all (· == 0)
      && decide (32 + bytesField b 16 4 + 132 ≤ b.length)) = true) (k : bytesField b 4 2 = kind) :
    ∃ r, readRecord b = some r ∧ r.kind = kind := by
  simp only [readRecord, h, Bool.and_true, c, if_true]
  exact ⟨_, rfl, k⟩

theorem usable_of (f : Flash) (a b : List Byte) (p q : FlashRec) (hr : f.records = [a, b]) (hf : f.floors = []) (ha : readRecord a = some p)
    (hb : readRecord b = some q) (hp : p.kind = 1) (hq : q.kind = 3) : (f.usable 1).isSome = true ∧ (f.usable 3).isSome = true := by
  simp [Flash.usable, hr, hf, ha, hb, hp, hq, Table.getD, Table.find]

/-- Where the signatures that the vendor's key decides are valid, the shipped records are usable (R313). -/
theorem witness_OutsideWorldAndBringUp_records (h : ∀ m s, Config.signatureValid m s = true) :
    (Flash.shipped.usable 1).isSome = true ∧ (Flash.shipped.usable 3).isSome = true := by
  obtain ⟨p, hp, kp⟩ := readRecord_of (recordBody 1 (List.replicate 32 0xFF#8) ++ List.replicate 132 0) 1 h (by decide +kernel) (by decide +kernel)
  obtain ⟨q, hq, kq⟩ := readRecord_of (recordBody 3 [0#8] ++ List.replicate 132 0) 3 h (by decide +kernel) (by decide +kernel)
  exact usable_of Flash.shipped _ _ p q rfl rfl hp hq kp kq

-- ## Witnesses: the step

/-- The turn of a group with a word at hand, of one at a header, of an agent's slot, of a PE, and of a step of the hardware. -/
def turning (g : Group) : State := { world { g with boosted := true } with turns := [.issue ref] }
def turned (s : State) : State := { { s with turns := [] }.noteIssue ref with cur := .group ref }

theorem witness_StepRunsDecodedInstruction :
    (let s := turning { groupOf 1 with paths := [{ PathEntry.at 0x10008 1 with words := [0x6300000000000000] }] }
     ({ s with turns := [] } : State).mayIssue ref = true ∧ ((turned s).env.any fun e => e.path.words == [0x6300000000000000#64] && e.gref.team != 0
        && (e.breakpoint (turned s)).isNone && !e.grp.singleStep && !e.grp.stepped && (e.arrived (turned s)).env.isSome) = true ∧ isOk (decodeNative 0x6300000000000000) = true)
    ∧ (let s := turning (headerGroup []); ((turned s).env.any fun e => e.path.words.isEmpty && (e.breakpoint (turned s)).isNone && !e.grp.stepped
        && (e.arrived (turned s)).env.any fun d => !d.grp.fbar && (d.atHeader (e.arrived (turned s))).2
          && (d.atHeader (e.arrived (turned s))).1.env.any fun f => match f.fetchWord (d.atHeader (e.arrived (turned s))).1 f.path.pc with
            | (.word w, _) => w == 0
            | _ => false) = true)
    ∧ (handling.core 0).agentReady = true ∧ handling.env.any (fun e => e.path.words == [0]) = true
    ∧ (let c := { cellOf [[tk 1 0], [tk 2 0], [], []] with slots := some (.sink sw) :: List.replicate 15 none }
       let s := inS (regionOf (planeOf c)); (s.peEnv.any fun e => (e.cell.filled.find? fun x => e.canFire x.2) == some (0, .sink sw)) = true)
    ∧ State.reset.turns = [] := by decide +kernel


/-- A state whose memory is canonical, and from which a step answers a next state. -/
def stepping : State := turning { groupOf 1 with paths := [{ PathEntry.at 0x10008 1 with words := [0x6300000000000000] }] }
theorem witness_StepKeepsCanonicalMemory : stepping.wf ∧ isOk (match step stepping with
    | .next t => .ok t
    | .fault _ => .error ()
    | .refused _ => .error ()) = true := by decide +kernel
theorem test_reset_canonical : State.reset.wf := by decide +kernel
-- ## Witnesses: completion

theorem witness_SpatialNodesComplete :
    (∀ i ∈ [Instr.steer, .merge, .cnt, .emit, .sink, .pent, .pexit, .isect, .ldn, .stn, .atn, .btok, .eqpn, .xlat], fires dataPair (i sw) sw = true)
    ∧ fires portDone (.swait sw) sw = true ∧ ((peOf portDone).region.active.port (sw.imm.toNat % 8)).isSome = true
    ∧ fires (callWorld 2) (.calln callSlot) callSlot = true ∧ 0 + 0 + 2 ≤ (peOf (callWorld 2)).region.depth ∧ loads (callWorld 2) = true
    ∧ fires callee (.retn sw) sw = true ∧ (peOf callee).region.shadows ≠ [] ∧ (peOf callee).region.active.caller.isSome = true
    ∧ fires dataPair (.next sw) sw = true ∧ (peOf dataPair).region.active.pendingNext = none
    ∧ dataPair.mportAstray (peOf dataPair).team (peOf dataPair).region (sw.imm.toNat % 4) = false
    ∧ fires dataPair (.mport sw) sw = true ∧ (Table.find (peOf dataPair).team.tiles (sw.imm.toNat % 16)).isSome = true
    ∧ ((peOf dataPair).cell.head 0).tag = 0 ∧ ((peOf dataPair).cell.head 1).tag = 0 ∧ (convWorld (conv0 [])).convEnv.isSome = true := by decide +kernel

theorem witness_ControlInstructionsComplete_jumps :
    (let s := world (headerGroup []); Ready s (xUses []) ∧ (issuer s).path.words = [] ∧ (issuer s).grp.flagsClear header.wait = true ∧ fetches s = true)
    ∧ (let s := jumpTo 0x10040; let e := issuer s; Ready s { v := [], s := [4, 5] } ∧ e.hazard { v := [], s := [] } = false ∧ e.hazard { v := [], s := [4] } = false
      ∧ CanJump s e.grp (e.guard always) (e.target bw.disp) ∧ (e.grp.readSPair 4).extractLsb' 0 3 = 0 ∧ CanJump s e.grp (e.guard always) (e.grp.readSPair 4)
      ∧ e.grp.readS 4 ≠ 1 ∧ CanJump s (e.grp.writeS 4 (e.grp.readS 4 - 1)) (e.guard always) (e.target bw.disp)
      ∧ e.sel.isSome = true ∧ e.ref.isSome = true ∧ e.path.words.length = 1 ∧ e.guard always = e.path.mask ∧ e.grp.severalPaths = false
      ∧ e.spillBusy (e.pushed bw.aux.toNat) = false ∧ CanJump s (e.pushed bw.aux.toNat) (e.guard always) (e.target bw.disp)) := by
  decide +kernel

theorem witness_ControlInstructionsComplete_paths :
    (let s := jumpTo 1; Ready s { v := [], s := [4] } ∧ (issuer s).grp.readS 4 = 1)
    ∧ (let s := world (calledGroup { size := 16, spilled := none }); let e := issuer s; Ready s { v := [], s := [] } ∧ e.guard always = e.path.mask
      ∧ e.grp.severalPaths = false ∧ e.sel.isSome = true ∧ CanJump s { e.grp with rets := [], frames := [], base := 0 } e.path.mask 0x10000)
    ∧ (let e := issuer two; Ready two { v := [], s := [] } ∧ e.guard always ≠ 0 ∧ e.unevenV (e.guard always) = false ∧ e.sel.isSome = true
      ∧ e.path.words.length = 1 ∧ e.vform = false ∧ e.grp.serl = none ∧ lanesOf e.path.mask = [0, 1])
    ∧ (let e := issuer (passOf 1); Ready (passOf 1) { v := [], s := [] } ∧ e.sel = none ∧ e.grp.serl.isSome = true ∧ e.path.words.length = 1) := by
  decide +kernel

theorem witness_ControlInstructionsComplete :
    (let e := issuer atPoint; Ready atPoint { v := [], s := [] } ∧ e.grid.isSome = true ∧ e.path.fresh = true ∧ e.acts always = true
      ∧ spatialImage.epoints.all fun p => e.atEpoint p && p.id == (7#12).toNat)
    ∧ (let s := one.modContext 0 fun c => { c with csc := 0x92680000 }
       Ready s { v := [], s := [] } ∧ (issuer s).ref = some ref ∧ (issuer s).acts always = true ∧ (s.context 0).cscHint = true ∧ (s.context 0).cscPin = 0)
    ∧ Ready handling { v := [], s := [] } ∧ (issuer handling).ref = none ∧ (handling.core 0).agent.handling.isSome = true
    ∧ Ready agentWorld { v := [], s := [] } ∧ (issuer agentWorld).ref = none ∧ (agentWorld.core 0).agent.events = []
    ∧ Ready agentWorld { v := [], s := [aw.a.toNat] }
    ∧ Ready one { v := [], s := [] } ∧ (issuer one).guard always ≠ 0 ∧ (issuer one).grp.loadsDone (fun _ => true) (issuer one).grp.seq = true
    ∧ (issuer one).grp.performed (issuer one).grp.seq mw.scope.toNat = true ∧ one.nearClear ref (issuer one).grp.know mw.scope.toNat = true
    ∧ Ready engines (xUses []) ∧ (issuer engines).grp.flag 0 = 0
    ∧ (let s := agentTables (agentGroup 1); let e := issuer s; Ready s btopUses ∧ e.ref = none ∧ e.acts always = true ∧ operates s = some false
      ∧ Ready s tlbUses ∧ e.grp.readS 19 = 0 ∧ e.grp.readS 28 ≠ 0)
    ∧ (let s := agentTables { groupOf 1 with s := [] }; Ready s tlbUses ∧ ∀ k, k < 8 → (issuer s).grp.readS (28 + k) = 0)
    ∧ (let s := launching 0x8040 1 false; let e := issuer s; Ready s { v := [], s := [8, 9] } ∧ e.team.isSome = true ∧ e.grid.any (fun g => g.depth != 10) = true
      ∧ e.grp.num = 0 ∧ (e.guard always).getLsbD 0 = true ∧ (e.grp.readSPair 8).toNat % 64 = 0 ∧ canLaunch s = true
      ∧ (Table.getD s.devQueues 0 []).length < 256 ∧ s.releasable e.gref e.grp e.grp.know 0 e.grp.seq homeScope (.scratch 0) = true ∧ s.fencesClear e.gref e.grp e.grp.know e.grp.fence (.scratch 0) = true) := by
  decide +kernel

theorem witness_MemoryAccessesComplete :
    MemReady mapped mw ∧ (∀ k ∈ [AccessKind.read, .write], readable mapped mw k = true ∧ vectorOk mapped mw k = true)
    ∧ inTeam mapped { mw with base := 10, imm := 0x10 } = true ∧ Ready mapped (vectorUses mw (dataRegs 4 4))
    ∧ (let r := virtualLanes (issuer mapped) always 4 .read ((issuer mapped).memAddr mw) mapped; (issuer mapped).firstFull r.2.2 r.1 = none)
    -- ldc and prf; ldbt
    ∧ Ready mapped { v := [], s := [8, 9] ++ dataRegs 4 4 } ∧ (issuer mapped).guard always ≠ 0
    ∧ isOk ((issuer mapped).checkVirtual mapped ((issuer mapped).grp.readSPair 8) 4 4 .read).1 = true ∧ Ready mapped (memUses mw [] [])
    ∧ Ready (tableWorld false []) tableUses ∧ (checkLanes (ldbtLane (issuer (tableWorld false [])) mw) [0] (tableWorld false []) []).2.1.isNone = true
    -- barinit and arrive; atomics
    ∧ Ready mapped (memUses mw [4] [])
    ∧ (∀ k ∈ [AccessKind.write, .atomic],
        let r := checkLanes (fun l s => (issuer mapped).checkBarrier s mw k l) (lanesOf ((issuer mapped).guard always)) mapped [];
        r.1 = [(0, .phys 0x40000100 true)] ∧ r.2.1 = none ∧ (issuer mapped).firstFull r.2.2 r.1 = none
        ∧ ∀ x ∈ r.1, (issuer mapped).mustWait r.2.2 16 x = false ∧ (issuer mapped).mustRelease r.2.2 (arriveScope mw) x = false)
    ∧ Ready mapped (atomUses mw (dataRegs 4 4)) ∧ Ready mapped (atomUses mw (dataRegs 4 8))
    ∧ (let r := virtualLanes (issuer mapped) always 4 .atomic ((issuer mapped).atomAddr mw) mapped; r.2.1 = none
        ∧ (issuer mapped).firstFull r.2.2 r.1 = none
        ∧ ∀ x ∈ r.1, (issuer mapped).mustWait r.2.2 4 x = false ∧ (issuer mapped).mustRelease r.2.2 (releaseScope mw) x = false)
    -- cwait and wait: no lane, and lanes whose words differ
    ∧ (issuer mapped).guard never = 0 ∧ leftOf 5 = []
    -- the steps that end accesses
    ∧ pendingGroup.loads[0]? = some load4 ∧ pendingWorld.loadMayRun ref pendingGroup load4 = true
    ∧ pendingGroup.stores[0]? = some store6 ∧ pendingWorld.storeMayRun ref pendingGroup store6 = true ∧ store6.level < 3
    ∧ homeGroup.stores[0]? = some homeStore ∧ homeWorld.storeMayRun ref homeGroup homeStore = true ∧ homeWorld.storeBlocked ref homeStore.loc = none
    ∧ (Table.find missing.teams 1).any (fun t => t.phase == .placed && (t.groups.any fun g => g.paths.any fun p => p.miss)) = true
    ∧ (let s := world (waitingFor none [waitLane0 5]); s.findGroup ref = some (waitingFor none [waitLane0 5]) ∧ s.running ref = true
        ∧ (s.waitEnv ref).isSome = true ∧ pollFinds (waitingFor none [waitLane0 5]) (waitLane0 5) = some true) := by decide +kernel

theorem witness_EngineStepsComplete :
    (let s := engineOf (engineGroup 1) (fun t => { t with tiles := [] }) id
     Ready s (xUses []) ∧ Ready s (xUses [30]) ∧ (issuer s).ref = some ref ∧ (issuer s).acts always = true
      ∧ (issuer s).team.any (fun t => decide (t.ownBound < t.reserved) && (Table.find t.tiles 0).isNone) = true ∧ 3 ∉ s.boundTiles 0)
    ∧ (issuer engines).team.any (fun t => (Table.find t.tiles 0).isSome) = true ∧ engines.tileInUse 1 0 0 = false
    ∧ (let e := issuer engines; engines.env = some e ∧ e.path.flagOf false = some 0 ∧ e.acts always = true ∧ e.grp.flagFull 0 = false
      ∧ (e.findTile engines xw).1 = some 0 ∧ engines.portFull 0 e.grp.quad = false
      ∧ (∀ u ∈ [recordRegs 8 ++ recordRegs 12 ++ [16], recordRegs 20, recordRegs 32 ++ recordRegs 36, recordRegs 40 ++ [24, 25] ++ recordRegs 44, [28],
                [26, 27], []], e.hazard (xUses u) = false)
      ∧ e.grp.severalPaths = false ∧ e.grp.serl = none ∧ e.path.mask = e.grp.present ∧ e.guard always = e.grp.present
      ∧ isOk (e.mmaChecks engines xw) = true ∧ (engines.charge 0 (256 * mmaCycles 16 32)).isSome = true
      ∧ (e.record 20).rows = 64 ∧ (e.record 20).rowBytes = 256 ∧ isOk (e.scratchExtent engines (e.record 20)) = true
      ∧ (engines.core 0).copies.length < copySlots ∧ isOk (e.recordOk engines false (e.record 32)) = true
      ∧ isOk (e.recordRuns engines false .read (e.record 32)).1 = true ∧ isOk (e.recordRuns engines false .write (e.record 36)).1 = true
      ∧ isOk (e.gatherRuns (e.grp.readSPair 24) 4 [0, 0] engines).1 = true ∧ (e.grp.readS 28).toNat % 16 = 0
      ∧ e.team.any (fun t => engines.teamOk t 0x20 16) = true ∧ isOk (e.checkVirtual engines (e.grp.readSPair 26) 64 64 .read).1 = true
      ∧ engines.collBad 0 collDesc = false) := by decide +kernel

theorem witness_EngineStepsComplete_steps :
    (let s := accepts [cmd mmaOp]; (s.core 0).executing = none ∧ (s.core 0).accepted = [cmd mmaOp] ∧ s.saving 0 = false
      ∧ (s.findGroup ref).any (fun g => g.acquiresDone false 0) = true)
    ∧ ((executes mmaOp).core 0).executing = some (cmd mmaOp) ∧ ((executes mmaOp).teamOf ref).isSome = true
    ∧ (∀ o ∈ [MatrixOp.accld 0 tileRows, .accst 0 tileRows], ((executes o).core 0).executing = some (cmd o))
    ∧ (∀ i, i < 64 → (executes (.accst 0 tileRows)).engineMayWrite ref 0 [] (tileRows.row i) 256 = true)
    ∧ (∀ b ∈ [true, false], let s := copying [aCopy b]; (s.core 0).copies[0]? = some (aCopy b) ∧ s.copyBlocked (aCopy b) = false
      ∧ (∀ p ∈ (aCopy b).pairs, s.engineMayWrite ref 0 [] p.2.1 p.2.2 = true) ∧ s.badSource ((aCopy b).pairs.map fun p => (p.1, p.2.2)) 0 = none)
    ∧ asking.engineMayWrite ref 0 [] (.scratch 0x20) 16 = true ∧ (∀ l ∈ aColl.dst, collecting.engineMayWrite ref 0 [] l 1 = true)
    ∧ (let g := { engineGroup 1 with state := .waiting (.unbind 0) }; let s := engineOf g id id
       s.findGroup ref = some g ∧ s.tileInUse 1 0 0 = false ∧ g.singleStep = false)
    ∧ (let s : State := { one with shootdowns := [aShoot] }; ∀ c ∈ s.shootCores aShoot, s.usesRange c aShoot = false) := by decide +kernel

theorem witness_EngineStepsComplete_tables :
    cowWorld.findGroup ref = some cowGroup ∧ (Table.find cowWorld.teams 1).any (fun t => t.phase == .placed && t.grid == 1) = true
    ∧ cowEntry { core := 0, ctx := 0, view := cowWorld.viewOf 1 } cowWorld = some (0, true, 2, true)
    ∧ (let tb : TableEnv := { core := 0, ctx := 0, view := cowWorld.viewOf 1, src := some (ref, cowGroup) }
       match tb.desc cowWorld 0x200 with
       | (.ok d, t) => ((tb.actAll d ref 2 t cowWait cowGroup true).1 matches .done)
       | _ => false) = true
    ∧ isOk ((agentTable 0).desc swept 0x200).1 = true ∧ (∀ x ∈ swept.sweeps, 700000 ≤ (swept.cycle - x.at_).toNat) ∧ swept.agentsFree = true
    ∧ (swept.sweeps.find? fun x => x.ctx == 0 && x.desc == 0x200) = some (aSweep [0]) ∧ 0 ∈ (aSweep [0]).demote
    ∧ ({ swept with tier2Sizes := [65536] }).blockFree 0x40000000 1 = true ∧ aMove.after = some [] := by decide +kernel

theorem witness_RegionStepsComplete :
    4096 ≤ (({ arming .ready false with cycle := 4096 } : State).cycle - BitVec.ofNat 64 0).toNat
    ∧ (Table.find (arming .ready false).teams 1).any (fun t => t.groups.any fun g => g.lives && g.state != .parkedHop) = true
    ∧ fits (arming .parkedHop false) = true ∧ (arming .parkedHop false).saving 0 = false
    ∧ 4096 ≤ (({ one with cycle := 4096 } : State).cycle - (one.core 0).sampledAt).toNat
    ∧ hasRegion (asleep 1) (fun _ r => !r.live && r.fault.isNone) = true ∧ loadsPlane (asleep 1) 1 1 = true
    ∧ hasRegion (faulted SFault.guardFailure) (fun _ r => r.fault.isSome) = true
    ∧ hasRegion (inS (regionOf { planeOf (cellOf []) with pendingNext := some 1 })) (fun _ r => r.active.live == 0 && r.fires) = true
    ∧ loadsPlane (inS (regionOf { planeOf (cellOf []) with pendingNext := some 1 })) 1 2 = true
    ∧ hasRegion (savingWorld (regionOf (planeOf (cellOf [])))) (fun _ r => r.frozen.isNone && r.live && r.closing.isNone && r.spilled.isEmpty) = true
    ∧ hasRegion (savingWorld { regionOf (planeOf (cellOf [])) with frozen := some 0 }) (fun _ r => decide (0 < r.w)) = true
    ∧ hasRegion watched (fun t r => listGetD (watched.core t.core).swcEn r.rid false) = true ∧ isOk (decodeConverter convBits) = true
    ∧ hasRegion convChange (fun _ r => (r.active.convs.find? fun v => v.k == 0).any fun v =>
        v.newWord == some sw && v.inq.isEmpty && v.outq.isEmpty && v.part.isEmpty) = true
    ∧ hasRegion routeWorld (fun _ r => (match r.active.take r.w r.h routeCell aRoute with
        | some (_, tok, p) => (p.give r.w r.h routeCell aRoute tok).isSome
        | none => false)) = true
    ∧ portRuns (portWorld (inPort 1 0x100)) (fun _ _ p => p.awaited.isEmpty && decide (p.total ≤ p.pos) && !p.endSent && p.landing.isEmpty) = true
    ∧ checks (portWorld (inPort 0 0x100)) .read true = true ∧ checks (portWorld (outPort 0 0x100)) .write true = true
    ∧ (∀ i ∈ [Instr.ldn nodeWord8, .stn nodeWord8, .atn nodeWord8, .btok nodeWord8], nextIs (request i 8 false) false = true)
    ∧ ((tileWorld (.ldn nodeWord8)).core 0).tileNext 0 = some 0 := by decide +kernel

theorem witness_LaunchAndQueueStepsComplete :
    (placing false false).namedNext 1 (waitingGrid false) = true ∧ (placing false false).nextFit 1 (waitingGrid false) = some (0, [0], 0)
    ∧ ((placing false false).core 0).gated = false
    ∧ (placing true false).gangWaits 1 (waitingGrid true) = true ∧ ((placing true false).placeAll 1 2).any (fun p => p.2.all fun c => !((placing true false).core c).gated) = true
    ∧ (let s := world { groupOf 1 with state := .retired, paths := [] }; (Table.find s.teams 1).any (fun t => s.teamQuiet 1 t) = true)
    ∧ (world { groupOf 1 with starve := 65536 }).mayIssue ref = true
    ∧ (conflicting.launches.any fun e => e.2.active && conflicting.before e.1 2 && conflicting.conflicts e.1 2) = true
    ∧ (let s := launched (launchOf 1 .replay (.grid 1)); s.workBlocked 1 0 (.grid 1) (s.isOldest 1) = false ∧ ∀ y ∈ s.launches, y.2.serial = true → s.before y.1 1 = false)
    ∧ (launched (launchOf 1 .done (.grid 1))).isOldest 1 = true
    ∧ (let s := launched { placedLaunch 1 with readWords := [56] }; s.llcVersions 1 7 = [] ∧ ({ placedLaunch 1 with readWords := [56] }).readsLine 7 = true)
    ∧ (({ one with committed := [{ ctx := 0, tag := 1, bytes := [(0x40000100, 5)] }] } : State).committed.any fun c => c.bytes.any fun e => e.1 / 64 == 0x1000004) = true
    ∧ (world { groupOf 1 with state := .waiting .shadow }).overflowFull 0 = false
    ∧ State.reset.recov = false ∧ Queue.start.en = false ∧ (0x80100800#64).getLsbD 31 = true ∧ (0x40000000#64).getLsbD 30 = true
    ∧ (let s := queueWorld 6 false; (s.queue 0).hasPacket = true ∧ isOk (s.headPacket (s.queue 0)) = true) ∧ one.agentIdle 0 = true
    ∧ (∀ ty ∈ [(1 : Byte), 2, 3, 4, 5, 6], let s := agentHolds ty; s.inOrder (drawnOf ty) = true ∧ s.signalsMet 0 (drawnOf ty).bytes = true
      ∧ s.windowOpen = true ∧ s.overflowFull 0 = false) := by decide +kernel

theorem witness_HostAndServiceStepsComplete :
    isTrapped (ringed (trapped .page .raised) 0) (trapOf .page .raised) = true ∧ ((ringed (trapped .page .raised) 0).context 0).ringFull = false
    ∧ isTrapped (trapped .page .host) (trapOf .page .host) = true ∧ one.recov = false ∧ (one.context 0).go = false
    ∧ (let s : State := { asked 0 id with teams := [] }; s.drained 0 = true) ∧ (asked 0 id).drained 0 = false
    ∧ (asked 1 id).saving 0 = true ∧ (∀ e ∈ (asked 1 id).placedTeams 0, (asked 1 id).savable e = true) ∧ (asked 3 id).restoreDone 0 = true
    ∧ (let s := debugging (trapped .page .host) 0x02000000 0; target s (fun t => (t.read s (s.context 0)).isSome && (t.write s (s.context 0)).isSome
        && t.held.any fun g => g.resumable && g.state != .retired) = true)
    ∧ ((coreWith fun c => { c with owed := true }).core 0).owed = true ∧ (world { groupOf 1 with state := .waiting (.power 0 16) }).canCharge 0 16 = true
    ∧ (let s : State := { coreWith fun c => { c with pwrGate := true, idle := 65536 } with teams := [] }; s.placedOn 0 = [])
    ∧ (placing false true).chosenCore 0 = true ∧ (placing false true).wakeOpen = true
    ∧ (let c := (agentWaits [.packet]).core 0; c.agent.grp.state.canLeave = true ∧ firstEvent c.agent.events = some .packet ∧ c.agent.grp.active.isSome = true)
    ∧ pendingGroup.reads 0 = true ∧ one.ready = true ∧ one.firstTierWord (cxlMem 0x8000) = true ∧ one.firstTierWord 0x8000 = true
    ∧ (let s : State := { one with attesting := some ([], 0) }; s.recov = false ∧ s.attesting.isSome = true) ∧ (let s : State := { State.reset with stage := 4 }; s.recov = false ∧ s.err = 0 ∧ s.stage = 4 ∧ s.nextStart = 0) := by decide +kernel

-- ## Witnesses: clauses that hold in further states

/-- addc and subb of a 64-bit type, whose pair and carry lie in three slots. -/
theorem witness_CarryOperation_pair :
    let w : AWord := { plainWord 3 false 4 8 10 0 with tail := .reg 10 6 0 }
    let e := issuer two
    RowsIssue carryOps w ∧ w.tail = .reg 10 6 0
    ∧ (∀ p ∈ carryOps, (p.1 (.native w)).aluRow.any (fun x => rowWide x.1 w) = true)
    ∧ e.grp.vSlot e.ring 4 ≠ e.grp.vSlot e.ring 5 ∧ e.grp.vSlot e.ring 4 ≠ e.grp.vSlot e.ring 6 ∧ e.grp.vSlot e.ring 5 ≠ e.grp.vSlot e.ring 6 := by
  decide +kernel

/-- A V-form group whose element 1 fails an stbt that element 0 may make. -/
def tableFails : State :=
  { world { groupOf 3 with vform := true, s := [(8, 0x200)], v := [(vKey 5 1, 0xFFFFFFFF)] } with mem := tableMem false [] }

/-- A group that waits for a copy below an element that has failed, and tables with a poisoned line in the shared block. -/
def cowFails : Group := { cowGroup with state := .waiting (.cow { cowWait with bad := some faultOne }) }
def cowPoisoned : State := { cowWorld with poison := [0x50000000 / 64] }

/-- Lane 0 finds its free entry, and whether the block that it is to copy is poisoned. -/
def copiesPoison (s : State) : Option Bool :=
  let tb : TableEnv := { core := 0, ctx := 0, view := s.viewOf 1 }
  match tb.desc s 0x200 with
  | (.ok d, u) => match tb.resolve u d 0 0 true with
    | (.ok { entry := some (_, en), .. }, v) => match tb.entry ((v.markEntry en movBit false).markEntry en accBit true) d 1 with
      | (.ok _, y) => some (y.blockPoisoned en.block)
      | _ => none
    | _ => none
  | _ => none

theorem witness_BlockTableAccesses_failing :
    Ready tableFails (memUses mwIndexed (dataRegs 4 4) [10]) ∧ (issuer tableFails).vform = true ∧ (issuer tableFails).grp.acquiring = false
    ∧ (let r := checkLanes (stbtLane (issuer tableFails) mwIndexed) (lanesOf ((issuer tableFails).guard always)) tableFails []
       r.2.1.isSome = true ∧ r.1.length = 1 ∧ isOk (((issuer tableFails).table r.2.2).desc r.2.2 0x200).1 = true)
    ∧ (world cowFails).findGroup ref = some cowFails
    ∧ (({ world cowFails with mem := tableMem true [] } : State).waitEnv ref).isSome = true
    ∧ copiesPoison cowWorld = some false ∧ copiesPoison cowPoisoned = some true := by decide +kernel

/-- Entry 0 of the table is being moved to the block where it already lies, whose bytes are equal. -/
def movingEntry : Memory := (tableMem false []).map fun c => if c.1 == 0x40000306 then (c.1, 0x40) else c
def movingWorld : State := { swept with mem := movingEntry ++ [], moves := [aMove] }
def swapFinds (s : State) (f : State → Entry → Bool) : Bool :=
  match (agentTable 0).desc s 0x200 with
  | (.ok d, t) => match (agentTable 0).entry t d 0 with
    | (.ok e, u) => f (u.setEntryHigh e ((u.entryHigh e ||| movBit) ||| BitVec.ofNat 64 e.block)) e
    | _ => false
  | _ => false

theorem witness_BlocksMoveBetweenTiers_swap :
    swapFinds movingWorld (fun s e => s.entryHigh e &&& movBit != 0 && !s.wordWritten e.loc.addr
      && ((s.entryHigh e).extractLsb' 0 36).toNat == e.block && s.moves[0]? == some aMove && aMove.after.all fun l => l.all fun x => !s.uncommittedLaunches.contains x)
      = true
    ∧ swapFinds movingWorld (fun s e => (s.markEntry e movBit false).entryHigh e &&& movBit == 0) = true := by decide +kernel

/-- A saved team of a grid that is to be placed again. -/
def savedAway : State := { placing false false with teams := [(1, { placedTeam 1 [groupOf 1] none with phase := .restoring })] }

theorem witness_TeamsArePlacedAndRetired_saved :
    savedAway.namedNext 1 (waitingGrid false) = true ∧ (savedAway.nextFit 1 (waitingGrid false)).isSome = true
    ∧ (savedAway.restoring 1).map (fun e => e.1) = [1] ∧ (Table.find savedAway.teams 1).isSome = true
    ∧ ((waitingGrid false).args = [] ∧ ∀ c, c < 1 → (savedAway.core c).gated = false) := by decide +kernel

/-- A launch that has read data before a commit changed it. -/
def missedLaunch (phase : LaunchPhase) : State := launched { launchOf 1 phase (.grid 1) with missed := [5] }

theorem witness_LaunchTransactions_missed :
    (missedLaunch .running).launches.all (fun e => e.2.missed != [] && e.2.active) = true
    ∧ (missedLaunch .done).launches.all (fun e => e.2.missed != [] && e.2.tag.isSome) = true
    ∧ (launchOf 1 .done (.grid 1)).missed = [] ∧ (launchOf 1 .done (.grid 1)).serial = false
    -- no later launch conflicts with one that commits, and a later one does; where its record can be written
    ∧ (let s := launched (launchOf 1 .done (.grid 1)); ∀ e ∈ s.launches, e.2.active = true → s.before 1 e.1 = true → s.conflicts 1 e.1 = false)
    ∧ (conflicting.launches.any fun e => e.2.active && conflicting.before 1 e.1 && conflicting.conflicts 1 e.1) = true
    ∧ (∀ k, k < 32 → (one.hubXlat 0 (0x8000 + BitVec.ofNat 64 k) .write).isSome = true) := by decide +kernel

/-- A launch instruction that goes on with the packet that it has read. -/
def latchedLaunch (b : Bool) : State :=
  { launching 0x8040 1 b with
    teams := [(1, { placedTeam 1 [{ groupOf 1 with s := [(8, 0x8040)], child := some (packetOf 1, testImage) }] none with reserved := 1 })] }

theorem witness_PacketsAndLaunchesStartWork_latched :
    (∀ b ∈ [false, true], let s := latchedLaunch b; let e := issuer s; Ready s { v := [], s := [8, 9] } ∧ e.team.isSome = true ∧ e.grid.isSome = true
      ∧ e.grp.child = some (packetOf 1, testImage) ∧ (Table.find s.launches 1).any (fun l => l.freeSub.isSome) = true
      ∧ s.releasable e.gref e.grp e.grp.know 0 e.grp.seq homeScope (.scratch 0) = true ∧ s.fencesClear e.gref e.grp e.grp.know e.grp.fence (.scratch 0) = true)
    ∧ 256 ≤ (Table.getD (latchedLaunch true).devQueues 0 []).length ∧ (Table.getD (latchedLaunch false).devQueues 0 []).length < 256
    ∧ (issuer (launching 0x8040 1 false)).grp.child = none := by decide +kernel

/-- A group that waits in bsync and runs a single step. -/
def steppingSync : State := world { groupOf 1 with state := .trapped, singleStep := true, trap := some (trapOf .retired .sync) }

theorem witness_TrapsAndRequestsAreServed_step :
    (Table.find steppingSync.teams 1).any (fun t => t.groups.length == 1 && t.groups.all fun g => g.singleStep && t.syncMet g) = true
    ∧ ({ (steppingSync.modGroup ref Group.resume) with cur := .group ref } : State).env.isSome = true
    ∧ ((trapped .retired .sync).findGroup ref).any (fun g => !g.singleStep) = true := by decide +kernel

/-- The stages of bring-up, and one in which it stands. -/
def stageOf (n : BitVec 8) (started : Nat) (at_ : BitVec 64) : State := { State.reset with stage := n, nextStart := started, cycle := at_ }

theorem witness_OutsideWorldAndBringUp_stages :
    (∀ n ∈ [(1 : BitVec 8), 2, 3, 4], (stageOf n 0 0).stage = n ∧ (stageOf n 0 0).recov = false ∧ (stageOf n 0 0).err = 0)
    ∧ (stageOf 4 8 1400).nextStart ≠ 0 ∧ 1400 ≤ ((stageOf 4 8 1400).cycle - (stageOf 4 8 1400).wakeFrom).toNat
    ∧ ((stageOf 4 8 9).cycle - (stageOf 4 8 9).wakeFrom).toNat < 1400 ∧ (stageOf 4 0 0).nextStart = 0
    ∧ ({ stageOf 3 0 0 with err := 4 } : State).err ≠ 0 ∧ ({ stageOf 1 0 0 with recov := true } : State).recov = true := by decide +kernel

/-- An agent's slot that handles an event which came within the body of a serl. -/
def aSerl : Serl := { m := 1, lane := 0, body := 0x10000, path := PathEntry.at 0x10008 1 }
def handlingSerl : State := handling.modCore 0 fun c => { c with agent := { c.agent with savedSerl := some aSerl } }

theorem witness_ControlInstructionsComplete_agent :
    Ready handlingSerl { v := [], s := [] } ∧ (issuer handlingSerl).ref = none ∧ (handlingSerl.core 0).agent.handling.isSome = true
    ∧ (handlingSerl.core 0).agent.savedSerl.isSome = true ∧ (handling.core 0).agent.savedSerl = none
    -- waitf: without Guard, and with its flag at 0
    ∧ Ready engines (xUses []) ∧ (issuer engines).acts never = false ∧ (issuer engines).acts always = true ∧ (issuer engines).grp.flag 0 = 0 := by
  decide +kernel

/-- A fetch that is over: its line's address is found. -/
theorem witness_ClauseAndItsFetch_brought :
    let probe : Group := { groupOf 1 with paths := [{ PathEntry.at 0x10008 1 with words := [] }] }
    (({ (missing.modGroup ref fun _ => probe) with cur := .group ref } : State).env.any fun e => match e.fetchAddr missing 0x10008 with
      | (.ok pa, _) => pa % 8 == 0
      | _ => false) = true := by decide +kernel

/-- An atomic whose lane writes, and a cas whose compare fails. -/
theorem witness_AtomicsAndBarrierObjects_writers :
    let e := issuer mapped
    let r := virtualLanes e always 4 .atomic (e.atomAddr mw) mapped
    let done := fun f : Nat → Nat → Option Nat => e.atomLanes mw.d 4 (e.pubs (releaseScope mw)) f r.1 r.2.2 e.grp []
    (done fun _ _ => some 7).2.2 = r.1 ∧ (done fun _ _ => none).2.2 = [] ∧ e.firstFull r.2.2 [] = none
    ∧ (∀ x ∈ r.1, e.mustWait r.2.2 4 x = false ∧ e.mustRelease r.2.2 (releaseScope mw) x = false)
    ∧ (∀ v ∈ [some 7, none], isOk ((done fun _ _ => v).1.chargeAll (tileCharges r.1)) = true)
    -- a lane at a memory tile charges its core
    ∧ tileCharges [(0, .scratch 0x10)] = [(0, 1)] ∧ isOk ((at_ 0x10).chargeAll (tileCharges [(0, .scratch 0x10)])) = true := by
  decide +kernel

/-- A hardware step's turn, and no turn listed. -/
theorem witness_StepRunsDecodedInstruction_turns :
    ({ one with turns := [.event .powerUp] } : State).turns = [.event .powerUp] ∧ one.turns = [] ∧ one.issueTurns ++ one.agentTurns ≠ []
    ∧ ({ one with round := [.pe 1 0 0] } : State).round ≠ [] ∧ one.llcOver = false := by decide +kernel

/-- Branches that are ILLEGAL: a partial guard in V form, and a target outside an open serl body. -/
theorem witness_BranchMovesGuardedLanes_illegal :
    (let s := world { mixedGroup with vform := true }; let e := issuer s
     Ready s { v := [], s := [4, 5] } ∧ e.guard lane0 ≠ 0 ∧ e.unevenV (e.guard lane0) = true ∧ e.sel.isSome = true)
    ∧ Ready (passOf 1) { v := [], s := [4, 5] } ∧ (issuer (passOf 1)).guard always ≠ 0 ∧ (issuer (passOf 1)).sel = none
    ∧ (issuer (passOf 1)).targetOk (passOf 1) 0x20000 = false ∧ (0x20000#64).extractLsb' 0 3 = 0
    ∧ (issuer (passOf 1)).grp.readS 4 ≠ 1 := by decide +kernel

-- ## Witnesses: clauses about other groups, waits and full shadows

/-- A store to a peer's memory, and one to the scratchpad. -/
theorem witness_StoresPerform_peer :
    (Loc.phys (2 ^ 50) false).atPeer = true ∧ (Loc.scratch 0x10).atPeer = false := by decide +kernel

/-- A committed line and a launch's line that stand in the LLC, and a line that was neither read nor written. -/
theorem witness_LaunchTransactions_evictions :
    (let s : State := { one with committed := [{ ctx := 0, tag := 1, bytes := [(0x40000100, 5)] }] }
     Table.find s.launches 0 = none ∧ (s.llcCommitted 0x1000004).any (fun x => !s.overflowFull x.1) = true)
    ∧ (let s : State := { launched (placedLaunch 1) with shadows := conflicting.shadows }; s.llcVersions 1 0x1000004 ≠ [] ∧ s.overflowFull 0 = false
      ∧ (placedLaunch 1).readsLine 0x1000004 = false ∧ s.llcVersions 1 7 = []) := by decide +kernel

/-- A list of equal elements, each of which gives one. -/
theorem flatMap_replicate_one {α β : Type} (f : α → List β) (a : α) (b : β) (h : f a = [b]) :
    ∀ n, (List.replicate n a).flatMap f = List.replicate n b
  | 0 => rfl
  | n + 1 => by rw [List.replicate_succ, List.flatMap_cons, h, flatMap_replicate_one f a b h n, List.replicate_succ]; rfl

/-- More committed versions of one line than an LLC has lines. -/
def aVersion : Committed := { ctx := 0, tag := 1, bytes := [(0x100, 5)] }
def crowded (n : Nat) : State := { State.reset with committed := List.replicate n aVersion }

theorem crowded_lines (n : Nat) : (crowded n).shadowLines = List.replicate n (0, 4096, 4) := by
  have h : (crowded n).committed.flatMap (fun c => ((c.bytes.map fun e => lineOf e.1).eraseDups).map fun l => (c.ctx, c.tag.toNat * 4096, l))
      = List.replicate n (0, 4096, 4) := flatMap_replicate_one _ aVersion (0, 4096, 4) (by decide +kernel) n
  have k : (!((crowded n).context 0).overflow.contains (4096, 4)) = true := rfl
  rw [State.shadowLines, h]
  simp only [crowded, State.reset, List.flatMap_nil, List.nil_append, List.filter_replicate]
  rw [if_pos (by exact k)]

/-- An LLC that holds too many shadow lines, one of which can be evicted. -/
theorem witness_StepRunsDecodedInstruction_relief : ∃ s : State, s.llcOver = true ∧ Turn.event (.shadowEvict 0 4) ∈ s.eventTurns (eventDue s) := by
  refine ⟨crowded (llcLines + 1), ?_, ?_⟩
  · have h : ((crowded (llcLines + 1)).shadows.isEmpty && (crowded (llcLines + 1)).committed.isEmpty) = false := rfl
    simp only [State.llcOver, h, crowded_lines, List.map_replicate, List.filter_replicate, Bool.not_false, Bool.true_and]
    refine List.any_eq_true.2 ⟨0, by decide, ?_⟩
    rw [if_pos (by decide +kernel), List.length_replicate]
    exact decide_eq_true (Nat.lt_succ_self _)
  · refine List.mem_map_of_mem (List.mem_filter.2 ⟨?_, ?_⟩)
    · simp only [State.hardwareSteps, List.mem_append]
      refine .inl (.inl (.inl (.inl (.inr ?_))))
      exact List.mem_flatMap.2 ⟨aVersion, List.mem_replicate.2 ⟨Nat.succ_ne_zero _, rfl⟩, List.mem_flatMap.2 ⟨(0x100, 5), List.mem_singleton.2 rfl, by decide⟩⟩
    · rfl

/-- A queue that waits on a list, and one that has stopped. -/
theorem witness_QueuesTakePackets_lists :
    ({ Queue.start with en := true, wr := 1 } : Queue).hasPacket = true ∧ Queue.start.en = false ∧ ({ Queue.start with err := true } : Queue).err = true := by
  decide +kernel

/-- A bsync that has been served in a group which single-steps, and a group that has stepped. -/
def stepped : State := world { groupOf 1 with stepped := true }
theorem witness_TrapsAndRequestsAreServed_stepped :
    (steppingSync.findGroup ref).any (fun g => g.singleStep && g.active.isSome) = true ∧ ({ trapOf .retired .sync with after := true } : TrapInfo).after = true
    ∧ stepped.env = some (issuer stepped) ∧ (issuer stepped).grp.stepped = true ∧ (issuer stepped).grp.owed = none := by decide +kernel

/-- A trapped group whose load is still under way, as the debugger asks for a register of it; and one without. -/
def latePage : State := world { pendingGroup with state := .trapped, trap := some (trapOf .page .host) }
theorem witness_DebuggerAndControlRegisters_late :
    (debugging latePage 0x02000000 0).debugWaits 0 = true ∧ (debugging (trapped .page .host) 0x02000000 0).debugWaits 0 = false
    ∧ (latePage.context 0).dbusy = false := by decide +kernel

/-- An agent's slot in a serl's pass, and one that a yield has parked. -/
theorem witness_OutsideWorldAndBringUp_events :
    GroupState.parkedYield.canLeave = true ∧ ({ groupOf 1 with serl := some aSerl } : Group).serl = some aSerl ∧ (groupOf 1).serl = none
    ∧ (groupOf 1).paths.head?.isSome = true := by decide +kernel

/-- A group that owes a trap. -/
def owing : State := world { groupOf 1 with owed := some (trapOf .ecc .raised) }
theorem witness_StepRunsDecodedInstruction_owed :
    (owing.findGroup ref).any (fun g => g.owed == some (trapOf .ecc .raised)) = true ∧ owing.mayIssue ref = true
    ∧ owing.env.any (fun e => !e.path.words.isEmpty && e.gref == ref) = true := by decide +kernel

/-- The fetch of a missing clause, whose words are ready. -/
theorem witness_ClauseAndItsFetch_ready :
    let probe : Group := { groupOf 1 with paths := [{ PathEntry.at 0x10008 1 with words := [] }] }
    (({ (missing.modGroup ref fun _ => probe) with cur := .group ref } : State).env.any fun e =>
      e.wordsReady (e.clauseWords missing (e.view missing) 0x10008) missing 0x10008) = true := by decide +kernel

/-- Reads of waiting lanes that end their waits at once. -/
theorem witness_MemoryAccessesComplete_waits :
    ((issuer mapped).readLanes (readScope false none) [waitLane0 5] mapped).1 = []
    ∧ ((issuer mapped).readLanes (readScope true (some 2)) [waitLane0 5] mapped).1 = [] := by decide +kernel

/-- A save of a context one of whose accepted commands names another team's range; and rows that no turn of an engine holds. -/
theorem witness_MatrixCommandsAreAcceptedAndRun_turns :
    (∀ i, i < 64 → (executes (.accst 0 tileRows)).turnClear (tileRows.row i) 256 = true)
    ∧ (let far : MatrixOp := .accst 0 { tileRows with start := 0x9000 }
       let s := (accepts [cmd far]).modContext 0 fun c => { c with go := true, mode := 1 }
       s.saving 0 = true ∧ s.remote (cmd far) = true ∧ (s.teamOf ref).any (fun t => (Table.find s.grids t.grid).any fun g => g.ctx == 0) = true) := by
  decide +kernel

theorem witness_RegionsMoveData_free :
    -- no peer's element stands before the one that is read, no store of others that the atn must show, and a channel that meets no port
    (let s := portWorld landingPort; let u := (s.choose 2).2
     portRuns s (fun t _ p => match u.checkPort t 0x100 4 .read with
        | (.ok l, v) => !v.peerBefore t p l 0
        | _ => false) = true)
    ∧ hasRegion (tileWorld (.atn nodeWord8)) (fun t _ => (tileWorld (.atn nodeWord8)).othersHome (t.spanRef 1) t.know (.scratch 0) 4) = true
    ∧ hasRegion routeWorld (fun _ r => r.closing.isNone && !r.active.meetsPort r.w r.h routeCell aRoute) = true
    ∧ (portWorld landingPort).recov = false ∧ ({ portWorld landingPort with recov := true } : State).recov = true := by decide +kernel

-- ## Decoding: the worked encodings of the reference entries (chapters 21 to 25), and words written out from the formats

/-- Words of formats A and I: type, variant, d, a, then b, c and ctl, or the immediate. -/
def ar (ty var : BitVec 3) (d a b c ctl : BitVec 8) : AWord :=
  { ty := ty, sat := false, var := var, g := always, d := d, a := a, tail := .reg b c ctl }
def ai (ty var : BitVec 3) (d a : BitVec 8) (v : BitVec 24) : AWord :=
  { ty := ty, sat := false, var := var, g := always, d := d, a := a, tail := .imm v }
/-- A word of format M: width, order, scope, d, base, index and offset. -/
def mr (width : BitVec 3) (order : BitVec 2) (scope : BitVec 3) (d base index : BitVec 8) (imm : BitVec 16) : MWord :=
  { width := width, order := order, scope := scope, g := always, d := d, base := base, index := index, imm := imm }
/-- A word of format X with no order: the three records, d and the variant. -/
def xr (r1 r2 r3 d variant : BitVec 8) : XWord :=
  { fsel := false, acq := false, rel := false, scope := 0, g := always, r1 := r1, r2 := r2, r3 := r3, d := d, variant := variant }
/-- A guard on a predicate. -/
def gp (p : BitVec 7) : Guard := { pg := p, pn := false }

/-- What a native word decodes to: that instruction, or that error. -/
def reads (w : BitVec 64) (i : Instr) : Bool :=
  match decodeNative w with
  | .ok j => j == i
  | .error _ => false
def refuses (w : BitVec 64) (e : DecodeError) : Bool :=
  match decodeNative w with
  | .ok _ => false
  | .error f => f == e

theorem test_decode_integer :
    reads 0x0118000404090004 (.add (.native { ar 1 0 4 4 9 0 4 with sat := true }))
    ∧ reads 0x0280000303000001 (.sub (.native (ai 0 0 3 3 1)))
    ∧ reads 0x0310000602040800 (.addc (.native (ar 1 0 6 2 4 8 0)))
    ∧ reads 0x0410000602040800 (.subb (.native (ar 1 0 6 2 4 8 0)))
    ∧ reads 0x0510001500140000 (.mul (.native (ar 1 0 21 0 20 0 0)))
    ∧ reads 0x0600000601020000 (.mulh (.native (ar 0 0 6 1 2 0 0)))
    ∧ reads 0x0708000401020300 (.mad (.native { ar 0 0 4 1 2 3 0 with sat := true }))
    ∧ reads 0x0800000301020000 (.divi (ar 0 0 3 1 2 0 0))
    ∧ reads 0x099000030100000A (.remi (ai 1 0 3 1 10))
    ∧ reads 0x0A10020907080000 (.min (.native { ar 1 0 9 7 8 0 0 with g := gp 1 }))
    ∧ reads 0x0B80000505000000 (.max (.native (ai 0 0 5 5 0)))
    ∧ reads 0x0C08000307000000 (.abs (.native { ar 0 0 3 7 0 0 0 with sat := true })) := by
  decide +kernel

theorem test_decode_bits :
    reads 0x0D10000506070000 (.and (.native (ar 1 0 5 6 7 0 0)))
    ∧ reads 0x0E90000303000100 (.or (.native (ai 1 0 3 3 0x100)))
    ∧ reads 0x0F90000F0D000004 (.xor (.native (ai 1 0 15 13 4)))
    ∧ reads 0x10900005050000FF (.andn (.native (ai 1 0 5 5 0xFF)))
    ∧ reads 0x1110000201000000 (.not (.native (ar 1 0 2 1 0 0 0)))
    ∧ reads 0x1290000400000002 (.shl (.native (ai 1 0 4 0 2)))
    ∧ reads 0x1390000401000002 (.shr (.native (ai 1 0 4 1 2)))
    ∧ reads 0x1480000201000004 (.sar (.native (ai 0 0 2 1 4)))
    ∧ reads 0x1510000301020000 (.rot (.native (ar 1 0 3 1 2 0 0)))
    ∧ reads 0x1630000406000000 (.clz (.native (ar 3 0 4 6 0 0 0)))
    ∧ reads 0x1730000406000000 (.popc (.native (ar 3 0 4 6 0 0 0)))
    ∧ reads 0x1870000102000000 (.brev (.native (ar 7 0 1 2 0 0 0)))
    ∧ reads 0x1990000201000808 (.bfx (.native (ai 1 0 2 1 0x808)))
    ∧ reads 0x1A10000301020400 (.bfi (.native (ar 1 0 3 1 2 4 0)))
    ∧ reads 0x1B00000401020300 (.sel (.native (ar 0 0 4 1 2 3 0)))
    ∧ reads 0x1C92000100000010 (.cmp (.native (ai 1 2 1 0 16)))
    ∧ reads 0x1D10000400020008 (.lea (.native (ar 1 0 4 0 2 0 8))) := by
  decide +kernel

theorem test_decode_float :
    reads 0x2000020201030000 (.fadd (.native { ar 0 0 2 1 3 0 0 with g := gp 1 }))
    ∧ reads 0x2131000602030040 (.fsub (.native (ar 3 1 6 2 3 0 0x40)))
    ∧ reads 0x2201000902070094 (.fmul (.native (ar 0 1 9 2 7 0 0x94)))
    ∧ reads 0x2300000801020300 (.ffma (.native (ar 0 0 8 1 2 3 0)))
    ∧ reads 0x2400000501020000 (.fmin (.native (ar 0 0 5 1 2 0 0)))
    ∧ reads 0x2500000501020000 (.fmax (.native (ar 0 0 5 1 2 0 0)))
    ∧ reads 0x2602000301020000 (.fcmp (.native (ar 0 2 3 1 2 0 0)))
    ∧ reads 0x2700000200010000 (.fdiv (ar 0 0 2 0 1 0 0))
    ∧ reads 0x2800000201000000 (.frcp (.native (ar 0 0 2 1 0 0 0)))
    ∧ reads 0x2900000201000000 (.frsq (.native (ar 0 0 2 1 0 0 0)))
    ∧ reads 0x2A00000201000000 (.fsqrt (.native (ar 0 0 2 1 0 0 0)))
    ∧ reads 0x2B00000201000000 (.fexp2 (.native (ar 0 0 2 1 0 0 0)))
    ∧ reads 0x2C00000201000000 (.flog2 (.native (ar 0 0 2 1 0 0 0)))
    ∧ reads 0x2D00000201000000 (.fsin (.native (ar 0 0 2 1 0 0 0)))
    ∧ reads 0x2E00000201000000 (.fcos (.native (ar 0 0 2 1 0 0 0)))
    ∧ reads 0x2F00000201000000 (.ftanh (.native (ar 0 0 2 1 0 0 0)))
    ∧ reads 0x3000000401000000 (.fclass (.native (ar 0 0 4 1 0 0 0)))
    ∧ reads 0x3102000201000000 (.frnd (.native (ar 0 2 2 1 0 0 0)))
    ∧ reads 0x3280000301FFFF6A (.fscale (.native (ai 0 0 3 1 0xFFFF6A))) := by
  decide +kernel

theorem test_decode_conversions_and_dots :
    reads 0x3308020502003000 (.cvt (.native { ar 0 0 5 2 0 0x30 0 with sat := true, g := gp 1 }))
    ∧ reads 0x3408000401023001 (.pack (.native { ar 0 0 4 1 2 0x30 1 with sat := true }))
    ∧ reads 0x350000030107C600 (.unpack (.native (ar 0 0 3 1 7 0xC6 0)))
    ∧ reads 0x3600000401020300 (.dot2 (.native (ar 0 0 4 1 2 3 0)))
    ∧ reads 0x3700000401020300 (.dot4 (.native (ar 0 0 4 1 2 3 0)))
    ∧ reads 0x3818000401020300 (.dot8 (.native { ar 1 0 4 1 2 3 0 with sat := true })) := by
  decide +kernel

theorem test_decode_moves_and_lanes :
    reads 0x4000000307000008 (.mov (.native (ar 0 0 3 7 0 0 8)))
    ∧ reads 0x4180000500008000 (.movi (ai 0 0 5 0 0x8000))
    ∧ reads 0x42800003003E8000 (.movh (ai 0 0 3 0 0x3E8000))
    ∧ reads 0x4302000503060004 (.shfl (ar 0 2 5 3 6 0 4))
    ∧ reads 0x4480000503000007 (.bcast (ai 0 0 5 3 7))
    ∧ reads 0x4502000A03000000 (.vote (ar 0 2 10 3 0 0 0))
    ∧ reads 0x4612000602000000 (.red (ar 1 2 6 2 0 0 0))
    ∧ reads 0x4700000201000200 (.scan (ar 0 0 2 1 0 2 0))
    ∧ reads 0x48B000080000000E (.mfsr (ai 3 0 8 0 14))
    ∧ reads 0x499000000400000C (.mtsr (ai 1 0 0 4 12)) := by
  decide +kernel

theorem test_decode_predicates_and_control :
    reads 0x5000000602050000 (.pand { g := always, pd := 3, pa := 1, na := false, pb := 2, nb := true })
    ∧ reads 0x5100000602040000 (.por { g := always, pd := 3, pa := 1, na := false, pb := 2, nb := false })
    ∧ reads 0x5200000602040000 (.pxor { g := always, pd := 3, pa := 1, na := false, pb := 2, nb := false })
    ∧ reads 0x530000080E000000 (.pnot { g := always, pd := 4, pa := 7, na := false, pb := 0, nb := false })
    ∧ reads 0x5400000413000000 (.pmov { g := always, pd := 2, pa := 9, na := true, pb := 0, nb := false })
    ∧ reads 0x5800000000000003 (.br { fn := 0, g := always, aux := 0, disp := 3 })
    ∧ reads 0x5900000800000000 (.brx { fn := 0, g := always, aux := 8, disp := 0 })
    ∧ reads 0x5A00001000000005 (.call { fn := 0, g := always, aux := 16, disp := 5 })
    ∧ reads 0x5B00080000000000 (.ret { fn := 0, g := gp 4, aux := 0, disp := 0 })
    ∧ reads 0x5C000005FFFFFFFC (.loop { fn := 0, g := always, aux := 5, disp := 0xFFFFFFFC })
    ∧ reads 0x5D00040100000002 (.yield { fn := 0, g := gp 2, aux := 1, disp := 2 })
    ∧ reads 0x5E00020000000000 (.exit { fn := 0, g := gp 1, aux := 0, disp := 0 })
    ∧ reads 0x5F00000000000000 .serl ∧ reads 0x6000000000000000 .sere
    ∧ reads 0x6180000000000001 (.eqp 1) ∧ reads 0x6280000000000002 (.hop always 2)
    ∧ reads 0x6300000000000000 .nop ∧ reads 0x6500000000000000 .bsync
    ∧ reads 0xF0007FF500000000 (.clause { wait := 7, flagA := 15, flagB := 15, count := 5 }) := by
  decide +kernel

theorem test_decode_memory :
    reads 0x644C000308FF0000 (.cwait (mr 2 1 4 3 8 0xFF 0))
    ∧ reads 0x704D000608FF0000 (.ld (mr 2 1 5 6 8 0xFF 0))
    ∧ reads 0x71540016060D0000 (.st (mr 2 2 4 22 6 13 0))
    ∧ reads 0x724000003E060000 (.lds (mr 2 0 0 0 62 6 0))
    ∧ reads 0x730004043E010000 (.sts { mr 0 0 0 4 62 1 0 with g := gp 2 })
    ∧ reads 0x7440000100064010 (.ldv (mr 2 0 0 1 0 6 0x4010))
    ∧ reads 0x7540000400098000 (.stv (mr 2 0 0 4 0 9 0x8000))
    ∧ reads 0x7640020200040000 (.ldbt { mr 2 0 0 2 0 4 0 with g := gp 1 })
    ∧ reads 0x7740020200040000 (.stbt { mr 2 0 0 2 0 4 0 with g := gp 1 })
    ∧ reads 0x7860000A04FF0008 (.ldc (mr 3 0 0 10 4 0xFF 8))
    ∧ reads 0x7900000004020040 (.prf (mr 0 0 0 0 4 2 0x40)) := by
  decide +kernel

theorem test_decode_atomics :
    reads 0x8044080B000A1009 (.atom { mr 2 0 4 11 0 10 0x1009 with g := gp 4 })
    ∧ reads 0x814006093E050007 (.atoms { mr 2 0 0 9 62 5 7 with g := gp 3 })
    ∧ reads 0x825C00040602000A (.cas (mr 2 3 4 4 6 2 10))
    ∧ reads 0x834000043E02000A (.cass (mr 2 0 0 4 62 2 10))
    ∧ reads 0x841C000000000000 (.fence (mr 0 3 4 0 0 0 0))
    ∧ reads 0x8540000204FF0000 (.barinit (mr 2 0 0 2 4 0xFF 0))
    ∧ reads 0x866200080AFF0020 (.arrive (mr 3 0 2 8 10 0xFF 0x20))
    ∧ reads 0x8741000806030000 (.wait (mr 2 0 1 8 6 3 0)) := by
  decide +kernel

theorem test_decode_engines :
    reads 0x905000080C00FF01 (.copy { xr 8 12 0 0xFF 1 with acq := true, scope := 4 })
    ∧ reads 0x910000080C10FF02 (.gather (xr 8 12 16 0xFF 2))
    ∧ reads 0x9200140C0C14FF01 (.mma { xr 12 12 20 0xFF 1 with g := gp 10 })
    ∧ reads 0x930000000000FF20 (.accalloc (xr 0 0 0 0xFF 0x20))
    ∧ reads 0x9400000000000720 (.accgrow (xr 0 0 0 7 0x20))
    ∧ reads 0x950000000000FF20 (.accfree (xr 0 0 0 0xFF 0x20))
    ∧ reads 0x960000100000FF00 (.accld (xr 16 0 0 0xFF 0))
    ∧ reads 0x970000100000FF00 (.accst (xr 16 0 0 0xFF 0))
    ∧ reads 0x98240D160000FF00 (.query { xr 22 0 0 0xFF 0 with rel := true, scope := 1, g := { pg := 6, pn := true } })
    ∧ reads 0x990004140000FF00 (.launch { xr 20 0 0 0xFF 0 with g := gp 2 })
    ∧ reads 0x9A74000A0000FF00 (.coll { xr 10 0 0 0xFF 0 with acq := true, rel := true, scope := 5 })
    ∧ reads 0x9B0000000000FF01 (.waitf (xr 0 0 0 0xFF 1)) := by
  decide +kernel

theorem test_decode_system :
    reads 0xA080000000000042 (.trap always 0x42) ∧ reads 0xA100000000000000 .eret
    ∧ reads 0xA200000000000000 .bkpt ∧ reads 0xA300000000000000 .icinv
    ∧ reads 0xA400000000000000 .fbar ∧ reads 0xA50000081000FF00 (.tlbinv (xr 8 16 0 0xFF 0))
    ∧ reads 0xA60000040608FF00 (.btop (xr 4 6 8 0xFF 0)) ∧ reads 0xA700000000000000 .halt := by
  decide +kernel

/-- What a slot holds by its control word and its operand word: that instruction or none, or that error. -/
def holds (control : BitVec 64) (operand : BitVec 32) (i : Option Instr) : Bool :=
  match decodeSlot (control ++ operand) with
  | .ok j => j == i
  | .error _ => false
def turnsAway (control : BitVec 64) (operand : BitVec 32) (e : DecodeError) : Bool :=
  match decodeSlot (control ++ operand) with
  | .ok _ => false
  | .error f => f == e

theorem test_decode_slots :
    holds 0x0100003101808800 0x10000000 (some (.add (.slot ⟨0, 0, 3, 1, false, 0, 0, 3, 0, 1, 1, 0, false, 0, 0, 0, 0x10, 0⟩)))
    ∧ holds 0xC000003301809801 1 (some (.steer ⟨0, 0, 3, 3, false, 0, 0, 3, 0, 1, 3, 0, false, 0, 0, 1, 0, 1⟩))
    ∧ holds 0xC100001100868801 0 (some (.merge ⟨0, 0, 1, 1, false, 0, 0, 1, 0, 13, 1, 0, false, 0, 0, 1, 0, 0⟩))
    ∧ holds 0xC2000001002E0880 0x10000001 (some (.cnt ⟨0, 0, 0, 1, false, 0, 0, 0, 5, 12, 1, 0, true, 0, 0, 0, 0x10, 1⟩))
    ∧ holds 0xC300003300009800 0 (some (.isect ⟨0, 0, 3, 3, false, 0, 0, 0, 0, 1, 3, 0, false, 0, 0, 0, 0, 0⟩))
    ∧ holds 0xC900001100868800 2 (some (.calln ⟨0, 0, 1, 1, false, 0, 0, 1, 0, 13, 1, 0, false, 0, 0, 0, 0, 2⟩))
    ∧ holds 0xCA00001000868000 0 (some (.retn ⟨0, 0, 1, 0, false, 0, 0, 1, 0, 13, 0, 0, false, 0, 0, 0, 0, 0⟩))
    ∧ holds 0xCB00001000868000 1 (some (.next ⟨0, 0, 1, 0, false, 0, 0, 1, 0, 13, 0, 0, false, 0, 0, 0, 0, 1⟩))
    ∧ holds 0xCC000031B9868801 0 (some (.pent ⟨0, 0, 3, 1, true, 1, 3, 3, 0, 13, 1, 0, false, 0, 0, 1, 0, 0⟩))
    ∧ holds 0xCD00001300868801 1 (some (.pexit ⟨0, 0, 1, 3, false, 0, 0, 1, 0, 13, 1, 0, false, 0, 0, 1, 0, 1⟩)) := by
  decide +kernel

theorem test_decode_memory_slots :
    holds 0xC400001100868800 0x10100C04 (some (.ldn ⟨0, 0, 1, 1, false, 0, 0, 1, 0, 13, 1, 0, false, 0, 0, 0, 0x10, 0x100C04⟩))
    ∧ holds 0xC500003101808800 0x10101003 (some (.stn ⟨0, 0, 3, 1, false, 0, 0, 3, 0, 1, 1, 0, false, 0, 0, 0, 0x10, 0x101003⟩))
    ∧ holds 0xC600003101808800 0x10100C04 (some (.atn ⟨0, 0, 3, 1, false, 0, 0, 3, 0, 1, 1, 0, false, 0, 0, 0, 0x10, 0x100C04⟩))
    ∧ holds 0xC700003101808803 0x01000000 (some (.xlat ⟨0, 0, 3, 1, false, 0, 0, 3, 0, 1, 1, 0, false, 0, 0, 3, 1, 0⟩))
    ∧ holds 0xCE00001100868800 0x00100C04 (some (.btok ⟨0, 0, 1, 1, false, 0, 0, 1, 0, 13, 1, 0, false, 0, 0, 0, 0, 0x100C04⟩))
    ∧ holds 0xCF00001188EE0800 2 (some (.emit ⟨0, 0, 1, 1, true, 0, 1, 1, 13, 12, 1, 0, false, 0, 0, 0, 0, 2⟩))
    ∧ holds 0xD0000020010E8000 0 (some (.sink ⟨0, 0, 2, 0, false, 0, 0, 2, 1, 13, 0, 0, false, 0, 0, 0, 0, 0⟩))
    ∧ holds 0xD100001100EE8800 1 (some (.swait ⟨0, 0, 1, 1, false, 0, 0, 1, 13, 13, 1, 0, false, 0, 0, 0, 0, 1⟩))
    ∧ holds 0xD200003101820800 0x10000003 (some (.mport ⟨0, 0, 3, 1, false, 0, 0, 3, 0, 4, 1, 0, false, 0, 0, 0, 0x10, 3⟩))
    ∧ holds 0xD300001000EE8000 1 (some (.eqpn ⟨0, 0, 1, 0, false, 0, 0, 1, 13, 13, 0, 0, false, 0, 0, 0, 0, 1⟩))
    ∧ (decodeConverter (0xC800001100868801#64 ++ 0x08300000#32)).toOption = some ⟨0, 0, 1, 1, false, 0, 0, 1, 0, 13, 1, 0, false, 0, 0, 1, 0x08, 0x300000⟩
    ∧ holds 0 0 none := by
  decide +kernel

/-- The table of R334, and the same errors in a slot. -/
theorem test_decode_refuses :
    refuses 0 .unassignedOp ∧ refuses 0x2005000201030000 .variantCode
    ∧ refuses 0x0100000000000001 .unusedField ∧ refuses 0x1180000100000000 .immediateForm
    ∧ refuses 0x704400040AFF0000 .scopeCode ∧ refuses 0x7040000401FF0000 .registerNumber
    ∧ refuses 0xC400000000000000 .slotOnly ∧ refuses 0x6600000000000000 .unassignedOp
    ∧ refuses 0xE000000000000000 .unassignedOp
    ∧ turnsAway 0x5800000000000000 3 .nativeOnly ∧ turnsAway 0xC800001100868801 0x08300000 .slotOnly := by
  decide +kernel

-- ## Well-formedness: an ill-formed term for each error of Instr.check (the errors of the opcode alone are tested above)

theorem test_ill_formed_arithmetic :
    (Instr.add (.native (ar 0 0 2 1 3 0 1))).check = some .unusedField
    ∧ (Instr.mov (.native (ar 4 0 2 1 0 0 0))).check = some .typeCode
    ∧ (Instr.fadd (.native (ar 0 5 2 1 3 0 0))).check = some .variantCode
    ∧ (Instr.xor (.native { ar 0 0 2 1 3 0 0 with sat := true })).check = some .satBit
    ∧ (Instr.ffma (.native (ai 0 0 2 1 3))).check = some .immediateForm
    ∧ (Instr.fadd (.native (ai 1 0 2 1 0x10000))).check = some .immediateValue
    ∧ (Instr.add (.native (ar 0 0 2 1 3 0 0x80))).check = some .modifierBit
    ∧ (Instr.add (.native (ar 0 0 2 1 3 0 2))).check = some .scalarBit
    ∧ (Instr.add (.native (ar 2 0 3 4 6 0 0))).check = some .registerNumber
    ∧ (Instr.cvt (.native (ar 0 0 2 1 0 0xE0 0))).check = some .formatCode
    ∧ (Instr.unpack (.native (ar 0 0 3 1 8 0xC6 0))).check = some .position
    ∧ (Instr.scan (ar 0 0 2 1 0 4 0)).check = some .classByte := by
  decide +kernel

theorem test_ill_formed_rest :
    (Instr.atom (mr 4 0 4 11 0 10 0x1009)).check = some .widthCode
    ∧ (Instr.ld (mr 2 2 4 4 10 5 0)).check = some .orderCode
    ∧ (Instr.ld (mr 2 0 4 4 10 0xFF 0)).check = some .scopeCode
    ∧ (Instr.atom (mr 2 0 4 11 0 10 0xA009)).check = some .aopCode
    ∧ (Instr.ldv (mr 2 0 0 1 0 0xFF 0xC000)).check = some .modeCode
    ∧ (Instr.waitf (xr 0 0 0 0xFF 12)).check = some .flagNumber
    ∧ (Instr.clause { wait := 0, flagA := 15, flagB := 15, count := 0 }).check = some .clauseCount
    ∧ (Instr.call { fn := 0, g := always, aux := 12, disp := 5 }).check = some .frameSize
    ∧ (Instr.mfsr (ai 1 0 0 0 17)).check = some .specialNumber
    ∧ (Instr.add (.slot ⟨0, 0, 1, 1, false, 0, 0, 1, 0, 1, 1, 0, false, 0, 0, 0, 0x10, 0⟩)).check = some .slotMask
    ∧ (Instr.steer ⟨0, 0, 3, 3, false, 0, 0, 3, 0, 1, 3, 0, false, 0, 0, 0, 0, 1⟩).check = some .arrangement
    ∧ ¬ (Instr.gather (xr 61 12 16 0xFF 2)).WellFormed := by
  decide +kernel

-- ## One instruction at a time: operands and results of the worked examples in the reference entries (chapters 22 to 25)

/-- Register d of a lane after one step over a native word, with some registers of lane 0 set before it. -/
def after (regs : List (Nat × Word)) (w : BitVec 64) (d : Nat) : Option Word :=
  match decodeNative w with
  | .error _ => none
  | .ok i =>
    match exec i (world { groupOf 1 with v := regs.map fun r => (vKey r.1 0, r.2), s := [(9, 0x20)] }) with
    | .next t => some ((issuer t).readV d 0)
    | _ => none

theorem test_add_sat : after [(4, 0xFFFFFFF0)] 0x0118000404090004 4 = some 0xFFFFFFFF := by decide +kernel
theorem test_sub_wraps : after [(3, 0x80000000)] 0x0280000303000001 3 = some 0x7FFFFFFF := by decide +kernel
theorem test_sub_sat : after [(3, 0x80000000)] 0x0288000303000001 3 = some 0x80000000 := by decide +kernel
theorem test_mulh_signed : after [(1, 0x80000000), (2, 2)] 0x0600000601020000 6 = some 0xFFFFFFFF := by decide +kernel
theorem test_mulh_unsigned : after [(1, 0x80000000), (2, 2)] 0x0610000601020000 6 = some 1 := by decide +kernel
theorem test_mad_sat : after [(1, 0x10000), (2, 0x10000), (3, 0xFFFFFFFF)] 0x0708000401020300 4 = some 0x7FFFFFFF := by
  decide +kernel
theorem test_max_signed : after [(5, 0xFFFFFFFF)] 0x0B80000505000000 5 = some 0 := by decide +kernel
theorem test_max_unsigned : after [(5, 0xFFFFFFFF)] 0x0B90000505000000 5 = some 0xFFFFFFFF := by decide +kernel
theorem test_abs_sat : after [(7, 0x80000000)] 0x0C08000307000000 3 = some 0x7FFFFFFF := by decide +kernel
theorem test_andn_clears : after [(5, 0x12345678)] 0x10900005050000FF 5 = some 0x12345600 := by decide +kernel
theorem test_brev_narrow : after [(2, 0x12345601)] 0x1870000102000000 1 = some 0x80 := by decide +kernel
theorem test_clz_wide : after [(6, 0x10000)] 0x1630000406000000 4 = some 47 := by decide +kernel
theorem test_popc_wide : after [(6, 0xFFFFFFFF), (7, 1)] 0x1730000406000000 4 = some 33 := by decide +kernel
theorem test_sar_narrow : after [(1, 0x80)] 0x14F0000201000001 2 = some 0xC0 := by decide +kernel
theorem test_bfx : after [(1, 0xF0A0)] 0x1990000201000808 2 = some 0xF0 := by decide +kernel
theorem test_bfx_signed : after [(1, 0xF0A0)] 0x1980000201000808 2 = some 0xFFFFFFF0 := by decide +kernel
theorem test_bfi : after [(1, 0xAB), (2, 0x0804), (4, 0xFFFF0000)] 0x1A10000301020400 3 = some 0xFFFF0AB0 := by decide +kernel
theorem test_ffma_rounds_once :
    after [(1, 0x3F800800), (2, 0x3F800800), (3, 0xBF800000)] 0x2300000801020300 8 = some 0x3A000400 := by decide +kernel
theorem test_fdiv : after [(0, 0x3F800000), (1, 0x40400000)] 0x2700000200010000 2 = some 0x3EAAAAAB := by decide +kernel
theorem test_fdiv_rz : after [(0, 0x3F800000), (1, 0x40400000)] 0x2701000200010000 2 = some 0x3EAAAAAA := by decide +kernel
theorem test_frsq : after [(1, 0x40800000)] 0x2900000201000000 2 = some 0x3F000000 := by decide +kernel
theorem test_frsq_negative : after [(1, 0xBF800000)] 0x2900000201000000 2 = some 0x7FC00000 := by decide +kernel
theorem test_fsqrt : after [(1, 0x40000000)] 0x2A00000201000000 2 = some 0x3FB504F3 := by decide +kernel
theorem test_fexp2 : after [(1, 0xBF800000)] 0x2B00000201000000 2 = some 0x3F000000 := by decide +kernel
theorem test_flog2 : after [(1, 0x41000000)] 0x2C00000201000000 2 = some 0x40400000 := by decide +kernel
theorem test_ftanh_rounds : after [(1, 0x41A00000)] 0x2F00000201000000 2 = some 0x3F800000 := by decide +kernel
theorem test_fclass_subnormal : after [(1, 0x80000001)] 0x3000000401000000 4 = some 4 := by decide +kernel
theorem test_frnd_down : after [(1, 0xC0200000)] 0x3102000201000000 2 = some 0xC0400000 := by decide +kernel
theorem test_fscale_subnormal : after [(1, 0x3FC00000)] 0x3280000301FFFF6A 3 = some 1 := by decide +kernel
theorem test_pack : after [(1, 0x40980000), (2, 0x43EB0000), (4, 0x3838)] 0x3408000401023001 4 = some 0x7E4A3838 := by
  decide +kernel
theorem test_unpack : after [(1, 0x7E4A3838)] 0x3500000201030300 2 = some 0x43E00000 := by decide +kernel
theorem test_unpack_int : after [(1, 0x80000000)] 0x350000030107C600 3 = some 0xFFFFFFF8 := by decide +kernel
theorem test_dot4_exact : after [(1, 0x3838), (2, 0x3838), (3, 0x4B800000)] 0x3700000401020300 4 = some 0x4B800001 := by
  decide +kernel
theorem test_dot8_sat : after [(1, 0x77777777), (2, 0x77777777), (3, 0x7FFFFF00)] 0x3818000401020300 4 = some 0x7FFFFFFF := by
  decide +kernel
theorem test_dot8_wraps : after [(1, 0x77777777), (2, 0x77777777), (3, 0x7FFFFF00)] 0x3810000401020300 4 = some 0x80000088 := by
  decide +kernel

/-- Lanes 0 to 3 of a register after one step of a group whose v1 is laneid + 1. -/
def lanesAfter (w : BitVec 64) (d : Nat) : Option (List Word) :=
  match decodeNative w with
  | .error _ => none
  | .ok i =>
    match exec i (world { groupOf 15 with v := (List.range 4).map fun l => (vKey 1 l, BitVec.ofNat 32 (l + 1)) }) with
    | .next t => some ((List.range 4).map fun l => (issuer t).readV d l)
    | _ => none

theorem test_scan : lanesAfter 0x4700000201000000 2 = some [1, 3, 6, 10] := by decide +kernel
theorem test_scan_exclusive : lanesAfter 0x4700000201000200 2 = some [0, 1, 3, 6] := by decide +kernel
theorem test_shfl_xor : lanesAfter 0x4383000101000001 1 = some [2, 1, 4, 3] := by decide +kernel

/-- R61: an accst in flight gives its destination bytes, and a byte beyond them nothing. -/
theorem test_accst_in_flight :
    let s := (executes (.accst 0 tileRows)).modCore 0 fun c => { c with tiles := [(65, 0x3F800000)] }
    s.inflightByte [] (.scratch 0x3107) = some (0, 0x3F) ∧ s.inflightByte [] (.scratch 0x7000) = none := by decide +kernel

end Sys2Proof.Tests
end

section
/-! SUPPORT. The machine right after reset: where each table's records stand, and the statement about its registers. -/

namespace Sys2Proof.Machine

-- ## Records after reset: every table is empty, so every record stands at its start record

@[simp] theorem core_reset (c : Nat) : State.reset.core c = Core.start := rfl

@[simp] theorem queue_reset (q : Nat) : State.reset.queue q = Queue.start := rfl

@[simp] theorem context_reset (x : Nat) : State.reset.context x = Context.start := rfl

/-- No launch, grid or team, nothing pending and nothing committed. -/
theorem reset_has_no_work :
    State.reset.launches = [] ∧ State.reset.grids = [] ∧ State.reset.teams = [] ∧ State.reset.pending = []
      ∧ State.reset.committed = [] :=
  ⟨rfl, rfl, rfl, rfl, rfl⟩

-- ## The start records

/-- R79, R280: a core starts disabled, its bucket enforced and full, its clock not let to gate, and no starvation watch armed. -/
theorem core_start_registers :
    Core.start.enabled = false ∧ Core.start.pwrEn = true ∧ Core.start.pwrGate = false ∧ Core.start.rate = 0x400
      ∧ Core.start.cap = 0x10000 ∧ Core.start.level = Core.start.cap ∧ Core.start.swcEn = [false, false, false, false]
      ∧ Core.start.agent.handling = none :=
  ⟨rfl, rfl, rfl, rfl, rfl, rfl, rfl, rfl⟩

/-- R261: a queue starts disabled and without error. -/
theorem queue_start_registers :
    Queue.start.en = false ∧ Queue.start.err = false ∧ Queue.start.prio = 0x10 ∧ Queue.start.size = 8 ∧ Queue.start.ctx = 0 :=
  ⟨rfl, rfl, rfl, rfl, rfl⟩

/-- R130, R197, R287 to R294: a context starts with translation, tracing and debugging off and with no request to its teams. -/
theorem context_start_registers :
    Context.start.csc = 0x82680000 ∧ Context.start.ttbEn = false ∧ Context.start.retuse = 0 ∧ Context.start.go = false
      ∧ Context.start.trbEn = false ∧ Context.start.dbgEn = false ∧ Context.start.bpEn = [false, false, false, false] :=
  ⟨rfl, rfl, rfl, rfl, rfl, rfl, rfl⟩

/-- Settles O60: a record that no table lists stands at its start record, so the registers of every core, queue and context
are those of the start records; the device's own registers are fields of the reset state. -/
theorem resetLeavesRegisters : Obligations.ResetLeavesRegisters := by
  obtain ⟨hlaunches, hgrids, hteams, hpending, hcommitted⟩ := reset_has_no_work
  refine ⟨reset_wf, rfl, hlaunches, hgrids, hteams, hpending, hcommitted, rfl, rfl, rfl, rfl, rfl, rfl, rfl, rfl, rfl, ?_, ?_, ?_⟩
  · intro c
    simpa only [core_reset] using core_start_registers
  · intro q
    simpa only [queue_reset] using queue_start_registers
  · intro x
    simpa only [context_reset] using context_start_registers

end Sys2Proof.Machine
end

section
/-! SUPPORT. Register operations: each runs as its row of the opcode map says, and writes its result in the guarded lanes of its destination. -/

namespace Sys2Proof.Claims

open Sys2Proof.Machine

-- ## The lanes written

/-- Writing a register, or a pair, in every lane of a mask writes those lanes and no other. -/
theorem lanesWritten_writeEach (e : Env) (m : LaneMask) (pair : Bool) (d : Nat) (f : Nat → BitVec 64) :
    LanesWritten e m pair d (writeEach e.ring d pair f (lanesOf m) e.grp).v f := by
  have written := fun key => get_writeEach e.ring d pair f (lanesOf m) e.grp key (nodup_lanesOf m) fun l hl => (mem_lanesOf.mp hl).1
  refine ⟨fun l hl hm hp => ?_, fun key hkey => (written key).2.2 fun l hl => ?_⟩
  · have hmem : l ∈ lanesOf m := mem_lanesOf.mpr ⟨hl, hm⟩
    cases pair with
    | false =>
      have low := (written (vKey (e.grp.vSlot e.ring d) l)).2.1 l hmem hp nofun rfl
      simpa [Group.readV, Group.vSlot, hp] using low
    | true =>
      intro hring
      have low := (written (vKey (e.grp.vSlot e.ring d) l)).2.1 l hmem hp (fun _ => e.grp.vSlot_succ_ne d hring) rfl
      have high := (written (vKey (e.grp.vSlot e.ring (d + 1)) l)).1 l hmem hp rfl rfl
      rw [← pairOf_halves (f l), ← low, ← high]
      simp [Group.readVPair, Group.readV, Group.vSlot, hp]
  · obtain ⟨h64, hm⟩ := mem_lanesOf.mp hl
    exact hkey l h64 hm

-- ## The rows of the register operations

/-- A register operation runs as an ALU instruction with the function that registerOps lists for it. -/
theorem exec_registerOp (w : Alu) (s : State) : ∀ p ∈ registerOps, exec (p.1 w) s = aluStep (p.1 w) p.2 s := by
  simp only [registerOps, List.cons_append, List.nil_append, List.forall_mem_cons, List.not_mem_nil, false_implies, implies_true, and_true]
  and_intros <;> rfl

/-- No row of a register operation writes a predicate or a carry. -/
theorem registerOps_rows (w : Alu) :
    (registerOps.all fun p => (p.1 w).aluRow.all fun x => !x.1.toPred && x.1.third != .carry) = true := rfl

/-- A register operation whose registers are free completes with the write of every guarded lane. -/
theorem registerOp_completes {p : (Alu → Instr) × (AluIn → AluOut)} (hp : p ∈ registerOps) {w : AWord} {r : AluRow} {s : State} {e : Env}
    (hrow : (p.1 (.native w)).aluRow = some (r, .native w)) (hi : Issues s e (aluUses (p.1 (.native w)) r w)) :
    exec (p.1 (.native w)) s = .next (e.finish (writeEach e.ring w.d.toNat (rowPair r (p.1 (.native w)) w)
      (fun l => (p.2 (e.aluIn (p.1 (.native w)) r w l)).d) (lanesOf (e.guard w.g)) e.grp) s) := by
  obtain ⟨henv, hfree⟩ := hi
  have hkind : r.toPred = false ∧ r.third ≠ .carry := by
    simpa [hrow] using List.all_eq_true.mp (registerOps_rows (.native w)) p hp
  rw [exec_registerOp _ s p hp, aluStep_native hrow henv hfree, Env.aluGroup_eq _ _ _ _ _ hkind.1 hkind.2]

/-- Settles O1: the row of a register operation names neither a predicate nor a carry, so what it does to its group is the write of the guarded
lanes, of which get_writeEach says where each register stands. -/
theorem registerOperationWritesGuardedLanes : Obligations.RegisterOperationWritesGuardedLanes := by
  intro p hp w r s e hrow hi
  refine ⟨_, ?_, lanesWritten_writeEach e (e.guard w.g) _ w.d.toNat _⟩
  rw [registerOp_completes hp hrow hi, writeEach_eq]

end Sys2Proof.Claims
end

section
/-! SUPPORT. The completion of an instruction: where the lanes of the issuer's group stand after it, and what it leaves alone. -/

namespace Sys2Proof.Machine

-- ## What the word's end leaves of the group

/-- Replacing the active path's entry touches the path table and the serialising path alone. -/
theorem setPath_eq (g : Group) (sel : Option Nat) (p : PathEntry) :
    g.setPath sel p = { g with paths := (g.setPath sel p).paths, serl := (g.setPath sel p).serl } := by
  unfold Group.setPath
  repeat' split
  all_goals rfl

/-- A group past its word is the group with its paths moved, Ready. -/
theorem past_eq (e : Env) (g : Group) :
    e.past g = { g with paths := (e.past g).paths, spilledPaths := (e.past g).spilledPaths, serl := (e.past g).serl, state := .ready } := by
  unfold Env.past
  rw [settle_eq, setPath_eq]

-- ## What it leaves of the state

/-- The group of a user issuer stands in its team. -/
theorem env_findGroup {s : State} {e : Env} {r : GroupRef} (henv : s.env = some e) (href : e.ref = some r) (hteam : r.team ≠ 0) :
    ∃ h, s.findGroup r = some h := by
  unfold State.env at henv
  split at henv
  case h_1 q hcur =>
    split at henv
    case h_1 t ht =>
      split at henv
      case h_1 g gr hg hgr =>
        split at henv
        · split at henv
          · cases henv
            obtain rfl : q = r := Option.some.inj href
            exact ⟨g, by simp only [State.findGroup, hteam, if_false, ht, hg]⟩
          · cases henv
        · cases henv
      case h_2 => cases henv
    case h_2 => cases henv
  case h_2 c hcur =>
    simp only at henv
    split at henv
    · split at henv
      · cases henv
        cases href
      · cases henv
    · cases henv
  case h_3 => cases henv

/-- A change of a team's group leaves the cores alone, the agents' slots among them. -/
theorem State.modGroup_cores_of_team (s : State) {r : GroupRef} (f : Group → Group) (h : r.team ≠ 0) : (s.modGroup r f).cores = s.cores := by
  unfold State.modGroup
  rw [if_neg h]
  split <;> rfl

/-- A change of a team's group leaves every other team alone. -/
theorem State.find_teams_modGroup (s : State) {r : GroupRef} (f : Group → Group) {k : Nat} (h : k ≠ r.team) :
    Table.find (s.modGroup r f).teams k = Table.find s.teams k := by
  unfold State.modGroup
  split
  · rfl
  · split
    · simp [State.modTeam, Table.find_modify, h]
    · rfl

end Sys2Proof.Machine

namespace Sys2Proof.Claims

open Sys2Proof.Machine

-- ## Where lanes stand

/-- Settling a path table moves no lane, of a serialising path either. -/
theorem standing_settle (g : Group) (l : Nat) (pc : BitVec 64) : Standing g.settle l pc ↔ Standing g l pc := by
  unfold Standing
  rw [settle_serl]
  exact or_congr_left (standsIn_settle g l pc)

/-- A group with the paths of the issuer, in which another entry takes the place of the active path: that entry's lanes stand at its address, and
the lanes of other paths where they stood. -/
theorem standing_setPath {e : Env} {g : Group} (hat : e.grp.At e.sel e.path) (hpaths : g.paths = e.grp.paths)
    (hspilled : g.spilledPaths = e.grp.spilledPaths) (hserl : g.serl = e.grp.serl) (q : PathEntry) (l : Nat) (pc : BitVec 64) :
    Standing (g.setPath e.sel q) l pc ↔ (q.mask.getLsbD l = true ∧ q.pc = pc) ∨ StandingElse e l pc := by
  have hg : g.At e.sel e.path := by simpa only [Group.At, hpaths, hserl] using hat
  unfold StandingElse
  cases hsel : e.sel with
  | some k =>
    have lanes := standsIn_setPath g e.sel e.path q hg k hsel l pc
    rw [hsel, hpaths, hspilled] at lanes
    unfold Standing
    rw [← or_assoc]
    refine or_congr lanes ?_
    simp only [Group.setPath, hserl]
  | none =>
    obtain ⟨z, hz, -⟩ := hg.2 hsel
    simp [Standing, Group.setPath, hz, hpaths, hspilled, or_comm]

/-- The active path of a group past its word stands at the next word, and every other path where it stood. -/
theorem standing_past {s : State} {e : Env} {g : Group} (henv : s.env = some e) (hpaths : g.paths = e.grp.paths)
    (hspilled : g.spilledPaths = e.grp.spilledPaths) (hserl : g.serl = e.grp.serl) (l : Nat) (pc : BitVec 64) :
    Standing (e.past g) l pc ↔ (e.path.mask.getLsbD l = true ∧ pc = e.path.pc + 8) ∨ StandingElse e l pc := by
  have hsettle : Standing (e.past g) l pc ↔ Standing (g.setPath e.sel e.path.past).settle l pc := Iff.rfl
  rw [hsettle, standing_settle, standing_setPath (env_at s e henv).1 hpaths hspilled hserl, @eq_comm _ pc]
  rfl

-- ## The completion

/-- Settles O55: finish is a write of the issuer's group alone, and that group is the one given with its active path moved on. -/
theorem completionMovesOnlyItsPath : Obligations.CompletionMovesOnlyItsPath := by
  intro s e r g henv href hteam hpaths hspilled hserl
  have hfinish : e.finish g s = s.modGroup r fun _ => e.past g := by
    simp only [Env.finish, Env.setGroup, Env.gref, href, Option.getD_some]
  obtain ⟨h, hfound⟩ := env_findGroup henv href hteam
  simp only [hfinish, State.modGroup_mem, State.modGroup_scratch, State.modGroup_shadows, State.modGroup_contexts, State.modGroup_launches,
    State.modGroup_grids, State.modGroup_queues, State.modGroup_cores_of_team s _ hteam, true_and]
  refine ⟨fun q hq => s.findGroup_modGroup_other _ hq, fun k hk => s.find_teams_modGroup _ hk, e.past g, ?_, ?_, by rw [past_eq],
    by rw [past_eq], by rw [past_eq], rfl, fun l pc _ => standing_past henv hpaths hspilled hserl l pc⟩
  · rw [s.findGroup_modGroup_self, hfound, Option.map_some]
  · rw [past_eq]
    exact ⟨rfl, rfl, rfl, rfl, rfl, rfl, rfl, rfl, rfl⟩

end Sys2Proof.Claims
end

section
/-! SUPPORT. The placement of a launch's first team: with the team it starts the launch, and both take a number. -/

namespace Sys2Proof.Machine

-- ## The numbers that a placement takes

/-- A launch that starts takes a number, its place in commit order (R247). -/
theorem startLaunch_nextId {s : State} {l : Nat} {x : Launch} (level : Nat) (hx : Table.find s.launches l = some x) :
    (s.startLaunch l level).nextId = s.nextId + 1 := by
  simp only [State.startLaunch, hx, State.modLaunch_nextId]

@[simp] theorem rouseAll_nextId (s : State) : s.rouseAll.nextId = s.nextId := rfl

/-- A new team takes a number, and so does its launch where the team is the first one of a top-level launch (R246). -/
theorem startTeam_nextId_of_untagged {s : State} {gid : Nat} {g : Grid} {x : Launch} (core : Nat) (quads : List Nat) (off : Nat)
    (hg : Table.find s.grids gid = some g) (hparent : g.parent = none) (hx : Table.find s.launches g.launch = some x) (htag : x.tag = none) :
    (s.startTeam gid core quads off).nextId = s.nextId + 2 := by
  simp only [State.startTeam, hg, hparent, State.modGrid_launches, State.zeroScratch, hx, htag, Option.isNone_none, if_true, rouseAll_nextId,
    apply_ite State.nextId, ite_self]
  exact startLaunch_nextId _ hx

/-- A grid with no saved team gets a new one. -/
theorem putTeam_of_no_saved {s : State} {gid : Nat} (p : Nat × List Nat × Nat) (h : s.restoring gid = []) :
    s.putTeam gid p = s.startTeam gid p.1 p.2.1 p.2.2 := by
  simp only [State.putTeam, h, List.head?_nil]

/-- The team that R275 names next is placed on the core where it fits, if that is awake (R274, R282). -/
theorem exec_teamPlacement {s : State} {gid : Nat} {g : Grid} {p : Nat × List Nat × Nat} (hg : Table.find s.grids gid = some g)
    (hnamed : s.namedNext gid g = true) (hfit : s.nextFit gid g = some p) (hawake : (s.core p.1).gated = false) :
    exec (.teamPlacement gid) s = .next (((s.noteSource g).putTeam gid p).noteUsed p.1) := by
  show execTeamPlacement gid s = _
  simp [execTeamPlacement, due, hg, hnamed, hfit, hawake]

/-- Placing the first team of a top-level launch takes two numbers, the team's and the launch's. -/
theorem exec_teamPlacement_of_first {s u : State} {gid core off : Nat} {quads : List Nat} {g : Grid} {x : Launch}
    (hg : Table.find s.grids gid = some g) (hnamed : s.namedNext gid g = true) (hfit : s.nextFit gid g = some (core, quads, off))
    (hawake : (s.core core).gated = false) (hsaved : s.restoring gid = []) (hparent : g.parent = none)
    (hx : Table.find s.launches g.launch = some x) (htag : x.tag = none) (hu : exec (.teamPlacement gid) s = .next u) :
    u.nextId = s.nextId + 2 := by
  rw [exec_teamPlacement hg hnamed hfit hawake, putTeam_of_no_saved (s := s.noteSource g) _ hsaved] at hu
  cases hu
  exact startTeam_nextId_of_untagged (s := s.noteSource g) core quads off hg hparent hx htag

-- ## A launch whose first team is due

/-- The launch of a grid of one team, which waits for its first team to be placed: it has no tag yet. -/
def untaggedLaunch : Launch := { placedLaunch 1 with phase := .waiting, tag := none }

/-- Its grid, none of whose teams is placed. -/
def unplacedGrid : Grid := { placedGrid 1 with nextTeam := 0, admitted := false, die := none }

/-- The machine with that launch and one core, on which the team fits. -/
def firstTeamDue : State :=
  { State.reset with launches := [(1, untaggedLaunch)], grids := [(1, unplacedGrid)], nextId := 2,
                     cores := [(0, { Core.start with enabled := true, started := true })] }

/-- The team of firstTeamDue is the one named next, and fits on core 0, which is awake. -/
theorem firstTeamDue_placeable :
    firstTeamDue.namedNext 1 unplacedGrid = true ∧ firstTeamDue.nextFit 1 unplacedGrid = some (0, [0], 0)
      ∧ (firstTeamDue.core 0).gated = false ∧ firstTeamDue.restoring 1 = [] := by
  decide +kernel

end Sys2Proof.Machine

namespace Sys2Proof.Claims

open Sys2Proof.Machine

/-- Refutes O19: team placement does not leave the machine's next number one higher where the team is the first of a top-level launch. The launch
starts with it (R246) and takes the number after the team's, so of firstTeamDue the next number goes from 2 to 4. -/
theorem not_teamsArePlacedAndRetired : ¬ Obligations.TeamsArePlacedAndRetired := by
  rintro ⟨hplaced, -, -⟩
  obtain ⟨hnamed, hfit, hawake, hsaved⟩ := firstTeamDue_placeable
  have hgrid : Table.find firstTeamDue.grids 1 = some unplacedGrid := rfl
  obtain ⟨-, hnew, -⟩ := (hplaced 1 0 0 [0] firstTeamDue unplacedGrid hgrid hnamed hfit).2 hawake
  obtain ⟨u, t, hu, -, -, -, -, -, -, -, -, -, -, hone, -⟩ := hnew hsaved
  have htwo : u.nextId = firstTeamDue.nextId + 2 :=
    exec_teamPlacement_of_first hgrid hnamed hfit hawake hsaved rfl (x := untaggedLaunch) rfl rfl hu
  omega

end Sys2Proof.Claims
end

section
/-! SUPPORT. The planes of a region: what the write of a result leaves of a PE, the plane that a calln makes active, and what calln, retn and next
answer. -/

namespace Sys2Proof.Machine

-- ## What a firing's write leaves of its PE's queues

@[simp] theorem Cell.inq_writeL (c : Cell) (n : Nat) (x : Word) (stamp k : Nat) : (c.writeL n x stamp).inq k = c.inq k := rfl

@[simp] theorem Cell.outq_writeL (c : Cell) (n : Nat) (x : Word) (stamp k : Nat) : (c.writeL n x stamp).outq k = c.outq k := rfl

/-- The predicate update changes the predicate bits alone (R77). -/
theorem Cell.predicate_eq (c : Cell) (w : SWord) (x : Word) : c.predicate w x = { c with b := (c.predicate w x).b } := by
  unfold Cell.predicate
  split <;> rfl

@[simp] theorem Cell.inq_predicate (c : Cell) (w : SWord) (x : Word) (k : Nat) : (c.predicate w x).inq k = c.inq k := by
  rw [Cell.predicate_eq]
  rfl

@[simp] theorem Cell.outq_predicate (c : Cell) (w : SWord) (x : Word) (k : Nat) : (c.predicate w x).outq k = c.outq k := by
  rw [Cell.predicate_eq]
  rfl

@[simp] theorem Cell.inq_writeBack (c : Cell) (w : SWord) (x : Word) (stamp k : Nat) : (c.writeBack w x stamp).inq k = c.inq k := by
  unfold Cell.writeBack
  split <;> simp

@[simp] theorem Cell.outq_writeBack (c : Cell) (w : SWord) (x : Word) (stamp k : Nat) : (c.writeBack w x stamp).outq k = c.outq k := by
  unfold Cell.writeBack
  split <;> simp

-- ## The plane of a callee

/-- A change of a PE that leaves it at its place is found there. -/
theorem Plane.cell_modCell_same (p : Plane) (col row : Nat) {f : Cell → Cell} (hplace : ∀ c, (f c).col = c.col ∧ (f c).row = c.row) :
    (p.modCell col row f).cell col row = (p.cell col row).map f := by
  unfold Plane.modCell Plane.cell
  induction p.cells with
  | nil => rfl
  | cons c rest ih =>
    by_cases h : c.col = col ∧ c.row = row
    · simp [h, hplace c]
    · simpa [h] using ih

/-- A PE with a token more at the end of in0. -/
def Cell.withArgument (c : Cell) (t : Token) : Cell := { c with ins := listModify c.ins 0 fun q => q ++ [t] }

/-- The argument that a calln passes: its first source, a data token (R106). -/
def PeEnv.argument (e : PeEnv) (w : SWord) : Token := { data := e.cell.source w w.srcA, tag := 0, stamp := e.cell.sourceStamp w.srcA }

/-- The plane that a calln makes active of the one that its configuration gives: it knows its caller, and holds the argument (R106). -/
def PeEnv.calleePlane (e : PeEnv) (w : SWord) (p : Plane) : Plane :=
  { p with caller := some (e.cell.col, e.cell.row, e.slot) }.modCell 0 0 fun c => c.withArgument (e.argument w)

/-- The argument of a call waits in in0 of the callee's PE (0, 0). -/
theorem PeEnv.calleePlane_cell (e : PeEnv) (w : SWord) {p : Plane} {c : Cell} (hc : p.cell 0 0 = some c) :
    (e.calleePlane w p).cell 0 0 = some (c.withArgument (e.argument w)) := by
  have hcell : ({ p with caller := some (e.cell.col, e.cell.row, e.slot) } : Plane).cell 0 0 = some c := hc
  rw [PeEnv.calleePlane, Plane.cell_modCell_same _ 0 0 (f := fun d => d.withArgument (e.argument w)) fun _ => ⟨rfl, rfl⟩, hcell,
    Option.map_some]

/-- The region once a plane has become active above its caller's: the planes beyond the fourth stand in the spill area. -/
def Region.entered (q : Plane) (r : Region) : Region :=
  { r with active := q, shadows := (r.active :: r.shadows).take 3, spilled := (r.active :: r.shadows).drop 3 ++ r.spilled,
           oldPlanes := [], loads := r.loads + 1, epoch := r.epoch + 1 }

end Sys2Proof.Machine

namespace Sys2Proof.Claims

open Sys2Proof.Machine

/-- A slot that fires gives its body's state. -/
theorem Fires.slotStep {s : State} {e : PeEnv} {i : Instr} {w : SWord} (h : Fires s e i w) (body : PeEnv → State) :
    slotStep i w s body = .next (body e) :=
  have ⟨henv, heligible, hextra⟩ := h
  slotStep_of_fires henv heligible hextra

-- ## calln (R104, R106)

/-- A calln beyond its region's depth raises STACK. -/
theorem exec_calln_of_full {w : SWord} {s : State} {e : PeEnv} (h : Fires s e (.calln w) w)
    (hdepth : e.region.depth < e.region.shadows.length + e.region.spilled.length + 2) :
    exec (.calln w) s = .next (s.failRegion e.tk (SFault.trap .stack 0)) := by
  show execCalln w s = _
  rw [execCalln, h.slotStep]
  simp [hdepth]

/-- A calln of a configuration that the region cannot take raises the trap of its load. -/
theorem exec_calln_of_refused {w : SWord} {s : State} {e : PeEnv} {k : TrapKind} (h : Fires s e (.calln w) w)
    (hdepth : e.region.shadows.length + e.region.spilled.length + 2 ≤ e.region.depth)
    (hload : s.loadPlane e.team e.region (w.imm.toNat % 4) (e.region.loads + 1) = .error k) :
    exec (.calln w) s = .next (s.failRegion e.tk (SFault.trap k 0)) := by
  show execCalln w s = _
  rw [execCalln, h.slotStep]
  simp [Nat.not_lt.mpr hdepth, hload]

/-- A calln with room makes its callee's plane active; where four planes stand already, the bytes of the spill area become free (R104). -/
theorem exec_calln_of_loaded {w : SWord} {s : State} {e : PeEnv} {p : Plane} (h : Fires s e (.calln w) w)
    (hdepth : e.region.shadows.length + e.region.spilled.length + 2 ≤ e.region.depth)
    (hload : s.loadPlane e.team e.region (w.imm.toNat % 4) (e.region.loads + 1) = .ok p) :
    exec (.calln w) s = .next (
      let u := (e.put s (e.cell.dequeue w.deq)).modRegion e.tk (Region.entered (e.calleePlane w p))
      if e.region.shadows.length < 3 then u else u.blurSpan e.team true) := by
  show execCalln w s = _
  rw [execCalln, h.slotStep]
  simp only [Nat.not_lt.mpr hdepth, if_false, hload]
  rfl

/-- The three outcomes of a calln; the callee of one with room is its configuration's plane, with its caller and its argument. -/
theorem callEntersCallee : CallEntersCallee := fun w _ e h =>
  ⟨exec_calln_of_full h,
   fun p hdepth hload => ⟨e.calleePlane w p, exec_calln_of_loaded h hdepth hload, rfl, rfl, fun _ hc => e.calleePlane_cell w hc⟩,
   fun _ => exec_calln_of_refused h⟩

-- ## retn (R107)

/-- A retn of a callee discards its plane and thaws its caller's; without a plane to return to it raises STACK. -/
theorem returnThawsCaller : ReturnThawsCaller := by
  intro w s e h
  have hexec : exec (.retn w) s = execRetn w s := rfl
  rw [hexec, execRetn, h.slotStep]
  refine ⟨fun p rest col row slot hshadows hcaller => ?_, fun hshadows => ?_⟩
  · simp only [hshadows, hcaller]
  · simp only [hshadows]

-- ## next (R108, R193)

/-- Dequeuing and then writing back moves the slot's inputs alone: what is written back is no queue's. -/
theorem moved_dequeue_writeBack (c : Cell) (w : SWord) (x : Word) : Moved c ((c.dequeue w.deq).writeBack w x) w.deq 0 (.pend 0) := by
  refine ⟨fun k hk => ?_, fun k _ => ?_⟩
  · rw [Cell.inq_writeBack, Cell.inq_dequeue c w.deq hk]
  · simp

/-- A next is recorded in the active plane where none is pending and its mport stands beside the matrix port; it raises CONFIG otherwise. -/
theorem nextIsPendingOnce : NextIsPendingOnce := by
  intro w s e h
  have hexec : exec (.next w) s = execNext w s := rfl
  rw [hexec, execNext, h.slotStep]
  refine ⟨fun hnone hport => ⟨_, ?_, moved_dequeue_writeBack e.cell w ((Config.unstatedWord 108 0).setWidth 32)⟩, fun hbad => ?_⟩
  · simp only [hnone, hport, Option.isSome_none, Bool.or_self, Bool.false_eq_true, if_false]
  · rw [if_pos (by simpa using hbad)]

/-- Settles O40: calln enters the callee's plane or raises its trap, retn thaws the caller's, and a second next is refused. -/
theorem planesCallReturnAndChain : Obligations.PlanesCallReturnAndChain := ⟨callEntersCallee, returnThawsCaller, nextIsPendingOnce⟩

end Sys2Proof.Claims
end

section
/-! SUPPORT. Taking a trap, and the instructions that trap: the record that the group keeps, and the hop that its team gives up. -/

namespace Sys2Proof.Machine

-- ## The user issuer

/-- What an issuer is: a group of a team that stands in the team's record, or an agent's slot. -/
theorem env_issuer {s : State} {e : Env} (henv : s.env = some e) :
    (∃ r t g, e.ref = some r ∧ Table.find s.teams r.team = some t ∧ t.groups[r.grp]? = some g) ∨ e.ref = none := by
  unfold State.env at henv
  split at henv
  case h_1 r hcur =>
    split at henv
    case h_1 t ht =>
      split at henv
      case h_1 g gr hg hgr =>
        split at henv
        · split at henv
          · cases henv
            exact .inl ⟨r, t, g, rfl, ht, hg⟩
          · cases henv
        · cases henv
      case h_2 => cases henv
    case h_2 => cases henv
  case h_2 c hcur =>
    simp only at henv
    split at henv
    · split at henv
      · cases henv
        exact .inr rfl
      · cases henv
    · cases henv
  case h_3 => cases henv

/-- The team of a user issuer stands in its table. -/
theorem env_team {s : State} {e : Env} {r : GroupRef} (henv : s.env = some e) (href : e.ref = some r) :
    ∃ t, Table.find s.teams r.team = some t := by
  obtain ⟨q, t, g, hq, ht, -⟩ | hnone := env_issuer henv
  · obtain rfl : q = r := Option.some.inj (hq.symm.trans href)
    exact ⟨t, ht⟩
  · rw [href] at hnone
    cases hnone

/-- A user issuer's group is found. -/
theorem env_group {s : State} {e : Env} {r : GroupRef} (henv : s.env = some e) (href : e.ref = some r) : ∃ g, s.findGroup r = some g := by
  by_cases hteam : r.team = 0
  · exact ⟨(s.core r.grp).agent.grp, by simp only [State.findGroup, hteam, if_true]⟩
  · exact env_findGroup henv href hteam

-- ## Cancelling a hop (R127)

/-- A team whose hop is cancelled has none armed, and only its groups that were parked for the hop have moved. -/
theorem State.find_teams_cancelHop {s : State} {j : Nat} {t : Team} (k : Nat) (ht : Table.find s.teams j = some t) :
    ∃ u, Table.find (s.cancelHop k).teams j = some u ∧ (j = k → u.armed = none)
      ∧ ∀ (i : Nat) (g : Group), t.groups[i]? = some g → g.state ≠ .parkedHop → u.groups[i]? = some g := by
  simp only [State.cancelHop, State.modTeam, Table.find_modify, ht, Option.map_some]
  by_cases hk : j = k
  · by_cases harmed : t.armed.isNone = true
    · exact ⟨t, by rw [if_pos hk, if_pos harmed], fun _ => Option.isNone_iff_eq_none.mp harmed, fun _ _ hg _ => hg⟩
    · refine ⟨_, by rw [if_pos hk, if_neg harmed], fun _ => rfl, fun i g hg hstate => ?_⟩
      simp [hg, hstate]
  · exact ⟨t, if_neg hk, fun h => absurd h hk, fun _ _ hg _ => hg⟩

/-- A group that is not parked for a hop stays as it is when one is cancelled. -/
theorem State.findGroup_cancelHop {s : State} {r : GroupRef} {g : Group} (k : Nat) (hg : s.findGroup r = some g)
    (hstate : g.state ≠ .parkedHop) : (s.cancelHop k).findGroup r = some g := by
  unfold State.findGroup at hg ⊢
  by_cases hteam : r.team = 0
  · simp only [hteam, if_true] at hg ⊢
    exact hg
  · simp only [hteam, if_false] at hg ⊢
    cases ht : Table.find s.teams r.team with
    | none =>
      have hnone : Table.find (s.cancelHop k).teams r.team = none := by
        simp [State.cancelHop, State.modTeam, Table.find_modify, ht]
      rw [ht] at hg
      rw [hnone]
      exact hg
    | some t =>
      obtain ⟨u, hu, -, hgroups⟩ := State.find_teams_cancelHop k ht
      rw [ht] at hg
      rw [hu]
      exact hgroups _ _ hg hstate

-- ## Taking a trap (R284, R286)

/-- A trap of a user group is a write of its group, after which its team's hop is cancelled. -/
theorem Env.trapWith_user {e : Env} {r : GroupRef} (href : e.ref = some r) (s : State) (g : Group) (kind : TrapKind) (detail : BitVec 32)
    (addr : BitVec 64) (lane : BitVec 32) (after : Bool) :
    e.trapWith s g kind detail addr lane after = (s.modGroup r fun _ => { g with
      state := .trapped,
      trap := some { kind := kind, detail := detail, pc := e.tPc, addr := addr, lane := e.trapLane lane, after := after, phase := .raised },
      held := if e.vform == g.vform then some e.sel else g.nextPath.map fun x => x.1, child := none }).cancelHop r.team := by
  simp only [Env.trapWith, Env.setGroup, Env.gref, href, Option.getD_some]

/-- A trap writes no memory, no scratchpad and no context. -/
theorem Env.trapWith_frame (e : Env) (s : State) (g : Group) (kind : TrapKind) (detail : BitVec 32) (addr : BitVec 64) (lane : BitVec 32)
    (after : Bool) :
    (e.trapWith s g kind detail addr lane after).mem = s.mem ∧ (e.trapWith s g kind detail addr lane after).scratch = s.scratch
      ∧ (e.trapWith s g kind detail addr lane after).contexts = s.contexts := by
  unfold Env.trapWith
  cases e.ref with
  | none => simp [Env.setGroup]
  | some r => simp [Env.setGroup, State.cancelHop]

/-- A team stands in its table whatever becomes of a group. -/
theorem State.find_teams_modGroup_isSome {s : State} (r : GroupRef) (f : Group → Group) {k : Nat} {t : Team}
    (ht : Table.find s.teams k = some t) : ∃ u, Table.find (s.modGroup r f).teams k = some u := by
  by_cases hk : k = r.team
  · subst hk
    unfold State.modGroup
    split
    · exact ⟨t, ht⟩
    · simp [ht, State.modTeam, Table.find_modify]
  · exact ⟨t, by rw [s.find_teams_modGroup f hk, ht]⟩

end Sys2Proof.Machine

namespace Sys2Proof.Claims

open Sys2Proof.Machine

/-- A native instruction that issues answers its body's state. -/
theorem Issues.exec_eq {s t : State} {e : Env} {u : Uses} {i : Instr} {body : Env → State} (hi : Issues s e u)
    (hexec : exec i s = native u s body) (hbody : body e = t) : exec i s = .next t := by
  rw [hexec, native_of_free hi.1 hi.2, hbody]

/-- The trap stands in its group's record, which cancelling the hop leaves alone: a trapped group is not parked for it. -/
theorem trapStopsGroup : TrapStopsGroup := by
  intro s e g kind detail addr lane after henv
  obtain ⟨hmem, hscratch, hcontexts⟩ := e.trapWith_frame s g kind detail addr lane after
  refine ⟨hmem, hscratch, hcontexts, fun r href => ?_⟩
  obtain ⟨h, hfound⟩ := env_group henv href
  obtain ⟨tm, htm⟩ := env_team henv href
  rw [Env.trapWith_user href]
  refine ⟨⟨if e.vform == g.vform then some e.sel else g.nextPath.map fun x => x.1,
    State.findGroup_cancelHop _ ?_ nofun, fun hform => ?_⟩, ?_⟩
  · rw [State.findGroup_modGroup_self, hfound, Option.map_some]
  · rw [if_pos (beq_iff_eq.mpr hform)]
  · obtain ⟨u, hu⟩ := State.find_teams_modGroup_isSome r _ htm
    obtain ⟨v, hv, harmed, -⟩ := State.find_teams_cancelHop r.team hu
    exact ⟨v, hv, harmed rfl⟩

/-- bkpt and bsync trap whatever their guard, trap only with Guard. -/
theorem trapInstructionsTrap : TrapInstructionsTrap := by
  intro s e hi
  refine ⟨hi.exec_eq rfl rfl, hi.exec_eq rfl rfl, fun g imm => ⟨fun hacts => hi.exec_eq rfl ?_, fun hacts => hi.exec_eq rfl ?_⟩⟩
  · exact if_pos hacts
  · exact if_neg (Bool.eq_false_iff.mp hacts)

/-- Settles O49: a trap is a write of its group, and the team's hop is cancelled. -/
theorem trapsStopTheirGroup : Obligations.TrapsStopTheirGroup := ⟨trapStopsGroup, trapInstructionsTrap⟩

end Sys2Proof.Claims
end

section
/-! SUPPORT. The system instructions: what eqp and hop answer, in each of their cases. -/

namespace Sys2Proof.Claims

open Sys2Proof.Machine

section

variable {s : State} {e : Env}

-- ## eqp (R123, R383)

/-- An eqp that stands first in the clause of its E-point records its id and counts the pass. -/
theorem exec_eqp_of_epoint {id : BitVec 12} {gr : Grid} {p : EPoint} (hi : Issues s e { v := [], s := [] }) (hgrid : e.grid = some gr)
    (hp : p ∈ gr.image.epoints) (hid : p.id = id.toNat) (hat : e.atEpoint p = true) (hfresh : e.path.fresh = true) :
    exec (.eqp id) s = .next (e.finish
      { e.grp with eqlast := id.setWidth 32, perf := { e.grp.perf with passes := e.grp.perf.passes + 1 } } s) := by
  have hany : (gr.image.epoints.any fun q => q.id == id.toNat && e.atEpoint q) = true :=
    List.any_eq_true.mpr ⟨p, hp, by simp [hid, hat]⟩
  refine hi.exec_eq rfl ?_
  simp only [hgrid, hfresh, hany, Bool.and_self, if_true]

/-- An eqp behind the first word of its clause, or in no E-point's clause, is ILLEGAL. -/
theorem exec_eqp_of_misplaced {id : BitVec 12} (hi : Issues s e { v := [], s := [] })
    (hbad : e.path.fresh = false ∨ ∀ gr, e.grid = some gr → ∀ p ∈ gr.image.epoints, p.id = id.toNat → e.atEpoint p = false) :
    exec (.eqp id) s = .next (e.trap s .illegal) := by
  refine hi.exec_eq rfl ?_
  obtain hfresh | hnone := hbad
  · simp only [hfresh, Bool.false_and, Bool.false_eq_true, if_false]
  · cases hgrid : e.grid with
    | none => simp
    | some gr =>
      have hany : (gr.image.epoints.any fun q => q.id == id.toNat && e.atEpoint q) = false := by
        simpa using hnone gr hgrid
      simp only [hany, Bool.and_false, Bool.false_eq_true, if_false]

-- ## hop (R132)

/-- A hop that Callisto's registers let through: Guard holds, HINT is 1 and PIN is 00. -/
def HopAsks (s : State) (e : Env) (g : Guard) : Prop :=
  e.acts g = true ∧ (s.context e.ctx).cscHint = true ∧ (s.context e.ctx).cscPin = 0

/-- A hop to S form is its team's. -/
theorem exec_hop_to_S {g : Guard} {r : GroupRef} (hi : Issues s e { v := [], s := [] }) (href : e.ref = some r) (hasks : HopAsks s e g) :
    exec (.hop g 2) s = .next (e.finish { e.grp with hopTarget := none } (s.modTeam r.team fun t => { t with hopS := true })) := by
  obtain ⟨hacts, hhint, hpin⟩ := hasks
  refine hi.exec_eq rfl ?_
  simp [href, hacts, hhint, hpin]

/-- A hop to another form is its group's, and takes back its team's hop to S form. -/
theorem exec_hop_to_other {g : Guard} {target : BitVec 2} {r : GroupRef} (hi : Issues s e { v := [], s := [] }) (href : e.ref = some r)
    (hasks : HopAsks s e g) (hS : target ≠ 2) :
    exec (.hop g target) s =
      .next (e.finish { e.grp with hopTarget := some target.toNat } (s.modTeam r.team fun t => { t with hopS := false })) := by
  obtain ⟨hacts, hhint, hpin⟩ := hasks
  refine hi.exec_eq rfl ?_
  simp only [href, hacts, hhint, hpin, beq_eq_false_iff_ne.mpr hS, decide_true, Bool.and_self, Bool.false_eq_true, if_true, if_false]

/-- A hop of an agent's slot, or one that may not ask, goes on. -/
theorem exec_hop_of_ignored {g : Guard} {target : BitVec 2} (hi : Issues s e { v := [], s := [] }) (hno : e.ref = none ∨ ¬ HopAsks s e g) :
    exec (.hop g target) s = .next (e.finish e.grp s) := by
  refine hi.exec_eq rfl ?_
  cases href : e.ref with
  | none => rfl
  | some r =>
    have hasks : ¬ HopAsks s e g := hno.resolve_left (by simp [href])
    refine if_neg fun h => hasks ?_
    simpa [HopAsks, and_assoc] using h

end

/-- Settles O10: nop, fbar and icinv have a single case; eqp and hop have those above. -/
theorem systemInstructionsComplete : Obligations.SystemInstructionsComplete := by
  intro s e hi
  refine ⟨hi.exec_eq rfl rfl, hi.exec_eq rfl rfl, hi.exec_eq rfl rfl,
    fun id gr p => exec_eqp_of_epoint hi, fun id => exec_eqp_of_misplaced hi, fun g target => ⟨?_, ?_, ?_⟩⟩
  · rintro r href hasks rfl
    exact exec_hop_to_S hi href hasks
  · exact fun r href hasks hS => exec_hop_to_other hi href hasks hS
  · exact fun hno => exec_hop_of_ignored hi hno

end Sys2Proof.Claims
end

section
/-! SUPPORT. wait and cwait: what the reads of their lanes leave, what becomes of the instruction, and what a poll of a waiting lane answers. -/

namespace Sys2Proof.Machine

-- ## The outcomes of a wait's reads

/-- An instruction whose group awaits no acquire is not held back (R221). -/
theorem Env.ordered_of_no_acquire {e : Env} (h : e.grp.acquiring = false) (s body : State) : e.ordered s body = body := by
  simp only [Env.ordered, h, Bool.false_eq_true, if_false]

/-- Acquiring reads of no lane tell nothing; those of some are one acquire, and of a wait each lane tells which tiles are bound (R227, R302). -/
theorem State.waitsDone_some (s : State) (r : GroupRef) (k : Nat) (isWait : Bool) (seq : Nat) (lanes : List WaitLane) :
    s.waitsDone r (some k) isWait seq lanes =
      if lanes = [] then s
      else if isWait then lanes.foldl (fun s x => s.waited r k x) (s.acquire r k seq) else s.acquire r k seq := by
  simp only [State.waitsDone, List.isEmpty_iff]

/-- With no lane left and no failed element, the instruction completes. -/
theorem Env.waitRest_of_done (e : Env) (issues : Bool) (acq : Option Nat) (isWait : Bool) (s : State) :
    e.waitRest issues acq isWait none [] s = { e with grp := s.noted e.gref e.grp }.finish (s.noted e.gref e.grp) s := rfl

/-- With no lane left behind a failed element, a group that has waited owes the trap (R42, R70). -/
theorem Env.waitRest_of_owed (e : Env) (acq : Option Nat) (isWait : Bool) (f : LaneFault) (s : State) :
    e.waitRest false acq isWait (some f) [] s =
      { e with grp := s.noted e.gref e.grp }.laneOwed s (s.noted e.gref e.grp) f .read := rfl

/-- With lanes left, the group waits for them. -/
theorem Env.waitRest_of_left (e : Env) (issues : Bool) (acq : Option Nat) (isWait : Bool) (bad : Option LaneFault) {left : List WaitLane}
    (h : left ≠ []) (s : State) :
    e.waitRest issues acq isWait bad left s = { e with grp := s.noted e.gref e.grp }.waitOn (.lanes acq isWait bad left) s := by
  simp only [Env.waitRest, List.isEmpty_eq_false_iff.mpr h, Bool.false_eq_true, if_false]

-- ## The instruction, all of whose lanes have passed their checks

/-- The lanes of a wait that its reads have ended: those not left. -/
def readLanesDone (all left : List WaitLane) : List WaitLane := all.filter fun x => left.all fun y => y.lane != x.lane

/-- A wait or cwait whose lanes have passed their checks completes once every lane's word differs; else the group waits for the lanes left, and a
wait cancels its team's armed hop (R127). Either way the reads that ended a lane's wait count as performed. -/
theorem Env.waitLanes_of_checked (e : Env) (acq : Option Nat) (isWait : Bool) (lane : Nat → Loc → WaitLane) (ok : List (Nat × Loc)) (s : State) :
    let all := ok.map fun x => lane x.1 x.2
    let left := (e.readLanes (readScope isWait acq) all s).1
    let u := (e.readLanes (readScope isWait acq) all s).2
    let h : Env := { e with grp := u.noted e.gref e.grp }
    let seen := fun v : State => v.waitsDone e.gref acq isWait e.grp.seq (readLanesDone all left)
    (left = [] → e.waitLanes acq isWait lane (ok, none, s) = seen (h.finish h.grp u))
      ∧ (left ≠ [] → e.waitLanes acq isWait lane (ok, none, s) =
          (seen (h.waitOn (.lanes acq isWait none left) u)).enterWait e.gref isWait) := by
  intro all left u h seen
  have hbody : e.waitLanes acq isWait lane (ok, none, s) =
      if left.isEmpty then seen (e.waitRest true acq isWait none left u)
      else (seen (e.waitRest true acq isWait none left u)).enterWait e.gref isWait := rfl
  refine ⟨fun hleft => ?_, fun hleft => ?_⟩
  · simp only [hbody, hleft, List.isEmpty_nil, if_true]
    rfl
  · rw [hbody, List.isEmpty_eq_false_iff.mpr hleft, e.waitRest_of_left true acq isWait none hleft u]
    rfl

/-- A lane of a cwait: it waits on the word at its address (R376). -/
def Env.cwaitLane (e : Env) (w : MWord) (l : Nat) (loc : Loc) : WaitLane :=
  { lane := l, loc := loc, bytes := widthBytes w.width, value := BitVec.ofNat 64 (e.dataValue w.d.toNat (widthBytes w.width) l),
    va := loc.virtualAt (e.memAddr w l) }

/-- A lane of a wait: it waits on the phase of its barrier object (R458). -/
def Env.waitLane (e : Env) (w : MWord) (l : Nat) (loc : Loc) : WaitLane :=
  { lane := l, loc := loc.plus 8, bytes := 4, value := (e.readV w.d.toNat l).setWidth 64, va := loc.virtualAt (e.memAddr w l + 8) }

section

variable {w : MWord} {s t : State} {e : Env} {ok : List (Nat × Loc)} (henv : s.env = some e) (hacquiring : e.grp.acquiring = false)

include henv hacquiring

/-- A cwait all of whose lanes have passed their checks waits for them. -/
theorem exec_cwait_of_checked (hfree : e.hazard (memUses w (dataRegs w.d.toNat (widthBytes w.width)) []) = false)
    (hchecked : Claims.virtualLanes e w.g (widthBytes w.width) .read (e.memAddr w) s = (ok, none, t)) :
    exec (.cwait w) s = .next (e.waitLanes (cwaitScope w) false (e.cwaitLane w) (ok, none, t)) := by
  show execCwait w s = _
  rw [execCwait, native_of_free henv hfree, Env.ordered_of_no_acquire hacquiring, ← hchecked]
  rfl

/-- So does a wait. -/
theorem exec_wait_of_checked (hfree : e.hazard (memUses w [w.d.toNat] []) = false)
    (hchecked : checkLanes (fun l s => e.checkBarrier s w .read l) (lanesOf (e.guard w.g)) s [] = (ok, none, t)) :
    exec (.wait w) s = .next (e.waitLanes (some w.scope.toNat) true (e.waitLane w) (ok, none, t)) := by
  show execWait w s = _
  rw [execWait, native_of_free henv hfree, Env.ordered_of_no_acquire hacquiring, hchecked]
  rfl

end

-- ## A poll of a waiting lane

section

variable {isWait : Bool} {r : GroupRef} {lane : Nat} {s u : State} {g : Group} {e : Env} {acq : Option Nat} {bad : Option LaneFault}
  {l : List WaitLane} {x : WaitLane} (hgroup : s.findGroup r = some g) (hrunning : s.running r = true)
  (hwaits : g.state = .waiting (.lanes acq isWait bad l)) (henv : s.waitEnv r = some e) (hlane : (l.find? fun y => y.lane == lane) = some x)

include hgroup hrunning hwaits henv hlane

/-- A read that finds the lane's word as it was changes nothing beside. -/
theorem pollStep_of_unchanged (hpoll : e.pollLane s (readScope isWait acq) x = (.ok false, u)) :
    pollStep r lane isWait s = .next u := by
  simp [pollStep, due, hgroup, henv, hwaits, hlane, hrunning, hpoll]

/-- A read that ends the lane's wait leaves the instruction to its other lanes; with none left, and no trap owed, its single step ends. -/
theorem pollStep_of_changed (hpoll : e.pollLane s (readScope isWait acq) x = (.ok true, u)) :
    pollStep r lane isWait s = .next (
      let rest := l.filter fun y => y.lane != lane
      let v := (e.waitRest false acq isWait bad rest u).waitsDone r acq isWait e.grp.seq [x]
      if rest.isEmpty && bad.isNone then v.stepEnd r else v) := by
  simp only [pollStep, due, hgroup, henv, hwaits, hlane, hrunning, hpoll, bne_self_eq_false, Bool.not_true, Bool.or_self,
    Bool.false_eq_true, if_false]

/-- A read that cannot be translated leaves the lanes below it to their end in V form, and none in T form (R70). -/
theorem pollStep_of_failed {k : TrapKind} (hpoll : e.pollLane s (readScope isWait acq) x = (.error k, u)) :
    pollStep r lane isWait s = .next (e.waitRest false acq isWait (some { lane := lane, addr := x.va.getD 0, kind := k })
      (if e.vform then l.filter fun y => decide (y.lane < lane) else []) u) := by
  simp only [pollStep, due, hgroup, henv, hwaits, hlane, hrunning, hpoll, bne_self_eq_false, Bool.not_true, Bool.or_self,
    Bool.false_eq_true, if_false]

end

end Sys2Proof.Machine

namespace Sys2Proof.Claims

open Sys2Proof.Machine

/-- cwait and wait whose registers are free and whose lanes have passed their checks are waits of those lanes. -/
theorem waitCompletesOnChange : WaitCompletesOnChange := by
  intro w s e ok t henv hacquiring n reads
  have answers : ∀ i acq isWait lane, exec i s = .next (e.waitLanes acq isWait lane (ok, none, t)) → reads i acq isWait lane := by
    intro i acq isWait lane hexec
    obtain ⟨hdone, hleft⟩ := e.waitLanes_of_checked acq isWait lane ok t
    cases acq with
    | none => exact ⟨fun h => hexec.trans (congrArg _ (hdone h)), fun h => hexec.trans (congrArg _ (hleft h))⟩
    | some k =>
      simp only [State.waitsDone_some] at hdone hleft
      exact ⟨fun h => hexec.trans (congrArg _ (hdone h)), fun h => hexec.trans (congrArg _ (hleft h))⟩
  exact ⟨fun hfree hchecked => answers _ _ _ _ (exec_cwait_of_checked henv hacquiring hfree hchecked),
    fun hfree hchecked => answers _ _ _ _ (exec_wait_of_checked henv hacquiring hfree hchecked)⟩

/-- A read that may be made is a sample of the word, compared with the lane's value. -/
theorem waitingLaneReadsItsWord : WaitingLaneReadsItsWord := by
  intro e s acq l x may
  have hread : e.readLane s acq l x = if may = true then
      (ofLeBytes (s.sample e.gref (e.view s) e.grp e.grp.seq l x.bytes acq).1 != x.value.toNat,
        (s.sample e.gref (e.view s) e.grp e.grp.seq l x.bytes acq).2) else (false, s) := by
    have hbarred : (e.grp.overlapsLoad e.grp.seq l x.bytes || !s.readable e.gref (e.view s) e.grp e.grp.seq l x.bytes acq) = !may := by
      rw [Bool.not_and, Bool.not_not]
    rw [Env.readLane, hbarred]
    generalize s.sample e.gref (e.view s) e.grp e.grp.seq l x.bytes acq = read
    cases may <;> rfl
  refine ⟨fun hmay => ?_, fun hmay => ?_⟩
  · rw [hread, hmay, if_neg Bool.false_ne_true]
  · rw [hread, if_pos hmay]

/-- The three outcomes of a poll's read, each with lanes left and with none. -/
theorem pollEndsWaitOnChange : PollEndsWaitOnChange := by
  intro isWait r lane s u g e acq bad l x hgroup hrunning hwaits henv hlane i rest h seen
  have hexec : exec i s = pollStep r lane isWait s := by cases isWait <;> rfl
  have hseen : ∀ v : State, v.waitsDone r acq isWait e.grp.seq [x] = seen v := by
    intro v
    cases acq <;> rfl
  have changed (hpoll : e.pollLane s (readScope isWait acq) x = (.ok true, u)) : pollStep r lane isWait s = .next (
      if rest.isEmpty && bad.isNone then (seen (e.waitRest false acq isWait bad rest u)).stepEnd r
      else seen (e.waitRest false acq isWait bad rest u)) := by
    rw [← hseen]
    exact pollStep_of_changed hgroup hrunning hwaits henv hlane hpoll
  rw [hexec]
  refine ⟨pollStep_of_unchanged hgroup hrunning hwaits henv hlane, fun hpoll hrest => ?_, fun hpoll hrest hbad => ?_,
    fun f hpoll hrest hbad => ?_, fun k hpoll => ?_⟩
  · rw [changed hpoll, List.isEmpty_eq_false_iff.mpr hrest, e.waitRest_of_left false acq isWait bad hrest u]
    rfl
  · rw [changed hpoll, hrest, hbad]
    rfl
  · rw [changed hpoll, hrest, hbad]
    rfl
  · intro f below
    have failed := pollStep_of_failed hgroup hrunning hwaits henv hlane hpoll
    refine ⟨fun hnone => ?_, fun hform hbelow => ?_⟩
    · have hleft : (if e.vform then below else []) = [] := by
        obtain hform | hbelow := hnone
        · rw [hform, if_neg Bool.false_ne_true]
        · rw [hbelow, ite_self]
      rw [failed, hleft, Env.waitRest_of_owed]
    · rw [failed, if_pos hform, e.waitRest_of_left false acq isWait _ hbelow u]

/-- Settles O48: the first reads of a wait, the read of one lane, and the polls of the lanes that still wait. -/
theorem waitsEndOnChange : Obligations.WaitsEndOnChange := ⟨waitCompletesOnChange, waitingLaneReadsItsWord, pollEndsWaitOnChange⟩

end Sys2Proof.Claims
end

section
/-! SUPPORT. btop and tlbinv in each of their cases, and what a completed shootdown leaves of the translations and of the regions. -/

namespace Sys2Proof.Machine

-- ## Tables

/-- A change of a table's records, each under its own key, is found at the key. -/
theorem Table.find_map {α : Type} (t : Table α) {f : Nat × α → Nat × α} (hf : ∀ y, (f y).1 = y.1) (k : Nat) :
    Table.find (t.map f) k = (Table.find t k).map fun x => (f (k, x)).2 := by
  induction t with
  | nil => rfl
  | cons y rest ih =>
    have hkey : (f y).1 = y.1 := hf y
    obtain ⟨a, x⟩ := y
    by_cases h : a = k
    · subst h
      simp [Table.find, hkey]
    · simp [Table.find, hkey, h, ih]

-- ## The agent's slot

/-- A change of an agent's group is a change of its core. -/
theorem State.modGroup_agent (s : State) (c : Nat) (f : Group → Group) :
    s.modGroup { team := 0, grp := c } f = s.modCore c fun k => { k with agent := { k.agent with grp := f k.agent.grp } } := rfl

/-- A change of an agent's group leaves its core's translations alone. -/
theorem State.tlb_modGroup_agent (s : State) (c d : Nat) (f : Group → Group) :
    ((s.modGroup { team := 0, grp := c } f).core d).tlb = (s.core d).tlb := by
  rw [State.modGroup_agent]
  by_cases h : d = c
  · subst h
    rw [State.core_modCore]
  · rw [State.core_modCore_other s _ h]

-- ## What a shootdown leaves of each record (R206, R454)

/-- A core after a shootdown of it. -/
def Shootdown.shotCore (x : Shootdown) (c : Core) : Core := { c with tlb := c.tlb.filter fun t => !x.hits t, loops := x.keptLoops c }

/-- The state once a shootdown's translations are removed, before its agent goes on. -/
def State.shot (s : State) (idx : Nat) (x : Shootdown) : State :=
  let cs := s.shootCores x
  { s with
    shootdowns := listDrop s.shootdowns idx,
    dieTlb := s.dieTlb.map fun e => if cs.any fun c => dieOf c == e.1 then (e.1, e.2.filter fun t => !x.hits t) else e,
    cores := s.cores.map fun e => if cs.contains e.1 then (e.1, x.shotCore e.2) else e,
    teams := s.teams.map fun e =>
      if e.2.phase != .placed then (e.1, { e.2 with region := e.2.region.map (Region.shootSaved · x) })
      else if cs.contains e.2.core then (e.1, { e.2 with region := e.2.region.map (Region.shoot · x) }) else e }

/-- A shootdown through whose range no access is under way completes, and the agent that waited for the hub goes past its word. -/
theorem exec_shootdownComplete {s : State} {idx : Nat} {x : Shootdown} (hx : s.shootdowns[idx]? = some x)
    (hidle : ∀ c ∈ s.shootCores x, s.usesRange c x = false) :
    exec (.shootdownComplete idx) s = .next ((s.shot idx x).modGroup { team := 0, grp := x.core } fun g =>
      if g.state == .waiting .hub then g.pastWord else g) := by
  have hnone : ((s.shootCores x).any fun c => s.usesRange c x) = false := by simpa using hidle
  show execShootdownComplete idx s = _
  simp only [execShootdownComplete, hx, hnone, Bool.false_eq_true, if_false]
  rfl

/-- The cores of a shootdown have lost its translations; every other core is as it was. -/
theorem State.core_shot (s : State) (idx : Nat) (x : Shootdown) (c : Nat) :
    (s.shot idx x).core c = if c ∈ s.shootCores x then x.shotCore (s.core c) else s.core c := by
  have hkey : ∀ y : Nat × Core, (if (s.shootCores x).contains y.1 then (y.1, x.shotCore y.2) else y).1 = y.1 := fun y => by
    split <;> rfl
  have hfind := Table.find_map s.cores hkey c
  have hstart : x.shotCore Core.start = Core.start := rfl
  simp only [State.core, State.shot, Table.getD, hfind]
  cases Table.find s.cores c with
  | none => simp [hstart]
  | some y => by_cases h : c ∈ s.shootCores x <;> simp [h]

/-- An agent is as it was. -/
theorem State.agent_shot (s : State) (idx : Nat) (x : Shootdown) (c : Nat) : ((s.shot idx x).core c).agent = (s.core c).agent := by
  rw [State.core_shot]
  split <;> rfl

/-- No translation of the range is left in a core of the shootdown. -/
theorem State.tlb_shot {s : State} {x : Shootdown} {c : Nat} (idx : Nat) (hc : c ∈ s.shootCores x) {t : TlbEntry}
    (ht : t ∈ ((s.shot idx x).core c).tlb) : x.hits t = false := by
  rw [State.core_shot, if_pos hc] at ht
  simpa using (List.mem_filter.mp ht).2

/-- Nor in the die of one. -/
theorem State.dieTlb_shot {s : State} {x : Shootdown} {c : Nat} (idx : Nat) (hc : c ∈ s.shootCores x) {t : TlbEntry}
    (ht : t ∈ Table.getD (s.shot idx x).dieTlb (dieOf c) []) : x.hits t = false := by
  have hkey : ∀ y : Nat × List TlbEntry,
      (if (s.shootCores x).any fun c => dieOf c == y.1 then (y.1, y.2.filter fun t => !x.hits t) else y).1 = y.1 := fun y => by
    split <;> rfl
  have hdie : ((s.shootCores x).any fun d => dieOf d == dieOf c) = true := List.any_eq_true.mpr ⟨c, hc, beq_self_eq_true _⟩
  simp only [State.shot, Table.getD, Table.find_map s.dieTlb hkey, hdie, if_true] at ht
  cases hfind : Table.find s.dieTlb (dieOf c) with
  | none => simp [hfind] at ht
  | some l =>
    simp only [hfind, Option.map_some, Option.getD_some] at ht
    simpa using (List.mem_filter.mp ht).2

-- ## The regions (R134, R454)

/-- An entry of the range stands cleared in a region after the shootdown. -/
theorem Region.cleared_of_mem_shoot {r : Region} {x : Shootdown} {a : XlatEntry} (ha : some a ∈ (r.shoot x).xlat)
    (hrange : pageInRange a.va.toNat a.size x.start x.len = true) : a.cleared = true := by
  obtain ⟨old, -, hold⟩ := List.mem_map.mp ha
  obtain ⟨b, -, rfl⟩ := Option.map_eq_some_iff.mp hold
  by_cases hb : pageInRange b.va.toNat b.size x.start x.len = true
  · rw [if_pos hb]
  · rw [if_neg hb] at hrange
    exact absurd hrange hb

/-- The table of a saved team's region is cleared as a placed one's. -/
theorem Region.xlat_shootSaved (r : Region) (x : Shootdown) : (r.shootSaved x).xlat = (r.shoot x).xlat := by
  simp only [Region.shootSaved, Region.fail]
  split
  · split <;> rfl
  · rfl

/-- Of a team that is saved, or placed on one of its cores, a shootdown has cleared the region's entries of the range. -/
theorem State.cleared_shot {s : State} {idx : Nat} {x : Shootdown} {y : Nat × Team} (hy : y ∈ (s.shot idx x).teams)
    (hplace : y.2.phase ≠ .placed ∨ y.2.core ∈ s.shootCores x) {r : Region} (hr : y.2.region = some r) {a : XlatEntry} (ha : some a ∈ r.xlat)
    (hrange : pageInRange a.va.toNat a.size x.start x.len = true) : a.cleared = true := by
  obtain ⟨z, -, rfl⟩ := List.mem_map.mp hy
  by_cases hphase : z.2.phase = .placed
  · by_cases hcore : z.2.core ∈ s.shootCores x
    · simp only [hphase, bne_self_eq_false, Bool.false_eq_true, if_false, List.contains_iff_mem.mpr hcore, if_true] at hr
      obtain ⟨q, -, rfl⟩ := Option.map_eq_some_iff.mp hr
      exact Region.cleared_of_mem_shoot ha hrange
    · simp [hphase, hcore] at hplace
  · simp only [bne_iff_ne.mpr hphase, if_true] at hr
    obtain ⟨q, -, rfl⟩ := Option.map_eq_some_iff.mp hr
    rw [Region.xlat_shootSaved] at ha
    exact Region.cleared_of_mem_shoot ha hrange

end Sys2Proof.Machine

namespace Sys2Proof.Claims

open Sys2Proof.Machine

section

variable {w : XWord} {s : State} {e : Env}

-- ## btop (R268, R361)

/-- The registers of a btop: the descriptor's address, the operation and the two sequences. -/
def btopRegisters (w : XWord) : Uses := xUses [w.r1.toNat, w.r1.toNat + 1, w.r2.toNat, w.r3.toNat, w.r3.toNat + 1]

/-- What the table answers the operation of a btop. -/
def btopOperation (e : Env) (w : XWord) (s : State) : Except (BitVec 64 × TrapKind) Unit × State :=
  TableEnv.tableOp { core := e.core, ctx := e.ctx, view := [] } s (e.grp.readSPair w.r1.toNat) (e.grp.readS w.r2.toNat).toNat
    (e.grp.readS w.r3.toNat).toNat (e.grp.readS (w.r3.toNat + 1)).toNat true

/-- User software may not issue a btop. -/
theorem exec_btop_of_user (hi : Issues s e (btopRegisters w)) (huser : e.ref.isSome = true) : exec (.btop w) s = .next (e.trap s .priv) := by
  refine hi.exec_eq rfl ?_
  rw [if_pos huser]

/-- Without Guard a btop goes on. -/
theorem exec_btop_of_no_guard (hi : Issues s e (btopRegisters w)) (hagent : e.ref = none) (hacts : e.acts w.g = false) :
    exec (.btop w) s = .next (e.finish e.grp s) := by
  refine hi.exec_eq rfl ?_
  simp [hagent, hacts]

/-- An operation that the table refuses traps. -/
theorem exec_btop_of_refused {a : BitVec 64} {k : TrapKind} {x : State} (hi : Issues s e (btopRegisters w)) (hagent : e.ref = none)
    (hacts : e.acts w.g = true) (hop : btopOperation e w s = (.error (a, k), x)) :
    exec (.btop w) s = .next (e.trapWith s e.grp k (if k = .bounds then 0 else accessDetail k .read) a wholeGroup false) := by
  unfold btopOperation at hop
  refine hi.exec_eq rfl ?_
  simp [hagent, hacts, hop]

/-- An operation that the table takes waits while an uncommitted launch has written one of its words, and aborts the launches that have read one. -/
theorem exec_btop_of_taken {done u : State} {d : Desc} (hi : Issues s e (btopRegisters w)) (hagent : e.ref = none) (hacts : e.acts w.g = true)
    (hop : btopOperation e w s = (.ok (), done))
    (hdesc : TableEnv.desc { core := e.core, ctx := e.ctx, view := [] } s (e.grp.readSPair w.r1.toNat) = (.ok d, u)) :
    let words := TableEnv.opWords { core := e.core, ctx := e.ctx, view := [] } u d (e.grp.readS w.r2.toNat).toNat
      (e.grp.readS w.r3.toNat).toNat (e.grp.readS (w.r3.toNat + 1)).toNat
    exec (.btop w) s = .next (if u.launches.any fun l => l.2.uncommitted && words.any (u.wroteWord l.1) then e.waitOn .ordering u
      else e.finish e.grp (done.abortReaders words)) := by
  intro words
  unfold btopOperation at hop
  refine hi.exec_eq rfl ?_
  simp only [hagent, hacts, hop, hdesc, Option.isSome_none, Bool.not_true, Bool.false_eq_true, if_false]
  rfl

-- ## tlbinv (R206, R454)

/-- The registers of a tlbinv: its record of four words, and the eight words of its mask. -/
def tlbinvRegisters (w : XWord) : Uses := xUses (recordRegs w.r1.toNat ++ (List.range 8).map fun k => w.r2.toNat + k)

/-- The cores that a tlbinv names. -/
def tlbinvMask (e : Env) (w : XWord) : BitVec 256 :=
  BitVec.ofNat 256 ((List.range 8).foldl (fun n k => n + (e.grp.readS (w.r2.toNat + k)).toNat * 2 ^ (32 * k)) 0)

/-- What a tlbinv asks of the hub. -/
def tlbinvShootdown (e : Env) (w : XWord) : Shootdown :=
  { core := e.core, start := e.grp.readSPair w.r1.toNat, len := (e.grp.readS (w.r1.toNat + 2)).toNat, cores := tlbinvMask e w }

/-- A tlbinv with Guard whose record's fourth word is not 0. -/
def TlbinvReserved (e : Env) (w : XWord) : Prop := e.acts w.g = true ∧ e.grp.readS (w.r1.toNat + 3) ≠ 0

/-- A reserved word is refused before the issuer's privilege is asked for. -/
theorem exec_tlbinv_of_reserved (hi : Issues s e (tlbinvRegisters w)) (hbad : TlbinvReserved e w) :
    exec (.tlbinv w) s = .next (e.trap s .illegal) := by
  refine hi.exec_eq rfl ?_
  rw [if_pos (by simpa [TlbinvReserved] using hbad)]

/-- Without a reserved word, the issuer and its guard decide. -/
theorem exec_tlbinv_of_not_reserved (hi : Issues s e (tlbinvRegisters w)) (hgood : ¬ TlbinvReserved e w) :
    exec (.tlbinv w) s = .next (if e.ref.isSome then e.trap s .priv else if !e.acts w.g then e.finish e.grp s
      else if tlbinvMask e w = 0 then e.finish e.grp s
      else e.waitOn .hub { s with shootdowns := s.shootdowns ++ [tlbinvShootdown e w] }) := by
  refine hi.exec_eq rfl ?_
  rw [if_neg (by simpa [TlbinvReserved] using hgood)]
  rfl

end

/-- A completed shootdown has taken its range from its cores, its dies and its regions, and lets its agent go on. -/
theorem shootdown_takes_its_range {s : State} {idx : Nat} {x : Shootdown} (hx : s.shootdowns[idx]? = some x)
    (hidle : ∀ c ∈ s.shootCores x, s.usesRange c x = false) :
    Answers (.shootdownComplete idx) s fun v => v.mem = s.mem ∧ v.shootdowns = listDrop s.shootdowns idx
      ∧ (∀ c ∈ s.shootCores x, (∀ t ∈ (v.core c).tlb, x.hits t = false) ∧ ∀ t ∈ Table.getD v.dieTlb (dieOf c) [], x.hits t = false)
      ∧ (∀ y ∈ v.teams, y.2.phase ≠ .placed ∨ y.2.core ∈ s.shootCores x → ∀ r, y.2.region = some r → ∀ a, some a ∈ r.xlat →
          pageInRange a.va.toNat a.size x.start x.len = true → a.cleared = true)
      ∧ ((s.core x.core).agent.grp.state = .waiting .hub → (v.core x.core).agent.grp = (s.core x.core).agent.grp.pastWord) := by
  refine ⟨_, exec_shootdownComplete hx hidle, rfl, rfl, fun c hc => ⟨fun t ht => ?_, fun t ht => State.dieTlb_shot idx hc ht⟩,
    fun y hy hplace r hr a ha => State.cleared_shot (idx := idx) hy hplace hr ha, fun hhub => ?_⟩
  · rw [State.tlb_modGroup_agent] at ht
    exact State.tlb_shot idx hc ht
  · simp [State.modGroup_agent, State.agent_shot, hhub]

/-- Settles O16: btop and tlbinv in the cases of their issuer, guard and operands, and the end of a shootdown. -/
theorem agentTableOperationsAndShootdowns : Obligations.AgentTableOperationsAndShootdowns := by
  intro w s e henv
  refine ⟨fun hfree => ?_, fun hfree => ?_, fun idx u x hx hidle => shootdown_takes_its_range hx hidle⟩
  · have hi : Issues s e (btopRegisters w) := ⟨henv, hfree⟩
    refine ⟨exec_btop_of_user hi, exec_btop_of_no_guard hi, fun a k x => exec_btop_of_refused hi, fun done d u hagent hacts hop hdesc => ?_⟩
    have taken := exec_btop_of_taken hi hagent hacts hop hdesc
    exact ⟨fun hblocked => taken.trans (congrArg _ (if_pos hblocked)),
      fun hfree => taken.trans (congrArg _ (if_neg (Bool.eq_false_iff.mp hfree)))⟩
  · have hi : Issues s e (tlbinvRegisters w) := ⟨henv, hfree⟩
    refine ⟨exec_tlbinv_of_reserved hi, fun hgood huser => ?_, fun hagent hacts => ?_, fun hgood hagent hacts => ?_⟩
    · rw [exec_tlbinv_of_not_reserved hi hgood, if_pos huser]
    · have hgood : ¬ TlbinvReserved e w := fun hbad => Bool.false_ne_true (hacts.symm.trans hbad.1)
      rw [exec_tlbinv_of_not_reserved hi hgood]
      simp [hagent, hacts]
    · have answer := exec_tlbinv_of_not_reserved hi hgood
      simp only [hagent, hacts, Option.isSome_none, Bool.not_true, Bool.false_eq_true, if_false] at answer
      exact ⟨fun hzero => answer.trans (congrArg _ (if_pos hzero)), fun hmask => answer.trans (congrArg _ (if_neg hmask))⟩

end Sys2Proof.Claims
end

section
/-! SUPPORT. Loads, stores and atomics behind the checks of their lanes: what the lanes that pass add to their group, and the trap of one that
fails. -/

namespace Sys2Proof.Machine

@[simp] theorem Loc.plus_zero (l : Loc) : l.plus 0 = l := by cases l <;> rfl

-- ## The accesses that lanes add to their group

/-- What each element of a list adds to a group, by a relation that composes, the whole list adds in its order. -/
theorem foldl_adds {α β : Type} {R : Group → Group → List β → Prop} (hnone : ∀ g, R g g [])
    (htrans : ∀ {g h k xs ys}, R g h xs → R h k ys → R g k (xs ++ ys)) {f : Group → α → Group} {out : α → List β}
    (hstep : ∀ g x, R g (f g x) (out x)) (l : List α) (g : Group) : R g (l.foldl f g) (l.flatMap out) := by
  induction l generalizing g with
  | nil => exact hnone g
  | cons x rest ih => exact htrans (hstep g x) (ih (f g x))

/-- The register write that a pending load will make, and the bytes that give its value. -/
def PendLoad.write (x : PendLoad) : RegDst × Option RegDst × Loc × Nat × Option (BitVec 64) × Bool :=
  (x.dst, x.pair, x.loc, x.bytes, x.known, x.acq)

/-- The bytes that a pending store will write, and its lane. -/
def PendStore.write (x : PendStore) : Nat × Bool × Loc × Nat × BitVec 64 := (x.lane, x.rel, x.loc, x.bytes, x.data)

/-- h is g with pending loads behind its own that make these writes. -/
def Group.LoadsAdded (g h : Group) (ws : List (RegDst × Option RegDst × Loc × Nat × Option (BitVec 64) × Bool)) : Prop :=
  ∃ l k, h = { g with loads := g.loads ++ l, seq := k } ∧ l.map PendLoad.write = ws

/-- h is g with pending stores behind its own that make these writes, ordered after its fences. -/
def Group.StoresAdded (g h : Group) (ws : List (Nat × Bool × Loc × Nat × BitVec 64)) : Prop :=
  ∃ l k, h = { g with stores := g.stores ++ l, seq := k } ∧ l.map PendStore.write = ws ∧ ∀ x ∈ l, x.after = g.fence

theorem Group.LoadsAdded.none (g : Group) : g.LoadsAdded g [] := ⟨[], g.seq, by simp, rfl⟩

theorem Group.LoadsAdded.one (g : Group) (x : PendLoad) : g.LoadsAdded (g.addLoad x) [x.write] := ⟨_, _, rfl, rfl⟩

theorem Group.LoadsAdded.trans {g h k : Group} {xs ys : List (RegDst × Option RegDst × Loc × Nat × Option (BitVec 64) × Bool)}
    (hx : g.LoadsAdded h xs) (hy : h.LoadsAdded k ys) : g.LoadsAdded k (xs ++ ys) := by
  obtain ⟨l, _, rfl, rfl⟩ := hx
  obtain ⟨m, n, rfl, rfl⟩ := hy
  exact ⟨l ++ m, n, by simp, by simp⟩

theorem Group.StoresAdded.none (g : Group) : g.StoresAdded g [] := ⟨[], g.seq, by simp, rfl, nofun⟩

theorem Group.StoresAdded.one (g : Group) (x : PendStore) : g.StoresAdded (g.addStore x) [x.write] := ⟨_, _, rfl, rfl, by simp⟩

theorem Group.StoresAdded.trans {g h k : Group} {xs ys : List (Nat × Bool × Loc × Nat × BitVec 64)}
    (hx : g.StoresAdded h xs) (hy : h.StoresAdded k ys) : g.StoresAdded k (xs ++ ys) := by
  obtain ⟨l, _, rfl, rfl, hl⟩ := hx
  obtain ⟨m, n, rfl, rfl, hm⟩ := hy
  exact ⟨l ++ m, n, by simp, by simp, List.forall_mem_append.mpr ⟨hl, hm⟩⟩

/-- The loads of a lane, by the width of its access. -/
theorem Env.loadsAdded_addLaneLoad (e : Env) (w : MWord) (va : Nat → Loc → Option (BitVec 64)) (g : Group) (x : Nat × Loc) :
    g.LoadsAdded (e.addLaneLoad w va g x) (Claims.pendingWrites e w.d.toNat (widthBytes w.width) (w.order == 1) [x]) := by
  unfold Env.addLaneLoad
  split
  case h_1 h16 => simpa [Claims.pendingWrites, h16, PendLoad.write] using (Group.LoadsAdded.one g _).trans (.one _ _)
  case h_2 h8 => simpa [Claims.pendingWrites, h8, PendLoad.write] using Group.LoadsAdded.one g _
  case h_3 h16 h8 =>
    have hwide : widthBytes w.width ≠ 16 ∧ widthBytes w.width ≠ 8 := ⟨h16, h8⟩
    simpa [Claims.pendingWrites, hwide, PendLoad.write] using Group.LoadsAdded.one g _

/-- The stores of a lane, by the width of its access. -/
theorem Env.storesAdded_addLaneStore (e : Env) (w : MWord) (va : Nat → BitVec 64) (g : Group) (x : Nat × Loc) :
    g.StoresAdded (e.addLaneStore w va g x) (Claims.pendingStores e w.d.toNat (widthBytes w.width) (w.order == 2) [x]) := by
  unfold Env.addLaneStore
  split
  case h_1 h16 => simpa [Claims.pendingStores, h16, PendStore.write] using (Group.StoresAdded.one g _).trans (.one _ _)
  case h_2 h8 => simpa [Claims.pendingStores, h8, PendStore.write] using Group.StoresAdded.one g _
  case h_3 h16 h8 =>
    have hwide : widthBytes w.width ≠ 16 ∧ widthBytes w.width ≠ 8 := ⟨h16, h8⟩
    simpa [Claims.pendingStores, hwide, PendStore.write] using Group.StoresAdded.one g _

/-- The lanes of a load add their pending register writes, in the lanes' order. -/
theorem Env.loadsAdded_lanes (e : Env) (w : MWord) (va : Nat → Loc → Option (BitVec 64)) (ok : List (Nat × Loc)) (g : Group) :
    g.LoadsAdded (ok.foldl (e.addLaneLoad w va) g) (Claims.pendingWrites e w.d.toNat (widthBytes w.width) (w.order == 1) ok) := by
  simpa [Claims.pendingWrites] using foldl_adds .none .trans (e.loadsAdded_addLaneLoad w va) ok g

/-- The lanes of a store add their pending stores, in the lanes' order. -/
theorem Env.storesAdded_lanes (e : Env) (w : MWord) (va : Nat → BitVec 64) (ok : List (Nat × Loc)) (g : Group) :
    g.StoresAdded (ok.foldl (e.addLaneStore w va) g) (Claims.pendingStores e w.d.toNat (widthBytes w.width) (w.order == 2) ok) := by
  simpa [Claims.pendingStores] using foldl_adds .none .trans (e.storesAdded_addLaneStore w va) ok g

-- ## The trap of a lane (R70, R151)

/-- In T form a lane's trap leaves its group as it issued. -/
theorem Env.laneTrap_of_T {e : Env} (hform : e.vform = false) (s : State) (g : Group) (f : LaneFault) (k : AccessKind) :
    e.laneTrap s g f k = e.trapWith s e.grp f.kind (accessDetail f.kind k) f.addr (BitVec.ofNat 32 f.lane) false := by
  simp only [Env.laneTrap, hform, Bool.false_eq_true, if_false]

/-- In V form an element's trap takes the group, with the effect on the elements below, to T form. -/
theorem Env.laneTrap_of_V {e : Env} (hform : e.vform = true) (s : State) (g : Group) (f : LaneFault) (k : AccessKind) :
    e.laneTrap s g f k =
      e.trapWith s (e.divergeAt s g f.lane) f.kind (accessDetail f.kind k) f.addr (BitVec.ofNat 32 f.lane) false := by
  simp only [Env.laneTrap, hform, if_true]

/-- A load with a lane that fails is the trap of that lane. -/
theorem Env.loadLanes_of_fault (e : Env) (w : MWord) (va : Nat → BitVec 64) (ok : List (Nat × Loc)) (f : LaneFault) (t : State) :
    e.loadLanes w va (ok, some f, t) = e.laneTrap t (ok.foldl (e.addLaneLoad w fun l loc => loc.virtualAt (va l)) e.grp) f .read := rfl

/-- So is a store, which in V form must have room in the shadow for the elements below (R257). -/
theorem Env.storeLanes_of_fault {e : Env} {ok : List (Nat × Loc)} {t : State} (hroom : e.vform = true → e.firstFull t ok = none)
    (w : MWord) (va : Nat → BitVec 64) (f : LaneFault) :
    e.storeLanes w va (ok, some f, t) = e.laneTrap t (ok.foldl (e.addLaneStore w va) e.grp) f .write := by
  have hfull : e.fullLane t ok (some f) = none := by
    cases hform : e.vform with
    | false => simp [Env.fullLane, hform]
    | true => simp [Env.fullLane, hform, hroom hform]
  simp only [Env.storeLanes, hfull]

/-- In T form so is an atomic. -/
theorem Env.atomic_of_fault {e : Env} (hform : e.vform = false) (d : BitVec 8) (n : Nat) (rel acq : Option Nat) (r : Nat → Nat → Option Nat)
    (va : Nat → BitVec 64) (ok : List (Nat × Loc)) (f : LaneFault) (t : State) :
    e.atomic d n rel acq r va (ok, some f, t) = e.laneTrap t e.grp f .atomic := by
  simp only [Env.atomic, hform, Option.isSome_some, Bool.not_false, Bool.and_self, if_true]

end Sys2Proof.Machine

namespace Sys2Proof.Claims

open Sys2Proof.Machine

/-- A memory instruction that issues, of a group that awaits no acquire, answers its body's state (R221). -/
theorem Issues.exec_ordered {s t : State} {e : Env} {u : Uses} {i : Instr} {body : Env → State} (hi : Issues s e u)
    (hacquiring : e.grp.acquiring = false) (hexec : exec i s = native u s fun e => e.ordered s (body e)) (hbody : body e = t) :
    exec i s = .next t :=
  hi.exec_eq hexec ((Env.ordered_of_no_acquire hacquiring s _).trans hbody)

section

variable {w : MWord} {s t : State} {e : Env} {ok : List (Nat × Loc)} {f : LaneFault}

/-- A lane's trap in T form is that of the statement. -/
theorem laneTrapped_of_laneTrap {i : Instr} {g : Group} {k : AccessKind} (hform : e.vform = false)
    (hexec : exec i s = .next (e.laneTrap t g f k)) : LaneTrapped i s e k f t :=
  hexec.trans (congrArg _ (Env.laneTrap_of_T hform t g f k))

/-- An element's trap in V form is that of the statement. -/
theorem elementTrapped_of_laneTrap {i : Instr} {g : Group} {k : AccessKind} {below : Group → Prop} (hform : e.vform = true)
    (hexec : exec i s = .next (e.laneTrap t g f k)) (hbelow : below g) : ElementTrapped i s e k f t below :=
  ⟨g, hbelow, hexec.trans (congrArg _ (Env.laneTrap_of_V hform t g f k))⟩

section

variable (hi : Issues s e (memUses w (dataRegs w.d.toNat (widthBytes w.width)) [])) (hacquiring : e.grp.acquiring = false)

include hi hacquiring

/-- A ld with a failing lane is the trap of that lane, with the loads of the lanes below in its group. -/
theorem exec_ld_of_fault (hfault : virtualLanes e w.g (widthBytes w.width) .read (e.memAddr w) s = (ok, some f, t)) :
    exec (.ld w) s =
      .next (e.laneTrap t (ok.foldl (e.addLaneLoad w fun l loc => loc.virtualAt (e.memAddr w l)) e.grp) f .read) :=
  hi.exec_ordered hacquiring rfl ((congrArg _ hfault).trans (e.loadLanes_of_fault w (e.memAddr w) ok f t))

/-- So is a lds, whose lanes are checked against the range of their team (R201). -/
theorem exec_lds_of_fault (hfault : teamLanes e w.g (widthBytes w.width) (e.memAddr w) s = (ok, some f, t)) :
    exec (.lds w) s =
      .next (e.laneTrap t (ok.foldl (e.addLaneLoad w fun l loc => loc.virtualAt (e.memAddr w l)) e.grp) f .read) :=
  hi.exec_ordered hacquiring rfl ((congrArg _ hfault).trans (e.loadLanes_of_fault w (e.memAddr w) ok f t))

/-- A st with a failing lane is the trap of that lane, with the stores of the lanes below in its group. -/
theorem exec_st_of_fault (hfault : virtualLanes e w.g (widthBytes w.width) .write (e.memAddr w) s = (ok, some f, t))
    (hroom : e.vform = true → e.firstFull t ok = none) :
    exec (.st w) s = .next (e.laneTrap t (ok.foldl (e.addLaneStore w (e.memAddr w)) e.grp) f .write) :=
  hi.exec_ordered hacquiring rfl ((congrArg _ hfault).trans (Env.storeLanes_of_fault hroom w (e.memAddr w) f))

/-- So is a sts, by the range of its team. -/
theorem exec_sts_of_fault (hfault : teamLanes e w.g (widthBytes w.width) (e.memAddr w) s = (ok, some f, t))
    (hroom : e.vform = true → e.firstFull t ok = none) :
    exec (.sts w) s = .next (e.laneTrap t (ok.foldl (e.addLaneStore w (e.memAddr w)) e.grp) f .write) :=
  hi.exec_ordered hacquiring rfl ((congrArg _ hfault).trans (Env.storeLanes_of_fault hroom w (e.memAddr w) f))

end

section

variable (hi : Issues s e (atomUses w (dataRegs w.data.toNat (widthBytes w.width)))) (hacquiring : e.grp.acquiring = false)
  (hform : e.vform = false)

include hi hacquiring hform

/-- An atom with a failing lane has performed in no lane. -/
theorem exec_atom_of_fault (hfault : virtualLanes e w.g (widthBytes w.width) .atomic (e.atomAddr w) s = (ok, some f, t)) :
    exec (.atom w) s = .next (e.laneTrap t e.grp f .atomic) :=
  hi.exec_ordered hacquiring rfl ((congrArg _ hfault).trans (Env.atomic_of_fault hform ..))

/-- Nor has an atoms. -/
theorem exec_atoms_of_fault (hfault : teamLanes e w.g (widthBytes w.width) (e.atomAddr w) s = (ok, some f, t)) :
    exec (.atoms w) s = .next (e.laneTrap t e.grp f .atomic) :=
  hi.exec_ordered hacquiring rfl ((congrArg _ hfault).trans (Env.atomic_of_fault hform ..))

end

end

/-- Settles O7: each access with a failing lane is that lane's trap, which in T form drops what the lanes below have added to the group, and in V
form keeps it: their pending register writes or stores. -/
theorem failingLaneTrapsWithoutEffect : Obligations.FailingLaneTrapsWithoutEffect := by
  intro w s e ok f t henv hacquiring
  refine ⟨fun hform => ⟨fun hfree => ?_, fun hfree => ?_⟩, fun hform hfree => ?_⟩
  · have hi : Issues s e _ := ⟨henv, hfree⟩
    have hroom : e.vform = true → e.firstFull t ok = none := fun h => absurd (hform.symm.trans h) Bool.false_ne_true
    exact ⟨fun hfault => laneTrapped_of_laneTrap hform (exec_ld_of_fault hi hacquiring hfault),
      fun hfault => laneTrapped_of_laneTrap hform (exec_st_of_fault hi hacquiring hfault hroom),
      fun hfault => ⟨laneTrapped_of_laneTrap hform (exec_lds_of_fault hi hacquiring hfault),
        laneTrapped_of_laneTrap hform (exec_sts_of_fault hi hacquiring hfault hroom)⟩⟩
  · have hi : Issues s e _ := ⟨henv, hfree⟩
    exact ⟨fun hfault => laneTrapped_of_laneTrap hform (exec_atom_of_fault hi hacquiring hform hfault),
      fun hfault => laneTrapped_of_laneTrap hform (exec_atoms_of_fault hi hacquiring hform hfault)⟩
  · have hi : Issues s e _ := ⟨henv, hfree⟩
    refine ⟨fun hfault => elementTrapped_of_laneTrap hform (exec_ld_of_fault hi hacquiring hfault) (e.loadsAdded_lanes w _ ok e.grp),
      fun hfault hroom => elementTrapped_of_laneTrap hform (exec_st_of_fault hi hacquiring hfault fun _ => hroom) ?_⟩
    obtain ⟨l, k, hgroup, hwrites, -⟩ := e.storesAdded_lanes w (e.memAddr w) ok e.grp
    exact ⟨l, k, hgroup, hwrites⟩

end Sys2Proof.Claims
end

section
/-! SUPPORT. The integer operations in the arithmetic of N bits: an operand read as its type, a result wrapped and extended, and what each
operation computes of the low N bits of its operands. -/

namespace Sys2Proof.Machine

-- ## Bits and integers of N bits

theorem lowNat_eq_toNat (n : Nat) (v : BitVec 64) : lowNat n v = (v.setWidth n).toNat := (v.toNat_setWidth n).symm

theorem signedOf_toNat {n : Nat} (x : BitVec n) : signedOf n x.toNat = x.toInt := by
  cases n with
  | zero => rw [BitVec.of_length_zero (x := x)]; rfl
  | succ n => simp only [signedOf, BitVec.toInt_eq_toNat_cond, Nat.add_sub_cancel, Nat.pow_succ', Nat.mul_lt_mul_left Nat.two_pos]

theorem signExt_eq_signExtend (n : Nat) (v : BitVec 64) : signExt n v = (v.setWidth n).signExtend 64 := by
  rw [signExt, lowNat_eq_toNat, signedOf_toNat, ofInt64, BitVec.signExtend]

theorem zeroExt_eq_setWidth (n : Nat) (v : BitVec 64) : zeroExt n v = (v.setWidth n).setWidth 64 := by
  rw [zeroExt, lowNat_eq_toNat, BitVec.ofNat_toNat]

theorem ofInt_toInt_of_le {m n : Nat} (h : n ≤ m) (v : BitVec m) : BitVec.ofInt n v.toInt = v.setWidth n :=
  v.signExtend_eq_setWidth_of_le h

theorem setWidth_ofInt_of_le {m n : Nat} (h : n ≤ m) (i : Int) : (BitVec.ofInt m i).setWidth n = BitVec.ofInt n i := by
  rw [← ofInt_toInt_of_le h]
  apply BitVec.eq_of_toInt_eq
  rw [BitVec.toInt_ofInt, BitVec.toInt_ofInt, BitVec.toInt_ofInt, Int.bmod_bmod_of_dvd (Nat.pow_dvd_pow 2 h)]

-- ## The operands of a type, and the bits of a result

theorem intWidth_pos (ty : Nat) : 0 < intWidth ty := by
  unfold intWidth
  split <;> decide

theorem intWidth_le (ty : Nat) : intWidth ty ≤ 64 := by
  unfold intWidth
  split <;> decide

theorem intSigned_eq_true {ty : Nat} : intSigned ty = true ↔ ty % 2 = 0 := beq_iff_eq

/-- The low N bits of an operand. -/
def AluIn.bits (a : AluIn) (v : BitVec 64) : BitVec (intWidth a.ty) := v.setWidth (intWidth a.ty)

/-- A result is v, extended by its sign in a signed type and by zeros in an unsigned one (R162). -/
def AluIn.HasBits (a : AluIn) (o : AluOut) (v : BitVec (intWidth a.ty)) : Prop :=
  o.d = if a.ty % 2 = 0 then v.signExtend 64 else v.setWidth 64

variable {a : AluIn}

@[simp] theorem AluIn.nat_eq_toNat (v : BitVec 64) : a.nat v = (a.bits v).toNat := lowNat_eq_toNat ..

theorem AluIn.int_of_signed (h : a.ty % 2 = 0) (v : BitVec 64) : a.int v = (a.bits v).toInt := by
  simp only [AluIn.int, intSigned_eq_true.mpr h, if_true, lowNat_eq_toNat, signedOf_toNat, AluIn.bits]

theorem AluIn.int_of_unsigned (h : ¬a.ty % 2 = 0) (v : BitVec 64) : a.int v = (a.bits v).toNat := by
  simp only [AluIn.int, intSigned_eq_true, h, if_false, lowNat_eq_toNat, AluIn.bits]

@[simp] theorem AluIn.ofInt_int (v : BitVec 64) : BitVec.ofInt (intWidth a.ty) (a.int v) = a.bits v := by
  by_cases h : a.ty % 2 = 0
  · rw [AluIn.int_of_signed h, BitVec.ofInt_toInt]
  · rw [AluIn.int_of_unsigned h, BitVec.ofInt_natCast, BitVec.ofNat_toNat, BitVec.setWidth_eq]

theorem AluIn.int_eq_zero {v : BitVec 64} : a.int v = 0 ↔ a.bits v = 0 := by
  by_cases h : a.ty % 2 = 0
  · rw [AluIn.int_of_signed h, ← BitVec.toInt_inj, BitVec.ofNat_eq_ofNat, BitVec.toInt_zero]
  · rw [AluIn.int_of_unsigned h, ← BitVec.toNat_inj, BitVec.ofNat_eq_ofNat, BitVec.toNat_zero, Int.natCast_eq_zero]

/-- A wrapped result is its low N bits, extended. -/
theorem AluIn.hasBits_wrap {r : Int} {v : BitVec (intWidth a.ty)} (h : BitVec.ofInt _ r = v) : a.HasBits (a.wrap r) v := by
  subst h
  simp only [AluIn.HasBits, AluIn.wrap, AluOut.of, intSigned_eq_true, signExt_eq_signExtend, zeroExt_eq_setWidth, ofInt64,
    setWidth_ofInt_of_le (intWidth_le a.ty)]

theorem AluIn.hasBits_fit (hsat : a.sat = false) {r : Int} {v : BitVec (intWidth a.ty)} (h : BitVec.ofInt _ r = v) :
    a.HasBits (a.fit r) v := by
  rw [AluIn.fit, hsat]
  exact AluIn.hasBits_wrap h

theorem hasBits_bitOut (v : BitVec 64) : a.HasBits (bitOut a v) (a.bits v) :=
  AluIn.hasBits_wrap (ofInt_toInt_of_le (intWidth_le a.ty) v)

/-- An extended result keeps its low N bits. -/
theorem AluIn.HasBits.setWidth_eq {o : AluOut} {v : BitVec (intWidth a.ty)} (h : a.HasBits o v) : o.d.setWidth (intWidth a.ty) = v := by
  rw [h]
  split
  · rw [BitVec.signExtend, setWidth_ofInt_of_le (intWidth_le a.ty), BitVec.ofInt_toInt]
  · rw [BitVec.setWidth_setWidth_of_le _ (intWidth_le a.ty), BitVec.setWidth_eq]

-- ## Sums and products

theorem hasBits_subOp (hsat : a.sat = false) : a.HasBits (subOp a) (a.bits a.x - a.bits a.y) :=
  AluIn.hasBits_fit hsat (by rw [Int.sub_eq_add_neg, BitVec.ofInt_add, BitVec.ofInt_neg, a.ofInt_int, a.ofInt_int, BitVec.sub_eq_add_neg])

theorem hasBits_mulOp (hsat : a.sat = false) : a.HasBits (mulOp a) (a.bits a.x * a.bits a.y) :=
  AluIn.hasBits_fit hsat (by rw [BitVec.ofInt_mul, a.ofInt_int, a.ofInt_int])

theorem hasBits_madOp (hsat : a.sat = false) : a.HasBits (madOp a) (a.bits a.x * a.bits a.y + a.bits a.z) :=
  AluIn.hasBits_fit hsat (by rw [BitVec.ofInt_add, BitVec.ofInt_mul, a.ofInt_int, a.ofInt_int, a.ofInt_int])

theorem hasBits_mulhOp_of_unsigned (h : ¬a.ty % 2 = 0) :
    a.HasBits (mulhOp a) (BitVec.ofNat _ ((a.bits a.x).toNat * (a.bits a.y).toNat / 2 ^ intWidth a.ty)) :=
  AluIn.hasBits_wrap (by rw [a.int_of_unsigned h, a.int_of_unsigned h, ← Int.natCast_mul, ← Int.natCast_ediv, BitVec.ofInt_natCast])

theorem hasBits_mulhOp_of_signed (h : a.ty % 2 = 0) :
    a.HasBits (mulhOp a) (BitVec.ofInt _ ((a.bits a.x).toInt * (a.bits a.y).toInt / (2 ^ intWidth a.ty : Nat))) :=
  AluIn.hasBits_wrap (by rw [a.int_of_signed h, a.int_of_signed h])

-- ## Bitwise operations

theorem AluIn.bits_not (v : BitVec 64) : a.bits (~~~v) = ~~~a.bits v := BitVec.setWidth_not (intWidth_le a.ty)

theorem AluIn.bits_and (v w : BitVec 64) : a.bits (v &&& w) = a.bits v &&& a.bits w := BitVec.setWidth_and

theorem AluIn.bits_or (v w : BitVec 64) : a.bits (v ||| w) = a.bits v ||| a.bits w := BitVec.setWidth_or

theorem AluIn.bits_xor (v w : BitVec 64) : a.bits (v ^^^ w) = a.bits v ^^^ a.bits w := BitVec.setWidth_xor

theorem hasBits_notOp : a.HasBits (notOp a) (~~~a.bits a.x) := a.bits_not _ ▸ hasBits_bitOut (~~~a.x)

theorem hasBits_andOp : a.HasBits (andOp a) (a.bits a.x &&& a.bits a.y) := a.bits_and .. ▸ hasBits_bitOut (a.x &&& a.y)

theorem hasBits_andnOp : a.HasBits (andnOp a) (a.bits a.x &&& ~~~a.bits a.y) := by
  rw [← a.bits_not, ← a.bits_and]
  exact hasBits_bitOut (a.x &&& ~~~a.y)

theorem hasBits_orOp : a.HasBits (orOp a) (a.bits a.x ||| a.bits a.y) := a.bits_or .. ▸ hasBits_bitOut (a.x ||| a.y)

theorem hasBits_xorOp : a.HasBits (xorOp a) (a.bits a.x ^^^ a.bits a.y) := a.bits_xor .. ▸ hasBits_bitOut (a.x ^^^ a.y)

-- ## Shifts

theorem ofNat_mul_two_pow {n : Nat} (x : BitVec n) (k : Nat) : BitVec.ofNat n (x.toNat * 2 ^ k) = x <<< k := by
  apply BitVec.eq_of_toNat_eq
  rw [BitVec.toNat_ofNat, BitVec.toNat_shiftLeft, Nat.shiftLeft_eq]

theorem ofNat_div_two_pow {n : Nat} (x : BitVec n) (k : Nat) : BitVec.ofNat n (x.toNat / 2 ^ k) = x >>> k := by
  rw [← Nat.shiftRight_eq_div_pow, ← BitVec.toNat_ushiftRight, BitVec.ofNat_toNat, BitVec.setWidth_eq]

/-- An amount of the full width or more leaves copies of the sign. -/
theorem sshiftRight_of_le {n k : Nat} (x : BitVec n) (h : n ≤ k) : x.sshiftRight k = BitVec.ofInt n (if x.toInt < 0 then -1 else 0) := by
  have hsign : x.msb = decide (x.toInt < 0) := BitVec.msb_eq_toInt
  apply BitVec.eq_of_getLsbD_eq
  intro i hi
  rw [BitVec.getLsbD_sshiftRight, if_neg (by omega : ¬k + i < n), hsign]
  split
  case isTrue hneg =>
    rw [BitVec.ofInt_neg, BitVec.ofInt_ofNat, BitVec.neg_one_eq_allOnes, BitVec.getLsbD_allOnes, decide_eq_true hneg,
      decide_eq_true hi, decide_eq_false (Nat.not_le.mpr hi), Bool.not_false, Bool.and_true]
  case isFalse hneg => rw [decide_eq_false hneg, Bool.and_false, BitVec.ofInt_ofNat, BitVec.getLsbD_zero]

/-- The two parts of a rotation share no bit. -/
theorem rotateLeft_eq_add {n k : Nat} (x : BitVec n) (h : k < n) : x.rotateLeft k = x <<< k + x >>> (n - k) := by
  rw [BitVec.rotateLeft_def, Nat.mod_eq_of_lt h, BitVec.add_eq_or_of_and_eq_zero]
  apply BitVec.eq_of_getLsbD_eq
  intro i hi
  rw [BitVec.getLsbD_and, BitVec.getLsbD_shiftLeft, BitVec.getLsbD_ushiftRight, BitVec.getLsbD_zero]
  by_cases hik : i < k
  · rw [decide_eq_true hik, Bool.not_true, Bool.and_false, Bool.false_and, Bool.false_and]
  · rw [BitVec.getLsbD_of_ge x (n - k + i) (by omega), Bool.and_false]

theorem hasBits_shlOp : a.HasBits (shlOp a) (a.bits a.x <<< (a.bits a.y).toNat) := by
  refine AluIn.hasBits_wrap ?_
  rw [a.nat_eq_toNat, a.nat_eq_toNat]
  split
  case isTrue hall => rw [BitVec.shiftLeft_eq_zero hall, BitVec.ofInt_ofNat]
  case isFalse => rw [BitVec.ofInt_natCast, ofNat_mul_two_pow]

theorem hasBits_shrOp : a.HasBits (shrOp a) (a.bits a.x >>> (a.bits a.y).toNat) := by
  refine AluIn.hasBits_wrap ?_
  rw [a.nat_eq_toNat, a.nat_eq_toNat]
  split
  case isTrue hall => rw [BitVec.ushiftRight_eq_zero hall, BitVec.ofInt_ofNat]
  case isFalse => rw [BitVec.ofInt_natCast, ofNat_div_two_pow]

theorem hasBits_sarOp : a.HasBits (sarOp a) ((a.bits a.x).sshiftRight (a.bits a.y).toNat) := by
  refine AluIn.hasBits_wrap ?_
  rw [a.nat_eq_toNat, a.nat_eq_toNat, signedOf_toNat]
  split
  case isTrue hall => rw [sshiftRight_of_le _ hall]
  case isFalse => rw [BitVec.sshiftRight_eq, Int.shiftRight_eq_div_pow]

theorem hasBits_rotOp : a.HasBits (rotOp a) ((a.bits a.x).rotateLeft ((a.bits a.y).toNat % intWidth a.ty)) := by
  refine AluIn.hasBits_wrap ?_
  rw [a.nat_eq_toNat, a.nat_eq_toNat, rotateLeft_eq_add _ (Nat.mod_lt _ (intWidth_pos a.ty)), BitVec.ofInt_natCast, BitVec.ofNat_add,
    ← BitVec.toNat_ofNat, BitVec.ofNat_toNat, BitVec.setWidth_eq, ofNat_mul_two_pow, ofNat_div_two_pow]

-- ## The less and the greater of two operands

/-- In either order, operands that neither precedes the other are equal, so that both choices of min and max agree. -/
theorem AluIn.bits_eq_of_not_lt {v w : BitVec 64} (h : ¬a.int v < a.int w) (h' : ¬a.int w < a.int v) : a.bits v = a.bits w := by
  rw [← a.ofInt_int, ← a.ofInt_int, Int.le_antisymm (Int.not_lt.mp h') (Int.not_lt.mp h)]

theorem hasBits_minOp {lt : Bool} (hlt : lt = true ↔ a.int a.x < a.int a.y) :
    a.HasBits (minOp a) (if lt then a.bits a.x else a.bits a.y) := by
  refine AluIn.hasBits_wrap ?_
  rw [apply_ite (BitVec.ofInt _), a.ofInt_int, a.ofInt_int]
  by_cases hxy : a.int a.x < a.int a.y
  · rw [if_neg (Int.lt_asymm hxy), if_pos (hlt.mpr hxy)]
  · rw [if_neg (mt hlt.mp hxy), ite_eq_left_iff]
    exact a.bits_eq_of_not_lt hxy

theorem hasBits_maxOp {lt : Bool} (hlt : lt = true ↔ a.int a.x < a.int a.y) :
    a.HasBits (maxOp a) (if lt then a.bits a.y else a.bits a.x) := by
  refine AluIn.hasBits_wrap ?_
  rw [apply_ite (BitVec.ofInt _), a.ofInt_int, a.ofInt_int]
  by_cases hxy : a.int a.x < a.int a.y
  · rw [if_pos hxy, if_pos (hlt.mpr hxy)]
  · rw [if_neg hxy, if_neg (mt hlt.mp hxy)]

theorem AluIn.ult_iff_int_lt (h : ¬a.ty % 2 = 0) (v w : BitVec 64) : (a.bits v).ult (a.bits w) = true ↔ a.int v < a.int w := by
  rw [a.int_of_unsigned h, a.int_of_unsigned h, BitVec.ult_iff_toNat_lt, Int.ofNat_lt]

theorem AluIn.slt_iff_int_lt (h : a.ty % 2 = 0) (v w : BitVec 64) : (a.bits v).slt (a.bits w) = true ↔ a.int v < a.int w := by
  rw [a.int_of_signed h, a.int_of_signed h, BitVec.slt_iff_toInt_lt]

-- ## Quotients and remainders

theorem ofInt_tdiv {n : Nat} (x y : BitVec n) : BitVec.ofInt n (x.toInt.tdiv y.toInt) = x.sdiv y :=
  BitVec.eq_of_toInt_eq (by rw [BitVec.toInt_ofInt, BitVec.toInt_sdiv])

theorem ofInt_tmod {n : Nat} (x y : BitVec n) : BitVec.ofInt n (x.toInt.tmod y.toInt) = x.srem y := by
  rw [← BitVec.toInt_srem, BitVec.ofInt_toInt]

theorem ofInt_two_pow_sub_one (n : Nat) : BitVec.ofInt n ((2 ^ n : Nat) - 1) = BitVec.allOnes n := by
  rw [← Int.natCast_one, ← Int.natCast_sub Nat.one_le_two_pow, BitVec.ofInt_natCast, ← BitVec.toNat_allOnes, BitVec.ofNat_toNat, BitVec.setWidth_eq]

/-- The limit of a signed type in the direction of x (R380). -/
theorem ofInt_limit {n : Nat} (x : BitVec n) :
    BitVec.ofInt n (if 0 ≤ x.toInt then (2 ^ (n - 1) : Nat) - 1 else -((2 ^ (n - 1) : Nat) : Int))
      = if x.slt 0 then BitVec.intMin n else BitVec.intMax n := by
  by_cases hx : 0 ≤ x.toInt
  · have hslt : ¬x.slt 0 = true := by rwa [BitVec.slt_iff_toInt_lt, BitVec.ofNat_eq_ofNat, BitVec.toInt_zero, Int.not_lt]
    rw [if_pos hx, if_neg hslt, ← BitVec.ofInt_toInt (x := BitVec.intMax n), BitVec.toInt_intMax, Int.natCast_pow, Int.cast_ofNat_Int]
  · have hslt : x.slt 0 = true := by rwa [BitVec.slt_iff_toInt_lt, BitVec.ofNat_eq_ofNat, BitVec.toInt_zero, ← Int.not_le]
    rw [if_neg hx, if_pos hslt, BitVec.intMin_eq_neg_two_pow, Int.natCast_pow, Int.cast_ofNat_Int]

theorem hasBits_diviOp_of_unsigned (hsat : a.sat = false) (h : ¬a.ty % 2 = 0) :
    a.HasBits (diviOp a) (if a.bits a.y = 0 then BitVec.allOnes _ else a.bits a.x / a.bits a.y) := by
  simp only [diviOp, AluIn.int_eq_zero]
  split
  case isTrue => exact AluIn.hasBits_wrap (by rw [if_neg (mt intSigned_eq_true.mp h), ofInt_two_pow_sub_one])
  case isFalse =>
    exact AluIn.hasBits_fit hsat (by
      rw [a.int_of_unsigned h, a.int_of_unsigned h, ← Int.ofNat_tdiv, BitVec.ofInt_natCast, BitVec.udiv_def])

theorem hasBits_diviOp_of_signed (hsat : a.sat = false) (h : a.ty % 2 = 0) :
    a.HasBits (diviOp a) (if a.bits a.y = 0 then (if (a.bits a.x).slt 0 then BitVec.intMin _ else BitVec.intMax _)
      else (a.bits a.x).sdiv (a.bits a.y)) := by
  simp only [diviOp, AluIn.int_eq_zero]
  split
  case isTrue => exact AluIn.hasBits_wrap (by rw [if_pos (intSigned_eq_true.mpr h), a.int_of_signed h, ofInt_limit])
  case isFalse => exact AluIn.hasBits_fit hsat (by rw [a.int_of_signed h, a.int_of_signed h, ofInt_tdiv])

/-- The remainder by zero is x, and otherwise that of the quotient, in either reading of the operands. -/
theorem hasBits_remiOp {v : BitVec (intWidth a.ty)} (hv : BitVec.ofInt _ ((a.int a.x).tmod (a.int a.y)) = v) :
    a.HasBits (remiOp a) (if a.bits a.y = 0 then a.bits a.x else v) := by
  simp only [remiOp, AluIn.int_eq_zero]
  split
  case isTrue => exact AluIn.hasBits_wrap (a.ofInt_int a.x)
  case isFalse => exact AluIn.hasBits_wrap hv

theorem hasBits_remiOp_of_unsigned (h : ¬a.ty % 2 = 0) :
    a.HasBits (remiOp a) (if a.bits a.y = 0 then a.bits a.x else a.bits a.x % a.bits a.y) :=
  hasBits_remiOp (by rw [a.int_of_unsigned h, a.int_of_unsigned h, ← Int.ofNat_tmod, BitVec.ofInt_natCast, BitVec.umod_def])

theorem hasBits_remiOp_of_signed (h : a.ty % 2 = 0) :
    a.HasBits (remiOp a) (if a.bits a.y = 0 then a.bits a.x else (a.bits a.x).srem (a.bits a.y)) :=
  hasBits_remiOp (by rw [a.int_of_signed h, a.int_of_signed h, ofInt_tmod])

-- ## Counts and the reversal of bits

theorem toNat_clzAuxRec {n m : Nat} (x : BitVec n) (h : m < n) :
    (x.clzAuxRec m).toNat = n - 1 - m + leadingZeros (m + 1) x.toNat := by
  induction m with
  | zero =>
    have hn : n < 2 ^ n := Nat.lt_two_pow_self
    rw [BitVec.clzAuxRec_zero, leadingZeros, leadingZeros, BitVec.testBit_toNat]
    split <;> rw [BitVec.toNat_ofNat, Nat.mod_eq_of_lt (by omega)] <;> omega
  | succ m ih =>
    have hn : n < 2 ^ n := Nat.lt_two_pow_self
    rw [BitVec.clzAuxRec_succ, leadingZeros, BitVec.testBit_toNat]
    split
    · rw [BitVec.toNat_ofNat, Nat.mod_eq_of_lt (by omega)]
      rfl
    · rw [ih (by omega)]
      omega

theorem leadingZeros_eq_clz {n : Nat} (x : BitVec n) (h : 0 < n) : leadingZeros n x.toNat = x.clz.toNat := by
  rw [BitVec.clz, toNat_clzAuxRec x (by omega), Nat.sub_self, Nat.zero_add, Nat.sub_add_cancel h]

theorem popcount_succ (n x : Nat) : popcount (n + 1) x = popcount n x + (x.testBit n).toNat := by
  rw [popcount, List.range_succ, List.filter_append, List.length_append, popcount]
  cases h : x.testBit n with
  | true => rw [List.filter_cons_of_pos h]; rfl
  | false => rw [List.filter_cons_of_neg (ne_true_of_eq_false h)]; rfl

theorem cpopNatRec_eq_popcount {n : Nat} (x : BitVec n) (m acc : Nat) : x.cpopNatRec m acc = acc + popcount m x.toNat := by
  induction m generalizing acc with
  | zero => rfl
  | succ m ih => rw [BitVec.cpopNatRec_succ, ih, popcount_succ, BitVec.testBit_toNat, Nat.add_assoc, Nat.add_comm (popcount ..)]

theorem popcount_eq_cpop {n : Nat} (x : BitVec n) : popcount n x.toNat = x.cpop.toNat := by
  rw [BitVec.toNat_cpop, cpopNatRec_eq_popcount, Nat.zero_add]

/-- The low m bits of an n-bit number, each at its reversed place: what bitReverse has gathered after m bits. -/
def reversedBits (n x m : Nat) : Nat := (List.range m).foldl (fun acc k => if x.testBit k then acc + 2 ^ (n - 1 - k) else acc) 0

theorem reversedBits_succ (n x m : Nat) :
    reversedBits n x (m + 1) = if x.testBit m then reversedBits n x m + 2 ^ (n - 1 - m) else reversedBits n x m := by
  rw [reversedBits, List.range_succ, List.foldl_append, List.foldl_cons, List.foldl_nil, ← reversedBits]

theorem bitReverse_eq_reversedBits (n x : Nat) : bitReverse n x = reversedBits n x n := rfl

/-- Adding a bit that is not set sets it. -/
theorem ofNat_add_two_pow {n k x : Nat} (h : (BitVec.ofNat n x).getLsbD k = false) :
    BitVec.ofNat n (x + 2 ^ k) = BitVec.ofNat n x ||| BitVec.twoPow n k := by
  have hpow : BitVec.ofNat n (2 ^ k) = BitVec.twoPow n k := BitVec.eq_of_toNat_eq (by rw [BitVec.toNat_ofNat, BitVec.toNat_twoPow])
  rw [BitVec.ofNat_add, hpow, BitVec.add_eq_or_of_and_eq_zero]
  rw [BitVec.and_twoPow, h, if_neg Bool.false_ne_true]

theorem getLsbD_reversedBits {n m j : Nat} (x : Nat) (hm : m ≤ n) (hj : j < n) :
    (BitVec.ofNat n (reversedBits n x m)).getLsbD j = (decide (n - m ≤ j) && x.testBit (n - 1 - j)) := by
  induction m generalizing j with
  | zero =>
    rw [reversedBits, List.range_zero, List.foldl_nil, decide_eq_false (by omega : ¬n - 0 ≤ j), Bool.false_and, BitVec.getLsbD_zero]
  | succ m ih =>
    have hfree : (BitVec.ofNat n (reversedBits n x m)).getLsbD (n - 1 - m) = false := by
      rw [ih (by omega) (by omega), decide_eq_false (by omega), Bool.false_and]
    rw [reversedBits_succ]
    by_cases hplace : j = n - 1 - m
    · subst hplace
      rw [decide_eq_true (by omega), Bool.true_and, show n - 1 - (n - 1 - m) = m by omega]
      split
      case isTrue hset => rw [ofNat_add_two_pow hfree, BitVec.getLsbD_or, hfree, BitVec.getLsbD_twoPow, hset, decide_eq_true hj, decide_eq_true rfl]; rfl
      case isFalse hclear => rw [hfree, eq_false_of_ne_true hclear]
    · have hsame : n - (m + 1) ≤ j ↔ n - m ≤ j := by omega
      rw [decide_eq_decide.mpr hsame, ← ih (by omega) hj]
      split
      case isTrue =>
        rw [ofNat_add_two_pow hfree, BitVec.getLsbD_or, BitVec.getLsbD_twoPow, decide_eq_false (Ne.symm hplace), Bool.and_false,
          Bool.or_false]
      case isFalse => rfl

theorem ofNat_bitReverse {n : Nat} (x : BitVec n) : BitVec.ofNat n (bitReverse n x.toNat) = x.reverse := by
  apply BitVec.eq_of_getLsbD_eq
  intro j hj
  calc (BitVec.ofNat n (bitReverse n x.toNat)).getLsbD j
    _ = (BitVec.ofNat n (reversedBits n x.toNat n)).getLsbD j := by rw [bitReverse_eq_reversedBits]
    _ = (decide (n - n ≤ j) && x.toNat.testBit (n - 1 - j)) := getLsbD_reversedBits x.toNat (Nat.le_refl n) hj
    _ = x.reverse.getLsbD j := by
        rw [BitVec.getLsbD_reverse, BitVec.getMsbD_eq_getLsbD, Nat.sub_self, decide_eq_true (Nat.zero_le j), decide_eq_true hj,
          BitVec.testBit_toNat]

theorem hasBits_brevOp : a.HasBits (brevOp a) (a.bits a.x).reverse :=
  AluIn.hasBits_wrap (by rw [a.nat_eq_toNat, BitVec.ofInt_natCast, ofNat_bitReverse])

theorem clzOp_d : (clzOp a).d = BitVec.ofNat 64 (a.bits a.x).clz.toNat := by
  rw [clzOp, a.nat_eq_toNat, leadingZeros_eq_clz _ (intWidth_pos a.ty), countOut, AluOut.of]

theorem popcOp_d : (popcOp a).d = BitVec.ofNat 64 (a.bits a.x).cpop.toNat := by
  rw [popcOp, a.nat_eq_toNat, popcount_eq_cpop, countOut, AluOut.of]

theorem brevOp_getLsbD {k : Nat} (h : k < intWidth a.ty) :
    ((brevOp a).d.setWidth (intWidth a.ty)).getLsbD k = (a.bits a.x).getLsbD (intWidth a.ty - 1 - k) := by
  rw [hasBits_brevOp.setWidth_eq, BitVec.getLsbD_reverse, BitVec.getMsbD_eq_getLsbD, decide_eq_true h, Bool.true_and]

end Sys2Proof.Machine

namespace Sys2Proof.Claims

open Sys2Proof.Machine

/-- Settles O53: the low N bits of each operation's exact result are those that the operation on BitVec N gives, and the result is
their extension. -/
theorem integerOperationsOverNBits : Obligations.IntegerOperationsOverNBits := by
  intro a _ hsat
  exact ⟨hasBits_subOp hsat, hasBits_mulOp hsat, hasBits_madOp hsat,
    hasBits_andOp, hasBits_orOp, hasBits_xorOp, hasBits_andnOp, hasBits_notOp,
    hasBits_shlOp, hasBits_shrOp, hasBits_sarOp, hasBits_rotOp,
    fun h => ⟨hasBits_mulhOp_of_unsigned h, hasBits_minOp (a.ult_iff_int_lt h ..), hasBits_maxOp (a.ult_iff_int_lt h ..),
      hasBits_diviOp_of_unsigned hsat h, hasBits_remiOp_of_unsigned h⟩,
    fun h => ⟨hasBits_mulhOp_of_signed h, hasBits_minOp (a.slt_iff_int_lt h ..), hasBits_maxOp (a.slt_iff_int_lt h ..),
      hasBits_diviOp_of_signed hsat h, hasBits_remiOp_of_signed h⟩,
    clzOp_d, popcOp_d, fun _ => brevOp_getLsbD⟩

end Sys2Proof.Claims
end

section
/-! SUPPORT. mport: the PE that each pair of tokens leaves, and what the firing answers. -/

namespace Sys2Proof.Machine

-- ## The matrix port's PE

/-- Writing back leaves the running sum alone. -/
@[simp] theorem Cell.sum_writeBack (c : Cell) (w : SWord) (x : Word) (stamp : Nat) : (c.writeBack w x stamp).sum = c.sum := by
  unfold Cell.writeBack
  rw [Cell.predicate_eq]
  split <;> rfl

/-- A PE whose mport has taken both heads, among the inputs of its slot (R193). -/
def Cell.portTaken (c : Cell) (w : SWord) : Cell := c.dequeue (w.deq ||| 3)

/-- The running sum with the product of the two heads added. -/
def PeEnv.portSum (e : PeEnv) (s : State) (w : SWord) : Exact :=
  let f := if w.ty = 1 then FloatFmt.f16 else FloatFmt.bf16
  let operand := fun k => readFloat f (s.teamLevel e.team) ((e.cell.head k).data.toNat % 2 ^ 16)
  Value.exact (fmaValue .rn (operand 0) (operand 1) e.cell.sum)

/-- The element to which B directs the sum. -/
def PeEnv.portIndex (e : PeEnv) (w : SWord) : Nat := (e.cell.source w w.srcB).toNat % 4096

/-- The sum as the span buffer takes it: rounded to f32. -/
def PeEnv.portValue (e : PeEnv) (s : State) : Nat :=
  writeFloat .f32 { mode := .rn, sat := false, level := s.teamLevel e.team, conv := false, f32ToF16 := false } (Exact.toValue e.cell.sum)

/-- The PE after a pair of last tokens: a new sum begins, and the index leaves. -/
def PeEnv.portSent (e : PeEnv) (w : SWord) : Cell :=
  let idx := BitVec.ofNat 32 (e.portIndex w)
  ({ e.cell.portTaken w with sum := .fin false 0 0 }.emit w.out (.tok { data := idx, tag := e.cell.outTag w })).writeBack w idx

end Sys2Proof.Machine

namespace Sys2Proof.Claims

open Sys2Proof.Machine

-- ## How the queues have moved

/-- Dequeuing moves the inputs of its mask alone. -/
theorem moved_dequeue (c : Cell) (m : BitVec 4) (x : OutEntry) : Moved c (c.dequeue m) m 0 x :=
  ⟨fun _ hk => c.inq_dequeue m hk, fun k _ => by simp⟩

/-- Dequeuing and then emitting moves the inputs of the one mask and the outputs of the other. -/
theorem moved_dequeue_emit (c : Cell) (m n : BitVec 4) (x : OutEntry) : Moved c ((c.dequeue m).emit n x) m n x := by
  refine ⟨fun k hk => ?_, fun k hk => ?_⟩
  · rw [Cell.inq_emit, c.inq_dequeue m hk]
  · rw [Cell.outq_emit _ n x hk, Cell.outq_dequeue]

/-- What is written back is no queue's. -/
theorem Moved.writeBack {c d : Cell} {m n : BitVec 4} {x : OutEntry} (h : Moved c d m n x) (w : SWord) (y : Word) (stamp : Nat) :
    Moved c (d.writeBack w y stamp) m n x := by
  simpa only [Moved, Cell.inq_writeBack, Cell.outq_writeBack] using h

/-- A PE that sends its sum has moved its heads and its index. -/
theorem moved_portSent (e : PeEnv) (w : SWord) :
    Moved e.cell (e.portSent w) (w.deq ||| 3) w.out (.tok { data := BitVec.ofNat 32 (e.portIndex w), tag := e.cell.outTag w }) := by
  have sent := moved_dequeue_emit e.cell (w.deq ||| 3) w.out (.tok { data := BitVec.ofNat 32 (e.portIndex w), tag := e.cell.outTag w })
  have fresh : Moved e.cell ({ e.cell.portTaken w with sum := .fin false 0 0 }.emit w.out _) (w.deq ||| 3) w.out _ := sent
  exact fresh.writeBack w _ 0

-- ## The firing, by the tags of the two heads (R193)

section

variable {w : SWord} {s : State} {e : PeEnv} (h : Fires s e (.mport w) w)

include h

/-- A pair of data tokens adds its product to the sum. -/
theorem exec_mport_of_data (hx : (e.cell.head 0).tag = 0) (hy : (e.cell.head 1).tag = 0) :
    exec (.mport w) s = .next (e.put s { e.cell.portTaken w with sum := e.portSum s w }) := by
  show execMport w s = _
  rw [execMport, h.slotStep]
  dsimp only
  rw [hx, hy]
  simp only [beq_iff_eq]
  rfl

/-- A pair of last tokens appends the sum to the span buffer, where its tile is bound. -/
theorem exec_mport_of_last (hx : (e.cell.head 0).tag = 1) (hy : (e.cell.head 1).tag = 1)
    (hbound : (Table.find e.team.tiles (w.imm.toNat % 16)).isSome = true) :
    exec (.mport w) s = .next ((e.put s (e.portSent w)).bufferSpan e.tk e.team (.mport (w.imm.toNat % 16)) none (.scratch 0) 0
      (BitVec.ofNat 64 (e.portIndex w * 2 ^ 32 + e.portValue s)) e.region.epoch) := by
  show execMport w s = _
  have hnone : (Table.find e.team.tiles (w.imm.toNat % 16)).isNone = false := by simpa using hbound
  rw [execMport, h.slotStep]
  dsimp only
  rw [hx, hy]
  exact congrArg _ (if_neg (Bool.eq_false_iff.mp hnone))

/-- Where its tile is not bound it raises ACCLIMIT. -/
theorem exec_mport_of_unbound (hx : (e.cell.head 0).tag = 1) (hy : (e.cell.head 1).tag = 1)
    (hunbound : Table.find e.team.tiles (w.imm.toNat % 16) = none) :
    exec (.mport w) s = .next (s.failRegion e.tk (SFault.trap .acclimit 0)) := by
  show execMport w s = _
  rw [execMport, h.slotStep]
  dsimp only
  rw [hx, hy]
  exact congrArg _ (if_pos (Option.isNone_iff_eq_none.mpr hunbound))

/-- A pair of end tokens sends an end token. -/
theorem exec_mport_of_end (hx : (e.cell.head 0).tag = 2) (hy : (e.cell.head 1).tag = 2) :
    exec (.mport w) s = .next (e.put s ((e.cell.portTaken w).emit w.out (.tok { data := 0, tag := 2 }))) := by
  show execMport w s = _
  rw [execMport, h.slotStep]
  dsimp only
  rw [hx, hy]
  rfl

/-- Two heads of different kinds, or a control token, are taken without effect. -/
theorem exec_mport_of_other (hother : (e.cell.head 0).tag = 3 ∨ (e.cell.head 1).tag = 3 ∨ (e.cell.head 0).tag ≠ (e.cell.head 1).tag) :
    exec (.mport w) s = .next (e.put s (e.cell.portTaken w)) := by
  have hpair (n : Nat) (hn : n < 3) (hx : (e.cell.head 0).tag.toNat = n) (hy : (e.cell.head 1).tag.toNat = n) : False := by
    obtain hx3 | hy3 | hne := hother
    · exact absurd (congrArg BitVec.toNat hx3) (by rw [hx]; exact Nat.ne_of_lt hn)
    · exact absurd (congrArg BitVec.toNat hy3) (by rw [hy]; exact Nat.ne_of_lt hn)
    · exact hne (BitVec.eq_of_toNat_eq (hx.trans hy.symm))
  show execMport w s = _
  rw [execMport, h.slotStep]
  dsimp only
  split
  case h_1 hx hy => exact (hpair 0 (by decide) hx hy).elim
  case h_2 hx hy => exact (hpair 1 (by decide) hx hy).elim
  case h_3 hx hy => exact (hpair 2 (by decide) hx hy).elim
  case h_4 => rfl

end

/-- Settles O6: each pair of tags is one case of the firing, in which both heads leave. -/
theorem matrixPortAccumulates : Obligations.MatrixPortAccumulates := by
  intro w s e h
  have taken := moved_dequeue e.cell (w.deq ||| 3) (.pend 0)
  refine ⟨fun hx hy => ⟨_, exec_mport_of_data h hx hy, taken, ⟨rfl, rfl, rfl, rfl, rfl, rfl, rfl⟩, rfl⟩,
    fun hx hy hbound => ⟨e.portSent w, exec_mport_of_last h hx hy hbound, Cell.sum_writeBack _ _ _ _, moved_portSent e w⟩,
    fun hx hy => ⟨_, exec_mport_of_end h hx hy, rfl, moved_dequeue_emit e.cell (w.deq ||| 3) w.out _⟩,
    fun hother => ⟨_, exec_mport_of_other h hother, rfl, taken⟩, fun hx hy hunbound => exec_mport_of_unbound h hx hy hunbound⟩

end Sys2Proof.Claims
end

section
/-! SUPPORT. What the reads and writes of the engines and of the block table leave alone: the machine's work, which is its teams, its cores, the
groups of ended teams and the moves of blocks. -/

namespace Sys2Proof.Machine

/-- A relation that composes, and that every step of a fold keeps, relates the fold's start to its end. -/
theorem foldl_related {σ α : Type} {R : σ → σ → Prop} (hrefl : ∀ s, R s s) (htrans : ∀ {s t u}, R s t → R t u → R s u) {f : σ → α → σ}
    (hf : ∀ s x, R s (f s x)) (l : List α) (s : σ) : R s (l.foldl f s) := by
  induction l generalizing s with
  | nil => exact hrefl s
  | cons x rest ih => exact htrans (hf s x) (ih (f s x))

-- ## The machine's work

/-- Two states have the same teams, cores and moves under way, and the same groups of ended teams. -/
structure State.SameWork (s t : State) : Prop where
  teams : t.teams = s.teams
  cores : t.cores = s.cores
  left : t.left = s.left
  moves : t.moves = s.moves

namespace State.SameWork

variable {s t u : State}

theorem refl (s : State) : SameWork s s := ⟨rfl, rfl, rfl, rfl⟩

theorem trans (h : SameWork s t) (k : SameWork t u) : SameWork s u :=
  ⟨k.teams.trans h.teams, k.cores.trans h.cores, k.left.trans h.left, k.moves.trans h.moves⟩

theorem foldl {α : Type} {f : State → α → State} (hf : ∀ s x, SameWork s (f s x)) (l : List α) (s : State) : SameWork s (l.foldl f s) :=
  foldl_related refl trans hf l s

theorem core (h : SameWork s t) (c : Nat) : t.core c = s.core c := by rw [State.core, h.cores, State.core]

theorem findGroup (h : SameWork s t) (r : GroupRef) : t.findGroup r = s.findGroup r := by
  simp only [State.findGroup, h.core, h.teams, h.left]

end State.SameWork

open State.SameWork

-- ## Touches and writes

theorem sameWork_touchCommitted (s : State) (pa : Nat) : s.SameWork (s.touchCommitted pa) := by
  rw [touchCommitted_eq]
  exact ⟨rfl, rfl, rfl, rfl⟩

theorem sameWork_touchLine (s : State) (v : Nat × Nat) (line : Nat) : s.SameWork (s.touchLine v line) := by
  unfold State.touchLine
  split <;> exact ⟨rfl, rfl, rfl, rfl⟩

theorem sameWork_touchView (s : State) (view : List (Nat × Nat)) (pa : Nat) : s.SameWork (s.touchView view pa) := by
  induction view with
  | nil => exact .refl s
  | cons v rest ih =>
    rw [State.touchView]
    split
    · exact sameWork_touchLine s v _
    · exact ih

theorem sameWork_writeDirect (s : State) (pa : Nat) (b : Byte) : s.SameWork (s.writeDirect pa b) := by
  rw [writeDirect_eq]
  exact ⟨rfl, rfl, rfl, rfl⟩

theorem sameWork_writeTxn (s : State) (v : Nat × Nat) (pa : Nat) (b : Byte) : s.SameWork (s.writeTxn v pa b) := by
  unfold State.writeTxn
  split
  · exact sameWork_writeDirect s pa b
  · exact (sameWork_touchLine s v _).trans ⟨rfl, rfl, rfl, rfl⟩

theorem sameWork_writeLoc (s : State) (view : List (Nat × Nat)) (l : Loc) (bs : List Byte) : s.SameWork (s.writeLoc view l bs) := by
  unfold State.writeLoc
  split
  · rw [writeScratch_eq]
    exact ⟨rfl, rfl, rfl, rfl⟩
  · split
    · exact foldl (fun s x => sameWork_writeTxn s _ _ _) _ s
    · rw [writeDirectBytes_eq]
      exact ⟨rfl, rfl, rfl, rfl⟩

/-- A store that performs at its home leaves the machine's work alone. -/
theorem sameWork_perform (s : State) (src : GroupRef) (seq : Nat) (view : List (Nat × Nat)) (l : Loc) (bs : List Byte) (pubs : List Pub) :
    s.SameWork (s.perform src seq view l bs pubs) := by
  refine trans ?_ (sameWork_writeLoc _ view l bs)
  rw [State.remember, keep_eq]
  exact ⟨rfl, rfl, rfl, rfl⟩

theorem sameWork_setEntryHigh (s : State) (e : Entry) (x : BitVec 64) : s.SameWork (s.setEntryHigh e x) := sameWork_perform ..

theorem sameWork_markEntry (s : State) (e : Entry) (bits : BitVec 64) (on : Bool) : s.SameWork (s.markEntry e bits on) :=
  sameWork_setEntryHigh s e _

-- ## Reads

theorem sameWork_choose (s : State) (n : Nat) : s.SameWork (s.choose n).2 := ⟨rfl, rfl, rfl, rfl⟩

theorem sameWork_trackByte (s : State) (at_ : Nat) (view : List (Nat × Nat)) (l : Loc) : s.SameWork (s.trackByte at_ view l) := by
  unfold State.trackByte
  split
  · split
    · exact (sameWork_touchCommitted s _).trans ⟨rfl, rfl, rfl, rfl⟩
    · split
      · exact sameWork_touchCommitted s _
      · exact sameWork_touchView s _ _
  · exact sameWork_touchCommitted s _
  · exact .refl s

theorem sameWork_trackUnder (s : State) (xs : List (GroupRef × PendStore)) (new : List (Option Byte)) (at_ : Nat) (view : List (Nat × Nat))
    (l : Loc) (n : Nat) : s.SameWork (s.trackUnder xs new at_ view l n) := by
  refine foldl (fun s k => ?_) _ s
  split
  · exact .refl s
  · exact sameWork_trackByte s at_ view _

theorem sameWork_chooseInflight (view : List (Nat × Nat)) (l : Loc) (n : Nat) (s : State) (last : Nat × Nat) (k : Nat) :
    s.SameWork (s.chooseInflight view l last n k).2 := by
  induction n generalizing s last k with
  | zero => exact .refl s
  | succ n ih =>
    cases hbyte : s.inflightByte view (l.plus k) with
    | none =>
      simp only [State.chooseInflight, hbyte]
      exact ih s (0, 0) (k + 1)
    | some x =>
      simp only [State.chooseInflight, hbyte]
      split
      · exact ih s _ (k + 1)
      · exact (sameWork_choose s 2).trans (ih _ _ (k + 1))

theorem sameWork_pick (s : State) (x : Reader) (new : List (Option Byte)) (l : Loc) (n : Nat) (vals : List Seen) :
    s.SameWork (s.pick x new l n vals).2 := by
  unfold State.pick
  split
  · exact sameWork_trackUnder ..
  · exact sameWork_trackUnder ..
  · split
    · exact sameWork_trackUnder ..
    · exact (sameWork_choose s _).trans (sameWork_trackUnder ..)

theorem sameWork_pickEach (x : Reader) (l : Loc) (new : List (Option Byte)) (k : Nat) (s : State) :
    s.SameWork (State.pickEach x l new k s).2 := by
  induction new generalizing k s with
  | nil => exact .refl s
  | cons c rest ih => exact (sameWork_pick s x [c] (l.plus k) 1 _).trans (ih (k + 1) _)

theorem sameWork_readerBytes (s : State) (x : Reader) (whole : Bool) (l : Loc) (n : Nat) : s.SameWork (s.readerBytes x whole l n).2 := by
  have chosen := sameWork_chooseInflight (s.viewOfRef x.g) l n s (0, 0) 0
  unfold State.readerBytes
  generalize s.chooseInflight (s.viewOfRef x.g) l (0, 0) n 0 = p at chosen ⊢
  obtain ⟨new, t⟩ := p
  dsimp only
  split
  · exact chosen.trans (sameWork_pick ..)
  · split
    · exact chosen.trans (sameWork_pick ..)
    · exact chosen.trans (sameWork_pickEach ..)

/-- What an engine command reads leaves the machine's work alone. -/
theorem sameWork_sourceBytes (x : Reader) (whole : Bool) (l : List (Loc × Nat)) (s : State) :
    s.SameWork (State.sourceBytes x whole l s).2 := by
  induction l generalizing s with
  | nil => exact .refl s
  | cons p rest ih => exact (sameWork_readerBytes s x whole p.1 p.2).trans (ih _)

theorem sameWork_copyChoices (all bs : List CopyByte) (s : State) : s.SameWork (State.copyChoices all bs s).2 := by
  induction bs generalizing s with
  | nil => exact .refl s
  | cons b rest ih =>
    simp only [State.copyChoices]
    split
    · exact (sameWork_choose s 2).trans (ih _)
    · exact ih s

end Sys2Proof.Machine
end

section
/-! SUPPORT. A command that counts down its flag: what the group that issued it, and its registers, keep. -/

namespace Sys2Proof.Machine

-- ## The registers of a group

/-- Two groups hold the same in their registers and flags, and have the same loads pending. -/
structure Group.SameRegs (g h : Group) : Prop where
  v : h.v = g.v
  s : h.s = g.s
  p : h.p = g.p
  flags : h.flags = g.flags
  loads : h.loads = g.loads

namespace Group.SameRegs

variable {g h k : Group}

theorem refl (g : Group) : SameRegs g g := ⟨rfl, rfl, rfl, rfl, rfl⟩

theorem trans (a : SameRegs g h) (b : SameRegs h k) : SameRegs g k :=
  ⟨b.v.trans a.v, b.s.trans a.s, b.p.trans a.p, b.flags.trans a.flags, b.loads.trans a.loads⟩

end Group.SameRegs

theorem Group.sameRegs_settle (g : Group) : g.SameRegs g.settle := by
  rw [settle_eq]
  exact ⟨rfl, rfl, rfl, rfl, rfl⟩

theorem Group.sameRegs_rouse (g : Group) : g.SameRegs g.rouse := by
  unfold Group.rouse
  split
  · split
    · exact ⟨rfl, rfl, rfl, rfl, rfl⟩
    · exact .refl g
  · exact .refl g

/-- A group to whose waiting paths its flags are shown. -/
theorem Group.sameRegs_wake (g : Group) : g.SameRegs g.wake := by
  have seen (met : PathEntry → Bool) (ps : List PathEntry) (h : Group) :
      h.SameRegs (ps.foldl (fun h p => if met p then h.sawFlags p.waits else h) h) := by
    refine foldl_related SameRegs.refl .trans (fun h p => ?_) ps h
    split
    · exact ⟨rfl, rfl, rfl, rfl, rfl⟩
    · exact .refl h
  unfold Group.wake
  extract_lets met w h k m
  have hk : g.SameRegs k := (seen met _ g).trans ⟨rfl, rfl, rfl, rfl, rfl⟩
  have hm : g.SameRegs m := by
    unfold m
    split
    · exact hk
    · exact hk.trans (sameRegs_settle k)
  split
  · split
    · exact hm.trans ⟨rfl, rfl, rfl, rfl, rfl⟩
    · exact hm
  · exact hm.trans (sameRegs_rouse m)

theorem Group.sameRegs_addLoose (arr : Nat) (xs : List PendStore) (g : Group) : g.SameRegs (g.addLoose arr xs) := by
  refine foldl_related SameRegs.refl .trans (fun g x => ?_) xs g
  exact ⟨rfl, rfl, rfl, rfl, rfl⟩

/-- FlagDec counts one flag down, and leaves the others and the registers alone. -/
theorem Group.sameRegs_flagDec (g : Group) (f : Nat) : ({ g with flags := Sparse.set g.flags f (g.flag f - 1) } : Group).SameRegs (g.flagDec f) :=
  sameRegs_wake _

-- ## The groups of a state

/-- Every group of s stands in t with the same registers. -/
def State.KeepsRegs (s t : State) : Prop := ∀ r g, s.findGroup r = some g → ∃ h, t.findGroup r = some h ∧ g.SameRegs h

theorem State.KeepsRegs.trans {s t u : State} (a : s.KeepsRegs t) (b : t.KeepsRegs u) : s.KeepsRegs u := by
  intro r g hg
  obtain ⟨h, hh, hgh⟩ := a r g hg
  obtain ⟨k, hk, hhk⟩ := b r h hh
  exact ⟨k, hk, hgh.trans hhk⟩

theorem State.SameWork.keepsRegs {s t : State} (h : s.SameWork t) : s.KeepsRegs t := fun r g hg =>
  ⟨g, (h.findGroup r).trans hg, .refl g⟩

/-- A change of a group that keeps its registers. -/
theorem State.keepsRegs_modGroup (s : State) (r : GroupRef) {f : Group → Group} (hf : ∀ g : Group, g.SameRegs (f g)) : s.KeepsRegs (s.modGroup r f) := by
  intro q g hg
  by_cases hq : q = r
  · subst hq
    exact ⟨f g, by rw [s.findGroup_modGroup_self, hg, Option.map_some], hf g⟩
  · exact ⟨g, (s.findGroup_modGroup_other f hq).trans hg, .refl g⟩

/-- A change of a core that leaves its agent alone leaves every group alone. -/
theorem State.findGroup_modCore (s : State) (c : Nat) {f : Core → Core} (hf : (f (s.core c)).agent = (s.core c).agent) (r : GroupRef) :
    (s.modCore c f).findGroup r = s.findGroup r := by
  have agents (d : Nat) : ((s.modCore c f).core d).agent = (s.core d).agent := by
    by_cases hd : d = c
    · subst hd
      rw [State.core_modCore, hf]
    · rw [State.core_modCore_other s f hd]
  simp only [State.findGroup, agents, State.modCore_teams, State.modCore_left]

theorem State.keepsRegs_modCore (s : State) (c : Nat) {f : Core → Core} (hf : (f (s.core c)).agent = (s.core c).agent) :
    s.KeepsRegs (s.modCore c f) :=
  fun r g hg => ⟨g, (s.findGroup_modCore c hf r).trans hg, .refl g⟩

/-- What becomes of a team when the groups of a core are roused. -/
def Team.roused (core : Nat) (t : Team) : Team := if t.core = core then { t with groups := t.groups.map Group.rouse } else t

theorem State.find_teams_rouseCore (s : State) (c k : Nat) : Table.find (s.rouseCore c).teams k = (Table.find s.teams k).map (Team.roused c) := by
  have hkey (y : Nat × Team) : (if y.2.core = c then (y.1, { y.2 with groups := y.2.groups.map Group.rouse }) else y).1 = y.1 := by
    split <;> rfl
  simp only [State.rouseCore, Table.find_map s.teams hkey]
  congr 1
  funext t
  unfold Team.roused
  split <;> rfl

/-- A group of a roused core is roused. -/
theorem State.findGroup_rouseCore {s : State} (c : Nat) {r : GroupRef} {g : Group} (hg : s.findGroup r = some g) :
    (s.rouseCore c).findGroup r = some g ∨ (s.rouseCore c).findGroup r = some g.rouse := by
  unfold State.findGroup at hg ⊢
  split at hg
  case isTrue hteam =>
    left
    rw [if_pos hteam]
    exact hg
  case isFalse hteam =>
    rw [if_neg hteam, State.find_teams_rouseCore]
    cases ht : Table.find s.teams r.team with
    | none =>
      rw [ht] at hg
      exact .inl hg
    | some t =>
      rw [ht] at hg
      simp only [Option.map_some, Team.roused]
      split
      · right
        simp only [List.getElem?_map, hg, Option.map_some]
      · exact .inl hg

theorem State.keepsRegs_rouseCore (s : State) (c : Nat) : s.KeepsRegs (s.rouseCore c) := by
  intro r g hg
  obtain h | h := s.findGroup_rouseCore c hg
  · exact ⟨g, h, .refl g⟩
  · exact ⟨g.rouse, h, g.sameRegs_rouse⟩

/-- What an engine writes leaves every group's registers alone. -/
theorem State.keepsRegs_engineWrite (s : State) (r : GroupRef) (w : EngineWrite) (pieces : List Piece) :
    s.KeepsRegs (s.engineWrite r w pieces) := by
  have performed (l : List Piece) : s.SameWork (l.foldl (fun s p => s.perform r 0 (s.viewOfRef r) p.1 p.2.2 w.pubs) s) :=
    .foldl (fun s p => sameWork_perform ..) l s
  unfold State.engineWrite
  split
  · exact (performed pieces).keepsRegs
  · have home := performed (pieces.filter w.atHome)
    generalize (pieces.filter w.atHome).foldl _ s = t at home ⊢
    generalize (pieces.filter _).flatMap (looseStores w) = xs
    have added := t.keepsRegs_modGroup r fun g => Group.sameRegs_addLoose (t.arrivals + 1) xs g
    exact (home.keepsRegs.trans added).trans (State.SameWork.keepsRegs ⟨rfl, rfl, rfl, rfl⟩)

theorem State.sameWork_copySeen (s : State) (c : CopyCmd) : s.SameWork (s.copySeen c).2 := sameWork_sourceBytes ..

theorem State.sameWork_seenBytes (s : State) (x : MatrixCmd) : s.SameWork (s.seenBytes x).2 := sameWork_sourceBytes ..

/-- The bytes that a command moves leave every group's registers alone. -/
theorem State.keepsRegs_moveBytes (s : State) (c : CopyCmd) : s.KeepsRegs (s.moveBytes c) := by
  have seen := s.sameWork_copySeen c
  unfold State.moveBytes
  generalize s.copySeen c = p at seen ⊢
  obtain ⟨bytes, t⟩ := p
  dsimp only at seen ⊢
  split
  · refine .trans (State.SameWork.keepsRegs ?_) (State.keepsRegs_engineWrite _ c.g c.write _)
    exact (seen.trans (sameWork_choose t 2)).trans (sameWork_copyChoices ..)
  · exact seen.keepsRegs.trans (State.keepsRegs_engineWrite _ c.g c.write _)

end Sys2Proof.Machine

namespace Sys2Proof.Claims

open Sys2Proof.Machine

/-- FlagDec of a command's group counts its flag down, and what comes before it and after it keeps every group's registers. -/
theorem flagDown_of_keepsRegs {s t u : State} {r : GroupRef} {f : Nat} (before : s.KeepsRegs t) (after : (t.flagDec r f).KeepsRegs u) :
    FlagDown s u r f := by
  intro g hg
  obtain ⟨h, hh, hgh⟩ := before r g hg
  have hdec : (t.flagDec r f).findGroup r = some (h.flagDec f) := by
    rw [State.flagDec, State.findGroup_modGroup_self, hh, Option.map_some]
  obtain ⟨k, hk, hhk⟩ := after r _ hdec
  have down := (h.sameRegs_flagDec f).trans hhk
  have flags (n : Nat) : k.flag n = if n = f then h.flag f - 1 else h.flag n := by
    rw [Group.flag, down.flags]
    exact Sparse.get_set ..
  have same (n : Nat) : h.flag n = g.flag n := by rw [Group.flag, hgh.flags, Group.flag]
  refine ⟨k, hk, ?_, down.v.trans hgh.v, down.s.trans hgh.s, down.p.trans hgh.p, fun n hn => ?_, down.loads.trans hgh.loads⟩
  · rw [flags, if_pos rfl, same]
  · rw [flags, if_neg hn, same]

end Sys2Proof.Claims
end

section
/-! SUPPORT. The engine instructions whose checks pass and whose engine has room: what each hands to its engine. -/

namespace Sys2Proof.Machine

-- ## The charge of a bucket

/-- A charge changes the bucket's level alone. -/
theorem Core.charge_eq {c d : Core} {n : Nat} (h : c.charge n = some d) : d = { c with level := d.level } := by
  unfold Core.charge at h
  repeat' split at h
  all_goals cases h
  all_goals rfl

/-- What a charge leaves: the commands that its core's engine has accepted, and every group. -/
theorem State.charge_frame {s u : State} {core n : Nat} (h : s.charge core n = some u) :
    (u.core core).accepted = (s.core core).accepted ∧ ∀ r, u.findGroup r = s.findGroup r := by
  unfold State.charge at h
  split at h
  case h_1 c hc =>
    cases h
    have level := Core.charge_eq hc
    refine ⟨?_, s.findGroup_modCore core ?_⟩
    · rw [State.core_modCore, level]
    · rw [level]
  case h_2 => cases h

/-- A charge fills no port. -/
theorem State.portFull_of_charge {s u : State} {core n : Nat} (h : s.charge core n = some u) (quad : Nat) :
    u.portFull core quad = s.portFull core quad := by
  obtain ⟨haccepted, hgroups⟩ := State.charge_frame h
  simp only [State.portFull, haccepted, hgroups]

-- ## What an engine takes

/-- A command's name of a tile is looked up without effect on the machine's work. -/
theorem Env.sameWork_findTile (e : Env) (s : State) (w : XWord) : s.SameWork (e.findTile s w).2 := by
  unfold Env.findTile
  split
  · exact .refl s
  · split
    · exact .refl s
    · exact sameWork_choose s 2

/-- A command takes its quadrant's port, where that and its flag have room. -/
theorem Env.accept_of_room {e : Env} {s : State} {f : Nat} (hflag : e.grp.flagFull f = false) (hport : s.portFull e.core e.grp.quad = false)
    (w : XWord) (phys : Nat) (op : MatrixOp) :
    e.accept s w f phys op = e.finish (e.grp.flagInc f)
      (s.modCore e.core fun k => { k with accepted := k.accepted ++ [Claims.commandOf w e f phys s op] }) := by
  simp only [Env.accept, hflag, hport, Bool.false_eq_true, if_false]
  rfl

/-- A copy that begins. -/
def Env.copyOf (e : Env) (s : State) (w : XWord) (f : Nat) (isGather : Bool) (pairs : List (Loc × Loc × Nat)) (src dst : List (BitVec 64 × Nat)) :
    CopyCmd :=
  { g := e.gref, flag := f, seq := e.grp.seq, after := e.grp.fence, acq := w.acq, rel := w.rel, scope := w.scope.toNat, isGather := isGather,
    pairs := pairs, since := s.stamp, floor := e.commandFloor s w, know := e.commandKnow s w, pubs := e.pubs none, vas := src, dvas := dst }

/-- A copy takes one of its core's places, where one is free and its flag has room. -/
theorem Env.startCopy_of_room {e : Env} {s : State} {f : Nat} (hflag : e.grp.flagFull f = false) (hroom : (s.core e.core).copies.length < copySlots)
    (w : XWord) (isGather : Bool) (pairs : List (Loc × Loc × Nat)) (src dst : List (BitVec 64 × Nat)) :
    e.startCopy s w f isGather pairs src dst = e.finish (e.grp.flagInc f)
      (s.modCore e.core fun k => { k with copies := k.copies ++ [e.copyOf s w f isGather pairs src dst] }) := by
  simp only [Env.startCopy, hflag, Nat.not_le.mpr hroom, Bool.false_eq_true, if_false]
  rfl

end Sys2Proof.Machine

namespace Sys2Proof.Claims

open Sys2Proof.Machine

/-- An engine instruction that selects a flag runs its body with it. -/
theorem Selects.engine {e : Env} {w : XWord} {f : Nat} (h : Selects e w f) (s : State) (body : Nat → State) : e.engine s w body = body f := by
  obtain ⟨hflag, hacts, -⟩ := h
  simp only [Env.engine, hflag, hacts, if_true]

section

variable {w : XWord} {s : State} {e : Env}

-- ## Tile names (R190, R342)

section

variable {r : GroupRef} {t : Team} (href : e.ref = some r) (hteam : e.team = some t) (hacts : e.acts w.g = true)

include href hteam hacts

/-- accalloc binds a name that stands for no tile, while its team's reservation has one left. -/
theorem exec_accalloc_of_free (hi : Issues s e (xUses [])) (hroom : t.ownBound < t.reserved) (hname : Table.find t.tiles (tileName w) = none) :
    exec (.accalloc w) s = .next (e.finish e.grp (s.bindTile r e.core (tileName w) false)) := by
  have hreserved : t.reserved ≠ 0 := Nat.ne_of_gt (Nat.zero_lt_of_lt hroom)
  refine hi.exec_eq rfl ?_
  simp [href, hteam, hacts, hreserved, hname, Nat.not_le.mpr hroom]

/-- accgrow binds such a name where the core has a tile that no team has reserved or grown, and says whether it has. -/
theorem exec_accgrow_of_free (hi : Issues s e (xUses [w.d.toNat])) (hname : Table.find t.tiles (tileName w) = none) :
    exec (.accgrow w) s = .next (if s.unreserved e.core = 0 then e.finish (e.grp.writeS w.d.toNat 0) s
      else e.finish (e.grp.writeS w.d.toNat 1) (s.bindTile r e.core (tileName w) true)) := by
  refine hi.exec_eq rfl ?_
  simp [href, hteam, hacts, hname]

/-- accfree unbinds a name whose tile no command uses. -/
theorem exec_accfree_of_idle {b : Tile} (hi : Issues s e (xUses [])) (hname : Table.find t.tiles (tileName w) = some b)
    (hidle : s.tileInUse r.team e.core b.phys = false) :
    exec (.accfree w) s = .next (e.finish e.grp (s.unbind r.team e.core (tileName w))) := by
  refine hi.exec_eq rfl ?_
  simp [href, hteam, hacts, hname, hidle]

end

section

variable {f : Nat} (hsel : Selects e w f)

include hsel

-- ## The matrix engine (R178, R186, R343)

/-- mma of a group whose lanes all have Guard, whose checks pass and whose charge the bucket allows, is accepted. -/
theorem exec_mma_of_room {t u : State} {p k : Nat} {a b : Extent} {fa fb : FmtBlock}
    (hi : Issues s e (xUses (recordRegs w.r1.toNat ++ recordRegs w.r2.toNat ++ [w.r3.toNat]))) (hone : e.grp.severalPaths = false)
    (hserl : e.grp.serl = none) (hmask : e.path.mask = e.grp.present) (hguard : e.guard w.g = e.grp.present)
    (htile : e.findTile s w = (some p, t)) (hport : t.portFull e.core e.grp.quad = false) (hchecks : e.mmaChecks t w = .ok (a, b, fa, fb, k))
    (hcharge : t.charge e.core (256 * mmaCycles (formatWidth fa.efmt) k) = some u) :
    Commanded (.mma w) s e f (u.modCore e.core fun c => { c with
      accepted := c.accepted ++ [commandOf w e f p u (.mma (tileName w) (w.variant.getLsbD 0) a b fa fb k)] }) := by
  obtain ⟨hflag, hacts, hfull⟩ := hsel
  have hsome : e.grp.present ≠ 0#64 := hguard ▸ bne_iff_ne.mp hacts
  have hroom : u.portFull e.core e.grp.quad = false := (State.portFull_of_charge hcharge _).trans hport
  refine hi.exec_eq rfl ?_
  simp [hflag, hone, hserl, hmask, hguard, hsome, htile, hchecks, hfull, hport, Env.charged, hcharge, Env.accept_of_room hfull hroom]

/-- accld and accst of a record of 64 rows of 256 bytes in the team's scratchpad are accepted. -/
theorem accCopyStep_of_room {i : Instr} {op : Nat → Extent → MatrixOp} {ak : AccessKind} {t : State} {p : Nat} {x : Extent}
    (hexec : exec i s = accCopyStep w op ak s) (hi : Issues s e (xUses (recordRegs w.r1.toNat))) (htile : e.findTile s w = (some p, t))
    (hport : t.portFull e.core e.grp.quad = false) (hrows : (e.record w.r1.toNat).rows = 64) (hbytes : (e.record w.r1.toNat).rowBytes = 256)
    (hextent : e.scratchExtent t (e.record w.r1.toNat) = .ok x) :
    Commanded i s e f (t.modCore e.core fun c => { c with accepted := c.accepted ++ [commandOf w e f p t (op (tileName w) x)] }) := by
  refine hi.exec_eq hexec ?_
  simp [hsel.engine, htile, hrows, hbytes, hextent, Env.accept_of_room hsel.2.2 hport]

-- ## The copy engine (R373, R395)

/-- copy of two extents of the same shape, all of whose bytes it may reach, begins. -/
theorem exec_copy_of_room {u v : State} {rs rd : List Run} (hi : Issues s e (xUses (recordRegs w.r1.toNat ++ recordRegs w.r2.toNat)))
    (hrows : (e.record w.r1.toNat).rows = (e.record w.r2.toNat).rows) (hbytes : (e.record w.r1.toNat).rowBytes = (e.record w.r2.toNat).rowBytes)
    (hrow : (e.record w.r1.toNat).rows ≠ 0) (hbyte : (e.record w.r1.toNat).rowBytes ≠ 0)
    (hsrc : e.recordOk s (w.variant.getLsbD 0) (e.record w.r1.toNat) = .ok ())
    (hdst : e.recordOk s (w.variant.getLsbD 1) (e.record w.r2.toNat) = .ok ())
    (hread : e.recordRuns s (w.variant.getLsbD 0) .read (e.record w.r1.toNat) = (.ok rs, u))
    (hwrite : e.recordRuns u (w.variant.getLsbD 1) .write (e.record w.r2.toNat) = (.ok rd, v))
    (hroom : (v.core e.core).copies.length < copySlots) :
    Commanded (.copy w) s e f (v.modCore e.core fun k => { k with copies := k.copies ++ [e.copyOf v w f false (zipRuns (rs.length + rd.length) rs rd)
      ((e.record w.r1.toNat).ranges (w.variant.getLsbD 0)) ((e.record w.r2.toNat).ranges (w.variant.getLsbD 1))] }) := by
  have hshape : ((e.record w.r1.toNat).rows != (e.record w.r2.toNat).rows || (e.record w.r1.toNat).rowBytes != (e.record w.r2.toNat).rowBytes
      || decide ((e.record w.r1.toNat).rows = 0) || decide ((e.record w.r1.toNat).rowBytes = 0)) = false := by
    simp [hrow, hbyte, ← hrows, ← hbytes]
  refine hi.exec_eq rfl ?_
  simp only [hsel.engine, hshape, hsrc, hdst, hread, hwrite, Env.startCopy_of_room hsel.2.2 hroom, Bool.false_eq_true, if_false]

/-- The indices of a gather, as its group sees them in the scratchpad. -/
def gatherIndices (s : State) (e : Env) (xi : Extent) : List Nat :=
  xi.runs.flatMap fun r => (List.range (r.2 / 4)).map fun k => ofLeBytes (s.readOwn e.gref (e.view s) e.grp e.grp.seq (r.1.plus (4 * k)) 4)

/-- gather of as many elements as it has indices, all of whose bytes it may reach, begins. -/
theorem exec_gather_of_room {u : State} {xi xd : Extent} {rs : List Run} {n : Nat} {base : BitVec 64}
    (hi : Issues s e (xUses (recordRegs w.r1.toNat ++ [w.r2.toNat, w.r2.toNat + 1] ++ recordRegs w.r3.toNat)))
    (hn : 2 ^ (w.variant.extractLsb' 0 2).toNat = n) (hbase : e.grp.readSPair w.r2.toNat = base)
    (hindex : (e.record w.r1.toNat).rowBytes % 4 = 0) (helement : (e.record w.r3.toNat).rowBytes % n = 0)
    (hcount : (e.record w.r1.toNat).rows * (e.record w.r1.toNat).rowBytes / 4 = (e.record w.r3.toNat).rows * (e.record w.r3.toNat).rowBytes / n)
    (hsome : (e.record w.r1.toNat).rows * (e.record w.r1.toNat).rowBytes / 4 ≠ 0)
    (hxi : e.scratchExtent s (e.record w.r1.toNat) = .ok xi) (hxd : e.scratchExtent s (e.record w.r3.toNat) = .ok xd)
    (halign : base.toNat % n = 0) (hruns : e.gatherRuns base n (gatherIndices s e xi) s = (.ok rs, u))
    (hroom : (u.core e.core).copies.length < copySlots) :
    Commanded (.gather w) s e f (u.modCore e.core fun k => { k with copies := k.copies ++ [e.copyOf u w f true
      (zipRuns (2 * rs.length) rs (xd.elements n)) ((gatherIndices s e xi).map fun k => (base + BitVec.ofNat 64 (k * n), n)) []] }) := by
  unfold gatherIndices at hruns ⊢
  refine hi.exec_eq rfl ?_
  simp only [hsel.engine, hn, hbase]
  rw [hcount] at hsome ⊢
  simp [hindex, helement, hsome, hxi, hxd, halign, hruns, Env.startCopy_of_room hsel.2.2 hroom]

-- ## Queries and collectives (R369, R430)

/-- A query that joins the hub's. -/
def queryOf (e : Env) (w : XWord) (f : Nat) : Query :=
  { g := e.gref, flag := f, seq := e.grp.seq, after := e.grp.fence, acq := w.acq, rel := w.rel, scope := w.scope.toNat,
    off := (e.grp.readS w.r1.toNat).toNat, pubs := e.pubs none, answer := none }

/-- query of an aligned offset in its team's range joins the hub's queue. -/
theorem exec_query_of_room {t : Team} (hi : Issues s e (xUses [w.r1.toNat])) (hteam : e.team = some t)
    (halign : (e.grp.readS w.r1.toNat).toNat % 16 = 0) (hrange : s.teamOk t ((e.grp.readS w.r1.toNat).setWidth 64) 16 = true) :
    Commanded (.query w) s e f { s with queries := s.queries ++ [queryOf e w f] } := by
  refine hi.exec_eq rfl ?_
  simp [hsel.engine, hteam, halign, hrange, hsel.2.2]
  rfl

/-- The descriptor of a collective at a location, as its group sees it. -/
def collDescriptor (s : State) (e : Env) (l : Loc) : CollDesc := readColl (s.readOwn e.gref (e.view s) e.grp e.grp.seq l 64)

/-- The operation of a collective. -/
def collOperation (w : XWord) : Nat := (w.variant.extractLsb' 0 2).toNat

/-- A collective that joins the hub's, in state s. -/
def collOf (s : State) (e : Env) (w : XWord) (f : Nat) (d : CollDesc) (rs rd : List Run) : CollCmd :=
  { g := e.gref, flag := f, seq := e.grp.seq, after := e.grp.fence, acq := w.acq, rel := w.rel, scope := w.scope.toNat, op := collOperation w,
    src := runBytes rs, dst := runBytes rd, n := d.n, fmt := d.fmt, red := d.red, members := d.m, rank := d.rank, id := d.id, number := d.number,
    level := e.level, since := s.stamp, floor := e.commandFloor s w, know := e.commandKnow s w, pubs := e.pubs none,
    vas := [(d.src, d.srcBytes (collOperation w))], dvas := [(d.dst, d.dstBytes (collOperation w))], answer := none }

/-- coll whose descriptor is in order, and whose source and destination it may reach outside transactional pages, joins the hub's collectives. -/
theorem exec_coll_of_room {u v x : State} {l : Loc} {rs rd : List Run} (hi : Issues s e (xUses [w.r1.toNat, w.r1.toNat + 1]))
    (hdesc : e.checkVirtual s (e.grp.readSPair w.r1.toNat) 64 64 .read = (.ok l, u))
    (hgood : u.collBad (collOperation w) (collDescriptor u e l) = false)
    (hread : e.virtual .read u (collDescriptor u e l).src ((collDescriptor u e l).srcBytes (collOperation w)) = (.ok rs, v))
    (hwrite : e.virtual .write v (collDescriptor u e l).dst ((collDescriptor u e l).dstBytes (collOperation w)) = (.ok rd, x))
    (hdirect : ∀ y ∈ rs ++ rd, y.1.isTxn = false) :
    let y := x.trackOwn e.gref (e.view x) e.grp e.grp.seq l 64
    Commanded (.coll w) s e f { y with colls := y.colls ++ [collOf y e w f (collDescriptor u e l) rs rd] } := by
  have hany : ((rs ++ rd).any fun r => r.1.isTxn) = false := List.any_eq_false.mpr fun y hy => Bool.eq_false_iff.mp (hdirect y hy)
  unfold collOperation collDescriptor at hgood hread hwrite
  refine hi.exec_eq rfl ?_
  simp only [hsel.engine, hdesc, hgood, hread, hwrite, hany, hsel.2.2, Bool.false_eq_true, if_false]
  rfl

end

end

end Sys2Proof.Claims
end

section
/-! SUPPORT. The steps that end engine commands: each frees its place and counts down its flag. -/

namespace Sys2Proof.Machine

-- ## The matrix engine

/-- Waking the groups of a core touches no core. -/
@[simp] theorem State.core_rouseCore (s : State) (c d : Nat) : (s.rouseCore c).core d = s.core d := rfl

/-- A change of a group leaves what every engine executes alone. -/
theorem State.executing_modGroup (s : State) (r : GroupRef) (f : Group → Group) (c : Nat) :
    ((s.modGroup r f).core c).executing = (s.core c).executing := by
  by_cases hteam : r.team = 0
  · simp only [State.modGroup, hteam, if_true]
    by_cases hc : c = r.grp
    · rw [hc, State.core_modCore]
    · rw [State.core_modCore_other s _ hc]
  · rw [State.core, s.modGroup_cores_of_team f hteam, State.core]

/-- An engine that is done with a command is free. -/
theorem State.executing_engineDone (s : State) (c : Nat) (x : MatrixCmd) : ((s.engineDone c x).core c).executing = none := by
  simp only [State.engineDone, State.core_rouseCore, State.flagDec, State.executing_modGroup, State.core_modCore]

end Sys2Proof.Machine

namespace Sys2Proof.Claims

open Sys2Proof.Machine

/-- The flag of a command that the engine is done with has counted down. -/
theorem flagDown_engineDone {s t : State} (h : s.KeepsRegs t) (c : Nat) (x : MatrixCmd) : FlagDown s (t.engineDone c x) x.g x.flag := by
  have freed := t.keepsRegs_modCore c (f := fun k => { k with executing := none }) rfl
  exact flagDown_of_keepsRegs (h.trans freed) (State.keepsRegs_rouseCore _ c)

/-- An engine's step after which it is done with a command, in a state that keeps every group's registers. -/
theorem engine_frees {i : Instr} {s t : State} {c : Nat} {x : MatrixCmd} (hexec : exec i s = .next (t.engineDone c x)) (h : s.KeepsRegs t) :
    ∃ u, exec i s = .next u ∧ (u.core c).executing = none ∧ FlagDown s u x.g x.flag :=
  ⟨_, hexec, t.executing_engineDone c x, flagDown_engineDone h c x⟩

section

variable {s : State} {c : Nat} {x : MatrixCmd}

/-- A context whose save holds no command back: it is not being saved, or one of its accepted commands names another team's range (R194, R416). -/
def MayBegin (s : State) (c : Nat) (gr : Grid) : Prop :=
  s.saving gr.ctx = false ∨ ∃ y ∈ (s.core c).accepted, s.remote y = true ∧
    ∃ v h, s.teamOf y.g = some v ∧ Table.find s.grids v.grid = some h ∧ h.ctx = gr.ctx

/-- An idle engine begins the command accepted first. -/
theorem exec_mmaExecute_of_ready {rest : List MatrixCmd} {g : Group} {t : Team} {gr : Grid} (hidle : (s.core c).executing = none)
    (hfirst : (s.core c).accepted = x :: rest) (hg : s.findGroup x.g = some g) (hx : x.g.team ≠ 0) (ht : Table.find s.teams x.g.team = some t)
    (hgr : Table.find s.grids t.grid = some gr) (hmay : MayBegin s c gr) (hready : g.acquiresDone x.acq x.seq = true) :
    exec (.mmaExecute c) s =
      .next ((s.modCore c fun c => { c with executing := some (s.begun x), accepted := rest }).rouseCore c) := by
  have hteam : s.teamOf x.g = some t := by rw [State.teamOf, if_neg hx, ht]
  have hheld : (s.saving gr.ctx && !((s.core c).accepted.any fun y => s.remote y &&
      ((s.teamOf y.g).bind fun u => Table.find s.grids u.grid).any fun h => h.ctx == gr.ctx)) = false := by
    obtain hsaving | ⟨y, hy, hremote, v, h, hv, hh, hctx⟩ := hmay
    · rw [hsaving, Bool.false_and]
    · have hany : ((s.core c).accepted.any fun y => s.remote y &&
          ((s.teamOf y.g).bind fun u => Table.find s.grids u.grid).any fun h => h.ctx == gr.ctx) = true :=
        List.any_eq_true.mpr ⟨y, hy, by simp [hremote, hv, hh, hctx]⟩
      rw [hany, Bool.not_true, Bool.and_false]
  rw [hfirst] at hheld
  show execMmaExecute c s = _
  simp only [execMmaExecute, hidle, hfirst, hg, hteam, hgr, hready, hheld, Bool.not_false, Bool.and_self, if_true]
  rfl

/-- An mma that the engine executes ends with its tile written. -/
theorem exec_mmaCompletion_of_executing {n k : Nat} {z : Bool} {a b : Extent} {fa fb : FmtBlock} {t : Team}
    (hexecuting : (s.core c).executing = some x) (hop : x.op = .mma n z a b fa fb k) (hteam : s.teamOf x.g = some t) :
    ∃ tiles, exec (.mmaCompletion c) s = .next (((s.seenBytes x).2.modCore c fun c => { c with tiles := tiles }).engineDone c x) := by
  have hexec : exec (.mmaCompletion c) s = execMmaCompletion c s := rfl
  simp only [hexec, execMmaCompletion, hexecuting, hop, hteam]
  exact ⟨_, rfl⟩

/-- An accld that the engine executes ends with its tile filled. -/
theorem exec_accCopyCompletion_of_accld {n : Nat} {e : Extent} (hexecuting : (s.core c).executing = some x) (hop : x.op = .accld n e) :
    ∃ tiles, exec (.accCopyCompletion c) s = .next (((s.seenBytes x).2.modCore c fun c => { c with tiles := tiles }).engineDone c x) := by
  have hexec : exec (.accCopyCompletion c) s = execAccCopyCompletion c s := rfl
  simp only [hexec, execAccCopyCompletion, hexecuting, hop]
  exact ⟨_, rfl⟩

/-- An accst whose writes may go ends with its rows written. -/
theorem exec_accCopyCompletion_of_accst {n : Nat} {e : Extent} (hexecuting : (s.core c).executing = some x) (hop : x.op = .accst n e)
    (hmay : ∀ i, i < 64 → s.engineMayWrite x.g x.seq x.after (e.row i) 256 = true ∧ s.turnClear (e.row i) 256 = true) :
    ∃ pieces, exec (.accCopyCompletion c) s = .next ((s.engineWrite x.g x.write pieces).engineDone c x) := by
  have hall : ((List.range 64).all fun i => s.engineMayWrite x.g x.seq x.after (e.row i) 256 && s.turnClear (e.row i) 256) = true :=
    List.all_eq_true.mpr fun i hi => Bool.and_eq_true_iff.mpr (hmay i (List.mem_range.mp hi))
  have hexec : exec (.accCopyCompletion c) s = execAccCopyCompletion c s := rfl
  simp only [hexec, execAccCopyCompletion, hexecuting, hop, hall, if_true]
  exact ⟨_, rfl⟩

end

/-- The tile's new contents are the core's, so no group's registers change with them. -/
theorem keepsRegs_seenBytes_tiles (s : State) (c : Nat) (x : MatrixCmd) (tiles : Sparse 32) :
    s.KeepsRegs ((s.seenBytes x).2.modCore c fun c => { c with tiles := tiles }) :=
  (s.sameWork_seenBytes x).keepsRegs.trans (State.keepsRegs_modCore _ c rfl)

-- ## The copy engine, the hub and collectives

/-- The completion of a copy or gather that may write leaves its place and counts down its flag. -/
theorem exec_copyCompletion_of_due {core idx : Nat} {s : State} {c : CopyCmd} {g : Group} (hc : (s.core core).copies[idx]? = some c)
    (hg : s.findGroup c.g = some g) (hready : g.acquiresDone c.acq c.seq = true)
    (hmay : ∀ p ∈ c.pairs, s.engineMayWrite c.g c.seq c.after p.2.1 p.2.2 = true)
    (hsource : s.badSource (c.pairs.map fun p => (p.1, p.2.2)) 0 = none) (hroom : s.copyBlocked c = false) :
    exec (if c.isGather then Instr.gatherCompletion core idx else .copyCompletion core idx) s = .next
      (((((s.modCore core fun k => { k with copies := listDrop k.copies idx }).moveBytes c).flagDec c.g c.flag)).rouseCore core) := by
  have hexec : exec (if c.isGather then Instr.gatherCompletion core idx else .copyCompletion core idx) s = copyStep core idx c.isGather s := by
    cases c.isGather <;> rfl
  have hall : (c.pairs.all fun p => s.engineMayWrite c.g c.seq c.after p.2.1 p.2.2) = true := List.all_eq_true.mpr hmay
  rw [hexec]
  simp only [copyStep, due, hc, hg, hready, hall, hsource, hroom, bne_self_eq_false, Bool.not_true, Bool.or_self, Bool.false_eq_true, if_false]

/-- So does the answer of a query, once it may be written. -/
theorem exec_queryAnswer_of_answered {idx : Nat} {s : State} {q : Query} {t : Team} {bs : List Byte} {g : Group} {gr : Grid}
    (hq : s.queries[idx]? = some q) (hg : s.findGroup q.g = some g) (ht : s.teamOf q.g = some t) (hgr : Table.find s.grids t.grid = some gr)
    (hanswer : q.answer = some bs) (hmay : s.engineMayWrite q.g q.seq q.after (s.teamLoc t q.off) 16 = true) :
    exec (.queryAnswer idx) s = .next ((({ s with queries := listDrop s.queries idx }).engineWrite q.g
      { flag := q.flag, rel := q.rel, scope := q.scope, pubs := q.pubs } [(s.teamLoc t q.off, none, bs)]).flagDec q.g q.flag) := by
  show execQueryAnswer idx s = _
  simp only [execQueryAnswer, due, hq, hg, ht, hgr, hanswer, hmay, Bool.not_true, Bool.false_eq_true, if_false]

/-- The bytes of a collective's answer, each at its place in the destination. -/
def answerPieces (c : CollCmd) (out : List Byte) : List Piece :=
  (c.dst.zip out).zipIdx.map fun x => (x.1.1, rangeVa c.dvas x.2, [x.1.2])

/-- And the answer of a collective. -/
theorem exec_collCompletion_of_answered {idx : Nat} {s : State} {c : CollCmd} {out : List Byte} (others : List (List Byte))
    (hc : s.colls[idx]? = some c) (hanswer : c.answer = some out) (hmay : ∀ l ∈ c.dst, s.engineMayWrite c.g c.seq c.after l 1 = true) :
    exec (.collCompletion idx others) s = .next ((({ s with colls := listDrop s.colls idx }).engineWrite c.g
      { flag := c.flag, rel := c.rel, scope := c.scope, pubs := c.pubs } (answerPieces c out)).flagDec c.g c.flag) := by
  have hall : (c.dst.all fun l => s.engineMayWrite c.g c.seq c.after l 1) = true := List.all_eq_true.mpr hmay
  show execCollCompletion idx others s = _
  simp only [execCollCompletion, due, hc, hanswer, hall, Bool.not_true, Bool.false_eq_true, if_false]
  rfl

end Sys2Proof.Claims
end

section
/-! SUPPORT. The steps of tile names and of the block table. -/

namespace Sys2Proof.Machine

-- ## A waiting accfree (R342)

/-- A change of a team that leaves its groups alone leaves every group alone. -/
theorem State.findGroup_modTeam (s : State) (k : Nat) {f : Team → Team} (hf : ∀ t, (f t).groups = t.groups) (r : GroupRef) :
    (s.modTeam k f).findGroup r = s.findGroup r := by
  unfold State.findGroup
  split
  · rfl
  · simp only [State.modTeam, Table.find_modify]
    cases ht : Table.find s.teams r.team with
    | none => simp
    | some t => by_cases hk : r.team = k <;> simp [hk, hf]

/-- A group that waits for its tile stays so when its name is unbound. -/
theorem State.findGroup_unbind {s : State} {r : GroupRef} {g : Group} {n : Nat} (k core name : Nat) (hg : s.findGroup r = some g)
    (hstate : g.state = .waiting (.unbind n)) : (s.unbind k core name).findGroup r = some g := by
  have hrouse : g.rouse = g := by simp [Group.rouse, hstate, WaitOn.retries]
  have hsame := (s.findGroup_modTeam k (f := fun t => { t with tiles := Table.del t.tiles name }) (fun _ => rfl) r).trans hg
  obtain h | h := State.findGroup_rouseCore core hsame
  · exact h
  · exact h.trans (congrArg some hrouse)

/-- A group past its word steps singly as before. -/
theorem Group.singleStep_pastWord (g : Group) : g.pastWord.singleStep = g.singleStep := by
  unfold Group.pastWord
  dsimp only
  split
  · rw [settle_eq, setPath_eq]
  · rfl

-- ## The moves of blocks (R212)

@[simp] theorem State.moves_perform (s : State) (src : GroupRef) (seq : Nat) (view : List (Nat × Nat)) (l : Loc) (bs : List Byte)
    (pubs : List Pub) : (s.perform src seq view l bs pubs).moves = s.moves :=
  (sameWork_perform s src seq view l bs pubs).moves

@[simp] theorem State.moves_setEntryHigh (s : State) (e : Entry) (x : BitVec 64) : (s.setEntryHigh e x).moves = s.moves :=
  (sameWork_setEntryHigh s e x).moves

@[simp] theorem State.moves_markEntry (s : State) (e : Entry) (bits : BitVec 64) (on : Bool) : (s.markEntry e bits on).moves = s.moves :=
  (sameWork_markEntry s e bits on).moves

@[simp] theorem State.moves_swapBlock (s : State) (e : Entry) : (s.swapBlock e).moves = s.moves := by
  simp only [State.swapBlock, State.moves_markEntry, State.moves_perform]

end Sys2Proof.Machine

namespace Sys2Proof.Claims

open Sys2Proof.Machine

/-- A waiting accfree goes past its word once no command uses its tile. -/
theorem accfreeUnbind_completes {r : GroupRef} {s : State} {g : Group} {t : Team} {n : Nat} {b : Tile} (hr : r.team ≠ 0)
    (hg : s.findGroup r = some g) (ht : Table.find s.teams r.team = some t) (hstate : g.state = .waiting (.unbind n))
    (hname : Table.find t.tiles n = some b) (hidle : s.tileInUse r.team t.core b.phys = false) (hplaced : t.phase = .placed)
    (hstep : g.singleStep = false) : ∃ u, exec (.accfreeUnbind r) s = .next u ∧ u.findGroup r = some g.pastWord := by
  have hteam : s.teamOf r = some t := by rw [State.teamOf, if_neg hr, ht]
  have hrunning : s.running r = true := by simp [State.running, ht, hplaced]
  have hexec : exec (.accfreeUnbind r) s = execAccfreeUnbind r s := rfl
  simp only [hexec, execAccfreeUnbind, due, hg, hteam, hstate, hname, hidle, hrunning, Bool.not_true, Bool.or_self, Bool.false_eq_true,
    if_false]
  refine ⟨_, rfl, ?_⟩
  rw [State.stepEnd, State.findGroup_modGroup_self, State.findGroup_modGroup_self, State.findGroup_unbind _ _ _ hg hstate, Option.map_some,
    Option.map_some, Group.stepDone, Group.singleStep_pastWord, hstep, if_neg Bool.false_ne_true]

-- ## The block table

/-- A copy on write after which every lane has acted lets its group go past its word. -/
theorem exec_copyOnWriteComplete_of_done {r : GroupRef} {s t u : State} {g h : Group} {tm : Team} {gr : Grid} {w : CowWait} {d : Desc}
    {tb : TableEnv} (hr : r.team ≠ 0) (hg : s.findGroup r = some g) (htm : Table.find s.teams r.team = some tm)
    (hgr : Table.find s.grids tm.grid = some gr) (hplaced : tm.phase = .placed) (hstate : g.state = .waiting (.cow w))
    (htb : { core := tm.core, ctx := gr.ctx, view := s.viewOf tm.grid, src := some (r, g) } = tb) (hdesc : tb.desc s w.desc = (.ok d, t))
    (hacts : tb.actAll d r (w.lanes.length + 1) t w g true = (.done, u, h)) (hroom : tb.fullAt t t d r w g true = none) (hgood : w.bad = none) :
    exec (.copyOnWriteComplete r) s = .next ((u.modGroup r fun _ => h.pastWord).stepEnd r) := by
  have hrunning : s.running r = true := by simp [State.running, htm, hplaced]
  have hall : tb.actAll d r (w.lanes.length + 1) t { w with lanes := w.lanes.take w.lanes.length } g true = (.done, u, h) := by
    rw [List.take_length]
    exact hacts
  show execCopyOnWriteComplete r s = _
  simp only [execCopyOnWriteComplete, due, hg, hr, htm, hgr, hstate, hrunning, Bool.not_true, Bool.false_eq_true, if_false, htb, hdesc, hroom, hall]
  simp only [hgood, Option.isSome_none, Bool.false_and, Bool.false_eq_true, if_false]
  rfl

section

variable {ctx : Nat} {s t u : State} {desc : BitVec 64} {d : Desc}

/-- A sweep that comes no sooner than a sweep's interval leaves its mark. -/
theorem blockTableSweep_completes (hdesc : (agentTable ctx).desc s desc = (.ok d, t))
    (hdue : ∀ x ∈ s.sweeps, x.ctx = ctx → x.desc = desc → 700000 ≤ (s.cycle - x.at_).toNat) (hfree : s.agentsFree = true) :
    ∃ v m, exec (.blockTableSweep ctx desc) s = .next v ∧ m ∈ v.sweeps ∧ m.ctx = ctx ∧ m.desc = desc ∧ m.at_ = t.cycle := by
  have hexec : exec (.blockTableSweep ctx desc) s = execBlockTableSweep ctx desc s := rfl
  have hearly (x : Sweep) (hx : (s.sweeps.find? fun x => x.ctx == ctx && x.desc == desc) = some x) :
      ¬(s.cycle - x.at_).toNat < sweepInterval := by
    have hkey := List.find?_some hx
    rw [Bool.and_eq_true, beq_iff_eq, beq_iff_eq] at hkey
    exact Nat.not_lt.mpr (hdue x (List.mem_of_find?_eq_some hx) hkey.1 hkey.2)
  cases hlast : s.sweeps.find? fun x => x.ctx == ctx && x.desc == desc with
  | none =>
    simp only [hexec, execBlockTableSweep, due, hlast, hfree, hdesc, Bool.not_true, Bool.or_self, Bool.false_eq_true, if_false]
    exact ⟨_, _, rfl, List.mem_cons_self, rfl, rfl, rfl⟩
  | some x =>
    simp only [hexec, execBlockTableSweep, due, hlast, hearly x hlast, decide_false, hfree, hdesc, Bool.not_true, Bool.or_self,
      Bool.false_eq_true, if_false]
    exact ⟨_, _, rfl, List.mem_cons_self, rfl, rfl, rfl⟩

/-- A move of an entry that a sweep has named begins. -/
theorem demotionBegin_completes {entry : Nat} {dblk : BitVec 36} {dtier : BitVec 2} {e : Entry} {x : Sweep}
    (hdesc : (agentTable ctx).desc s desc = (.ok d, t)) (hsweep : (s.sweeps.find? fun x => x.ctx == ctx && x.desc == desc) = some x)
    (hentry : (agentTable ctx).entry t d entry = (.ok e, u)) (hvalid : e.val = true)
    (hwanted : (dtier = 1 ∧ entry ∈ x.demote ∧ e.tier = 0) ∨ (dtier = 0 ∧ entry ∈ x.promote ∧ e.tier = 1))
    (hpin : u.entryHigh e &&& pinBit = 0) (hmov : u.entryHigh e &&& movBit = 0) (hword : u.wordWritten e.loc.addr = false)
    (hblock : u.blockFree dblk dtier = true) (hfree : u.agentsFree = true) (hok : u.blockOk e = true) (hgood : u.blockPoisoned e.block = false) :
    ∃ v, exec (.demotionBegin ctx desc entry dblk dtier) s = .next v
      ∧ v.moves = u.moves ++ [{ ctx := ctx, desc := desc, entry := entry, after := none }] := by
  have hexec : exec (.demotionBegin ctx desc entry dblk dtier) s = execDemotionBegin ctx desc entry dblk dtier s := rfl
  have hasked : (if dtier == 1 then x.demote.contains entry && e.tier == 0
      else dtier == 0 && x.promote.contains entry && e.tier == 1) = true := by
    obtain ⟨rfl, hmem, htier⟩ | ⟨rfl, hmem, htier⟩ := hwanted <;> simp [hmem, htier]
  simp only [hexec, execDemotionBegin, due, hsweep, hdesc, hentry, hasked, hvalid, hpin, hmov, hword, hblock, hfree, hok, hgood,
    bne_self_eq_false, Bool.not_true, Bool.or_self, Bool.false_eq_true, if_false]
  exact ⟨_, rfl, by simp only [State.moves_perform, State.moves_setEntryHigh]⟩

/-- A swap that no launch holds back ends its move. -/
theorem demotionSwap_completes {idx : Nat} {m : Move} {after : List Nat} {e : Entry} (hdesc : (agentTable ctx).desc s desc = (.ok d, t))
    (hm : s.moves[idx]? = some m) (hctx : m.ctx = ctx) (hname : m.desc = desc) (hafter : m.after = some after)
    (hcommitted : ∀ l ∈ after, l ∉ s.uncommittedLaunches) (hentry : (agentTable ctx).entry s d m.entry = (.ok e, u)) :
    ∃ v, exec (.demotionSwap idx) s = .next v ∧ v.moves = listDrop s.moves idx := by
  subst hctx hname
  have hexec : exec (.demotionSwap idx) s = execDemotionSwap idx s := rfl
  have hnone : after.any s.uncommittedLaunches.contains = false :=
    List.any_eq_false.mpr fun l hl => by simpa using hcommitted l hl
  simp only [hexec, execDemotionSwap, due, hm, hafter, hnone, hdesc, hentry, Bool.false_eq_true, if_false]
  refine ⟨_, rfl, ?_⟩
  split
  · rw [State.moves_swapBlock]
  · rw [State.moves_markEntry]

end

end Sys2Proof.Claims
end

section
/-! SUPPORT. What the engines' instructions and steps leave once they are due, and the statement about them. -/

namespace Sys2Proof.Claims

open Sys2Proof.Machine

section

variable {w : XWord} {s : State} {e : Env} {f : Nat}

/-- accgrow answers 1 where it binds a tile, and 0 where its core has none that no team has reserved or grown. -/
theorem accgrow_completes {r : GroupRef} {t : Team} (href : e.ref = some r) (hteam : e.team = some t) (hacts : e.acts w.g = true)
    (hi : Issues s e (xUses [w.d.toNat])) (hname : Table.find t.tiles (tileName w) = none) :
    ∃ u x, exec (.accgrow w) s = .next (e.finish (e.grp.writeS w.d.toNat x) u) ∧ x = if s.unreserved e.core = 0 then 0 else 1 := by
  have hexec := exec_accgrow_of_free href hteam hacts hi hname
  by_cases hnone : s.unreserved e.core = 0
  · rw [if_pos hnone] at hexec ⊢
    exact ⟨s, 0, hexec, rfl⟩
  · rw [if_neg hnone] at hexec ⊢
    exact ⟨s.bindTile r e.core (tileName w) true, 1, hexec, rfl⟩

/-- An accepted mma makes its engine's accepted commands one more. -/
theorem mma_completes {t u : State} {p k : Nat} {a b : Extent} {fa fb : FmtBlock} (hsel : Selects e w f)
    (hi : Issues s e (xUses (recordRegs w.r1.toNat ++ recordRegs w.r2.toNat ++ [w.r3.toNat]))) (hone : e.grp.severalPaths = false)
    (hserl : e.grp.serl = none) (hmask : e.path.mask = e.grp.present) (hguard : e.guard w.g = e.grp.present)
    (htile : e.findTile s w = (some p, t)) (hport : t.portFull e.core e.grp.quad = false) (hchecks : e.mmaChecks t w = .ok (a, b, fa, fb, k))
    (hcharge : t.charge e.core (256 * mmaCycles (formatWidth fa.efmt) k) = some u) :
    ∃ v, exec (.mma w) s = .next (e.finish (e.grp.flagInc f) v)
      ∧ (v.core e.core).accepted.length = (s.core e.core).accepted.length + 1 := by
  have hfound : t.core e.core = s.core e.core := by
    have h := (e.sameWork_findTile s w).core e.core
    rwa [htile] at h
  refine ⟨_, exec_mma_of_room hsel hi hone hserl hmask hguard htile hport hchecks hcharge, ?_⟩
  rw [State.core_modCore, (State.charge_frame hcharge).1, hfound, List.length_append, List.length_singleton]

/-- A core that has taken one copy more. -/
theorem copies_length_append (u : State) (core : Nat) (x : CopyCmd) :
    ((u.modCore core fun k => { k with copies := k.copies ++ [x] }).core core).copies.length = (u.core core).copies.length + 1 := by
  rw [State.core_modCore, List.length_append, List.length_singleton]

end

/-- An idle engine that begins a command has the others left. -/
theorem mmaExecute_completes {s : State} {c : Nat} {x : MatrixCmd} {rest : List MatrixCmd} {g : Group} {t : Team} {gr : Grid}
    (hidle : (s.core c).executing = none) (hfirst : (s.core c).accepted = x :: rest) (hg : s.findGroup x.g = some g) (hx : x.g.team ≠ 0)
    (ht : Table.find s.teams x.g.team = some t) (hgr : Table.find s.grids t.grid = some gr) (hmay : MayBegin s c gr)
    (hready : g.acquiresDone x.acq x.seq = true) : ∃ u, exec (.mmaExecute c) s = .next u ∧ (u.core c).accepted = rest := by
  refine ⟨_, exec_mmaExecute_of_ready hidle hfirst hg hx ht hgr hmay hready, ?_⟩
  rw [State.core_rouseCore, State.core_modCore]

/-- The completion of a copy or gather counts down its flag. -/
theorem copyCompletion_completes {core idx : Nat} {s : State} {c : CopyCmd} {g : Group} (hc : (s.core core).copies[idx]? = some c)
    (hg : s.findGroup c.g = some g) (hready : g.acquiresDone c.acq c.seq = true)
    (hmay : ∀ p ∈ c.pairs, s.engineMayWrite c.g c.seq c.after p.2.1 p.2.2 = true)
    (hsource : s.badSource (c.pairs.map fun p => (p.1, p.2.2)) 0 = none) (hroom : s.copyBlocked c = false) :
    ∃ u, exec (if c.isGather then Instr.gatherCompletion core idx else .copyCompletion core idx) s = .next u ∧ FlagDown s u c.g c.flag := by
  have moved := (s.keepsRegs_modCore core (f := fun k => { k with copies := listDrop k.copies idx }) rfl).trans (State.keepsRegs_moveBytes _ c)
  exact ⟨_, exec_copyCompletion_of_due hc hg hready hmay hsource hroom, flagDown_of_keepsRegs moved (State.keepsRegs_rouseCore _ core)⟩

/-- A hub's answer that an engine writes counts down its flag. -/
theorem flagDown_engineWrite {s t : State} (h : s.SameWork t) (r : GroupRef) (x : EngineWrite) (pieces : List Piece) (f : Nat) :
    FlagDown s ((t.engineWrite r x pieces).flagDec r f) r f :=
  flagDown_of_keepsRegs (h.keepsRegs.trans (State.keepsRegs_engineWrite t r x pieces)) (State.SameWork.refl _).keepsRegs

/-- The answer of a query counts down its flag. -/
theorem queryAnswer_completes {idx : Nat} {s : State} {q : Query} {t : Team} {bs : List Byte} {g : Group} (hq : s.queries[idx]? = some q)
    (hg : s.findGroup q.g = some g) (ht : s.teamOf q.g = some t) (hgrid : (Table.find s.grids t.grid).isSome = true)
    (hanswer : q.answer = some bs) (hmay : s.engineMayWrite q.g q.seq q.after (s.teamLoc t q.off) 16 = true) :
    ∃ u, exec (.queryAnswer idx) s = .next u ∧ FlagDown s u q.g q.flag := by
  obtain ⟨gr, hgr⟩ := Option.isSome_iff_exists.mp hgrid
  exact ⟨_, exec_queryAnswer_of_answered hq hg ht hgr hanswer hmay,
    flagDown_engineWrite (t := { s with queries := listDrop s.queries idx }) ⟨rfl, rfl, rfl, rfl⟩ q.g _ _ q.flag⟩

/-- The answer of a collective counts down its flag. -/
theorem collCompletion_completes {idx : Nat} {s : State} {c : CollCmd} {out : List Byte} (others : List (List Byte))
    (hc : s.colls[idx]? = some c) (hanswer : c.answer = some out) (hmay : ∀ l ∈ c.dst, s.engineMayWrite c.g c.seq c.after l 1 = true) :
    ∃ u, exec (.collCompletion idx others) s = .next u ∧ FlagDown s u c.g c.flag :=
  ⟨_, exec_collCompletion_of_answered others hc hanswer hmay,
    flagDown_engineWrite (t := { s with colls := listDrop s.colls idx }) ⟨rfl, rfl, rfl, rfl⟩ c.g _ _ c.flag⟩

/-- Settles O30: each instruction hands its command to its engine, and each engine's step frees its place and counts down its flag. -/
theorem engineStepsComplete : Obligations.EngineStepsComplete := by
  refine ⟨fun w s e r t f henv href hteam hacts => ⟨?accalloc, ?accfree, ?accgrow, ?matrix, ?copy, ?gather, ?query, ?coll⟩,
    fun c s x => ⟨?mmaExecute, ?mmaCompletion, ?accCopyCompletion⟩, ?copyCompletion, ?queryAnswer, ?collCompletion, ?unbind, ?shootdown, ?cow,
    fun ctx s t desc d hdesc => ⟨?sweep, ?begin, ?swap⟩⟩
  case accalloc => exact fun hh hroom hname _ => ⟨_, exec_accalloc_of_free href hteam hacts ⟨henv, hh⟩ hroom hname⟩
  case accfree => exact fun b hh hname hidle => ⟨_, exec_accfree_of_idle href hteam hacts ⟨henv, hh⟩ hname hidle⟩
  case accgrow => exact fun hh hname _ => accgrow_completes href hteam hacts ⟨henv, hh⟩ hname
  case matrix =>
    intro p s' hsel htile hport
    refine ⟨fun a b fa fb k u hh hone hserl hmask hguard hchecks hcharge =>
      mma_completes hsel ⟨henv, hh⟩ hone hserl hmask hguard htile hport hchecks hcharge, fun x hh hrows hbytes hx => ⟨?_, ?_⟩⟩
    · exact ⟨_, accCopyStep_of_room hsel (i := .accld w) rfl ⟨henv, hh⟩ htile hport hrows hbytes hx⟩
    · exact ⟨_, accCopyStep_of_room hsel (i := .accst w) rfl ⟨henv, hh⟩ htile hport hrows hbytes hx⟩
  case copy =>
    intro rs rd u v hsel hroom hcopies r1 r2 hh hrows hbytes hrow hbyte hsrc hdst hread hwrite
    refine ⟨_, exec_copy_of_room hsel ⟨henv, hh⟩ hrows hbytes hrow hbyte hsrc hdst hread hwrite (hcopies ▸ hroom), ?_⟩
    rw [copies_length_append, hcopies]
  case gather =>
    intro xi xd rs u hsel hroom r1 r3 n base hh hindex helement hcount hsome hxi hxd halign hruns
    exact ⟨_, exec_gather_of_room hsel ⟨henv, hh⟩ rfl rfl hindex helement hcount hsome hxi hxd halign hruns hroom,
      copies_length_append ..⟩
  case query =>
    exact fun hsel hh halign hrange => ⟨_, exec_query_of_room hsel ⟨henv, hh⟩ hteam halign hrange, rfl, rfl⟩
  case coll =>
    intro l rs rd u v x hsel hh hl op d hgood hread hwrite hdirect
    exact ⟨_, _, exec_coll_of_room hsel ⟨henv, hh⟩ hl hgood hread hwrite hdirect, List.mem_append_right _ (List.mem_singleton.mpr rfl),
      rfl, rfl⟩
  case mmaExecute =>
    intro rest g t gr hidle hfirst hg hteam ht hgr hmay hready
    exact mmaExecute_completes hidle hfirst hg hteam ht hgr hmay hready
  case mmaCompletion =>
    intro n z a b fa fb k t hexecuting hop hteam
    obtain ⟨tiles, hexec⟩ := exec_mmaCompletion_of_executing hexecuting hop hteam
    exact engine_frees hexec (keepsRegs_seenBytes_tiles s c x tiles)
  case accCopyCompletion =>
    rintro n e hexecuting (hop | ⟨hop, hmay⟩)
    · obtain ⟨tiles, hexec⟩ := exec_accCopyCompletion_of_accld hexecuting hop
      exact engine_frees hexec (keepsRegs_seenBytes_tiles s c x tiles)
    · obtain ⟨pieces, hexec⟩ := exec_accCopyCompletion_of_accst hexecuting hop hmay
      exact engine_frees hexec (s.keepsRegs_engineWrite x.g x.write pieces)
  case copyCompletion => exact fun _ _ _ _ _ hc hg hready hmay hsource hroom => copyCompletion_completes hc hg hready hmay hsource hroom
  case queryAnswer => exact fun _ _ _ _ _ _ hq hg ht hgrid hanswer hmay => queryAnswer_completes hq hg ht hgrid hanswer hmay
  case collCompletion => exact fun _ others _ _ _ _ hc _ hanswer hmay => collCompletion_completes others hc hanswer hmay
  case unbind =>
    exact fun r s g t n b hr hg ht hstate hname hidle hplaced hstep => accfreeUnbind_completes hr hg ht hstate hname hidle hplaced hstep
  case shootdown =>
    intro idx s x hx hidle
    exact ⟨_, exec_shootdownComplete hx hidle, State.modGroup_shootdowns ..⟩
  case cow =>
    intro r s t u g h tm gr w d hr hg htm hgr hplaced hstate tb hdesc hacts hroom hgood
    exact exec_copyOnWriteComplete_of_done hr hg htm hgr hplaced hstate rfl hdesc hacts hroom hgood
  case sweep => exact fun hdue hfree => blockTableSweep_completes hdesc hdue hfree
  case begin =>
    intro entry dblk dtier e u x hsweep hentry hvalid hwanted hpin hmov hword hblock hfree hok hgood
    exact demotionBegin_completes hdesc hsweep hentry hvalid hwanted hpin hmov hword hblock hfree hok hgood
  case swap =>
    intro idx m after e u hm hctx hname hafter hcommitted hentry
    exact demotionSwap_completes hdesc hm hctx hname hafter hcommitted hentry

end Sys2Proof.Claims
end
